-- ==== Sys2Proof/Word.lean ====
section
/-! DEFINITION. The fixed-width words of the TRS unit (`00_scope.md` R8, R9) and the pixel triple. -/

namespace Sys2Proof

/-- A byte is 8 bits (R9). -/
abbrev Byte := BitVec 8

/-- The source's "u16" (R8). -/
abbrev U16 := BitVec 16

/-- The source's "u32" (R8). -/
abbrev U32 := BitVec 32

/-- A "24-bit RGB triple": `(r, g, b)` of three u8 (R10, R36). -/
structure Pixel where
  r : Byte
  g : Byte
  b : Byte
deriving DecidableEq, Repr, Inhabited

/-- The pixel `(0, 0, 0)` (`00_scope.md`, glossary). -/
def Pixel.black : Pixel := ⟨0, 0, 0⟩

end Sys2Proof
end

