-- ==== Sys2Proof/Config.lean ====
section
/-! DEFINITION. The parameters of `00_scope.md` R7 and the free values: what the spec leaves open. A free value is a
constant with no body, so nothing can be proved about which value it is. -/

namespace Sys2Proof.Config

/-- `HDR_SIZE`: the container header's size, and the offset of the image header table (R7). -/
abbrev hdrSize : Nat := 12

/-- `IHDR_SIZE`: size and stride of one image header (R7). -/
abbrev ihdrSize : Nat := 12

/-- `DIM_MAX`: the largest width and the largest height (R7). -/
abbrev dimMax : Nat := 256

/-- `CM` has 2^33 byte cells (`CAW` of R7, R35). -/
abbrev cmCells : Nat := 2 ^ 33

/-- `PM_DEPTH`: cells of pixel memory (R7, R36). -/
abbrev pmDepth : Nat := 65536

/-- `ENC_VERSION`: the version the unit emits (R7, R146). -/
abbrev encVersion : U16 := 3

/-- `MAGIC_TAG[0] ++ MAGIC_TAG[1] ++ MAGIC_TAG[2] ++ MAGIC_TAG[3]` of a machine at reset: an OPEN parameter (R7, D5,
U12). Log 1. -/
opaque magicTag : U32

/-- The byte in a container cell that nothing has written since the reset numbered `epoch` (R39, U6: any value).
Log 3. -/
opaque freeByte : (epoch address : Nat) → Byte

/-- The pixel in a cell of `PM` or `SLB` whose contents are unspecified since the event numbered `epoch` (R39, R277,
U5, U6: any value). Log 4, log 5. -/
opaque freePixel : (epoch index : Nat) → Pixel

/-- What a register other than `STATUS` reads as while `STATUS.BUSY = 1` (R21, U3: any value). Log 14. -/
opaque freeRegister : (count : Nat) → BitVec 34

end Sys2Proof.Config
end

