-- ==== Sys2Proof/Syntax.lean ====
section
/-! DEFINITION. The rows of `spec/opcode_table.json`: twelve host commands (format C, R96) and the five container
records the unit interprets (formats H, I, N, K, P, R91 to R95). -/

namespace Sys2Proof

/-- The six formats of R90. -/
inductive Format
  /-- C: the host command, one byte written to `CMD` (R96). -/
  | command
  /-- H: the container header, 12 bytes (R91). -/
  | containerHeader
  /-- I: the image header, 12 bytes (R92). -/
  | imageHeader
  /-- N: the packed preamble, 2 bytes (R93). -/
  | packedPreamble
  /-- K: the chunk record, variable length (R94). -/
  | chunk
  /-- P: the pixel word, 2 bytes (R95). -/
  | pixel
deriving DecidableEq, Repr

/-- One constructor per row of the opcode table. A command has no operand field (R96); a record's operands are its
fields, with the register numbers and lengths of R91 to R95. -/
inductive Instr
  /-- `TO16`, code 0x01 (R123). -/
  | to16
  /-- `TO24`, code 0x02 (R124). -/
  | to24
  /-- `CLR`, code 0x0F (R233). -/
  | clr
  /-- `HDR_GET`, code 0x10 (R140). -/
  | hdrGet
  /-- `IHDR_GET`, code 0x11 (R142). -/
  | ihdrGet
  /-- `RAW_DEC`, code 0x12 (R170). -/
  | rawDec
  /-- `PK_DEC`, code 0x13 (R199). -/
  | pkDec
  /-- `IMG_DEC`, code 0x14 (R234). -/
  | imgDec
  /-- `HDR_PUT`, code 0x20 (R141). -/
  | hdrPut
  /-- `IHDR_PUT`, code 0x21 (R143). -/
  | ihdrPut
  /-- `RAW_ENC`, code 0x22 (R171). -/
  | rawEnc
  /-- `IMG_ENC`, code 0x23 (R236). -/
  | imgEnc
  /-- `CONTAINER_HEADER`, format H (R91). -/
  | containerHeader (magic : U32) (imageCount version scanLineLen reserved : U16)
  /-- `IMAGE_HEADER`, format I (R92): the width and height bytes, not the decoded dimensions. -/
  | imageHeader (width height : Byte) (reserved : U16) (unpackedOff packedOff : U32)
  /-- `PACKED_PREAMBLE`, format N (R93): the count minus one. -/
  | packedPreamble (chunkMaxIndex : U16)
  /-- `CHUNK`, format K (R94): `run_length` is the stored count minus one, `pixels` the run's words. -/
  | chunk (screenOffset runLength : U16) (pixels : List U16)
  /-- `PIXEL`, format P (R95): the three fields of an RGB565 word. -/
  | pixel (r5 : BitVec 5) (g6 : BitVec 6) (b5 : BitVec 5)
deriving DecidableEq, Repr

/-- The format of an instruction's row. -/
def Instr.format : Instr → Format
  | .to16 => .command
  | .to24 => .command
  | .clr => .command
  | .hdrGet => .command
  | .ihdrGet => .command
  | .rawDec => .command
  | .pkDec => .command
  | .imgDec => .command
  | .hdrPut => .command
  | .ihdrPut => .command
  | .rawEnc => .command
  | .imgEnc => .command
  | .containerHeader _ _ _ _ _ => .containerHeader
  | .imageHeader _ _ _ _ _ => .imageHeader
  | .packedPreamble _ => .packedPreamble
  | .chunk _ _ _ => .chunk
  | .pixel _ _ _ => .pixel

end Sys2Proof
end

