-- ==== Sys2Proof/WellFormed.lean ====
section
/-! DEFINITION. Which terms of `Instr` are records or commands that an encoding can stand for. The field widths are
in the types; the one relation between fields is that a chunk holds `run_length + 1` pixel words (R94). -/

namespace Sys2Proof

/-- "+4 onward `run_length + 1` pixel words of format P" (R94), the count computed without truncation (R98). -/
def chunkWordsMatch (runLength : U16) (pixels : List U16) : Bool :=
  pixels.length == runLength.toNat + 1

/-- An instruction that some encoding stands for. -/
def Instr.wf : Instr → Bool
  | .to16 => true
  | .to24 => true
  | .clr => true
  | .hdrGet => true
  | .ihdrGet => true
  | .rawDec => true
  | .pkDec => true
  | .imgDec => true
  | .hdrPut => true
  | .ihdrPut => true
  | .rawEnc => true
  | .imgEnc => true
  | .containerHeader _ _ _ _ _ => true
  | .imageHeader _ _ _ _ _ => true
  | .packedPreamble _ => true
  | .chunk _ runLength pixels => chunkWordsMatch runLength pixels
  | .pixel _ _ _ => true

end Sys2Proof
end

