-- ==== Sys2Proof/Decode.lean ====
section
/-! DEFINITION. Decoding of commands (R96) and container records (R91 to R95), and the encoder. A record is told apart
by where it stands, never by its bits (R104), so the decoder takes the format it is asked for. -/

namespace Sys2Proof

/-! ### Byte order and bit fields -/

/-- Two bytes as a u16, most significant byte first (R60, R61). -/
def be16 (b0 b1 : Byte) : U16 := b0 ++ b1

/-- Four bytes as a u32, most significant byte first (R60). -/
def be32 (b0 b1 b2 b3 : Byte) : U32 := b0 ++ b1 ++ b2 ++ b3

/-- The bytes of a u16 in address order: `v[15:8]`, `v[7:0]` (R60). -/
def bytes16 (v : U16) : List Byte := [v.extractLsb' 8 8, v.extractLsb' 0 8]

/-- The bytes of a u32 in address order (R60). -/
def bytes32 (v : U32) : List Byte :=
  [v.extractLsb' 24 8, v.extractLsb' 16 8, v.extractLsb' 8 8, v.extractLsb' 0 8]

/-- `pack565(R5, G6, B5)`: red in bits 15:11, green in 10:5, blue in 4:0 (R95, R122; the positions are general
knowledge, G1: log 17). -/
def pack565 (r5 : BitVec 5) (g6 : BitVec 6) (b5 : BitVec 5) : U16 := r5 ++ g6 ++ b5

/-- `unpack565(v)`: the fields `R5`, `G6`, `B5` of an RGB565 word (R95, R122). -/
def unpack565 (v : U16) : BitVec 5 × BitVec 6 × BitVec 5 :=
  (v.extractLsb' 11 5, v.extractLsb' 5 6, v.extractLsb' 0 5)

/-! ### Taking fields from a byte string -/

/-- The next byte of a byte string. -/
def take8 : List Byte → Option (Byte × List Byte)
  | b :: rest => some (b, rest)
  | [] => none

/-- The next big-endian u16 of a byte string (R60). -/
def take16 : List Byte → Option (U16 × List Byte)
  | b0 :: b1 :: rest => some (be16 b0 b1, rest)
  | _ => none

/-- The next big-endian u32 of a byte string (R60). -/
def take32 : List Byte → Option (U32 × List Byte)
  | b0 :: b1 :: b2 :: b3 :: rest => some (be32 b0 b1 b2 b3, rest)
  | _ => none

/-- The next `n` big-endian u16 of a byte string. -/
def takeWords : Nat → List Byte → Option (List U16 × List Byte)
  | 0, bytes => some ([], bytes)
  | n + 1, bytes => do
    let (v, rest) ← take16 bytes
    let (vs, rest) ← takeWords n rest
    pure (v :: vs, rest)

/-! ### The decoder -/

/-- Why a byte string is no instruction of the format asked for. -/
inductive Reject
  /-- A command code that is none of the twelve of R96; the unit raises `IllegalCommand(UNDEFINED_CODE, 0)` (R232).
  Safe: the spec says so. -/
  | undefinedCode (code : Byte)
  /-- The byte string ends before the record of this format does. Safe: the unit reports a short read (R64). -/
  | shortRecord (format : Format)
deriving DecidableEq, Repr

/-- "Command codes of rule R96". -/
def commandCodes : List (Byte × Instr) :=
  [(0x01, .to16), (0x02, .to24), (0x0F, .clr), (0x10, .hdrGet), (0x11, .ihdrGet), (0x12, .rawDec),
   (0x13, .pkDec), (0x14, .imgDec), (0x20, .hdrPut), (0x21, .ihdrPut), (0x22, .rawEnc), (0x23, .imgEnc)]

/-- The command of a code; "the whole byte is the opcode" (R96). -/
def decodeCommand (code : Byte) : Option Instr :=
  (commandCodes.find? fun row => row.1 == code).map fun row => row.2

/-- Format H (R91). -/
def decodeContainerHeader (bytes : List Byte) : Option (Instr × List Byte) := do
  let (m, rest) ← take32 bytes
  let (n, rest) ← take16 rest
  let (v, rest) ← take16 rest
  let (l, rest) ← take16 rest
  let (x, rest) ← take16 rest
  pure (.containerHeader m n v l x, rest)

/-- Format I (R92). -/
def decodeImageHeader (bytes : List Byte) : Option (Instr × List Byte) := do
  let (w, rest) ← take8 bytes
  let (h, rest) ← take8 rest
  let (x, rest) ← take16 rest
  let (u, rest) ← take32 rest
  let (p, rest) ← take32 rest
  pure (.imageHeader w h x u p, rest)

/-- Format N (R93). -/
def decodePackedPreamble (bytes : List Byte) : Option (Instr × List Byte) := do
  let (c, rest) ← take16 bytes
  pure (.packedPreamble c, rest)

/-- Format K (R94): the record's own `run_length` tells its length (R104). -/
def decodeChunk (bytes : List Byte) : Option (Instr × List Byte) := do
  let (o, rest) ← take16 bytes
  let (r, rest) ← take16 rest
  let (px, rest) ← takeWords (r.toNat + 1) rest
  pure (.chunk o r px, rest)

/-- Format P (R95). -/
def decodePixel (bytes : List Byte) : Option (Instr × List Byte) := do
  let (v, rest) ← take16 bytes
  let (r5, g6, b5) := unpack565 v
  pure (.pixel r5 g6 b5, rest)

/-- The instruction of the given format at the head of a byte string, with the bytes after it. -/
def decode (format : Format) (bytes : List Byte) : Except Reject (Instr × List Byte) :=
  let record : Option (Instr × List Byte) → Except Reject (Instr × List Byte) := fun
    | some out => .ok out
    | none => .error (.shortRecord format)
  match format with
  | .command =>
    match bytes with
    | [] => .error (.shortRecord .command)
    | code :: rest =>
      match decodeCommand code with
      | some i => .ok (i, rest)
      | none => .error (.undefinedCode code)
  | .containerHeader => record (decodeContainerHeader bytes)
  | .imageHeader => record (decodeImageHeader bytes)
  | .packedPreamble => record (decodePackedPreamble bytes)
  | .chunk => record (decodeChunk bytes)
  | .pixel => record (decodePixel bytes)

/-! ### The encoder -/

/-- The bytes of an instruction in address order, from the same tables R91 to R96. -/
def encode : Instr → List Byte
  | .to16 => [0x01]
  | .to24 => [0x02]
  | .clr => [0x0F]
  | .hdrGet => [0x10]
  | .ihdrGet => [0x11]
  | .rawDec => [0x12]
  | .pkDec => [0x13]
  | .imgDec => [0x14]
  | .hdrPut => [0x20]
  | .ihdrPut => [0x21]
  | .rawEnc => [0x22]
  | .imgEnc => [0x23]
  | .containerHeader m n v l x => bytes32 m ++ bytes16 n ++ bytes16 v ++ bytes16 l ++ bytes16 x
  | .imageHeader w h x u p => [w, h] ++ bytes16 x ++ bytes32 u ++ bytes32 p
  | .packedPreamble c => bytes16 c
  | .chunk o r px => bytes16 o ++ bytes16 r ++ px.flatMap bytes16
  | .pixel r5 g6 b5 => bytes16 (pack565 r5 g6 b5)

/-! ### The opcode table's words -/

/-- The bytes of the table's number `w` of `nbits` bits. The table numbers a record's bits with byte 0 the most
significant ("bit 95 is bit 7 of the byte at offset 0"), which is also the order of its 16-bit words in `CM`. -/
def tableBytes (nbits w : Nat) : List Byte :=
  (List.range (nbits / 8)).map fun k => BitVec.ofNat 8 (w >>> (8 * (nbits / 8 - 1 - k)))

/-- The format that `nbits` bits are read as. Formats H and I, and N and P, have one width each and are told apart by
place only (R104): a bare number is read as the first of the two in the table (log 11). -/
def tableFormat (nbits : Nat) : Option Format :=
  if nbits = 8 then some .command
  else if nbits = 16 then some .packedPreamble
  else if nbits = 96 then some .containerHeader
  else if 32 ≤ nbits ∧ nbits % 8 = 0 then some .chunk
  else none

/-- The run's words that lie beyond the table's bits are zero: as many zero bytes as the chunk's own `run_length`
asks for. -/
def chunkPadding (bytes : List Byte) : List Byte :=
  match bytes with
  | _ :: _ :: b2 :: b3 :: _ => List.replicate (2 * ((be16 b2 b3).toNat + 1)) 0
  | _ => []

/-- The bytes that the table's word stands for, operand words beyond its bits zero. -/
def tableRecord (format : Format) (nbits w : Nat) : List Byte :=
  match format with
  | .chunk => tableBytes nbits w ++ chunkPadding (tableBytes nbits w)
  | .command => tableBytes nbits w
  | .containerHeader => tableBytes nbits w
  | .imageHeader => tableBytes nbits w
  | .packedPreamble => tableBytes nbits w
  | .pixel => tableBytes nbits w

/-- The instruction the decoder reads from the table's word `w` of `nbits` bits. -/
def decodeTableWord (nbits w : Nat) : Option Instr :=
  match tableFormat nbits with
  | none => none
  | some format =>
    match decode format (tableRecord format nbits w) with
    | .ok (i, _) => some i
    | .error _ => none

end Sys2Proof
end

