-- ==== Sys2Proof/Machine/State.lean ====
section
/-! DEFINITION. The whole state of the TRS unit (`10_state.md` R20 to R42), the host's events (`70_reset_and_hazards.md`
R312), the ways a step stops, and the state after reset (R39, R300). -/

namespace Sys2Proof.Machine

/-- The two kinds of access that `CM_FAULT(address, kind)` tells apart (R75). -/
inductive Access
  | fetch
  | store
deriving DecidableEq, Repr

/-- The open parameters of R7. They are not state (R38): no step and no reset changes them. They stand beside the
state so that every statement about a state holds for every value of them (log 1, log 2). -/
structure Params where
  /-- `MAGIC_TAG[0] ++ MAGIC_TAG[1] ++ MAGIC_TAG[2] ++ MAGIC_TAG[3]` (R62). -/
  magicTag : U32
  /-- `CM_FAULT`: the accesses that fail; the default is none (R75). -/
  cmFault : List (Nat × Access)
deriving DecidableEq, Repr

/-- The container memory `CM` (R35): the bytes written since the reset numbered `epoch`, addresses strictly rising.
Every other cell holds an unspecified byte (R39). -/
structure ByteMem where
  epoch : Nat
  cells : List Host.Cell
deriving DecidableEq, Repr

/-- What the cells of a pixel memory hold that are not listed. -/
inductive Fill
  /-- Black: `SLB` after the clearing of R192. -/
  | black
  /-- An unspecified pixel in every cell, since the event numbered `epoch` (R39, R277). -/
  | free (epoch : Nat)
deriving DecidableEq, Repr

/-- A pixel memory: `PM` (R36) or `SLB` (R37). Listed indexes are strictly rising. -/
structure PixelMem where
  fill : Fill
  cells : List (Nat × Pixel)
deriving DecidableEq, Repr

/-- The records at which a decoding command that has been opened can stand, with `SP` at one (log 10). -/
inductive Place
  /-- In `HDR_GET`, at the container header. -/
  | header
  /-- At an image header: in `IMG_DEC` when `decoding`, else in `IHDR_GET`. -/
  | imageHeader (decoding : Bool)
  /-- In the pixel loop of `RAW_DEC` (R170). -/
  | rawPixels
  /-- In `PK_DEC`, at the packed preamble (R191). -/
  | preamble
  /-- In `PK_DEC`, at a chunk record (R193). -/
  | chunks
  /-- In `PK_DEC`, in the run of a chunk (R196). -/
  | runPixels
deriving DecidableEq, Repr

/-- What the unit is doing while `STATUS.BUSY = 1` (log 8). R6 lets a command run as one step or as a sequence of
finer ones, which the host cannot tell apart: from `command` the unit's turn runs the whole command; `opened` is a
decoding command that goes on record by record (log 10). -/
inductive Activity
  /-- No command is in progress (`STATUS.BUSY = 0`). -/
  | idle
  /-- The command of this code has been accepted (R230) and has not begun. -/
  | command (code : Byte)
  /-- A decoding command has been opened and stands at a record. `shown` is what the host reads as `STATUS` until the
  command ends, the value it had before the command's first effect (R6, R21; log 26). -/
  | opened (place : Place) (shown : BitVec 16)
deriving DecidableEq, Repr

/-- "Host events of rule R312", and the unit's own turn. -/
inductive Event
  /-- Reset (R300). -/
  | reset
  /-- The host reads register `n` (R21). -/
  | regRead (n : Nat)
  /-- The host writes register `n`; a write of register 0 is the `CMD` write (R41, R230). -/
  | regWrite (n value : Nat)
  /-- The host reads a cell of `CM` (R77). -/
  | cmRead (address : Nat)
  /-- The host writes a cell of `CM` (R77). -/
  | cmWrite (address : Nat) (byte : Byte)
  /-- The host reads a cell of `PM` (R77). -/
  | pmRead (index : Nat)
  /-- The host writes a cell of `PM` (R77). -/
  | pmWrite (index : Nat) (pixel : Pixel)
  /-- The unit's turn: command completion (R231), or the next record of a command that has been opened. -/
  | unitTurn
  /-- The unit opens what it stands at and goes on by smaller steps (R6, log 10). -/
  | unitOpen
deriving DecidableEq, Repr

/-- What the host's last read returned (log 13). -/
inductive ReadData
  | none
  /-- A register's value, zero-extended to the widest register (R21). -/
  | register (value : BitVec 34)
  | byte (value : Byte)
  | pixel (value : Pixel)
deriving DecidableEq, Repr

/-- The state: the registers of "Registers of rule R20" in their order (`CMD`, register 0, stores nothing: R22), the
memories, and last the model's own fields. -/
structure State where
  /-- Register 1, `STATUS` (R23). -/
  status : BitVec 16
  /-- Register 2, `ERR_IDX` (R24). -/
  errIdx : BitVec 16
  /-- Register 3, `ERR_ADDR` (R24). -/
  errAddr : BitVec 34
  /-- Register 4, `CLEN` (R25). -/
  clen : BitVec 34
  /-- Register 5, `IDX` (R26). -/
  idx : BitVec 16
  /-- Register 6, `IMAGE_COUNT` (R27). -/
  imageCount : BitVec 16
  /-- Register 7, `VERSION` (R27). -/
  version : BitVec 16
  /-- Register 8, `SCAN_LINE_LEN` (R27). -/
  scanLineLen : BitVec 16
  /-- Register 9, `HRES` (R27). -/
  hres : BitVec 16
  /-- Register 10, `W` (R28). -/
  width : BitVec 16
  /-- Register 11, `H` (R28). -/
  height : BitVec 16
  /-- Register 12, `IRES` (R28). -/
  ires : BitVec 16
  /-- Register 13, `UNPACKED_OFF` (R28). -/
  unpackedOff : BitVec 32
  /-- Register 14, `PACKED_OFF` (R28). -/
  packedOff : BitVec 32
  /-- Register 15, `RGB24` (R29). -/
  rgb24 : BitVec 24
  /-- Register 16, `RGB16` (R29). -/
  rgb16 : BitVec 16
  /-- Register 17, `CHANNELS` (R30). -/
  channels : BitVec 8
  /-- Register 18, `RUNPIX` (R30). -/
  runpix : BitVec 32
  /-- Register 19, `SP` (R31). -/
  sp : BitVec 34
  /-- Register 20, `CUR` (R32). -/
  cur : BitVec 34
  /-- Register 21, `PREC` (R32). -/
  prec : BitVec 33
  /-- Register 22, `NCHUNK` (R33). -/
  nchunk : BitVec 17
  /-- Register 23, `NRUN` (R33). -/
  nrun : BitVec 17
  /-- `CM` (R35). -/
  cm : ByteMem
  /-- `PM` (R36). -/
  pm : PixelMem
  /-- `SLB` (R37). -/
  slb : PixelMem
  /-- The command in progress and where it stands (R230, R231; log 8). -/
  doing : Activity
  /-- The model's own: the parameters of R7 (log 1, log 2). -/
  params : Params
  /-- The model's own: the events to come, the next one first (log 7). -/
  agenda : List Event
  /-- The model's own: what the host's last read returned (log 13). -/
  readData : ReadData
  /-- The model's own: the number of the next unspecified content (log 6). -/
  freeCount : Nat
deriving DecidableEq, Repr

/-- Why the machine stops. -/
inductive Fault
  /-- A host access to `CM` at an address of 2^33 or more: there is no such cell (R35, R312). Raised by the host's
  `CM` events. Safe: the spec gives such an access no effect. -/
  | noContainerCell (address : Nat)
  /-- A host access to `PM` at an index of 65536 or more: there is no such cell (R36, R312). Raised by the host's
  `PM` events. Safe: the spec gives such an access no effect. -/
  | noPixelCell (index : Nat)
deriving DecidableEq, Repr

/-- What the model has no transition for. -/
inductive Refusal
  /-- An instruction with no meaning yet. Raised by no arm of this model. Safe. -/
  | notModelled (mnemonic : String)
  /-- A host access to `CM` or `PM` while `STATUS.BUSY = 1`: "what such an access does is undefined, and a model
  refuses it" (R77, U4). Raised by the host's memory events. Safe. -/
  | memoryAccessWhileBusy
deriving DecidableEq, Repr

/-- The machine right after reset: every register 0 (R39, R300), the contents of the memories unspecified (R39,
R301), nothing in progress. The model's own fields have the values of log 1, 2, 6, 7, 8 and 13. -/
def State.reset : State where
  status := 0
  errIdx := 0
  errAddr := 0
  clen := 0
  idx := 0
  imageCount := 0
  version := 0
  scanLineLen := 0
  hres := 0
  width := 0
  height := 0
  ires := 0
  unpackedOff := 0
  packedOff := 0
  rgb24 := 0
  rgb16 := 0
  channels := 0
  runpix := 0
  sp := 0
  cur := 0
  prec := 0
  nchunk := 0
  nrun := 0
  cm := { epoch := 0, cells := [] }
  pm := { fill := .free 1, cells := [] }
  slb := { fill := .free 2, cells := [] }
  doing := .idle
  params := { magicTag := Config.magicTag, cmFault := [] }
  agenda := []
  readData := .none
  freeCount := 3

end Sys2Proof.Machine
end

