-- ==== Sys2Proof/Machine/Flags.lean ====
section
/-! DEFINITION. `STATUS` (R23): its fields, the error codes and sub-causes (R261 to R267), and the field updates of
acceptance, completion, `raise`, the warnings and `CLR`. An update changes its own field's bits only. -/

namespace Sys2Proof.Machine

/-- `v` with its field of `w` bits from bit `lo` up replaced by `x`; every other bit as before. -/
def setField (v : BitVec 16) (lo w : Nat) (x : BitVec w) : BitVec 16 :=
  (v &&& ~~~((BitVec.allOnes w).setWidth 16 <<< lo)) ||| (x.setWidth 16 <<< lo)

/-! ### Reading the fields -/

/-- `STATUS.BUSY`, bit 0 (R23). -/
def State.busy (s : State) : Bool := s.status.getLsbD 0

/-- `STATUS.DONE`, bit 1 (R23). -/
def State.done (s : State) : Bool := s.status.getLsbD 1

/-- `STATUS.ERR`, bits 6:4 (R23). -/
def State.err (s : State) : BitVec 3 := s.status.extractLsb' 4 3

/-- `STATUS.WARN_HRES`, bit 8 (R23). -/
def State.warnHres (s : State) : Bool := s.status.getLsbD 8

/-- `STATUS.WARN_IRES`, bit 9 (R23). -/
def State.warnIres (s : State) : Bool := s.status.getLsbD 9

/-- `STATUS.WARN_ODD`, bit 10 (R23). -/
def State.warnOdd (s : State) : Bool := s.status.getLsbD 10

/-- `STATUS.SUB`, bits 15:12 (R23). -/
def State.sub (s : State) : BitVec 4 := s.status.extractLsb' 12 4

/-! ### The error kinds -/

/-- The stage a short read reports (R263). -/
inductive Stage
  | header
  | imageHeader
  | rawPayload
  | packedPayload
deriving DecidableEq, Repr

/-- The error kinds with their sub-causes (R261 to R267). -/
inductive Cause
  /-- `FormatError(BAD_TAG)` (R262). -/
  | badTag
  /-- `FormatError(BAD_VERSION)` (R262). -/
  | badVersion
  /-- `FormatError(BAD_DIMENSION)` (R262). -/
  | badDimension
  /-- `FormatError(NO_PAYLOAD)` (R262). -/
  | noPayload
  /-- `FormatError(ZERO_SCAN_LINE)` (R262). -/
  | zeroScanLine
  /-- `FormatError(WIDTH_GT_LINE)` (R262). -/
  | widthGtLine
  /-- `TruncatedData` with the stage as sub-cause (R263). -/
  | truncated (stage : Stage)
  /-- `ChannelMismatch` (R264). -/
  | channelMismatch
  /-- `OffsetOverflow` (R265). -/
  | offsetOverflow
  /-- `IoError`: 1 a fetch, 2 a store (R266). -/
  | ioError (access : Access)
  /-- `IllegalCommand(UNDEFINED_CODE)` (R267). -/
  | undefinedCode
  /-- `IllegalCommand(INDEX_RANGE)` (R267). -/
  | indexRange
deriving DecidableEq, Repr

/-- "Error codes of rule R261": the value of `STATUS.ERR`. -/
def Cause.code : Cause → BitVec 3
  | .badTag => 1
  | .badVersion => 1
  | .badDimension => 1
  | .noPayload => 1
  | .zeroScanLine => 1
  | .widthGtLine => 1
  | .truncated _ => 2
  | .channelMismatch => 3
  | .offsetOverflow => 4
  | .ioError _ => 5
  | .undefinedCode => 6
  | .indexRange => 6

/-- The stage numbers of R263. -/
def Stage.code : Stage → BitVec 4
  | .header => 1
  | .imageHeader => 2
  | .rawPayload => 3
  | .packedPayload => 4

/-- The value of `STATUS.SUB` (R262 to R267). -/
def Cause.sub : Cause → BitVec 4
  | .badTag => 1
  | .badVersion => 2
  | .badDimension => 3
  | .noPayload => 4
  | .zeroScanLine => 5
  | .widthGtLine => 6
  | .truncated stage => stage.code
  | .channelMismatch => 0
  | .offsetOverflow => 0
  | .ioError .fetch => 1
  | .ioError .store => 2
  | .undefinedCode => 1
  | .indexRange => 2

/-- A `raise E(sub, addr)` (R260). -/
structure Raise where
  cause : Cause
  addr : Nat
deriving DecidableEq, Repr

/-! ### Updating the fields -/

/-- Acceptance: `STATUS.BUSY <- 1`, `STATUS.DONE <- 0` (R230). -/
def statusAccepted (v : BitVec 16) : BitVec 16 := setField (setField v 0 1 1) 1 1 0

/-- Completion: `STATUS.BUSY <- 0`, `STATUS.DONE <- 1` (R231). -/
def statusEnded (v : BitVec 16) : BitVec 16 := setField (setField v 0 1 0) 1 1 1

/-- `STATUS.ERR <- code(E)`, `STATUS.SUB <- sub` (R260). -/
def statusRaised (v : BitVec 16) (c : Cause) : BitVec 16 := setField (setField v 4 3 c.code) 12 4 c.sub

/-- `STATUS.WARN_HRES <- 1` (R145). -/
def statusWarnHres (v : BitVec 16) : BitVec 16 := setField v 8 1 1

/-- `STATUS.WARN_IRES <- 1` (R145). -/
def statusWarnIres (v : BitVec 16) : BitVec 16 := setField v 9 1 1

/-- `STATUS.WARN_ODD <- 1` (R99). -/
def statusWarnOdd (v : BitVec 16) : BitVec 16 := setField v 10 1 1

/-- `STATUS.WARN_ODD <- b`: its value from before a packed decode, where that decode fails (D20; log 27). -/
def statusWithOdd (v : BitVec 16) (b : Bool) : BitVec 16 := setField v 10 1 (BitVec.ofBool b)

/-- `CLR`: `ERR`, `SUB` and the three warnings become 0 (R233). -/
def statusCleared (v : BitVec 16) : BitVec 16 :=
  setField (setField (setField (setField (setField v 4 3 0) 12 4 0) 8 1 0) 9 1 0) 10 1 0

end Sys2Proof.Machine
end

