-- ==== Sys2Proof/Machine/Operands.lean ====
section
/-! DEFINITION. Operand assembly: the pure functions of `30_encoding.md` R97 to R99, `41_header_marshal.md` R144 and
R147, and `42_raw_payload.md` R172. -/

namespace Sys2Proof.Machine

/-- `dim_dec(b)`: 256 if `b = 0`, else `b` (R97). -/
def dimDec (b : Byte) : BitVec 16 := if b = 0 then 256 else b.setWidth 16

/-- `dim_enc(d) = d mod 256` (R97). -/
def dimEnc (d : BitVec 16) : Byte := d.setWidth 8

/-- The count a stored count-minus-one stands for: "computed without truncation to 16 bits" (R98). -/
def storedCount (v : U16) : Nat := v.toNat + 1

/-- The pixel offset of a chunk: `screen_offset >> 1` (R99). -/
def halfOffset (screenOffset : U16) : Nat := screenOffset.toNat / 2

/-- `ob[0] = 1`: the offset is odd (R99). -/
def oddOffset (screenOffset : U16) : Bool := screenOffset.getLsbD 0

/-- `ihdr_addr(i) = 12 + 12*i` (R144). -/
def ihdrAddr (i : BitVec 16) : Nat := Config.hdrSize + Config.ihdrSize * i.toNat

/-- `1 <= d <= 256` (R147). -/
def dimOk (d : BitVec 16) : Bool := decide (1 ≤ d.toNat ∧ d.toNat ≤ Config.dimMax)

/-- `dims_ok()` (R147). -/
def State.dimsOk (s : State) : Bool := dimOk s.width && dimOk s.height

/-- `W*H`, the pixels of the image. -/
def State.pixelCount (s : State) : Nat := s.width.toNat * s.height.toNat

/-- `L*H`, the cells of the scan-line buffer (R37, R192). -/
def State.slbCells (s : State) : Nat := s.scanLineLen.toNat * s.height.toNat

/-- `enc_offset(n, q) = 12 + 12*n + 2*q`, unbounded (R172). -/
def encOffset (imageCount : BitVec 16) (runpix : BitVec 32) : Nat :=
  Config.hdrSize + Config.ihdrSize * imageCount.toNat + 2 * runpix.toNat

/-- The offset fits the 32-bit field `unpacked_off`: `off <= 0xFFFFFFFF` (R172, R265). -/
def offsetFits (off : Nat) : Bool := decide (off ≤ 0xFFFFFFFF)

end Sys2Proof.Machine
end

