-- ==== Sys2Proof/Machine/Ops.lean ====
section
/-! DEFINITION. The named operations over memories and registers: cells, the read and write primitives of
`20_memory.md` R64 and R65, seeks (R238), and the one error mechanism: `raise` (R260) with completion (R231), and the
way back, `CLR`'s clearing (R233). -/

namespace Sys2Proof.Machine

/-! ### Cells: lists of (address, content) with addresses strictly rising -/

/-- The listed content of cell `a`. -/
def cellAt {α : Type} : List (Nat × α) → Nat → Option α
  | [], _ => none
  | (k, x) :: rest, a => if k = a then some x else cellAt rest a

/-- List cell `a` with content `x`, in its place. -/
def putCell {α : Type} : List (Nat × α) → Nat → α → List (Nat × α)
  | [], a, x => [(a, x)]
  | (k, y) :: rest, a, x =>
    if a < k then (a, x) :: (k, y) :: rest
    else if a = k then (a, x) :: rest
    else (k, y) :: putCell rest a x

/-- Unlist cell `a`. -/
def dropCell {α : Type} : List (Nat × α) → Nat → List (Nat × α)
  | [], _ => []
  | (k, y) :: rest, a => if k = a then rest else (k, y) :: dropCell rest a

/-- Every listed address is above `bound`, strictly rising. -/
def risingAbove {α : Type} : Nat → List (Nat × α) → Bool
  | _, [] => true
  | bound, (k, _) :: rest => decide (bound < k) && risingAbove k rest

/-- Listed addresses are strictly rising. -/
def rising {α : Type} : List (Nat × α) → Bool
  | [] => true
  | (k, _) :: rest => risingAbove k rest

/-! ### The container memory -/

/-- What an unlisted cell of `CM` reads as: an unspecified byte, the same one until the cell is written (R39, R67;
log 3). -/
def ByteMem.unlisted (m : ByteMem) (a : Nat) : Byte := Config.freeByte m.epoch a

/-- `CM[a]`. -/
def ByteMem.read (m : ByteMem) (a : Nat) : Byte := (cellAt m.cells a).getD (m.unlisted a)

/-- `CM[a] <- b`. -/
def ByteMem.write (m : ByteMem) (a : Nat) (b : Byte) : ByteMem := { m with cells := putCell m.cells a b }

/-- `n` bytes in address order from `a`. -/
def ByteMem.readBytes (m : ByteMem) : (a n : Nat) → List Byte
  | _, 0 => []
  | a, n + 1 => m.read a :: m.readBytes (a + 1) n

/-- Bytes stored one after another from `a`. -/
def ByteMem.writeBytes : ByteMem → Nat → List Byte → ByteMem
  | m, _, [] => m
  | m, a, b :: rest => (m.write a b).writeBytes (a + 1) rest

/-- The canonical form of `CM`: addresses strictly rising and below 2^33 (R35). A listed cell always differs from an
unlisted one, which holds no written byte, so equal contents are equal lists. -/
def ByteMem.wf (m : ByteMem) : Bool :=
  rising m.cells && m.cells.all fun c => decide (c.1 < Config.cmCells)

/-! ### The pixel memories -/

/-- What an unlisted cell of a pixel memory reads as: black after a clearing (R192), else an unspecified pixel (R39,
R277; log 4). -/
def PixelMem.unlisted (m : PixelMem) (i : Nat) : Pixel :=
  match m.fill with
  | .black => Pixel.black
  | .free epoch => Config.freePixel epoch i

/-- `PM[i]`, `SLB[i]`. -/
def PixelMem.read (m : PixelMem) (i : Nat) : Pixel := (cellAt m.cells i).getD (m.unlisted i)

/-- `PM[i] <- p`, `SLB[i] <- p`. A black pixel written over a black fill unlists the cell, which keeps the form
canonical. -/
def PixelMem.write (m : PixelMem) (i : Nat) (p : Pixel) : PixelMem :=
  if m.fill = .black ∧ p = Pixel.black then { m with cells := dropCell m.cells i }
  else { m with cells := putCell m.cells i p }

/-- The canonical form of a pixel memory of `size` cells: indexes strictly rising and below `size`, and no cell listed
as what an unlisted one is known to read as. -/
def PixelMem.wf (m : PixelMem) (size : Nat) : Bool :=
  rising m.cells && m.cells.all fun c =>
    decide (c.1 < size) && (decide (m.fill ≠ .black) || decide (c.2 ≠ Pixel.black))

/-- A memory cleared to black (R192). -/
def PixelMem.cleared : PixelMem := { fill := .black, cells := [] }

/-- Every cell of `PM` becomes unspecified: a fresh free value (R277 (c), U5). -/
def State.loosePm (s : State) : State :=
  { s with pm := { fill := .free s.freeCount, cells := [] }, freeCount := s.freeCount + 1 }

/-- `CM[a] <- b` by the host: `CLEN` is not changed (R77). -/
def State.withCm (s : State) (a : Nat) (b : Byte) : State := { s with cm := s.cm.write a b }

/-- `PM[i] <- p`. -/
def State.withPm (s : State) (i : Nat) (p : Pixel) : State := { s with pm := s.pm.write i p }

/-- What the host's last read returned (log 13). -/
def State.withReadData (s : State) (d : ReadData) : State := { s with readData := d }

/-! ### What the host sees of a command in progress (R6) -/

/-- The record an opened command stands at. -/
def Activity.place : Activity → Option Place
  | .idle => none
  | .command _ => none
  | .opened place _ => some place

/-- `STATUS` as the host reads it. A command is one event to the host (R6, D31, R312), so until it ends `STATUS` reads as
it did before the command's first effect; `BUSY`, `DONE`, `ERR` and `SUB` do not change before the end anyway
(log 26). -/
def State.shownStatus (s : State) : BitVec 16 :=
  if s.busy then
    match s.doing with
    | .idle => s.status
    | .command _ => s.status
    | .opened _ shown => shown
  else s.status

/-- The command in progress goes on to this record, and the host sees no change (R6). -/
def State.atPlace (s : State) (place : Place) : State := { s with doing := .opened place s.shownStatus }

/-! ### Commands -/

/-- A piece of a command's pseudocode: it goes on with a result, or a `raise` ends the command; either way with the
state it leaves. -/
abbrev Cmd (α : Type) := EStateM Raise State α

/-- `raise E(sub, addr)` (R260): nothing after it is executed. -/
def raise {α : Type} (cause : Cause) (addr : Nat) : Cmd α := fun s => .error ⟨cause, addr⟩ s

/-- Change the state by a plain function. -/
def change (f : State → State) : Cmd Unit := fun s => .ok () (f s)

/-- A test of the pseudocode: `if not ok: raise E(sub, addr)`. -/
def check (ok : State → Bool) (cause : Cause) (addr : State → Nat) : Cmd Unit := fun s =>
  if ok s then .ok () s else .error ⟨cause, addr s⟩ s

/-! ### The stream pointer and the primitives -/

/-- `SP <- a` (R31, R238). -/
def State.withSp (s : State) (a : Nat) : State := { s with sp := BitVec.ofNat 34 a }

/-- A seek: `SP <- a` (R238). -/
def seek (target : State → Nat) : Cmd Unit := change fun s => s.withSp (target s)

/-- The stream pointer passes over `n` bytes that have been fetched as a record (R64). -/
def advance (n : Nat) : Cmd Unit := change fun s => s.withSp (s.sp.toNat + n)

/-- `CM_FAULT(a', kind)` for some `a'` in `a .. a+n-1` (R64, R65). -/
def Params.accessFaults (p : Params) (kind : Access) (a n : Nat) : Bool :=
  (List.range n).any fun k => p.cmFault.contains (a + k, kind)

/-- The fetch of a field of `n` bytes at `SP` (R64): a short read, an access fault, or `SP <- SP + n` with the
field's address as the result. The length is tested first (R266). -/
def fetch (stage : Stage) (n : Nat) : Cmd Nat := fun s =>
  if s.clen.toNat < s.sp.toNat + n then .error ⟨.truncated stage, s.sp.toNat⟩ s
  else if s.params.accessFaults .fetch s.sp.toNat n then .error ⟨.ioError .fetch, s.sp.toNat⟩ s
  else .ok s.sp.toNat (s.withSp (s.sp.toNat + n))

/-- All `n` bytes from `a` can be fetched: they lie below `CLEN` and no access fails (R64). -/
def State.readable (s : State) (a n : Nat) : Bool :=
  decide (a + n ≤ s.clen.toNat) && !s.params.accessFaults .fetch a n

/-- The byte at `a`. -/
def State.byteAt (s : State) (a : Nat) : Byte := s.cm.read a

/-- The big-endian u16 at `a` (R60). -/
def State.word16At (s : State) (a : Nat) : U16 := be16 (s.cm.read a) (s.cm.read (a + 1))

/-- The big-endian u32 at `a` (R60). -/
def State.word32At (s : State) (a : Nat) : U32 :=
  be32 (s.cm.read a) (s.cm.read (a + 1)) (s.cm.read (a + 2)) (s.cm.read (a + 3))

/-- `ReadU8()` (R64). -/
def readU8 (stage : Stage) : Cmd Byte := do
  let a ← fetch stage 1
  let s ← get
  pure (s.byteAt a)

/-- `ReadU16()` (R64). -/
def readU16 (stage : Stage) : Cmd U16 := do
  let a ← fetch stage 2
  let s ← get
  pure (s.word16At a)

/-- `ReadU32()` (R64). -/
def readU32 (stage : Stage) : Cmd U32 := do
  let a ← fetch stage 4
  let s ← get
  pure (s.word32At a)

/-- The state after the bytes of a field have been stored at `a`: `CLEN <- max(CLEN, a + n)`, `SP <- a + n` (R65). -/
def State.stored (s : State) (a : Nat) (bytes : List Byte) : State :=
  { s with
    cm := s.cm.writeBytes a bytes
    clen := BitVec.ofNat 34 (max s.clen.toNat (a + bytes.length))
    sp := BitVec.ofNat 34 (a + bytes.length) }

/-- The store of a field at `SP` (R65): an access fault stores nothing; a store is never short. -/
def storeField (bytes : List Byte) : Cmd Unit := fun s =>
  if s.params.accessFaults .store s.sp.toNat bytes.length then .error ⟨.ioError .store, s.sp.toNat⟩ s
  else .ok () (s.stored s.sp.toNat bytes)

/-- `WriteU8(v)` (R65). -/
def writeU8 (v : Byte) : Cmd Unit := storeField [v]

/-- `WriteU16(v)` (R65). -/
def writeU16 (v : U16) : Cmd Unit := storeField (bytes16 v)

/-- `WriteU32(v)` (R65). -/
def writeU32 (v : U32) : Cmd Unit := storeField (bytes32 v)

/-! ### The end of a command: completion, taking an error, and the way back -/

/-- Completion: `STATUS.BUSY <- 0`, `STATUS.DONE <- 1` (R231). -/
def State.complete (s : State) : State := { s with status := statusEnded s.status, doing := .idle }

/-- Taking an error (R260): `STATUS.ERR`, `STATUS.SUB`, `ERR_IDX <- IDX`, `ERR_ADDR <- addr`, and the command ends.
Nothing vectors and nothing is saved (R270). -/
def State.takeError (s : State) (e : Raise) : State :=
  State.complete
    { s with
      status := statusRaised s.status e.cause
      errIdx := s.idx
      errAddr := BitVec.ofNat 34 e.addr }

/-- The way back from an error: the latch, the warnings and the context registers are cleared, and nothing else
(R233, R271). -/
def State.clearError (s : State) : State :=
  { s with status := statusCleared s.status, errIdx := 0, errAddr := 0 }

/-- A command's pseudocode run to its end (R231): it reaches the end, or a `raise` ends it. -/
def runCommand (c : Cmd Unit) (s : State) : Host.Outcome State Fault Refusal :=
  match c s with
  | .ok _ t => .next t.complete
  | .error e t => .next (t.takeError e)

/-- A part of a command run without ending it, unless a `raise` does. -/
def runPart (c : Cmd Unit) (s : State) : Host.Outcome State Fault Refusal :=
  match c s with
  | .ok _ t => .next t
  | .error e t => .next (t.takeError e)

/-- `STATUS.WARN_ODD <- b` (log 27). -/
def State.withWarnOdd (s : State) (b : Bool) : State := { s with status := statusWithOdd s.status b }

/-- A part of a payload command that began with this `WARN_ODD`: an error inside it leaves every cell of `PM`
unspecified (R277 (c)), and the flag as it was, because it is "set on success only" (D20, R34, R274; log 27). -/
def payloadFrom (odd : Bool) (c : Cmd Unit) : Cmd Unit := fun s =>
  match c s with
  | .ok _ t => .ok () t
  | .error e t => .error e (t.loosePm.withWarnOdd odd)

/-- The part of a decoding command that writes `PM`, run as a whole. -/
def payload (c : Cmd Unit) : Cmd Unit := fun s => payloadFrom s.warnOdd c s

/-- A piece of that part in a command that has been opened: the flag as the command found it is the one still shown to
the host. -/
def openedPayload (c : Cmd Unit) : Cmd Unit := fun s => payloadFrom (s.shownStatus.getLsbD 10) c s

end Sys2Proof.Machine
end

