-- ==== Sys2Proof/Machine/ColorConverter.lean ====
section
/-! DEFINITION. The colour converter (`40_color_converter.md`): `to16`, `to24` and the commands `TO16`, `TO24`.
Arithmetic is exact and unsigned; the results fit by the formulas themselves (R125). -/

namespace Sys2Proof.Machine

/-- `(c*249 + 1014) >> 11`: an 8-bit channel quantised to 5 bits (R120). -/
def quant5 (c : Byte) : Nat := (c.toNat * 249 + 1014) >>> 11

/-- `(c*253 + 505) >> 10`: an 8-bit channel quantised to 6 bits (R120). -/
def quant6 (c : Byte) : Nat := (c.toNat * 253 + 505) >>> 10

/-- `(f*527 + 23) >> 6`: a 5-bit field expanded to 8 bits (R121). -/
def expand5 (f : BitVec 5) : Nat := (f.toNat * 527 + 23) >>> 6

/-- `(f*259 + 33) >> 6`: a 6-bit field expanded to 8 bits (R121). -/
def expand6 (f : BitVec 6) : Nat := (f.toNat * 259 + 33) >>> 6

/-- `to16(r, g, b)` (R120). -/
def to16 (p : Pixel) : U16 :=
  pack565 (BitVec.ofNat 5 (quant5 p.r)) (BitVec.ofNat 6 (quant6 p.g)) (BitVec.ofNat 5 (quant5 p.b))

/-- `to24(v)` (R121). -/
def to24 (v : U16) : Pixel :=
  let (r5, g6, b5) := unpack565 v
  ⟨BitVec.ofNat 8 (expand5 r5), BitVec.ofNat 8 (expand6 g6), BitVec.ofNat 8 (expand5 b5)⟩

/-- The pixel in `RGB24`: `r` is bits 23:16, `g` 15:8, `b` 7:0 (R29). -/
def rgbPixel (v : BitVec 24) : Pixel := ⟨v.extractLsb' 16 8, v.extractLsb' 8 8, v.extractLsb' 0 8⟩

/-- `r ++ g ++ b` (R29, R124). -/
def pixelRgb (p : Pixel) : BitVec 24 := p.r ++ p.g ++ p.b

/-- `RGB16 <- to16(RGB24)` (R123). -/
def State.withRgb16 (s : State) : State := { s with rgb16 := to16 (rgbPixel s.rgb24) }

/-- `RGB24 <- r ++ g ++ b` of `to24(RGB16)` (R124). -/
def State.withRgb24 (s : State) : State := { s with rgb24 := pixelRgb (to24 s.rgb16) }

/-- `TO16`: `RGB16 <- to16(RGB24[23:16], RGB24[15:8], RGB24[7:0])` (R123). -/
def execTo16 (s : State) : Host.Outcome State Fault Refusal :=
  runCommand (change State.withRgb16) s

/-- `TO24`: `RGB24 <- r ++ g ++ b` of `to24(RGB16)` (R124). -/
def execTo24 (s : State) : Host.Outcome State Fault Refusal :=
  runCommand (change State.withRgb24) s

end Sys2Proof.Machine
end

