-- ==== Sys2Proof/Machine/HeaderMarshal.lean ====
section
/-! DEFINITION. The header marshaler (`41_header_marshal.md`): `HDR_GET`, `HDR_PUT`, `IHDR_GET`, `IHDR_PUT`, and the
two header records they interpret. -/

namespace Sys2Proof.Machine

/-! ### The container header -/

/-- `if m != MAGIC_TAG: raise FormatError(BAD_TAG, 0)` (R140). -/
def checkTag (m : U32) : Cmd Unit := check (fun s => m == s.params.magicTag) .badTag fun _ => 0

/-- "`version` (u16, must be 2 or 3)" (R27, R103). -/
def versionOk (v : U16) : Bool := v == 2 || v == 3

/-- The container header registers take the parsed fields, with the warning of R145 (R140). -/
def State.withContainerHeader (s : State) (n v l x : U16) : State :=
  { s with
    imageCount := n, version := v, scanLineLen := l, hres := x
    status := if x = 0 then s.status else statusWarnHres s.status }

/-- The end of `HDR_GET`: the version is judged after all four fields are fetched, then the registers are committed
(R140, R269). -/
def commitHeader (n v l x : U16) : Cmd Unit := do
  check (fun _ => versionOk v) .badVersion fun _ => 6
  change fun s => s.withContainerHeader n v l x

/-- The body of `HDR_GET` from the tag on (R140). -/
def headerBody : Cmd Unit := do
  let m ← readU32 .header
  checkTag m
  let n ← readU16 .header
  let v ← readU16 .header
  let l ← readU16 .header
  let x ← readU16 .header
  commitHeader n v l x

/-- "Pseudocode of rule R140". -/
def hdrGet : Cmd Unit := do
  seek fun _ => 0
  headerBody

/-- `HDR_GET` (R140). -/
def execHdrGet (s : State) : Host.Outcome State Fault Refusal := runCommand hdrGet s

/-- `CONTAINER_HEADER`: what the unit does with a fetched format H record. The tag is judged as soon as it is
fetched, so a wrong tag leaves `SP` after it (R140, R91). -/
def execContainerHeader (m : U32) (n v l x : U16) (s : State) : Host.Outcome State Fault Refusal :=
  runPart (do
    advance 4
    checkTag m
    advance 8
    commitHeader n v l x) s

/-- The encoder's constants in the registers, and a new container begun (R141, R146). -/
def State.withNewContainer (s : State) : State :=
  { s with version := Config.encVersion, scanLineLen := 0, hres := 0, runpix := 0, clen := 0 }

/-- "Pseudocode of rule R141". -/
def hdrPut : Cmd Unit := do
  change State.withNewContainer
  seek fun _ => 0
  writeU32 (← get).params.magicTag
  writeU16 (← get).imageCount
  writeU16 (← get).version
  writeU16 (← get).scanLineLen
  writeU16 (← get).hres

/-- `HDR_PUT` (R141). -/
def execHdrPut (s : State) : Host.Outcome State Fault Refusal := runCommand hdrPut s

/-! ### The image header -/

/-- The image header registers take the parsed fields, with the warning of R145 (R142). -/
def State.withImageHeader (s : State) (wb hb : Byte) (x : U16) (u p : U32) : State :=
  { s with
    width := dimDec wb, height := dimDec hb, ires := x, unpackedOff := u, packedOff := p
    status := if x = 0 then s.status else statusWarnIres s.status }

/-- The end of `IHDR_GET`: both offsets 0 is refused, else the registers are committed (R142). -/
def commitImageHeader (wb hb : Byte) (x : U16) (u p : U32) : Cmd Unit := do
  check (fun _ => !(u == 0 && p == 0)) .noPayload fun s => ihdrAddr s.idx + 4
  change fun s => s.withImageHeader wb hb x u p

/-- The body of `IHDR_GET` from the width byte on (R142). -/
def imageHeaderBody : Cmd Unit := do
  let wb ← readU8 .imageHeader
  let hb ← readU8 .imageHeader
  let x ← readU16 .imageHeader
  let u ← readU32 .imageHeader
  let p ← readU32 .imageHeader
  commitImageHeader wb hb x u p

/-- "Pseudocode of rule R142". -/
def ihdrGet : Cmd Unit := do
  seek fun s => ihdrAddr s.idx
  imageHeaderBody

/-- `IHDR_GET` (R142). -/
def execIhdrGet (s : State) : Host.Outcome State Fault Refusal := runCommand ihdrGet s

/-- `IMAGE_HEADER`: what the unit does with a fetched format I record (R142, R92). -/
def execImageHeader (wb hb : Byte) (x : U16) (u p : U32) (s : State) : Host.Outcome State Fault Refusal :=
  runPart (do
    advance 12
    commitImageHeader wb hb x u p) s

/-- `dims_ok()` or `raise FormatError(BAD_DIMENSION, ihdr_addr(IDX))` (R147). -/
def checkDims : Cmd Unit := check (fun s => s.dimsOk) .badDimension fun s => ihdrAddr s.idx

/-- The encoder's constants of an image header in the registers (R143, R146). -/
def State.withHeaderConstants (s : State) : State := { s with ires := 0, packedOff := 0 }

/-- "Pseudocode of rule R143": both checks come before the first store. -/
def ihdrPut : Cmd Unit := do
  checkDims
  check (fun s => s.unpackedOff != 0) .noPayload fun s => ihdrAddr s.idx + 4
  change State.withHeaderConstants
  seek fun s => ihdrAddr s.idx
  writeU8 (dimEnc (← get).width)
  writeU8 (dimEnc (← get).height)
  writeU16 (← get).ires
  writeU32 (← get).unpackedOff
  writeU32 (← get).packedOff

/-- `IHDR_PUT` (R143). -/
def execIhdrPut (s : State) : Host.Outcome State Fault Refusal := runCommand ihdrPut s

end Sys2Proof.Machine
end

