-- ==== Sys2Proof/Machine/RawCodec.lean ====
section
/-! DEFINITION. The raw payload codec (`42_raw_payload.md`): `RAW_DEC` and `RAW_ENC`. -/

namespace Sys2Proof.Machine

/-- The pixel loop of `RAW_DEC` from pixel `i` on, `n` pixels (R170). -/
def rawDecLoop : (n i : Nat) → Cmd Unit
  | 0, _ => pure ()
  | n + 1, i => do
    let v ← readU16 .rawPayload
    change fun s => s.withPm i (to24 v)
    rawDecLoop n (i + 1)

/-- "Pseudocode of rule R170"; after a failure in the loop `PM` is unspecified. -/
def rawDec : Cmd Unit := do
  checkDims
  seek fun s => s.unpackedOff.toNat
  payload (rawDecLoop (← get).pixelCount 0)

/-- `RAW_DEC` (R170). -/
def execRawDec (s : State) : Host.Outcome State Fault Refusal := runCommand rawDec s

/-- The pixel loop of `RAW_ENC` from pixel `i` on, `n` pixels (R171). -/
def rawEncLoop : (n i : Nat) → Cmd Unit
  | 0, _ => pure ()
  | n + 1, i => do
    writeU16 (to16 ((← get).pm.read i))
    rawEncLoop n (i + 1)

/-- "Pseudocode of rule R171". -/
def rawEnc : Cmd Unit := do
  checkDims
  seek fun s => s.unpackedOff.toNat
  rawEncLoop (← get).pixelCount 0

/-- `RAW_ENC` (R171). -/
def execRawEnc (s : State) : Host.Outcome State Fault Refusal := runCommand rawEnc s

/-- The index of the raw pixel whose word is at `SP`: `SP = UNPACKED_OFF + 2*i` (R170). -/
def State.rawIndex (s : State) : Nat := (s.sp.toNat - s.unpackedOff.toNat) / 2

/-- The pixel step of `RAW_DEC` on a fetched word: `PM[i] <- to24(v)` (R170). -/
def rawPixel (v : U16) : Cmd Unit := do
  let s ← get
  advance 2
  change fun t => t.withPm s.rawIndex (to24 v)

end Sys2Proof.Machine
end

