-- ==== Sys2Proof/Machine/PackedDecoder.lean ====
section
/-! DEFINITION. The packed payload decoder (`43_packed_decoder.md`): `carry`, `PK_DEC`, and the three records of a
packed payload, the preamble, the chunk and the pixel word. -/

namespace Sys2Proof.Machine

/-! ### The steps -/

/-- `carry(L, P, O)` (R194): `(delta, P')`. "Exceeds" is strict. Log 18. -/
def carry (l p o : Nat) : Nat × Nat := if o > l then (o + p, 0) else (o, p)

/-- The preconditions of `PK_DEC`, in the order of R190. -/
def packedChecks : Cmd Unit := do
  checkDims
  check (fun s => s.scanLineLen != 0) .zeroScanLine fun _ => 8
  check (fun s => decide (s.width.toNat ≤ s.scanLineLen.toNat)) .widthGtLine fun _ => 8

/-- The working state at the start of the stream: `SLB` black, the counters 0 (R192), then the seek (R191). -/
def State.withPackedStart (s : State) : State :=
  { s with
    slb := PixelMem.cleared, cur := 0, prec := 0, nchunk := 0, nrun := 0
    sp := BitVec.ofNat 34 s.packedOff.toNat }

/-- The preconditions, the clearing and the seek: `PK_DEC` up to its first fetch (R190 to R192). -/
def packedStart : Cmd Unit := do
  packedChecks
  change State.withPackedStart

/-- `NCHUNK <- chunk_max_index + 1` (R191). -/
def State.withChunkCount (s : State) (chunkMaxIndex : U16) : State :=
  { s with nchunk := BitVec.ofNat 17 (storedCount chunkMaxIndex) }

/-- Steps (b), (c) and the first half of (d) of R193: halve, warn on an odd offset, apply the offset rule, and
`NRUN <- rs + 1`. The cells passed over are not written (R195). `WARN_ODD` is set here and kept if the decode
succeeds (`payloadFrom`). -/
def State.withChunkHead (s : State) (ob rs : U16) : State :=
  { s with
    status := if oddOffset ob then statusWarnOdd s.status else s.status
    cur := BitVec.ofNat 34 (s.cur.toNat + (carry s.scanLineLen.toNat s.prec.toNat (halfOffset ob)).1)
    prec := BitVec.ofNat 33 (carry s.scanLineLen.toNat s.prec.toNat (halfOffset ob)).2
    nrun := BitVec.ofNat 17 (storedCount rs) }

/-- The run step on a fetched word (R196, R197): a write at or beyond `L*H` is dropped, the counters go on. -/
def State.withRunPixel (s : State) (v : U16) : State :=
  { s with
    slb := if s.cur.toNat < s.slbCells then s.slb.write s.cur.toNat (to24 v) else s.slb
    cur := BitVec.ofNat 34 (s.cur.toNat + 1)
    prec := BitVec.ofNat 33 (s.prec.toNat + 1)
    nrun := s.nrun - 1 }

/-- `NCHUNK <- NCHUNK - 1` (R193). -/
def State.withChunkDone (s : State) : State := { s with nchunk := s.nchunk - 1 }

/-- The run of a chunk: `n` words (R196). -/
def runLoop : Nat → Cmd Unit
  | 0 => pure ()
  | n + 1 => do
    let v ← readU16 .packedPayload
    change fun s => s.withRunPixel v
    runLoop n

/-- The two header words of a chunk and what they do (R193 (a) to (d)); the result is the run's length. -/
def chunkHead : Cmd Nat := do
  let ob ← readU16 .packedPayload
  let rs ← readU16 .packedPayload
  change fun s => s.withChunkHead ob rs
  pure (storedCount rs)

/-- The chunk step (R193). -/
def chunkStep : Cmd Unit := do
  let n ← chunkHead
  runLoop n
  change State.withChunkDone

/-- The chunk step done `n` times (R193). -/
def chunkLoop : Nat → Cmd Unit
  | 0 => pure ()
  | n + 1 => do
    chunkStep
    chunkLoop n

/-- Fetching the preamble (R191). -/
def preambleStep : Cmd Unit := do
  let m ← readU16 .packedPayload
  change fun s => s.withChunkCount m

/-- The slice from pixel `i` on, `n` pixels: `PM[y*W + x] <- SLB[y*L + x]` with `y*W + x = i` (R198). -/
def sliceLoop : (n i : Nat) → State → State
  | 0, _, s => s
  | n + 1, i, s =>
    sliceLoop n (i + 1)
      (s.withPm i (s.slb.read (i / s.width.toNat * s.scanLineLen.toNat + i % s.width.toNat)))

/-- The slice: the left `W` columns of each of the `H` rows (R198). -/
def State.sliced (s : State) : State := sliceLoop s.pixelCount 0 s

/-- The stream of `PK_DEC` from the preamble on, and the slice (R199). -/
def packedBody : Cmd Unit := do
  preambleStep
  chunkLoop (← get).nchunk.toNat
  change State.sliced

/-- "Pseudocode of rule R199"; after a failure in the stream `PM` is unspecified (R200, R277) and `WARN_ODD` is as it was
(D20). -/
def pkDec : Cmd Unit := do
  packedStart
  payload packedBody

/-- `PK_DEC` (R199). -/
def execPkDec (s : State) : Host.Outcome State Fault Refusal := runCommand pkDec s

/-! ### The records -/

/-- `PACKED_PREAMBLE`: what the unit does with a fetched format N record (R191, R93). -/
def execPackedPreamble (chunkMaxIndex : U16) (s : State) : Host.Outcome State Fault Refusal :=
  runPart (do
    advance 2
    change fun s => s.withChunkCount chunkMaxIndex) s

/-- The run step on fetched words, in order. -/
def runWords : List U16 → Cmd Unit
  | [] => pure ()
  | v :: rest => do
    advance 2
    change fun s => s.withRunPixel v
    runWords rest

/-- `CHUNK`: the chunk step on a fetched format K record (R193, R94). -/
def execChunk (ob rs : U16) (pixels : List U16) (s : State) : Host.Outcome State Fault Refusal :=
  runPart (do
    advance 4
    change fun s => s.withChunkHead ob rs
    runWords pixels
    change State.withChunkDone) s

/-- `PIXEL`: what the unit does with a fetched format P word: in a raw payload the pixel step of `RAW_DEC` (R170), in
a packed one the run step (R196). Log 21. -/
def execPixel (r5 : BitVec 5) (g6 : BitVec 6) (b5 : BitVec 5) (s : State) : Host.Outcome State Fault Refusal :=
  runPart
    (if s.doing.place = some .rawPixels then rawPixel (pack565 r5 g6 b5)
     else do
       advance 2
       change fun s => s.withRunPixel (pack565 r5 g6 b5)) s

end Sys2Proof.Machine
end

