-- ==== Sys2Proof/Machine/Sequencer.lean ====
section
/-! DEFINITION. Command issue and the per-image sequencer (`44_sequencing.md`): acceptance, undefined codes, `CLR`,
`IMG_DEC`, `IMG_ENC`. -/

namespace Sys2Proof.Machine

/-- The code of `CLR`, the only command accepted while `STATUS.ERR != 0` (R230, R233). -/
def clrCode : Byte := 0x0F

/-- A command accepted: `STATUS.BUSY <- 1`, `STATUS.DONE <- 0` (R230). -/
def State.accepted (s : State) (code : Byte) : State :=
  { s with status := statusAccepted s.status, doing := .command code }

/-- Command issue (R230): a write of `code` to `CMD` is ignored while busy, or while an error is latched unless it is
`CLR`; else the command is accepted. -/
def State.issue (s : State) (code : Byte) : State :=
  if s.busy then s
  else if s.err ≠ 0 ∧ code ≠ clrCode then s
  else s.accepted code

/-- An accepted code that is no command: `raise IllegalCommand(UNDEFINED_CODE, 0)` and nothing else (R232). -/
def undefinedCommand : Cmd Unit := raise .undefinedCode 0

/-- `CLR` (R233). -/
def execClr (s : State) : Host.Outcome State Fault Refusal := runCommand (change State.clearError) s

/-- `if IDX >= IMAGE_COUNT: raise IllegalCommand(INDEX_RANGE, 0)` (R234, R236). -/
def checkIndex : Cmd Unit :=
  check (fun s => decide (s.idx.toNat < s.imageCount.toNat)) .indexRange fun _ => 0

/-- "Pseudocode of rule R234", with the dispatch of R235. -/
def imgDec : Cmd Unit := do
  checkIndex
  ihdrGet
  if (← get).unpackedOff ≠ 0 then rawDec else pkDec

/-- `IMG_DEC` (R234). -/
def execImgDec (s : State) : Host.Outcome State Fault Refusal := runCommand imgDec s

/-- `UNPACKED_OFF <- off` (R236). -/
def State.withPlacement (s : State) : State :=
  { s with unpackedOff := BitVec.ofNat 32 (encOffset s.imageCount s.runpix) }

/-- `RUNPIX <- RUNPIX + W*H` (R236). -/
def State.withCounted (s : State) : State :=
  { s with runpix := BitVec.ofNat 32 (s.runpix.toNat + s.pixelCount) }

/-- "Pseudocode of rule R236", the validations in the order of R237. -/
def imgEnc : Cmd Unit := do
  checkIndex
  check (fun s => s.channels == 3) .channelMismatch fun _ => 0
  checkDims
  check (fun s => offsetFits (encOffset s.imageCount s.runpix)) .offsetOverflow fun s => ihdrAddr s.idx + 4
  change State.withPlacement
  ihdrPut
  rawEnc
  change State.withCounted

/-- `IMG_ENC` (R236). -/
def execImgEnc (s : State) : Host.Outcome State Fault Refusal := runCommand imgEnc s

end Sys2Proof.Machine
end

