-- ==== Sys2Proof/Machine/HostPort.lean ====
section
/-! DEFINITION. The host's side (`70_reset_and_hazards.md` R312): register access by number (R21, R41), access to the
cells of `CM` and `PM` (R77), and reset (R300). -/

namespace Sys2Proof.Machine

/-- The value of register `n`, zero-extended; `CMD` and numbers above 23 read as 0 (R21, R22, R41). -/
def State.register (s : State) : Nat → BitVec 34
  | 1 => s.status.setWidth 34
  | 2 => s.errIdx.setWidth 34
  | 3 => s.errAddr
  | 4 => s.clen
  | 5 => s.idx.setWidth 34
  | 6 => s.imageCount.setWidth 34
  | 7 => s.version.setWidth 34
  | 8 => s.scanLineLen.setWidth 34
  | 9 => s.hres.setWidth 34
  | 10 => s.width.setWidth 34
  | 11 => s.height.setWidth 34
  | 12 => s.ires.setWidth 34
  | 13 => s.unpackedOff.setWidth 34
  | 14 => s.packedOff.setWidth 34
  | 15 => s.rgb24.setWidth 34
  | 16 => s.rgb16.setWidth 34
  | 17 => s.channels.setWidth 34
  | 18 => s.runpix.setWidth 34
  | 19 => s.sp
  | 20 => s.cur
  | 21 => s.prec.setWidth 34
  | 22 => s.nchunk.setWidth 34
  | 23 => s.nrun.setWidth 34
  | _ => 0

/-- A host register read: while busy every register but `STATUS` returns a free value (R21, U3; log 14), and `STATUS`
reads as the host sees it (R6, R21; log 26). -/
def State.hostRegRead (s : State) (n : Nat) : State :=
  if s.busy ∧ n ≠ 1 then
    { s with readData := .register (Config.freeRegister s.freeCount), freeCount := s.freeCount + 1 }
  else if n = 1 then s.withReadData (.register (s.shownStatus.setWidth 34))
  else s.withReadData (.register (s.register n))

/-- A write to register `n` of an idle unit (R41): the low bits are kept, `CLEN` saturates at 2^33 (R25); a write to
`CMD` issues a command (R230); read-only registers and numbers above 23 are unchanged. -/
def State.withRegister (s : State) (n value : Nat) : State :=
  match n with
  | 0 => s.issue (BitVec.ofNat 8 value)
  | 4 => { s with clen := BitVec.ofNat 34 (min value Config.cmCells) }
  | 5 => { s with idx := BitVec.ofNat 16 value }
  | 6 => { s with imageCount := BitVec.ofNat 16 value }
  | 7 => { s with version := BitVec.ofNat 16 value }
  | 8 => { s with scanLineLen := BitVec.ofNat 16 value }
  | 9 => { s with hres := BitVec.ofNat 16 value }
  | 10 => { s with width := BitVec.ofNat 16 value }
  | 11 => { s with height := BitVec.ofNat 16 value }
  | 12 => { s with ires := BitVec.ofNat 16 value }
  | 13 => { s with unpackedOff := BitVec.ofNat 32 value }
  | 14 => { s with packedOff := BitVec.ofNat 32 value }
  | 15 => { s with rgb24 := BitVec.ofNat 24 value }
  | 16 => { s with rgb16 := BitVec.ofNat 16 value }
  | 17 => { s with channels := BitVec.ofNat 8 value }
  | 18 => { s with runpix := BitVec.ofNat 32 value }
  | _ => s

/-- A host register write, `CMD` included: ignored while busy (R21, R230, R312). -/
def State.hostRegWrite (s : State) (n value : Nat) : State :=
  if s.busy then s else s.withRegister n value

/-- A host access to cell `a` of `CM` (R77, R312): refused while busy, a fault where there is no cell. -/
def hostCm (s : State) (a : Nat) (access : State) : Host.Outcome State Fault Refusal :=
  if s.busy then .refused .memoryAccessWhileBusy
  else if a < Config.cmCells then .next access
  else .fault (.noContainerCell a)

/-- A host access to cell `i` of `PM` (R77, R312). -/
def hostPm (s : State) (i : Nat) (access : State) : Host.Outcome State Fault Refusal :=
  if s.busy then .refused .memoryAccessWhileBusy
  else if i < Config.pmDepth then .next access
  else .fault (.noPixelCell i)

/-- Reset (R300, R301): every register 0, a command in progress abandoned, the contents of the memories unspecified
anew. The parameters, the events still to come and what the host has read are not the unit's (log 23). -/
def State.resetUnit (s : State) : State :=
  { State.reset with
    cm := { epoch := s.freeCount, cells := [] }
    pm := { fill := .free (s.freeCount + 1), cells := [] }
    slb := { fill := .free (s.freeCount + 2), cells := [] }
    params := s.params
    agenda := s.agenda
    readData := s.readData
    freeCount := s.freeCount + 3 }

end Sys2Proof.Machine
end

