-- ==== Sys2Proof/Machine/Dispatch.lean ====
section
/-! DEFINITION. `exec`: one arm per row of the opcode table. -/

namespace Sys2Proof.Machine

def exec (i : Instr) (s : State) : Host.Outcome State Fault Refusal :=
  match i with
  | .to16 => Sys2Proof.Machine.execTo16 s
  | .to24 => Sys2Proof.Machine.execTo24 s
  | .clr => Sys2Proof.Machine.execClr s
  | .hdrGet => Sys2Proof.Machine.execHdrGet s
  | .ihdrGet => Sys2Proof.Machine.execIhdrGet s
  | .rawDec => Sys2Proof.Machine.execRawDec s
  | .pkDec => Sys2Proof.Machine.execPkDec s
  | .imgDec => Sys2Proof.Machine.execImgDec s
  | .hdrPut => Sys2Proof.Machine.execHdrPut s
  | .ihdrPut => Sys2Proof.Machine.execIhdrPut s
  | .rawEnc => Sys2Proof.Machine.execRawEnc s
  | .imgEnc => Sys2Proof.Machine.execImgEnc s
  | .containerHeader m n v l x => Sys2Proof.Machine.execContainerHeader m n v l x s
  | .imageHeader w h x u p => Sys2Proof.Machine.execImageHeader w h x u p s
  | .packedPreamble c => Sys2Proof.Machine.execPackedPreamble c s
  | .chunk o r px => Sys2Proof.Machine.execChunk o r px s
  | .pixel r g b => Sys2Proof.Machine.execPixel r g b s

end Sys2Proof.Machine
end

