-- ==== Sys2Proof/Machine/Turn.lean ====
section
/-! DEFINITION. The unit's turn: fetching the instruction it stands at, running it, and what follows it; and the
events of `70_reset_and_hazards.md` R312. A turn runs a command whole, or, where a decoding command has been opened,
its next record (R6; log 10). -/

namespace Sys2Proof.Machine

/-! ### Fetching a record -/

/-- The length in bytes of the record of this format at `SP` (R90). A chunk's own `run_length` tells its length
(R94, R104), so its two header words must be readable. -/
def State.recordLength (s : State) : Format → Option Nat
  | .command => some 1
  | .containerHeader => some 12
  | .imageHeader => some 12
  | .packedPreamble => some 2
  | .chunk =>
    if s.readable s.sp.toNat 4 then some (4 + 2 * storedCount (s.word16At (s.sp.toNat + 2))) else none
  | .pixel => some 2

/-- The record of this format at `SP`, where all of its bytes can be fetched. -/
def State.fetchRecord (s : State) (format : Format) : Option Instr :=
  match s.recordLength format with
  | none => none
  | some n =>
    if s.readable s.sp.toNat n then
      match decode format (s.cm.readBytes s.sp.toNat n) with
      | .ok (i, _) => some i
      | .error _ => none
    else none

/-! ### What follows a record -/

/-- The raw path opened: the dimension check and the seek of R170. -/
def rawOpen : Cmd Unit := do
  checkDims
  change fun s => (s.withSp s.unpackedOff.toNat).atPlace .rawPixels

/-- The packed path opened: the preconditions, the clearing and the seek of R190 to R192. -/
def packedOpen : Cmd Unit := do
  packedStart
  change fun s => s.atPlace .preamble

/-- `while NCHUNK > 0` (R193): the next chunk, or the slice and the end of the command (R198, R231). -/
def afterChunk (s : State) : Host.Outcome State Fault Refusal :=
  if s.nchunk = 0 then .next s.sliced.complete else .next (s.atPlace .chunks)

/-- What follows a record at this place that raised no error. -/
def afterRecordAt (place : Place) (s : State) : Host.Outcome State Fault Refusal :=
  match place with
  | .header => .next s.complete
  | .imageHeader false => .next s.complete
  | .imageHeader true => runPart (if s.unpackedOff ≠ 0 then rawOpen else packedOpen) s
  | .rawPixels =>
    if s.sp.toNat = s.unpackedOff.toNat + 2 * s.pixelCount then .next s.complete else .next s
  | .preamble => .next (s.atPlace .chunks)
  | .chunks => afterChunk s
  | .runPixels => if s.nrun = 0 then afterChunk s.withChunkDone else .next s

/-- What follows a record that raised no error. -/
def afterRecord (s : State) : Host.Outcome State Fault Refusal :=
  match s.doing.place with
  | some place => afterRecordAt place s
  | none => .next s

/-- Go on after an instruction: a `raise` has ended the command (R260), else the sequencer goes on. -/
def thenSequence : Host.Outcome State Fault Refusal → Host.Outcome State Fault Refusal
  | .next t => if t.busy then afterRecord t else .next t
  | .fault r => .fault r
  | .refused r => .refused r

/-- The turn at a record: its instruction, and what follows; a record that cannot be fetched whole is worked through
field by field up to the field that fails (`rest`, the pseudocode from here on). -/
def recordTurn (format : Format) (rest : Cmd Unit) (s : State) : Host.Outcome State Fault Refusal :=
  match s.fetchRecord format with
  | some i => thenSequence (exec i s)
  | none => runCommand rest s

/-- One pixel word of a raw payload, fetched by itself (R170). -/
def rawPixelRead : Cmd Unit := do
  let s ← get
  let v ← readU16 .rawPayload
  change fun t => t.withPm s.rawIndex (to24 v)

/-! ### The turns -/

/-- The record an opened command stands at. -/
def placeTurn (place : Place) (s : State) : Host.Outcome State Fault Refusal :=
  match place with
  | .header => recordTurn .containerHeader headerBody s
  | .imageHeader _ => recordTurn .imageHeader imageHeaderBody s
  | .rawPixels => recordTurn .pixel (openedPayload rawPixelRead) s
  | .preamble => recordTurn .packedPreamble (openedPayload preambleStep) s
  | .chunks => recordTurn .chunk (openedPayload chunkStep) s
  | .runPixels => recordTurn .pixel (openedPayload (runLoop 1)) s

/-- The instruction the unit stands at, run to its end; with no command in progress nothing happens (log 24). -/
def unitTurn (s : State) : Host.Outcome State Fault Refusal :=
  if s.busy then
    match s.doing with
    | .idle => .next s
    | .command code =>
      match decode .command [code] with
      | .ok (i, _) => exec i s
      | .error _ => runCommand undefinedCommand s
    | .opened place _ => placeTurn place s
  else .next s

/-- A decoding command up to its first record; the other commands have none. -/
def openCommand : Instr → Option (Cmd Unit)
  | .hdrGet => some (change fun s => (s.withSp 0).atPlace .header)
  | .ihdrGet => some (change fun s => (s.withSp (ihdrAddr s.idx)).atPlace (.imageHeader false))
  | .rawDec => some rawOpen
  | .pkDec => some packedOpen
  | .imgDec => some (do
      checkIndex
      change fun s => (s.withSp (ihdrAddr s.idx)).atPlace (.imageHeader true))
  | .to16 => none
  | .to24 => none
  | .clr => none
  | .hdrPut => none
  | .ihdrPut => none
  | .rawEnc => none
  | .imgEnc => none
  | .containerHeader _ _ _ _ _ => none
  | .imageHeader _ _ _ _ _ => none
  | .packedPreamble _ => none
  | .chunk _ _ _ => none
  | .pixel _ _ _ => none

/-- A chunk up to its first pixel word (R193 (a) to (d)). -/
def chunkOpen : Cmd Unit := openedPayload (do
  let _ ← chunkHead
  change fun s => s.atPlace .runPixels)

/-- The unit opens what it stands at, where it has parts (R6; log 10); else it takes its turn. -/
def unitOpen (s : State) : Host.Outcome State Fault Refusal :=
  if s.busy then
    match s.doing with
    | .idle => unitTurn s
    | .command code =>
      match decode .command [code] with
      | .ok (i, _) =>
        match openCommand i with
        | some c => runPart c s
        | none => unitTurn s
      | .error _ => unitTurn s
    | .opened place _ => if place = .chunks then runPart chunkOpen s else unitTurn s
  else .next s

/-- "Host events of rule R312". -/
def event (e : Event) (s : State) : Host.Outcome State Fault Refusal :=
  match e with
  | .reset => .next s.resetUnit
  | .regRead n => .next (s.hostRegRead n)
  | .regWrite n value => .next (s.hostRegWrite n value)
  | .cmRead a => hostCm s a (s.withReadData (.byte (s.cm.read a)))
  | .cmWrite a b => hostCm s a (s.withCm a b)
  | .pmRead i => hostPm s i (s.withReadData (.pixel (s.pm.read i)))
  | .pmWrite i p => hostPm s i (s.withPm i p)
  | .unitTurn => unitTurn s
  | .unitOpen => unitOpen s

/-! ### Placing an instruction where the unit fetches its next one -/

/-- What the unit does when the next instruction it fetches is of this format; `shown` is `STATUS` to the host. -/
def fetchActivity (format : Format) (bytes : List Byte) (shown : BitVec 16) : Activity :=
  match format with
  | .command => .command (bytes.headD 0)
  | .containerHeader => .opened .header shown
  | .imageHeader => .opened (.imageHeader false) shown
  | .packedPreamble => .opened .preamble shown
  | .chunk => .opened .chunks shown
  | .pixel => .opened .runPixels shown

/-- The state in which the unit's next turn fetches this instruction. A command's code is in the unit, accepted; a
record lies in `CM` at `SP`, below `CLEN`, and a chunk is fetched only while `NCHUNK > 0` (log 12). -/
def State.placed (s : State) (format : Format) (bytes : List Byte) : State :=
  let s := { s with
    status := statusAccepted s.status
    doing := fetchActivity format bytes (statusAccepted s.status)
    agenda := match s.agenda with
      | [] => []
      | e :: rest => .unitTurn :: e :: rest }
  if format = .command then s
  else { s with
    cm := s.cm.writeBytes s.sp.toNat bytes
    clen := BitVec.ofNat 34 (max s.clen.toNat (s.sp.toNat + bytes.length))
    nchunk := if format = .chunk ∧ s.nchunk = 0 then 1 else s.nchunk }

end Sys2Proof.Machine
end

