-- ==== Sys2Proof/Machine/Step.lean ====
section
/-! DEFINITION. One step of the machine: the next event of the agenda (R312), or the unit's turn where nothing is on
it; and where a step fetches its instruction. -/

namespace Sys2Proof.Machine

/-- The next event happens; with none to come, the unit takes its turn ("a command always ends", R231). -/
def step (s : State) : Host.Outcome State Fault Refusal :=
  match s.agenda with
  | [] => unitTurn s
  | e :: rest => event e { s with agenda := rest }

/-- `s` with the opcode table's word `w` of `nbits` bits where the next step fetches its instruction. -/
def State.withFetchWord (s : State) (nbits w : Nat) : State :=
  match tableFormat nbits with
  | none => s
  | some format => s.placed format (tableRecord format nbits w)

end Sys2Proof.Machine
end

