-- ==== Sys2Proof/Safety.lean ====
section
/-! DEFINITION. What statements are made of: the legal states (the invariants of R24, R31, R40, R42, R310), which
record the unit stands at, and the closed form of a packed payload (R203). -/

namespace Sys2Proof.Machine

/-! ### Legal states -/

/-- The reserved bits 3:2, 7 and 11 of `STATUS` read 0, and `STATUS.ERR` is not 7 (R42). -/
abbrev StatusLegal (s : State) : Prop :=
  (s.status.getLsbD 2 = false ∧ s.status.getLsbD 3 = false ∧ s.status.getLsbD 7 = false ∧
    s.status.getLsbD 11 = false) ∧ s.err ≠ 7

/-- With no error pending `SUB`, `ERR_IDX` and `ERR_ADDR` are 0 (R23, R24). -/
abbrev LatchLegal (s : State) : Prop :=
  s.err = 0 → s.sub = 0 ∧ s.errIdx = 0 ∧ s.errAddr = 0

/-- `BUSY` is 1 exactly while a command is in progress, and then `DONE` is 0 (R23, R230, R231); the command in
progress is `CLR` if an error is pending (R230). -/
abbrev BusyLegal (s : State) : Prop :=
  (s.busy = true ↔ s.doing ≠ .idle) ∧ (s.busy = true → s.done = false) ∧
    (s.busy = true → s.err ≠ 0 → s.doing = .command 0x0F)

/-- `SLB_DEPTH_MAX`: the largest scan-line buffer, 65535*256 pixels (R7, R37). -/
abbrev slbDepthMax : Nat := 16776960

/-- Every memory is in its canonical form and lists only cells that exist (R35, R36, R37, R310). -/
abbrev MemoriesLegal (s : State) : Prop :=
  s.cm.wf = true ∧ s.pm.wf Config.pmDepth = true ∧ s.slb.wf slbDepthMax = true

/-- Listed cells stand in strictly rising order in every memory. -/
abbrev MemoriesRising (s : State) : Prop :=
  rising s.cm.cells = true ∧ rising s.pm.cells = true ∧ rising s.slb.cells = true

/-- The bounds of R40 on `SP`, `CLEN`, `PREC`, `CUR`, `NCHUNK` and `NRUN`. -/
abbrev CountersLegal (s : State) : Prop :=
  s.sp.toNat ≤ 2 ^ 33 ∧ s.clen.toNat ≤ 2 ^ 33 ∧ s.prec.toNat ≤ 2 ^ 32 ∧ s.cur.toNat ≤ 10737352704 ∧
    s.nchunk.toNat ≤ 65536 ∧ s.nrun.toNat ≤ 65536

/-- The checks of `PK_DEC` have passed (R190). -/
abbrev PackedOk (s : State) : Prop :=
  s.dimsOk = true ∧ 0 < s.scanLineLen.toNat ∧ s.width.toNat ≤ s.scanLineLen.toNat

/-- Where an opened command stands, its counters say how far it has got. A chunk adds at most 32767 skipped pixels
and 65536 run pixels, and a carry moves `PREC` into `CUR`, so `CUR + PREC` grows by the skip and twice the run
(R193 to R196, R40). -/
abbrev StreamLegal (s : State) : Prop :=
  (s.doing.place = some .rawPixels →
    s.dimsOk = true ∧ s.unpackedOff.toNat ≤ s.sp.toNat ∧
      s.sp.toNat < s.unpackedOff.toNat + 2 * s.pixelCount ∧ (s.sp.toNat - s.unpackedOff.toNat) % 2 = 0) ∧
  (s.doing.place = some .preamble → PackedOk s ∧ s.cur = 0 ∧ s.prec = 0 ∧ s.nchunk = 0 ∧ s.nrun = 0) ∧
  (s.doing.place = some .chunks →
    PackedOk s ∧ 0 < s.nchunk.toNat ∧ s.nrun = 0 ∧
      s.prec.toNat ≤ (65536 - s.nchunk.toNat) * 65536 ∧
      s.cur.toNat + s.prec.toNat ≤ (65536 - s.nchunk.toNat) * (32767 + 2 * 65536)) ∧
  (s.doing.place = some .runPixels →
    PackedOk s ∧ 0 < s.nchunk.toNat ∧ 0 < s.nrun.toNat ∧
      s.prec.toNat + s.nrun.toNat ≤ (65537 - s.nchunk.toNat) * 65536 ∧
      s.cur.toNat + s.prec.toNat + 2 * s.nrun.toNat ≤ (65537 - s.nchunk.toNat) * (32767 + 2 * 65536))

/-- What the host reads as `STATUS` differs from `STATUS` only in `WARN_IRES` and `WARN_ODD`, and only where an opened
command has set one (R6). -/
abbrev ShownLegal (s : State) : Prop :=
  (∀ k, k < 16 → k ≠ 9 → k ≠ 10 → s.shownStatus.getLsbD k = s.status.getLsbD k) ∧
    ∀ k, k < 16 → s.shownStatus.getLsbD k = true → s.status.getLsbD k = true

/-- The invariant of the machine: what every reachable state satisfies. -/
abbrev Inv (s : State) : Prop :=
  StatusLegal s ∧ LatchLegal s ∧ BusyLegal s ∧ MemoriesLegal s ∧ CountersLegal s ∧ StreamLegal s ∧ ShownLegal s

/-! ### Records -/

/-- The format of the record at this place. -/
def Place.record : Place → Format
  | .header => .containerHeader
  | .imageHeader _ => .imageHeader
  | .rawPixels => .pixel
  | .preamble => .packedPreamble
  | .chunks => .chunk
  | .runPixels => .pixel

/-- The format of the record an opened command stands at. -/
def Activity.record (d : Activity) : Option Format := d.place.map Place.record

/-- The next step is the unit's turn: that is the next event, or no event is to come (R312). -/
abbrev UnitTurnNext (s : State) : Prop :=
  s.agenda = [] ∨ ∃ rest, s.agenda = .unitTurn :: rest ∨ s.agenda = .unitOpen :: rest

/-- The next step is the turn of a unit in which the command of this code is in progress. -/
abbrev CommandTurn (code : Byte) (s : State) : Prop :=
  s.busy = true ∧ s.doing = .command code ∧ UnitTurnNext s

/-! ### The closed form of a packed payload (R203) -/

/-- A chunk record of a payload, by its fields (R94). -/
structure ChunkRecord where
  screenOffset : U16
  runLength : U16
  pixels : List U16
deriving DecidableEq, Repr

/-- The chunk record as an instruction. -/
def ChunkRecord.instr (k : ChunkRecord) : Instr := .chunk k.screenOffset k.runLength k.pixels

/-- The bytes of chunk records back to back (R101). -/
def chunkBytes (chunks : List ChunkRecord) : List Byte := chunks.flatMap fun k => encode k.instr

/-- The bytes of a packed payload: the preamble, then the chunk records back to back (R101). -/
def payloadBytes (chunkMaxIndex : U16) (chunks : List ChunkRecord) : List Byte :=
  encode (.packedPreamble chunkMaxIndex) ++ chunkBytes chunks

/-- `(C, P)` after the chunks, from `(C, P)` before them (R203). -/
def streamEnd (l : Nat) : (c p : Nat) → List ChunkRecord → Nat × Nat
  | c, p, [] => (c, p)
  | c, p, k :: rest =>
    streamEnd l (c + (carry l p (halfOffset k.screenOffset)).1 + k.pixels.length)
      ((carry l p (halfOffset k.screenOffset)).2 + k.pixels.length) rest

/-- `to24` of the word that lands in cell `i` of `SLB`, where one does: word `j` of chunk `k` lands in `S_k + j`
(R203). -/
def streamPixel (l : Nat) : (c p : Nat) → List ChunkRecord → (i : Nat) → Option Pixel
  | _, _, [], _ => none
  | c, p, k :: rest, i =>
    if c + (carry l p (halfOffset k.screenOffset)).1 ≤ i then
      match k.pixels[i - (c + (carry l p (halfOffset k.screenOffset)).1)]? with
      | some v => some (to24 v)
      | none =>
        streamPixel l (c + (carry l p (halfOffset k.screenOffset)).1 + k.pixels.length)
          ((carry l p (halfOffset k.screenOffset)).2 + k.pixels.length) rest i
    else none

/-- Some chunk's `screen_offset` is odd (R99). -/
def anyOdd (chunks : List ChunkRecord) : Bool := chunks.any fun k => oddOffset k.screenOffset

/-! ### Host access -/

/-- The width of a read, write register of "Registers of rule R20" but `CLEN`, which saturates (R41). -/
def writableWidth : Nat → Option Nat
  | 5 => some 16
  | 6 => some 16
  | 7 => some 16
  | 8 => some 16
  | 9 => some 16
  | 10 => some 16
  | 11 => some 16
  | 12 => some 16
  | 13 => some 32
  | 14 => some 32
  | 15 => some 24
  | 16 => some 16
  | 17 => some 8
  | 18 => some 32
  | _ => none

end Sys2Proof.Machine
end

