-- ==== Sys2Proof/Certificates/Slice0/Obligations.lean ====
section
/-! DEFINITION. The statements for the provers. Each is about the machine, for every state that meets its hypotheses;
the rules are those of `spec/`. -/

open Sys2Proof Sys2Proof.Machine

/-! ### Encoding -/

/-- Every well-formed instruction's bytes decode to it, whatever follows them (R91 to R96). -/
def Obligations.DecodeOfEncode : Prop :=
  ∀ (i : Instr) (rest : List Byte), i.wf = true → decode i.format (encode i ++ rest) = .ok (i, rest)

/-- What decodes is well formed, of the format asked for, and its encoding is the bytes it was decoded from: no bit of
an encoding is dropped (R91 to R96). -/
def Obligations.EncodeOfDecode : Prop :=
  ∀ (f : Format) (bytes : List Byte) (i : Instr) (rest : List Byte), decode f bytes = .ok (i, rest) →
    i.format = f ∧ i.wf = true ∧ encode i ++ rest = bytes

/-- Bytes written out in the spec decode to the records they stand for (R92, R93, R94, R95, R96; the bytes of R199,
R142 and program B). -/
def Obligations.SpecWordsDecode : Prop :=
  decode .command [0x14] = .ok (.imgDec, []) ∧
  decode .command [0x23] = .ok (.imgEnc, []) ∧
  decode .imageHeader [0x03, 0x02, 0, 0, 0, 0, 0, 0, 0, 0, 0, 0x2C] = .ok (.imageHeader 3 2 0 0 44, []) ∧
  decode .packedPreamble [0x00, 0x01] = .ok (.packedPreamble 1, []) ∧
  decode .chunk [0x00, 0x02, 0x00, 0x01, 0xF8, 0x00, 0x07, 0xE0] = .ok (.chunk 2 1 [0xF800, 0x07E0], []) ∧
  decode .pixel [0x84, 0x10] = .ok (.pixel 16 32 16, [])

/-- `dim_dec` and `dim_enc` (R97). -/
def Obligations.DimensionBytes : Prop :=
  (∀ b : Byte, (dimDec b).toNat = if b.toNat = 0 then 256 else b.toNat) ∧
  (∀ d : BitVec 16, 1 ≤ d.toNat → d.toNat ≤ 256 →
    (dimEnc d).toNat = d.toNat % 256 ∧ dimDec (dimEnc d) = d) ∧
  ∀ b : Byte, 1 ≤ (dimDec b).toNat ∧ (dimDec b).toNat ≤ 256

/-! ### A step runs the decoded instruction -/

/-- A turn with a command in progress runs that command, whether the turn is the next event or nothing else is
(R230, R231, R312). -/
def Obligations.StepRunsTheCommand : Prop :=
  ∀ (s : State) (code : Byte) (i : Instr) (rest : List Event),
    s.busy = true → s.doing = .command code → decode .command [code] = .ok (i, []) →
    (s.agenda = [] → step s = exec i s) ∧
    (s.agenda = .unitTurn :: rest → step s = exec i { s with agenda := rest })

/-- Where an opened command stands at a record whose bytes lie readable at `SP`, a turn runs that record's meaning and
then the sequencer (`thenSequence`) goes on (R6, R31, R90). -/
def Obligations.StepRunsTheRecord : Prop :=
  ∀ (s : State) (i : Instr),
    s.agenda = [] → s.busy = true → s.doing.record = some i.format → i.wf = true →
    s.readable s.sp.toNat (encode i).length = true →
    s.cm.readBytes s.sp.toNat (encode i).length = encode i →
    step s = thenSequence (exec i s)

/-- An accepted code that is none of the twelve raises `IllegalCommand(UNDEFINED_CODE, 0)` and nothing else (R232). -/
def Obligations.UndefinedCodeRaises : Prop :=
  ∀ (s : State) (code : Byte),
    code ∉ ([0x01, 0x02, 0x0F, 0x10, 0x11, 0x12, 0x13, 0x14, 0x20, 0x21, 0x22, 0x23] : List Byte) →
    s.agenda = [] → s.busy = true → s.doing = .command code →
    ∃ t, step s = .next t ∧
      t = { s with status := t.status, errIdx := s.idx, errAddr := 0, doing := .idle } ∧
      t.err = 6 ∧ t.sub = 1 ∧ t.busy = false ∧ t.done = true ∧
      ∀ k, k = 2 ∨ k = 3 ∨ (7 ≤ k ∧ k < 12) → t.status.getLsbD k = s.status.getLsbD k

/-- The three cases of a write to `CMD`, and that the unit then executes the command or the undefined-code action
(R230). The value written is any number and the code is its low 8 bits: that is the model's reading of R21 and R41
(log 22, DEDUCED). -/
def Obligations.CommandIssue : Prop :=
  ∀ (s : State) (v : Nat) (rest : List Event), s.agenda = .regWrite 0 v :: rest →
    (s.busy = true → step s = .next { s with agenda := rest }) ∧
    (s.busy = false → s.err ≠ 0 → BitVec.ofNat 8 v ≠ (0x0F : Byte) → step s = .next { s with agenda := rest }) ∧
    (s.busy = false → s.err = 0 ∨ BitVec.ofNat 8 v = (0x0F : Byte) →
      ∃ t, step s = .next t ∧ t.busy = true ∧ t.done = false ∧
        (∀ k, 2 ≤ k → t.status.getLsbD k = s.status.getLsbD k) ∧
        t = { s with agenda := rest, status := t.status, doing := .command (BitVec.ofNat 8 v) } ∧
        (rest = [] →
          (∀ i, decode .command [BitVec.ofNat 8 v] = .ok (i, []) → step t = exec i t) ∧
          ((∀ i, decode .command [BitVec.ofNat 8 v] ≠ .ok (i, [])) →
            ∃ u, step t = .next u ∧ u.err = 6 ∧ u.sub = 1)))

/-- Every accepted command ends: there is a next state, idle, with `BUSY = 0` and `DONE = 1` (R231). -/
def Obligations.EveryCommandEnds : Prop :=
  ∀ (i : Instr) (s : State), i.format = .command →
    ∃ t, exec i s = .next t ∧ t.busy = false ∧ t.done = true ∧ t.doing = .idle

/-- The host cannot tell the grains apart (R6, D31). A decoding command opened and worked through record by record ends
in the same state as the command run as one step, whether it succeeds or fails; and until a command ends, `STATUS` reads
to the host as it did before, whatever a record has done to the flags (log 26). -/
def Obligations.RecordGrainAgrees : Prop :=
  (∀ (s : State) (code : Byte) (i : Instr),
    s.busy = true → s.doing = .command code → decode .command [code] = .ok (i, []) → s.agenda = [.unitOpen] →
    ∃ k, Host.Core.run Sys2Proof.core k s = exec i { s with agenda := [] }) ∧
  ∀ s t : State, step s = .next t → s.busy = true → t.busy = true → t.shownStatus = s.shownStatus

/-! ### Errors and the latch -/

/-- `raise E(sub, addr)` does exactly this, and no step of the command after it is executed, also when it stands
inside a sub-command (R260); with the codes of R261 to R267. -/
def Obligations.RaiseWritesExactly : Prop :=
  (∀ (s : State) (e : Raise), ∃ status, s.takeError e =
      { s with status := status, errIdx := s.idx, errAddr := BitVec.ofNat 34 e.addr, doing := .idle } ∧
    (s.takeError e).err = e.cause.code ∧ (s.takeError e).sub = e.cause.sub ∧
    (s.takeError e).busy = false ∧ (s.takeError e).done = true ∧
    ∀ k, k = 2 ∨ k = 3 ∨ (7 ≤ k ∧ k < 12) → status.getLsbD k = s.status.getLsbD k) ∧
  (∀ (c : Cmd Unit) (after : Unit → Cmd Unit) (s t : State) (e : Raise), c s = .error e t →
    runCommand (c >>= after) s = .next (t.takeError e)) ∧
  [Cause.badTag, .badVersion, .badDimension, .noPayload, .zeroScanLine, .widthGtLine].map
      (fun c => (c.code.toNat, c.sub.toNat)) = [(1, 1), (1, 2), (1, 3), (1, 4), (1, 5), (1, 6)] ∧
  [Stage.header, .imageHeader, .rawPayload, .packedPayload].map
      (fun g => ((Cause.truncated g).code.toNat, (Cause.truncated g).sub.toNat)) = [(2, 1), (2, 2), (2, 3), (2, 4)] ∧
  [Cause.channelMismatch, .offsetOverflow, .ioError .fetch, .ioError .store, .undefinedCode, .indexRange].map
      (fun c => (c.code.toNat, c.sub.toNat)) = [(3, 0), (4, 0), (5, 1), (5, 2), (6, 1), (6, 2)]

/-- `CLR` (R233): its code, that it is the only command accepted while an error is pending, and its whole effect. -/
def Obligations.ClrClearsTheLatch : Prop :=
  decodeCommand 0x0F = some .clr ∧
  (∀ (s : State) (code : Byte), s.busy = false → s.err ≠ 0 → (s.issue code ≠ s ↔ code = 0x0F)) ∧
  ∀ s : State, ∃ t, exec .clr s = .next t ∧
    t = { s with status := t.status, errIdx := 0, errAddr := 0, doing := .idle } ∧
    t.err = 0 ∧ t.sub = 0 ∧ t.warnHres = false ∧ t.warnIres = false ∧ t.warnOdd = false ∧
    t.busy = false ∧ t.done = true ∧
    ∀ k, k = 2 ∨ k = 3 ∨ k = 7 ∨ k = 11 → t.status.getLsbD k = s.status.getLsbD k

/-- An error pending is never overwritten: `ERR`, `SUB`, `ERR_IDX`, `ERR_ADDR` keep their values through every step
but a reset and `CLR`'s turn (R272). -/
def Obligations.ErrorLatchHolds : Prop :=
  ∀ s t : State, BusyLegal s → s.err ≠ 0 → step s = .next t →
    (t.err = s.err ∧ t.sub = s.sub ∧ t.errIdx = s.errIdx ∧ t.errAddr = s.errAddr) ∨
    (∃ rest, s.agenda = .reset :: rest) ∨ CommandTurn 0x0F s

/-- The warning flags are sticky: `WARN_HRES`, `WARN_IRES` and `WARN_ODD` (bits 8 to 10) of `STATUS` as the host reads it,
once set, stay set through every step but a reset and `CLR`'s turn (R34, R274). -/
def Obligations.WarningsAreSticky : Prop :=
  ∀ s t : State, ShownLegal s → step s = .next t →
    (∀ k, 8 ≤ k → k ≤ 10 → s.shownStatus.getLsbD k = true → t.shownStatus.getLsbD k = true) ∨
    (∃ rest, s.agenda = .reset :: rest) ∨ CommandTurn 0x0F s

/-! ### The colour converter -/

/-- `TO16` (R123) with `to16` (R120): its code, its result, and its frame. -/
def Obligations.To16Quantises : Prop :=
  decodeCommand 0x01 = some .to16 ∧
  ∀ s : State, ∃ t, exec .to16 s = .next t ∧
    t = { s with rgb16 := t.rgb16, status := statusEnded s.status, doing := .idle } ∧
    t.rgb16.toNat =
      ((s.rgb24.extractLsb' 16 8).toNat * 249 + 1014) / 2 ^ 11 * 2 ^ 11 +
      ((s.rgb24.extractLsb' 8 8).toNat * 253 + 505) / 2 ^ 10 * 2 ^ 5 +
      ((s.rgb24.extractLsb' 0 8).toNat * 249 + 1014) / 2 ^ 11

/-- `TO24` (R124) with `to24` (R121): its code, its result, and its frame. -/
def Obligations.To24Expands : Prop :=
  decodeCommand 0x02 = some .to24 ∧
  ∀ s : State, ∃ t, exec .to24 s = .next t ∧
    t = { s with rgb24 := t.rgb24, status := statusEnded s.status, doing := .idle } ∧
    t.rgb24.toNat =
      ((s.rgb16.extractLsb' 11 5).toNat * 527 + 23) / 2 ^ 6 * 2 ^ 16 +
      ((s.rgb16.extractLsb' 5 6).toNat * 259 + 33) / 2 ^ 6 * 2 ^ 8 +
      ((s.rgb16.extractLsb' 0 5).toNat * 527 + 23) / 2 ^ 6

/-- Expanding and quantising again loses nothing (R126 (c)). -/
def Obligations.To16InvertsTo24 : Prop := ∀ v : U16, to16 (to24 v) = v

/-- The quantisation error bound: at most 4 in red and blue, at most 2 in green (R126 (d)). -/
def Obligations.QuantisationErrorBound : Prop :=
  ∀ p : Pixel,
    ((to24 (to16 p)).r.toNat ≤ p.r.toNat + 4 ∧ p.r.toNat ≤ (to24 (to16 p)).r.toNat + 4) ∧
    ((to24 (to16 p)).g.toNat ≤ p.g.toNat + 2 ∧ p.g.toNat ≤ (to24 (to16 p)).g.toNat + 2) ∧
    ((to24 (to16 p)).b.toNat ≤ p.b.toNat + 4 ∧ p.b.toNat ≤ (to24 (to16 p)).b.toNat + 4)

/-! ### The read and write primitives -/

/-- `ReadU8`, `ReadU16`, `ReadU32` at `SP` (R64): a short read, then an access fault, else the big-endian value with
`SP` advanced. -/
def Obligations.FetchPrimitive : Prop :=
  ∀ (g : Stage) (s : State),
    (s.clen.toNat < s.sp.toNat + 1 → readU8 g s = .error ⟨.truncated g, s.sp.toNat⟩ s) ∧
    (s.clen.toNat < s.sp.toNat + 2 → readU16 g s = .error ⟨.truncated g, s.sp.toNat⟩ s) ∧
    (s.clen.toNat < s.sp.toNat + 4 → readU32 g s = .error ⟨.truncated g, s.sp.toNat⟩ s) ∧
    (s.sp.toNat + 1 ≤ s.clen.toNat → s.params.accessFaults .fetch s.sp.toNat 1 = true →
      readU8 g s = .error ⟨.ioError .fetch, s.sp.toNat⟩ s) ∧
    (s.sp.toNat + 2 ≤ s.clen.toNat → s.params.accessFaults .fetch s.sp.toNat 2 = true →
      readU16 g s = .error ⟨.ioError .fetch, s.sp.toNat⟩ s) ∧
    (s.sp.toNat + 4 ≤ s.clen.toNat → s.params.accessFaults .fetch s.sp.toNat 4 = true →
      readU32 g s = .error ⟨.ioError .fetch, s.sp.toNat⟩ s) ∧
    (s.readable s.sp.toNat 1 = true → ∃ t v, readU8 g s = .ok v t ∧ t = { s with sp := t.sp } ∧
      t.sp.toNat = s.sp.toNat + 1 ∧ v = s.cm.read s.sp.toNat) ∧
    (s.readable s.sp.toNat 2 = true → ∃ t v, readU16 g s = .ok v t ∧ t = { s with sp := t.sp } ∧
      t.sp.toNat = s.sp.toNat + 2 ∧
      v.toNat = (s.cm.read s.sp.toNat).toNat * 2 ^ 8 + (s.cm.read (s.sp.toNat + 1)).toNat) ∧
    (s.readable s.sp.toNat 4 = true → ∃ t v, readU32 g s = .ok v t ∧ t = { s with sp := t.sp } ∧
      t.sp.toNat = s.sp.toNat + 4 ∧
      v.toNat = (s.cm.read s.sp.toNat).toNat * 2 ^ 24 + (s.cm.read (s.sp.toNat + 1)).toNat * 2 ^ 16 +
        (s.cm.read (s.sp.toNat + 2)).toNat * 2 ^ 8 + (s.cm.read (s.sp.toNat + 3)).toNat)

/-- `WriteU8`, `WriteU16` and `WriteU32` at `SP` (R65): an access fault stores nothing; else the bytes most significant first,
`CLEN` raised and `SP` advanced, every other cell as before. -/
def Obligations.StorePrimitive : Prop :=
  ∀ (s : State) (b : Byte) (v : U16) (x : U32), s.sp.toNat + 4 ≤ 2 ^ 33 →
    (s.params.accessFaults .store s.sp.toNat 1 = true →
      writeU8 b s = .error ⟨.ioError .store, s.sp.toNat⟩ s) ∧
    (s.params.accessFaults .store s.sp.toNat 1 = false →
      ∃ t, writeU8 b s = .ok () t ∧ t = { s with cm := t.cm, clen := t.clen, sp := t.sp } ∧
        t.sp.toNat = s.sp.toNat + 1 ∧ t.clen.toNat = max s.clen.toNat (s.sp.toNat + 1) ∧
        t.cm.read s.sp.toNat = b ∧ ∀ c, c ≠ s.sp.toNat → t.cm.read c = s.cm.read c) ∧
    (s.params.accessFaults .store s.sp.toNat 2 = true →
      writeU16 v s = .error ⟨.ioError .store, s.sp.toNat⟩ s) ∧
    (s.params.accessFaults .store s.sp.toNat 4 = true →
      writeU32 x s = .error ⟨.ioError .store, s.sp.toNat⟩ s) ∧
    (s.params.accessFaults .store s.sp.toNat 2 = false →
      ∃ t, writeU16 v s = .ok () t ∧ t = { s with cm := t.cm, clen := t.clen, sp := t.sp } ∧
        t.sp.toNat = s.sp.toNat + 2 ∧ t.clen.toNat = max s.clen.toNat (s.sp.toNat + 2) ∧
        (t.cm.read s.sp.toNat).toNat = v.toNat / 2 ^ 8 ∧
        (t.cm.read (s.sp.toNat + 1)).toNat = v.toNat % 2 ^ 8 ∧
        ∀ c, c < s.sp.toNat ∨ s.sp.toNat + 2 ≤ c → t.cm.read c = s.cm.read c) ∧
    (s.params.accessFaults .store s.sp.toNat 4 = false →
      ∃ t, writeU32 x s = .ok () t ∧ t = { s with cm := t.cm, clen := t.clen, sp := t.sp } ∧
        t.sp.toNat = s.sp.toNat + 4 ∧ t.clen.toNat = max s.clen.toNat (s.sp.toNat + 4) ∧
        (t.cm.read s.sp.toNat).toNat = x.toNat / 2 ^ 24 ∧
        (t.cm.read (s.sp.toNat + 1)).toNat = x.toNat / 2 ^ 16 % 2 ^ 8 ∧
        (t.cm.read (s.sp.toNat + 2)).toNat = x.toNat / 2 ^ 8 % 2 ^ 8 ∧
        (t.cm.read (s.sp.toNat + 3)).toNat = x.toNat % 2 ^ 8 ∧
        ∀ c, c < s.sp.toNat ∨ s.sp.toNat + 4 ≤ c → t.cm.read c = s.cm.read c)

/-! ### The header marshaler -/

/-- `HDR_GET` on a readable header with the right tag and an accepted version (R140). -/
def Obligations.HdrGetParses : Prop :=
  ∀ s : State, s.readable 0 12 = true → s.word32At 0 = s.params.magicTag →
    s.word16At 6 = 2 ∨ s.word16At 6 = 3 →
    exec .hdrGet s = .next { s with
      imageCount := s.word16At 4, version := s.word16At 6, scanLineLen := s.word16At 8, hres := s.word16At 10
      sp := 12
      status := statusEnded (if s.word16At 10 = 0 then s.status else statusWarnHres s.status)
      doing := .idle }

/-- What `HDR_GET` raises, in the order of R269: a tag that cannot be read, a wrong tag, a field that cannot be read, a
wrong version. No header register changes (R140, R277 (b)). -/
def Obligations.HdrGetRefuses : Prop :=
  ∀ s : State,
    (s.readable 0 4 = false → exec .hdrGet s = .next ((s.withSp 0).takeError
      ⟨if s.clen.toNat < 4 then .truncated .header else .ioError .fetch, 0⟩)) ∧
    (s.readable 0 4 = true → s.word32At 0 ≠ s.params.magicTag →
      exec .hdrGet s = .next ((s.withSp 4).takeError ⟨.badTag, 0⟩)) ∧
    (∀ a ∈ [4, 6, 8, 10], s.readable 0 a = true → s.word32At 0 = s.params.magicTag → s.readable a 2 = false →
      exec .hdrGet s = .next ((s.withSp a).takeError
        ⟨if s.clen.toNat < a + 2 then .truncated .header else .ioError .fetch, a⟩)) ∧
    (s.readable 0 12 = true → s.word32At 0 = s.params.magicTag → s.word16At 6 ≠ 2 → s.word16At 6 ≠ 3 →
      exec .hdrGet s = .next ((s.withSp 12).takeError ⟨.badVersion, 6⟩))

/-- `HDR_PUT` begins a new container (R141, R146): the twelve bytes, the registers, and the frame. -/
def Obligations.HdrPutEmits : Prop :=
  ∀ s : State, s.params.accessFaults .store 0 12 = false →
    ∃ cm', exec .hdrPut s = .next { s with
        version := 3, scanLineLen := 0, hres := 0, runpix := 0, clen := 12, sp := 12, cm := cm'
        status := statusEnded s.status, doing := .idle } ∧
      cm'.readBytes 0 12 = bytes32 s.params.magicTag ++ bytes16 s.imageCount ++ [0, 3, 0, 0, 0, 0] ∧
      ∀ c, 12 ≤ c → cm'.read c = s.cm.read c

/-- `IHDR_GET` on a readable image header with some payload (R142). -/
def Obligations.IhdrGetParses : Prop :=
  ∀ s : State, s.readable (ihdrAddr s.idx) 12 = true →
    s.word32At (ihdrAddr s.idx + 4) ≠ 0 ∨ s.word32At (ihdrAddr s.idx + 8) ≠ 0 →
    exec .ihdrGet s = .next { s with
      width := dimDec (s.byteAt (ihdrAddr s.idx)), height := dimDec (s.byteAt (ihdrAddr s.idx + 1))
      ires := s.word16At (ihdrAddr s.idx + 2)
      unpackedOff := s.word32At (ihdrAddr s.idx + 4), packedOff := s.word32At (ihdrAddr s.idx + 8)
      sp := BitVec.ofNat 34 (ihdrAddr s.idx + 12)
      status := statusEnded
        (if s.word16At (ihdrAddr s.idx + 2) = 0 then s.status else statusWarnIres s.status)
      doing := .idle }

/-- What `IHDR_GET` raises: the first field that cannot be read, then both offsets 0. No image header register
changes (R142, R269, R277 (b)). -/
def Obligations.IhdrGetRefuses : Prop :=
  ∀ s : State,
    (∀ f ∈ [(0, 1), (1, 1), (2, 2), (4, 4), (8, 4)],
      (f.1 ≠ 0 → s.readable (ihdrAddr s.idx) f.1 = true) → s.readable (ihdrAddr s.idx + f.1) f.2 = false →
      exec .ihdrGet s = .next ((s.withSp (ihdrAddr s.idx + f.1)).takeError
        ⟨if s.clen.toNat < ihdrAddr s.idx + f.1 + f.2 then .truncated .imageHeader else .ioError .fetch,
          ihdrAddr s.idx + f.1⟩)) ∧
    (s.readable (ihdrAddr s.idx) 12 = true → s.word32At (ihdrAddr s.idx + 4) = 0 →
      s.word32At (ihdrAddr s.idx + 8) = 0 →
      exec .ihdrGet s = .next ((s.withSp (ihdrAddr s.idx + 12)).takeError ⟨.noPayload, ihdrAddr s.idx + 4⟩))

/-- `IHDR_PUT` emits one image header with the encoder's constants (R143, R146): the twelve bytes, the registers, and
the frame. -/
def Obligations.IhdrPutEmits : Prop :=
  ∀ s : State, s.dimsOk = true → s.unpackedOff ≠ 0 →
    s.params.accessFaults .store (ihdrAddr s.idx) 12 = false →
    ∃ cm', exec .ihdrPut s = .next { s with
        ires := 0, packedOff := 0, cm := cm'
        clen := BitVec.ofNat 34 (max s.clen.toNat (ihdrAddr s.idx + 12))
        sp := BitVec.ofNat 34 (ihdrAddr s.idx + 12)
        status := statusEnded s.status, doing := .idle } ∧
      cm'.readBytes (ihdrAddr s.idx) 12 =
        [dimEnc s.width, dimEnc s.height, 0, 0] ++ bytes32 s.unpackedOff ++ [0, 0, 0, 0] ∧
      ∀ c, c < ihdrAddr s.idx ∨ ihdrAddr s.idx + 12 ≤ c → cm'.read c = s.cm.read c

/-- `IHDR_PUT`'s two checks come before the first store and change nothing but the latch (R143, R147). -/
def Obligations.IhdrPutRefuses : Prop :=
  ∀ s : State,
    (s.dimsOk = false → exec .ihdrPut s = .next (s.takeError ⟨.badDimension, 12 + 12 * s.idx.toNat⟩)) ∧
    (s.dimsOk = true → s.unpackedOff = 0 →
      exec .ihdrPut s = .next (s.takeError ⟨.noPayload, 12 + 12 * s.idx.toNat + 4⟩))

/-- A container header that `HDR_PUT` emitted is accepted by `HDR_GET` and gives back the image count and the
constants, on a memory whose accesses do not fail, whatever the registers hold when it is parsed (R140, R141). -/
def Obligations.ContainerHeaderRoundTrip : Prop :=
  ∀ s : State, s.params.cmFault = [] →
    ∃ t, exec .hdrPut s = .next t ∧ t.err = s.err ∧
      ∀ r : State, r.cm = t.cm → r.clen = t.clen → r.params = t.params →
        ∃ u, exec .hdrGet r = .next u ∧
          u.imageCount = s.imageCount ∧ u.version = 3 ∧ u.scanLineLen = 0 ∧ u.hres = 0 ∧ u.err = r.err ∧
          u.cm = t.cm

/-- An image header that `IHDR_PUT` emitted is accepted by `IHDR_GET` and gives back the dimensions, 256 included, and
the offset, on a memory whose accesses do not fail, whatever the registers but `IDX` hold when it is parsed (R142,
R143, R97). -/
def Obligations.ImageHeaderRoundTrip : Prop :=
  ∀ s : State, s.params.cmFault = [] → s.dimsOk = true → s.unpackedOff ≠ 0 →
    ∃ t, exec .ihdrPut s = .next t ∧ t.err = s.err ∧
      ∀ r : State, r.cm = t.cm → r.clen = t.clen → r.idx = t.idx → r.params = t.params →
        ∃ u, exec .ihdrGet r = .next u ∧
          u.width = s.width ∧ u.height = s.height ∧ u.unpackedOff = s.unpackedOff ∧ u.packedOff = 0 ∧ u.ires = 0 ∧
          u.err = r.err ∧ u.cm = t.cm

/-- What the unit does with a container header record it has fetched at `SP` (R91, R140): the tag is judged first,
the version after all fields. -/
def Obligations.ContainerHeaderRecord : Prop :=
  ∀ (s : State) (m : U32) (n v l x : U16),
    (m ≠ s.params.magicTag → exec (.containerHeader m n v l x) s =
      .next ((s.withSp (s.sp.toNat + 4)).takeError ⟨.badTag, 0⟩)) ∧
    (m = s.params.magicTag → v ≠ 2 → v ≠ 3 → exec (.containerHeader m n v l x) s =
      .next ((s.withSp (s.sp.toNat + 12)).takeError ⟨.badVersion, 6⟩)) ∧
    (m = s.params.magicTag → v = 2 ∨ v = 3 → exec (.containerHeader m n v l x) s = .next { s with
      imageCount := n, version := v, scanLineLen := l, hres := x, sp := BitVec.ofNat 34 (s.sp.toNat + 12)
      status := if x = 0 then s.status else statusWarnHres s.status })

/-- What the unit does with an image header record it has fetched at `SP` (R92, R142). The host reads the warning when
the command ends, not before (log 26). -/
def Obligations.ImageHeaderRecord : Prop :=
  ∀ (s : State) (w h : Byte) (x : U16) (u p : U32),
    (u = 0 → p = 0 → exec (.imageHeader w h x u p) s =
      .next ((s.withSp (s.sp.toNat + 12)).takeError ⟨.noPayload, ihdrAddr s.idx + 4⟩)) ∧
    (u ≠ 0 ∨ p ≠ 0 → exec (.imageHeader w h x u p) s = .next { s with
      width := if w = 0 then 256 else w.setWidth 16, height := if h = 0 then 256 else h.setWidth 16
      ires := x, unpackedOff := u, packedOff := p, sp := BitVec.ofNat 34 (s.sp.toNat + 12)
      status := if x = 0 then s.status else statusWarnIres s.status })

/-! ### The raw payload codec -/

/-- `RAW_DEC` on a readable payload (R170): every pixel of the image, every other cell of `PM` as before, and the
frame. -/
def Obligations.RawDecDecodes : Prop :=
  ∀ s : State, s.dimsOk = true → s.readable s.unpackedOff.toNat (2 * s.pixelCount) = true →
    s.pm.wf Config.pmDepth = true →
    ∃ pm', exec .rawDec s = .next { s with
        pm := pm', sp := BitVec.ofNat 34 (s.unpackedOff.toNat + 2 * s.pixelCount)
        status := statusEnded s.status, doing := .idle } ∧
      (∀ i, i < s.pixelCount → pm'.read i = to24 (s.word16At (s.unpackedOff.toNat + 2 * i))) ∧
      ∀ i, s.pixelCount ≤ i → pm'.read i = s.pm.read i

/-- What `RAW_DEC` raises: illegal dimensions, with nothing changed; or the first pixel word that cannot be read, and
then every cell of `PM` is unspecified (R170, R277 (c)). -/
def Obligations.RawDecStops : Prop :=
  ∀ s : State,
    (s.dimsOk = false → exec .rawDec s = .next (s.takeError ⟨.badDimension, ihdrAddr s.idx⟩)) ∧
    ∀ i, s.dimsOk = true → i < s.pixelCount → (i ≠ 0 → s.readable s.unpackedOff.toNat (2 * i) = true) →
      s.readable (s.unpackedOff.toNat + 2 * i) 2 = false →
      exec .rawDec s = .next (State.takeError
        { s with
          sp := BitVec.ofNat 34 (s.unpackedOff.toNat + 2 * i)
          pm := { fill := .free s.freeCount, cells := [] }, freeCount := s.freeCount + 1 }
        ⟨if s.clen.toNat < s.unpackedOff.toNat + 2 * i + 2 then .truncated .rawPayload else .ioError .fetch,
          s.unpackedOff.toNat + 2 * i⟩)

/-- `RAW_ENC` (R171): every pixel word stored, every other cell of `CM` as before, and the frame. -/
def Obligations.RawEncEncodes : Prop :=
  ∀ s : State, s.dimsOk = true → s.params.accessFaults .store s.unpackedOff.toNat (2 * s.pixelCount) = false →
    ∃ cm', exec .rawEnc s = .next { s with
        cm := cm'
        clen := BitVec.ofNat 34 (max s.clen.toNat (s.unpackedOff.toNat + 2 * s.pixelCount))
        sp := BitVec.ofNat 34 (s.unpackedOff.toNat + 2 * s.pixelCount)
        status := statusEnded s.status, doing := .idle } ∧
      (∀ i, i < s.pixelCount →
        be16 (cm'.read (s.unpackedOff.toNat + 2 * i)) (cm'.read (s.unpackedOff.toNat + 2 * i + 1)) =
          to16 (s.pm.read i)) ∧
      ∀ c, c < s.unpackedOff.toNat ∨ s.unpackedOff.toNat + 2 * s.pixelCount ≤ c → cm'.read c = s.cm.read c

/-- What `RAW_ENC` raises: illegal dimensions, with nothing stored; or the first store that fails, the words before it
staying stored (R171, R277 (g)). -/
def Obligations.RawEncStops : Prop :=
  ∀ s : State,
    (s.dimsOk = false → exec .rawEnc s = .next (s.takeError ⟨.badDimension, ihdrAddr s.idx⟩)) ∧
    ∀ i, s.dimsOk = true → i < s.pixelCount →
      s.params.accessFaults .store s.unpackedOff.toNat (2 * i) = false →
      s.params.accessFaults .store (s.unpackedOff.toNat + 2 * i) 2 = true →
      ∃ cm', exec .rawEnc s = .next (State.takeError
          { s with
            cm := cm'
            clen := if i = 0 then s.clen
              else BitVec.ofNat 34 (max s.clen.toNat (s.unpackedOff.toNat + 2 * i))
            sp := BitVec.ofNat 34 (s.unpackedOff.toNat + 2 * i) }
          ⟨.ioError .store, s.unpackedOff.toNat + 2 * i⟩) ∧
        (∀ j, j < i →
          be16 (cm'.read (s.unpackedOff.toNat + 2 * j)) (cm'.read (s.unpackedOff.toNat + 2 * j + 1)) =
            to16 (s.pm.read j)) ∧
        ∀ c, c < s.unpackedOff.toNat ∨ s.unpackedOff.toNat + 2 * i ≤ c → cm'.read c = s.cm.read c

/-! ### The packed payload decoder -/

/-- The offset rule (R194), on the whole range of its arguments and beyond it. -/
def Obligations.CarryRule : Prop :=
  (∀ l p o : Nat, o > l → carry l p o = (o + p, 0)) ∧ ∀ l p o : Nat, o ≤ l → carry l p o = (o, p)

/-- A carry can happen only where the scan line is shorter than the largest halved offset, 32767 (an inference of
R194's own). -/
def Obligations.CarryNeedsShortLine : Prop :=
  ∀ (l p : Nat) (ob : U16), carry l p (halfOffset ob) ≠ (halfOffset ob, p) → l ≤ 32766

/-- The preconditions of `PK_DEC`, in order; when one fails nothing but the latch changes, and there is no fourth:
`PACKED_OFF` is not tested (R190). -/
def Obligations.PkDecRefuses : Prop :=
  ∀ s : State,
    (s.dimsOk = false → exec .pkDec s = .next (s.takeError ⟨.badDimension, ihdrAddr s.idx⟩)) ∧
    (s.dimsOk = true → s.scanLineLen = 0 → exec .pkDec s = .next (s.takeError ⟨.zeroScanLine, 8⟩)) ∧
    (s.dimsOk = true → s.scanLineLen ≠ 0 → s.scanLineLen.toNat < s.width.toNat →
      exec .pkDec s = .next (s.takeError ⟨.widthGtLine, 8⟩)) ∧
    (PackedOk s → packedChecks s = .ok () s)

/-- `PK_DEC` on a readable payload gives the raster, the counters and the frame of the closed form (R203). -/
def Obligations.PkDecClosedForm : Prop :=
  ∀ (s : State) (m : U16) (chunks : List ChunkRecord), PackedOk s → s.pm.wf Config.pmDepth = true →
    chunks.length = m.toNat + 1 → (∀ k ∈ chunks, k.instr.wf = true) →
    s.readable s.packedOff.toNat (payloadBytes m chunks).length = true →
    s.cm.readBytes s.packedOff.toNat (payloadBytes m chunks).length = payloadBytes m chunks →
    ∃ pm' slb', exec .pkDec s = .next { s with
        pm := pm', slb := slb'
        sp := BitVec.ofNat 34
          (s.packedOff.toNat + 2 + (chunks.map fun k => 4 + 2 * k.pixels.length).sum)
        cur := BitVec.ofNat 34 (streamEnd s.scanLineLen.toNat 0 0 chunks).1
        prec := BitVec.ofNat 33 (streamEnd s.scanLineLen.toNat 0 0 chunks).2
        nchunk := 0, nrun := 0
        status := statusEnded (if anyOdd chunks then statusWarnOdd s.status else s.status)
        doing := .idle } ∧
      (∀ x y, x < s.width.toNat → y < s.height.toNat →
        pm'.read (y * s.width.toNat + x) =
          (streamPixel s.scanLineLen.toNat 0 0 chunks (y * s.scanLineLen.toNat + x)).getD Pixel.black) ∧
      ∀ i, s.pixelCount ≤ i → pm'.read i = s.pm.read i

/-- Where a packed decode stops: the preamble, a chunk's header words, or a run pixel that cannot be read, after the
chunks of `done` have been read whole. The counters tell where, every cell of `PM` is unspecified (R200, R277), and
`WARN_ODD` is as it was before the command, odd offsets in `done` or not (D20; log 27). -/
def Obligations.PkDecStopsInStream : Prop :=
  ∀ s : State, PackedOk s →
    (s.readable s.packedOff.toNat 2 = false → exec .pkDec s = .next (s.withPackedStart.loosePm.takeError
      ⟨if s.clen.toNat < s.packedOff.toNat + 2 then .truncated .packedPayload else .ioError .fetch,
        s.packedOff.toNat⟩)) ∧
    ∀ (m : U16) (done : List ChunkRecord), done.length ≤ m.toNat → (∀ k ∈ done, k.instr.wf = true) →
      (∀ h ∈ [0, 2], ∀ a, a = s.packedOff.toNat + (payloadBytes m done).length + h →
        s.readable s.packedOff.toNat ((payloadBytes m done).length + h) = true →
        s.cm.readBytes s.packedOff.toNat (payloadBytes m done).length = payloadBytes m done →
        s.readable a 2 = false →
        ∃ slb', exec .pkDec s = .next (State.takeError
          { s with
            slb := slb', sp := BitVec.ofNat 34 a
            cur := BitVec.ofNat 34 (streamEnd s.scanLineLen.toNat 0 0 done).1
            prec := BitVec.ofNat 33 (streamEnd s.scanLineLen.toNat 0 0 done).2
            nchunk := BitVec.ofNat 17 (m.toNat + 1 - done.length), nrun := 0
            pm := { fill := .free s.freeCount, cells := [] }, freeCount := s.freeCount + 1 }
          ⟨if s.clen.toNat < a + 2 then .truncated .packedPayload else .ioError .fetch, a⟩)) ∧
      ∀ (part : ChunkRecord) (a : Nat), part.pixels.length ≤ part.runLength.toNat →
        a = s.packedOff.toNat + (payloadBytes m (done ++ [part])).length →
        s.readable s.packedOff.toNat (payloadBytes m (done ++ [part])).length = true →
        s.cm.readBytes s.packedOff.toNat (payloadBytes m (done ++ [part])).length =
          payloadBytes m (done ++ [part]) →
        s.readable a 2 = false →
        ∃ slb', exec .pkDec s = .next (State.takeError
          { s with
            slb := slb', sp := BitVec.ofNat 34 a
            cur := BitVec.ofNat 34 (streamEnd s.scanLineLen.toNat 0 0 (done ++ [part])).1
            prec := BitVec.ofNat 33 (streamEnd s.scanLineLen.toNat 0 0 (done ++ [part])).2
            nchunk := BitVec.ofNat 17 (m.toNat + 1 - done.length)
            nrun := BitVec.ofNat 17 (part.runLength.toNat + 1 - part.pixels.length)
            pm := { fill := .free s.freeCount, cells := [] }, freeCount := s.freeCount + 1 }
          ⟨if s.clen.toNat < a + 2 then .truncated .packedPayload else .ioError .fetch, a⟩)

/-- What the unit does with a packed preamble it has fetched at `SP`: the count plus one, never truncated (R93, R98,
R191). -/
def Obligations.PreambleRecord : Prop :=
  ∀ (s : State) (c : U16), ∃ t, exec (.packedPreamble c) s = .next t ∧
    t = { s with nchunk := t.nchunk, sp := BitVec.ofNat 34 (s.sp.toNat + 2) } ∧ t.nchunk.toNat = c.toNat + 1

/-- What the unit does with a chunk record it has fetched at `SP` (R193 to R197): skip, then copy; the skipped cells
and those at or beyond `L*H` are not written. The warning is the unit's own until the command ends, and lasts if the
decode succeeds (log 26, log 27). -/
def Obligations.ChunkRecordSkipsAndCopies : Prop :=
  ∀ (s : State) (ob rs : U16) (px : List U16) (delta prec' start : Nat),
    px.length = rs.toNat + 1 → carry s.scanLineLen.toNat s.prec.toNat (ob.toNat / 2) = (delta, prec') →
    start = s.cur.toNat + delta → start + px.length < 2 ^ 34 → prec' + px.length < 2 ^ 33 →
    rising s.slb.cells = true →
    ∃ slb', exec (.chunk ob rs px) s = .next { s with
        slb := slb'
        status := if ob.toNat % 2 = 1 then statusWarnOdd s.status else s.status
        cur := BitVec.ofNat 34 (start + px.length), prec := BitVec.ofNat 33 (prec' + px.length)
        nrun := 0, nchunk := s.nchunk - 1
        sp := BitVec.ofNat 34 (s.sp.toNat + 4 + 2 * px.length) } ∧
      (∀ j v, px[j]? = some v → start + j < s.scanLineLen.toNat * s.height.toNat →
        slb'.read (start + j) = to24 v) ∧
      ∀ i, i < start ∨ start + px.length ≤ i ∨ s.scanLineLen.toNat * s.height.toNat ≤ i →
        slb'.read i = s.slb.read i

/-- What the unit does with a pixel word it has fetched at `SP`: in a raw payload the pixel goes to the `PM` cell of its
place (R170), in a packed one to the cell of `SLB` at the cursor (R196, R197). -/
def Obligations.PixelRecordSteps : Prop :=
  ∀ (s : State) (r : BitVec 5) (g : BitVec 6) (b : BitVec 5) (p : Pixel),
    p = ⟨BitVec.ofNat 8 ((r.toNat * 527 + 23) / 64), BitVec.ofNat 8 ((g.toNat * 259 + 33) / 64),
      BitVec.ofNat 8 ((b.toNat * 527 + 23) / 64)⟩ →
    (s.doing.place = some .rawPixels → exec (.pixel r g b) s = .next { s with
      sp := BitVec.ofNat 34 (s.sp.toNat + 2)
      pm := s.pm.write ((s.sp.toNat - s.unpackedOff.toNat) / 2) p }) ∧
    (s.doing.place ≠ some .rawPixels → exec (.pixel r g b) s = .next { s with
      sp := BitVec.ofNat 34 (s.sp.toNat + 2)
      slb := if s.cur.toNat < s.scanLineLen.toNat * s.height.toNat then s.slb.write s.cur.toNat p else s.slb
      cur := BitVec.ofNat 34 (s.cur.toNat + 1), prec := BitVec.ofNat 33 (s.prec.toNat + 1), nrun := s.nrun - 1 })

/-! ### The sequencer -/

/-- `IMG_DEC` on an accepted image header is `IHDR_GET` and then the payload command the offsets select (R234, R235);
it always ends. -/
def Obligations.ImgDecDispatches : Prop :=
  ∀ s : State, s.idx.toNat < s.imageCount.toNat → s.readable (ihdrAddr s.idx) 12 = true →
    s.word32At (ihdrAddr s.idx + 4) ≠ 0 ∨ s.word32At (ihdrAddr s.idx + 8) ≠ 0 →
    ∃ t u, exec .ihdrGet s = .next t ∧ exec .imgDec s = .next u ∧
      (s.word32At (ihdrAddr s.idx + 4) ≠ 0 → exec .rawDec t = .next u) ∧
      (s.word32At (ihdrAddr s.idx + 4) = 0 → exec .pkDec t = .next u)

/-- `IMG_DEC` of a raw image: the header's registers, the raster, and the frame; `PACKED_OFF` and `SCAN_LINE_LEN` do
not matter (R234, R235). -/
def Obligations.ImgDecDecodesRawImage : Prop :=
  ∀ (s : State) (off w h : Nat), s.idx.toNat < s.imageCount.toNat → s.readable (ihdrAddr s.idx) 12 = true →
    off = (s.word32At (ihdrAddr s.idx + 4)).toNat → off ≠ 0 →
    w = (dimDec (s.byteAt (ihdrAddr s.idx))).toNat → h = (dimDec (s.byteAt (ihdrAddr s.idx + 1))).toNat →
    s.readable off (2 * (w * h)) = true → s.pm.wf Config.pmDepth = true →
    ∃ pm', exec .imgDec s = .next { s with
        width := dimDec (s.byteAt (ihdrAddr s.idx)), height := dimDec (s.byteAt (ihdrAddr s.idx + 1))
        ires := s.word16At (ihdrAddr s.idx + 2)
        unpackedOff := s.word32At (ihdrAddr s.idx + 4), packedOff := s.word32At (ihdrAddr s.idx + 8)
        pm := pm', sp := BitVec.ofNat 34 (off + 2 * (w * h))
        status := statusEnded
          (if s.word16At (ihdrAddr s.idx + 2) = 0 then s.status else statusWarnIres s.status)
        doing := .idle } ∧
      (∀ i, i < w * h → pm'.read i = to24 (s.word16At (off + 2 * i))) ∧
      ∀ i, w * h ≤ i → pm'.read i = s.pm.read i

/-- `IMG_DEC` with an index out of range changes nothing but the latch; with a header that `IHDR_GET` refuses it ends
as `IHDR_GET` does (R234, R269). -/
def Obligations.ImgDecRefuses : Prop :=
  ∀ s : State,
    (s.imageCount.toNat ≤ s.idx.toNat → exec .imgDec s = .next (s.takeError ⟨.indexRange, 0⟩)) ∧
    (s.idx.toNat < s.imageCount.toNat →
      s.readable (ihdrAddr s.idx) 12 = false ∨
        (s.word32At (ihdrAddr s.idx + 4) = 0 ∧ s.word32At (ihdrAddr s.idx + 8) = 0) →
      exec .imgDec s = exec .ihdrGet s)

/-- `IMG_ENC` of a valid image (R236): placed at `enc_offset`, its header and its pixel words stored, counted, and the
frame. -/
def Obligations.ImgEncEncodes : Prop :=
  ∀ (s : State) (off : Nat), off = 12 + 12 * s.imageCount.toNat + 2 * s.runpix.toNat →
    s.idx.toNat < s.imageCount.toNat → s.channels = 3 → s.dimsOk = true → off ≤ 0xFFFFFFFF →
    s.params.accessFaults .store (ihdrAddr s.idx) 12 = false →
    s.params.accessFaults .store off (2 * s.pixelCount) = false →
    ∃ cm', exec .imgEnc s = .next { s with
        unpackedOff := BitVec.ofNat 32 off, ires := 0, packedOff := 0
        runpix := BitVec.ofNat 32 (s.runpix.toNat + s.pixelCount)
        cm := cm', clen := BitVec.ofNat 34 (max s.clen.toNat (off + 2 * s.pixelCount))
        sp := BitVec.ofNat 34 (off + 2 * s.pixelCount)
        status := statusEnded s.status, doing := .idle } ∧
      cm'.readBytes (ihdrAddr s.idx) 12 =
        [dimEnc s.width, dimEnc s.height, 0, 0] ++ bytes32 (BitVec.ofNat 32 off) ++ [0, 0, 0, 0] ∧
      (∀ i, i < s.pixelCount → be16 (cm'.read (off + 2 * i)) (cm'.read (off + 2 * i + 1)) = to16 (s.pm.read i)) ∧
      ∀ c, (c < ihdrAddr s.idx ∨ ihdrAddr s.idx + 12 ≤ c) → (c < off ∨ off + 2 * s.pixelCount ≤ c) →
        cm'.read c = s.cm.read c

/-- What `IMG_ENC` raises, in the order of R237; each comes before the first store and changes nothing but the latch
(R236, R264, R265). -/
def Obligations.ImgEncRefuses : Prop :=
  ∀ s : State,
    (s.imageCount.toNat ≤ s.idx.toNat → exec .imgEnc s = .next (s.takeError ⟨.indexRange, 0⟩)) ∧
    (s.idx.toNat < s.imageCount.toNat →
      (s.channels ≠ 3 → exec .imgEnc s = .next (s.takeError ⟨.channelMismatch, 0⟩)) ∧
      (s.channels = 3 → s.dimsOk = false →
        exec .imgEnc s = .next (s.takeError ⟨.badDimension, ihdrAddr s.idx⟩)) ∧
      (s.channels = 3 → s.dimsOk = true →
        0xFFFFFFFF < 12 + 12 * s.imageCount.toNat + 2 * s.runpix.toNat →
        exec .imgEnc s = .next (s.takeError ⟨.offsetOverflow, ihdrAddr s.idx + 4⟩)))

/-- Where a store of `HDR_PUT`, `IHDR_PUT` or `IMG_ENC` fails, in the header's fields or in the pixel words: the bytes
before it stay stored, `CLEN` and `SP` say so, the registers the command has written keep their new values, `RUNPIX` is
not counted, and nothing else changes (R141, R143, R236, R266, R277 (g)). -/
def Obligations.EncodersStopAtStore : Prop :=
  ∀ s : State,
    (∀ f ∈ [(0, 4), (4, 2), (6, 2), (8, 2), (10, 2)],
      s.params.accessFaults .store 0 f.1 = false → s.params.accessFaults .store f.1 f.2 = true →
      ∃ cm', exec .hdrPut s = .next (State.takeError
          { s with
            version := 3, scanLineLen := 0, hres := 0, runpix := 0
            clen := BitVec.ofNat 34 f.1, sp := BitVec.ofNat 34 f.1, cm := cm' }
          ⟨.ioError .store, f.1⟩) ∧
        cm'.readBytes 0 f.1 =
          (bytes32 s.params.magicTag ++ bytes16 s.imageCount ++ [0, 3, 0, 0, 0, 0]).take f.1 ∧
        ∀ c, f.1 ≤ c → cm'.read c = s.cm.read c) ∧
    (s.dimsOk = true → s.unpackedOff ≠ 0 → ∀ f ∈ [(0, 1), (1, 1), (2, 2), (4, 4), (8, 4)], ∀ a, a = ihdrAddr s.idx →
      s.params.accessFaults .store a f.1 = false → s.params.accessFaults .store (a + f.1) f.2 = true →
      ∃ cm', exec .ihdrPut s = .next (State.takeError
          { s with
            ires := 0, packedOff := 0, cm := cm'
            clen := if f.1 = 0 then s.clen else BitVec.ofNat 34 (max s.clen.toNat (a + f.1))
            sp := BitVec.ofNat 34 (a + f.1) }
          ⟨.ioError .store, a + f.1⟩) ∧
        cm'.readBytes a f.1 =
          ([dimEnc s.width, dimEnc s.height, 0, 0] ++ bytes32 s.unpackedOff ++ [0, 0, 0, 0]).take f.1 ∧
        ∀ c, c < a ∨ a + f.1 ≤ c → cm'.read c = s.cm.read c) ∧
    ∀ off a : Nat, off = 12 + 12 * s.imageCount.toNat + 2 * s.runpix.toNat → a = ihdrAddr s.idx →
      s.idx.toNat < s.imageCount.toNat → s.channels = 3 → s.dimsOk = true → off ≤ 0xFFFFFFFF →
      (∀ f ∈ [(0, 1), (1, 1), (2, 2), (4, 4), (8, 4)],
        s.params.accessFaults .store a f.1 = false → s.params.accessFaults .store (a + f.1) f.2 = true →
        ∃ cm', exec .imgEnc s = .next (State.takeError
            { s with
              unpackedOff := BitVec.ofNat 32 off, ires := 0, packedOff := 0, cm := cm'
              clen := if f.1 = 0 then s.clen else BitVec.ofNat 34 (max s.clen.toNat (a + f.1))
              sp := BitVec.ofNat 34 (a + f.1) }
            ⟨.ioError .store, a + f.1⟩) ∧
          cm'.readBytes a f.1 =
            ([dimEnc s.width, dimEnc s.height, 0, 0] ++ bytes32 (BitVec.ofNat 32 off) ++ [0, 0, 0, 0]).take f.1 ∧
          ∀ c, c < a ∨ a + f.1 ≤ c → cm'.read c = s.cm.read c) ∧
      ∀ i, i < s.pixelCount → s.params.accessFaults .store a 12 = false →
        s.params.accessFaults .store off (2 * i) = false → s.params.accessFaults .store (off + 2 * i) 2 = true →
        ∃ cm', exec .imgEnc s = .next (State.takeError
            { s with
              unpackedOff := BitVec.ofNat 32 off, ires := 0, packedOff := 0, cm := cm'
              clen := BitVec.ofNat 34 (max s.clen.toNat (if i = 0 then a + 12 else off + 2 * i))
              sp := BitVec.ofNat 34 (off + 2 * i) }
            ⟨.ioError .store, off + 2 * i⟩) ∧
          cm'.readBytes a 12 =
            [dimEnc s.width, dimEnc s.height, 0, 0] ++ bytes32 (BitVec.ofNat 32 off) ++ [0, 0, 0, 0] ∧
          (∀ j, j < i → be16 (cm'.read (off + 2 * j)) (cm'.read (off + 2 * j + 1)) = to16 (s.pm.read j)) ∧
          ∀ c, (c < a ∨ a + 12 ≤ c) → (c < off ∨ off + 2 * i ≤ c) → cm'.read c = s.cm.read c

/-- Encoding an image and decoding it again gives a raster of the same dimensions whose pixels are the quantised
ones, on a memory whose accesses do not fail, whatever `PM` and the header registers but `IDX` hold when it is decoded
(R234, R236; the source's property S1). -/
def Obligations.EncodedImageDecodes : Prop :=
  ∀ s : State, s.params.cmFault = [] → s.idx.toNat < s.imageCount.toNat → s.channels = 3 → s.dimsOk = true →
    12 + 12 * s.imageCount.toNat + 2 * s.runpix.toNat ≤ 0xFFFFFFFF →
    ∃ t, exec .imgEnc s = .next t ∧ t.err = s.err ∧
      ∀ r : State, r.cm = t.cm → r.clen = t.clen → r.idx = t.idx → r.params = t.params →
        r.idx.toNat < r.imageCount.toNat → r.pm.wf Config.pmDepth = true →
        ∃ u, exec .imgDec r = .next u ∧ u.err = r.err ∧ u.width = s.width ∧ u.height = s.height ∧
          ∀ i, i < s.pixelCount → u.pm.read i = to24 (to16 (s.pm.read i))

/-! ### The host's side -/

/-- A host access to a register (R41): a write keeps the low bits, `CLEN` saturates at 2^33, read-only registers and
numbers above 23 ignore it; a read above 23 returns 0. A busy unit ignores every write (R21). Nothing else changes. -/
def Obligations.RegisterWrite : Prop :=
  (∀ (s : State) (n v : Nat) (rest : List Event), s.agenda = .regWrite n v :: rest →
    (s.busy = true → step s = .next { s with agenda := rest }) ∧
    (s.busy = false → n ∈ [1, 2, 3, 19, 20, 21, 22, 23] ∨ 23 < n → step s = .next { s with agenda := rest }) ∧
    (s.busy = false → n = 4 →
      step s = .next { s with agenda := rest, clen := BitVec.ofNat 34 (min v (2 ^ 33)) }) ∧
    ∀ w, s.busy = false → writableWidth n = some w → ∃ t, step s = .next t ∧
      (t.register n).toNat = v % 2 ^ w ∧ (∀ k, k ≠ n → t.register k = s.register k) ∧
      t.cm = s.cm ∧ t.pm = s.pm ∧ t.slb = s.slb ∧ t.doing = s.doing ∧ t.params = s.params ∧
      t.agenda = rest ∧ t.readData = s.readData ∧ t.freeCount = s.freeCount) ∧
  ∀ (s : State) (n : Nat) (rest : List Event), s.agenda = .regRead n :: rest → s.busy = false → 23 < n →
    step s = .next { s with agenda := rest, readData := .register 0 }

/-- A host register read (R21, R22, R41): the register of that number in the table of R20, zero-extended, 0 for `CMD`
and for numbers above 23; while busy a free value for every register but `STATUS` (log 14). `STATUS` reads as
`shownStatus`: the register itself, but for an opened command, where it reads as before the command's first effect
(log 26). -/
def Obligations.RegisterRead : Prop :=
  ∀ (s : State) (n : Nat) (rest : List Event), s.agenda = .regRead n :: rest →
    (s.busy = false → step s = .next { s with agenda := rest, readData := .register (s.register n) }) ∧
    (n = 1 → step s = .next { s with agenda := rest, readData := .register (s.shownStatus.setWidth 34) }) ∧
    (s.busy = false ∨ s.doing.place = none → s.shownStatus = s.status) ∧
    (∀ place shown, s.busy = true → s.doing = .opened place shown → s.shownStatus = shown) ∧
    (s.busy = true → n ≠ 1 →
      step s = .next { s with
        agenda := rest, readData := .register (Config.freeRegister s.freeCount), freeCount := s.freeCount + 1 }) ∧
    (23 < n → s.register n = 0) ∧
    (List.range 24).map (fun k => (s.register k).toNat) =
      [0, s.status.toNat, s.errIdx.toNat, s.errAddr.toNat, s.clen.toNat, s.idx.toNat, s.imageCount.toNat,
        s.version.toNat, s.scanLineLen.toNat, s.hres.toNat, s.width.toNat, s.height.toNat, s.ires.toNat,
        s.unpackedOff.toNat, s.packedOff.toNat, s.rgb24.toNat, s.rgb16.toNat, s.channels.toNat, s.runpix.toNat,
        s.sp.toNat, s.cur.toNat, s.prec.toNat, s.nchunk.toNat, s.nrun.toNat]

/-- Host access to the cells of `CM` and `PM` (R77, R312): plain storage with no side effect, `CLEN` not changed;
refused while busy (U4); a fault where there is no cell. -/
def Obligations.HostMemoryAccess : Prop :=
  ∀ (s : State) (rest : List Event) (a i : Nat) (b : Byte) (p : Pixel),
    (s.busy = false → a < 2 ^ 33 → s.agenda = .cmWrite a b :: rest →
      ∃ cm', step s = .next { s with agenda := rest, cm := cm' } ∧ cm'.read a = b ∧
        ∀ c, c ≠ a → cm'.read c = s.cm.read c) ∧
    (s.busy = false → a < 2 ^ 33 → s.agenda = .cmRead a :: rest →
      step s = .next { s with agenda := rest, readData := .byte (s.cm.read a) }) ∧
    (s.busy = false → i < 65536 → rising s.pm.cells = true → s.agenda = .pmWrite i p :: rest →
      ∃ pm', step s = .next { s with agenda := rest, pm := pm' } ∧ pm'.read i = p ∧
        ∀ j, j ≠ i → pm'.read j = s.pm.read j) ∧
    (s.busy = false → i < 65536 → s.agenda = .pmRead i :: rest →
      step s = .next { s with agenda := rest, readData := .pixel (s.pm.read i) }) ∧
    (s.busy = true → s.agenda = .cmWrite a b :: rest ∨ s.agenda = .cmRead a :: rest ∨
        s.agenda = .pmWrite i p :: rest ∨ s.agenda = .pmRead i :: rest →
      step s = .refused .memoryAccessWhileBusy) ∧
    (s.busy = false → 2 ^ 33 ≤ a → s.agenda = .cmWrite a b :: rest ∨ s.agenda = .cmRead a :: rest →
      step s = .fault (.noContainerCell a)) ∧
    (s.busy = false → 65536 ≤ i → s.agenda = .pmWrite i p :: rest ∨ s.agenda = .pmRead i :: rest →
      step s = .fault (.noPixelCell i))

/-- Reset at any time, also while busy (R300): every register 0, nothing in progress, the memories unspecified anew,
the parameters untouched. -/
def Obligations.ResetAtAnyTime : Prop :=
  ∀ (s : State) (rest : List Event), s.agenda = .reset :: rest →
    ∃ t, step s = .next t ∧ (∀ n, t.register n = 0) ∧ t.busy = false ∧ t.doing = .idle ∧ t.params = s.params ∧
      t.agenda = rest ∧ (∀ a, t.cm.read a = Config.freeByte s.freeCount a) ∧
      (∀ i, t.pm.read i = Config.freePixel (s.freeCount + 1) i) ∧ s.freeCount + 3 ≤ t.freeCount

/-- What each command does right after reset (R301): the errors and the registers named there. -/
def Obligations.CommandsRightAfterReset : Prop :=
  (∀ n, State.reset.register n = 0) ∧
  exec .hdrGet State.reset = .next (State.reset.takeError ⟨.truncated .header, 0⟩) ∧
  exec .ihdrGet State.reset = .next ((State.reset.withSp 12).takeError ⟨.truncated .imageHeader, 12⟩) ∧
  exec .imgDec State.reset = .next (State.reset.takeError ⟨.indexRange, 0⟩) ∧
  exec .imgEnc State.reset = .next (State.reset.takeError ⟨.indexRange, 0⟩) ∧
  exec .rawDec State.reset = .next (State.reset.takeError ⟨.badDimension, 12⟩) ∧
  exec .pkDec State.reset = .next (State.reset.takeError ⟨.badDimension, 12⟩) ∧
  exec .ihdrPut State.reset = .next (State.reset.takeError ⟨.badDimension, 12⟩) ∧
  exec .rawEnc State.reset = .next (State.reset.takeError ⟨.badDimension, 12⟩) ∧
  (∃ t, exec .hdrPut State.reset = .next t ∧ t.clen = 12 ∧ t.imageCount = 0 ∧ t.err = 0) ∧
  (∃ t, exec .to16 State.reset = .next t ∧ t.rgb16 = 0x0000 ∧ t.err = 0) ∧
  ∃ t, exec .to24 State.reset = .next t ∧ t.rgb24 = 0x000000 ∧ t.err = 0

/-! ### The whole machine -/

/-- The invariant holds at reset. -/
def Obligations.InvariantAtReset : Prop := Inv State.reset

/-- Every step keeps the invariant: the reserved bits of `STATUS`, the latch, `BUSY`, the canonical form and extent of
the memories, the bounds of R40 (R24, R42, R310), and that the host reads `STATUS` as it is but for a `WARN_IRES` or
`WARN_ODD` that a command in progress has set (R6). -/
def Obligations.InvariantKept : Prop := ∀ s t : State, Inv s → step s = .next t → Inv t

/-- Every step keeps the order of the memories' cells, whatever else holds of the state. -/
def Obligations.MemoriesStayRising : Prop :=
  ∀ s t : State, MemoriesRising s → step s = .next t → MemoriesRising t

/-- Only the host, a reset, and the four encoding commands change `CM`: no decoding command, no colour command and no
`CLR` stores to it (R67, R277 (f)). -/
def Obligations.OnlyEncodersStore : Prop :=
  ∀ s t : State, step s = .next t → t.cm ≠ s.cm →
    (∃ a b rest, s.agenda = .cmWrite a b :: rest) ∨ (∃ rest, s.agenda = .reset :: rest) ∨
    CommandTurn 0x20 s ∨ CommandTurn 0x21 s ∨ CommandTurn 0x22 s ∨ CommandTurn 0x23 s

/-- The parameters are not state (R38), and the unit never writes `IDX` or `CHANNELS` (R20, R26, R30): only a host
write or a reset changes them. -/
def Obligations.UnitNeverWritesHostRegisters : Prop :=
  ∀ s t : State, step s = .next t →
    t.params = s.params ∧
    (t.idx ≠ s.idx → (∃ v rest, s.agenda = .regWrite 5 v :: rest) ∨ ∃ rest, s.agenda = .reset :: rest) ∧
    (t.channels ≠ s.channels → (∃ v rest, s.agenda = .regWrite 17 v :: rest) ∨ ∃ rest, s.agenda = .reset :: rest)
end

