-- ==== Sys2Proof/Laws/State.lean ====
section
/-! SUPPORT. One lemma per field of State per named update: the field's new value where the update writes it, its old
value where it does not. With them no proof unfolds a record update. -/

namespace Sys2Proof.Machine

/-! ### `State.withSp` -/

@[simp] theorem State.withSp_status (s : State) (a : Nat) : (s.withSp a).status = s.status := rfl
@[simp] theorem State.withSp_errIdx (s : State) (a : Nat) : (s.withSp a).errIdx = s.errIdx := rfl
@[simp] theorem State.withSp_errAddr (s : State) (a : Nat) : (s.withSp a).errAddr = s.errAddr := rfl
@[simp] theorem State.withSp_clen (s : State) (a : Nat) : (s.withSp a).clen = s.clen := rfl
@[simp] theorem State.withSp_idx (s : State) (a : Nat) : (s.withSp a).idx = s.idx := rfl
@[simp] theorem State.withSp_imageCount (s : State) (a : Nat) : (s.withSp a).imageCount = s.imageCount := rfl
@[simp] theorem State.withSp_version (s : State) (a : Nat) : (s.withSp a).version = s.version := rfl
@[simp] theorem State.withSp_scanLineLen (s : State) (a : Nat) : (s.withSp a).scanLineLen = s.scanLineLen := rfl
@[simp] theorem State.withSp_hres (s : State) (a : Nat) : (s.withSp a).hres = s.hres := rfl
@[simp] theorem State.withSp_width (s : State) (a : Nat) : (s.withSp a).width = s.width := rfl
@[simp] theorem State.withSp_height (s : State) (a : Nat) : (s.withSp a).height = s.height := rfl
@[simp] theorem State.withSp_ires (s : State) (a : Nat) : (s.withSp a).ires = s.ires := rfl
@[simp] theorem State.withSp_unpackedOff (s : State) (a : Nat) : (s.withSp a).unpackedOff = s.unpackedOff := rfl
@[simp] theorem State.withSp_packedOff (s : State) (a : Nat) : (s.withSp a).packedOff = s.packedOff := rfl
@[simp] theorem State.withSp_rgb24 (s : State) (a : Nat) : (s.withSp a).rgb24 = s.rgb24 := rfl
@[simp] theorem State.withSp_rgb16 (s : State) (a : Nat) : (s.withSp a).rgb16 = s.rgb16 := rfl
@[simp] theorem State.withSp_channels (s : State) (a : Nat) : (s.withSp a).channels = s.channels := rfl
@[simp] theorem State.withSp_runpix (s : State) (a : Nat) : (s.withSp a).runpix = s.runpix := rfl
@[simp] theorem State.withSp_sp (s : State) (a : Nat) : (s.withSp a).sp = BitVec.ofNat 34 a := rfl
@[simp] theorem State.withSp_cur (s : State) (a : Nat) : (s.withSp a).cur = s.cur := rfl
@[simp] theorem State.withSp_prec (s : State) (a : Nat) : (s.withSp a).prec = s.prec := rfl
@[simp] theorem State.withSp_nchunk (s : State) (a : Nat) : (s.withSp a).nchunk = s.nchunk := rfl
@[simp] theorem State.withSp_nrun (s : State) (a : Nat) : (s.withSp a).nrun = s.nrun := rfl
@[simp] theorem State.withSp_cm (s : State) (a : Nat) : (s.withSp a).cm = s.cm := rfl
@[simp] theorem State.withSp_pm (s : State) (a : Nat) : (s.withSp a).pm = s.pm := rfl
@[simp] theorem State.withSp_slb (s : State) (a : Nat) : (s.withSp a).slb = s.slb := rfl
@[simp] theorem State.withSp_doing (s : State) (a : Nat) : (s.withSp a).doing = s.doing := rfl
@[simp] theorem State.withSp_params (s : State) (a : Nat) : (s.withSp a).params = s.params := rfl
@[simp] theorem State.withSp_agenda (s : State) (a : Nat) : (s.withSp a).agenda = s.agenda := rfl
@[simp] theorem State.withSp_readData (s : State) (a : Nat) : (s.withSp a).readData = s.readData := rfl
@[simp] theorem State.withSp_freeCount (s : State) (a : Nat) : (s.withSp a).freeCount = s.freeCount := rfl

/-! ### `State.withCm` -/

@[simp] theorem State.withCm_status (s : State) (a : Nat) (b : Byte) : (s.withCm a b).status = s.status := rfl
@[simp] theorem State.withCm_errIdx (s : State) (a : Nat) (b : Byte) : (s.withCm a b).errIdx = s.errIdx := rfl
@[simp] theorem State.withCm_errAddr (s : State) (a : Nat) (b : Byte) : (s.withCm a b).errAddr = s.errAddr := rfl
@[simp] theorem State.withCm_clen (s : State) (a : Nat) (b : Byte) : (s.withCm a b).clen = s.clen := rfl
@[simp] theorem State.withCm_idx (s : State) (a : Nat) (b : Byte) : (s.withCm a b).idx = s.idx := rfl
@[simp] theorem State.withCm_imageCount (s : State) (a : Nat) (b : Byte) :
    (s.withCm a b).imageCount = s.imageCount := rfl
@[simp] theorem State.withCm_version (s : State) (a : Nat) (b : Byte) : (s.withCm a b).version = s.version := rfl
@[simp] theorem State.withCm_scanLineLen (s : State) (a : Nat) (b : Byte) :
    (s.withCm a b).scanLineLen = s.scanLineLen := rfl
@[simp] theorem State.withCm_hres (s : State) (a : Nat) (b : Byte) : (s.withCm a b).hres = s.hres := rfl
@[simp] theorem State.withCm_width (s : State) (a : Nat) (b : Byte) : (s.withCm a b).width = s.width := rfl
@[simp] theorem State.withCm_height (s : State) (a : Nat) (b : Byte) : (s.withCm a b).height = s.height := rfl
@[simp] theorem State.withCm_ires (s : State) (a : Nat) (b : Byte) : (s.withCm a b).ires = s.ires := rfl
@[simp] theorem State.withCm_unpackedOff (s : State) (a : Nat) (b : Byte) :
    (s.withCm a b).unpackedOff = s.unpackedOff := rfl
@[simp] theorem State.withCm_packedOff (s : State) (a : Nat) (b : Byte) :
    (s.withCm a b).packedOff = s.packedOff := rfl
@[simp] theorem State.withCm_rgb24 (s : State) (a : Nat) (b : Byte) : (s.withCm a b).rgb24 = s.rgb24 := rfl
@[simp] theorem State.withCm_rgb16 (s : State) (a : Nat) (b : Byte) : (s.withCm a b).rgb16 = s.rgb16 := rfl
@[simp] theorem State.withCm_channels (s : State) (a : Nat) (b : Byte) : (s.withCm a b).channels = s.channels := rfl
@[simp] theorem State.withCm_runpix (s : State) (a : Nat) (b : Byte) : (s.withCm a b).runpix = s.runpix := rfl
@[simp] theorem State.withCm_sp (s : State) (a : Nat) (b : Byte) : (s.withCm a b).sp = s.sp := rfl
@[simp] theorem State.withCm_cur (s : State) (a : Nat) (b : Byte) : (s.withCm a b).cur = s.cur := rfl
@[simp] theorem State.withCm_prec (s : State) (a : Nat) (b : Byte) : (s.withCm a b).prec = s.prec := rfl
@[simp] theorem State.withCm_nchunk (s : State) (a : Nat) (b : Byte) : (s.withCm a b).nchunk = s.nchunk := rfl
@[simp] theorem State.withCm_nrun (s : State) (a : Nat) (b : Byte) : (s.withCm a b).nrun = s.nrun := rfl
@[simp] theorem State.withCm_cm (s : State) (a : Nat) (b : Byte) : (s.withCm a b).cm = s.cm.write a b := rfl
@[simp] theorem State.withCm_pm (s : State) (a : Nat) (b : Byte) : (s.withCm a b).pm = s.pm := rfl
@[simp] theorem State.withCm_slb (s : State) (a : Nat) (b : Byte) : (s.withCm a b).slb = s.slb := rfl
@[simp] theorem State.withCm_doing (s : State) (a : Nat) (b : Byte) : (s.withCm a b).doing = s.doing := rfl
@[simp] theorem State.withCm_params (s : State) (a : Nat) (b : Byte) : (s.withCm a b).params = s.params := rfl
@[simp] theorem State.withCm_agenda (s : State) (a : Nat) (b : Byte) : (s.withCm a b).agenda = s.agenda := rfl
@[simp] theorem State.withCm_readData (s : State) (a : Nat) (b : Byte) : (s.withCm a b).readData = s.readData := rfl
@[simp] theorem State.withCm_freeCount (s : State) (a : Nat) (b : Byte) :
    (s.withCm a b).freeCount = s.freeCount := rfl

/-! ### `State.withPm` -/

@[simp] theorem State.withPm_status (s : State) (i : Nat) (p : Pixel) : (s.withPm i p).status = s.status := rfl
@[simp] theorem State.withPm_errIdx (s : State) (i : Nat) (p : Pixel) : (s.withPm i p).errIdx = s.errIdx := rfl
@[simp] theorem State.withPm_errAddr (s : State) (i : Nat) (p : Pixel) : (s.withPm i p).errAddr = s.errAddr := rfl
@[simp] theorem State.withPm_clen (s : State) (i : Nat) (p : Pixel) : (s.withPm i p).clen = s.clen := rfl
@[simp] theorem State.withPm_idx (s : State) (i : Nat) (p : Pixel) : (s.withPm i p).idx = s.idx := rfl
@[simp] theorem State.withPm_imageCount (s : State) (i : Nat) (p : Pixel) :
    (s.withPm i p).imageCount = s.imageCount := rfl
@[simp] theorem State.withPm_version (s : State) (i : Nat) (p : Pixel) : (s.withPm i p).version = s.version := rfl
@[simp] theorem State.withPm_scanLineLen (s : State) (i : Nat) (p : Pixel) :
    (s.withPm i p).scanLineLen = s.scanLineLen := rfl
@[simp] theorem State.withPm_hres (s : State) (i : Nat) (p : Pixel) : (s.withPm i p).hres = s.hres := rfl
@[simp] theorem State.withPm_width (s : State) (i : Nat) (p : Pixel) : (s.withPm i p).width = s.width := rfl
@[simp] theorem State.withPm_height (s : State) (i : Nat) (p : Pixel) : (s.withPm i p).height = s.height := rfl
@[simp] theorem State.withPm_ires (s : State) (i : Nat) (p : Pixel) : (s.withPm i p).ires = s.ires := rfl
@[simp] theorem State.withPm_unpackedOff (s : State) (i : Nat) (p : Pixel) :
    (s.withPm i p).unpackedOff = s.unpackedOff := rfl
@[simp] theorem State.withPm_packedOff (s : State) (i : Nat) (p : Pixel) :
    (s.withPm i p).packedOff = s.packedOff := rfl
@[simp] theorem State.withPm_rgb24 (s : State) (i : Nat) (p : Pixel) : (s.withPm i p).rgb24 = s.rgb24 := rfl
@[simp] theorem State.withPm_rgb16 (s : State) (i : Nat) (p : Pixel) : (s.withPm i p).rgb16 = s.rgb16 := rfl
@[simp] theorem State.withPm_channels (s : State) (i : Nat) (p : Pixel) : (s.withPm i p).channels = s.channels := rfl
@[simp] theorem State.withPm_runpix (s : State) (i : Nat) (p : Pixel) : (s.withPm i p).runpix = s.runpix := rfl
@[simp] theorem State.withPm_sp (s : State) (i : Nat) (p : Pixel) : (s.withPm i p).sp = s.sp := rfl
@[simp] theorem State.withPm_cur (s : State) (i : Nat) (p : Pixel) : (s.withPm i p).cur = s.cur := rfl
@[simp] theorem State.withPm_prec (s : State) (i : Nat) (p : Pixel) : (s.withPm i p).prec = s.prec := rfl
@[simp] theorem State.withPm_nchunk (s : State) (i : Nat) (p : Pixel) : (s.withPm i p).nchunk = s.nchunk := rfl
@[simp] theorem State.withPm_nrun (s : State) (i : Nat) (p : Pixel) : (s.withPm i p).nrun = s.nrun := rfl
@[simp] theorem State.withPm_cm (s : State) (i : Nat) (p : Pixel) : (s.withPm i p).cm = s.cm := rfl
@[simp] theorem State.withPm_pm (s : State) (i : Nat) (p : Pixel) : (s.withPm i p).pm = s.pm.write i p := rfl
@[simp] theorem State.withPm_slb (s : State) (i : Nat) (p : Pixel) : (s.withPm i p).slb = s.slb := rfl
@[simp] theorem State.withPm_doing (s : State) (i : Nat) (p : Pixel) : (s.withPm i p).doing = s.doing := rfl
@[simp] theorem State.withPm_params (s : State) (i : Nat) (p : Pixel) : (s.withPm i p).params = s.params := rfl
@[simp] theorem State.withPm_agenda (s : State) (i : Nat) (p : Pixel) : (s.withPm i p).agenda = s.agenda := rfl
@[simp] theorem State.withPm_readData (s : State) (i : Nat) (p : Pixel) : (s.withPm i p).readData = s.readData := rfl
@[simp] theorem State.withPm_freeCount (s : State) (i : Nat) (p : Pixel) :
    (s.withPm i p).freeCount = s.freeCount := rfl

/-! ### `State.withReadData` -/

@[simp] theorem State.withReadData_status (s : State) (d : ReadData) : (s.withReadData d).status = s.status := rfl
@[simp] theorem State.withReadData_errIdx (s : State) (d : ReadData) : (s.withReadData d).errIdx = s.errIdx := rfl
@[simp] theorem State.withReadData_errAddr (s : State) (d : ReadData) : (s.withReadData d).errAddr = s.errAddr := rfl
@[simp] theorem State.withReadData_clen (s : State) (d : ReadData) : (s.withReadData d).clen = s.clen := rfl
@[simp] theorem State.withReadData_idx (s : State) (d : ReadData) : (s.withReadData d).idx = s.idx := rfl
@[simp] theorem State.withReadData_imageCount (s : State) (d : ReadData) :
    (s.withReadData d).imageCount = s.imageCount := rfl
@[simp] theorem State.withReadData_version (s : State) (d : ReadData) : (s.withReadData d).version = s.version := rfl
@[simp] theorem State.withReadData_scanLineLen (s : State) (d : ReadData) :
    (s.withReadData d).scanLineLen = s.scanLineLen := rfl
@[simp] theorem State.withReadData_hres (s : State) (d : ReadData) : (s.withReadData d).hres = s.hres := rfl
@[simp] theorem State.withReadData_width (s : State) (d : ReadData) : (s.withReadData d).width = s.width := rfl
@[simp] theorem State.withReadData_height (s : State) (d : ReadData) : (s.withReadData d).height = s.height := rfl
@[simp] theorem State.withReadData_ires (s : State) (d : ReadData) : (s.withReadData d).ires = s.ires := rfl
@[simp] theorem State.withReadData_unpackedOff (s : State) (d : ReadData) :
    (s.withReadData d).unpackedOff = s.unpackedOff := rfl
@[simp] theorem State.withReadData_packedOff (s : State) (d : ReadData) :
    (s.withReadData d).packedOff = s.packedOff := rfl
@[simp] theorem State.withReadData_rgb24 (s : State) (d : ReadData) : (s.withReadData d).rgb24 = s.rgb24 := rfl
@[simp] theorem State.withReadData_rgb16 (s : State) (d : ReadData) : (s.withReadData d).rgb16 = s.rgb16 := rfl
@[simp] theorem State.withReadData_channels (s : State) (d : ReadData) :
    (s.withReadData d).channels = s.channels := rfl
@[simp] theorem State.withReadData_runpix (s : State) (d : ReadData) : (s.withReadData d).runpix = s.runpix := rfl
@[simp] theorem State.withReadData_sp (s : State) (d : ReadData) : (s.withReadData d).sp = s.sp := rfl
@[simp] theorem State.withReadData_cur (s : State) (d : ReadData) : (s.withReadData d).cur = s.cur := rfl
@[simp] theorem State.withReadData_prec (s : State) (d : ReadData) : (s.withReadData d).prec = s.prec := rfl
@[simp] theorem State.withReadData_nchunk (s : State) (d : ReadData) : (s.withReadData d).nchunk = s.nchunk := rfl
@[simp] theorem State.withReadData_nrun (s : State) (d : ReadData) : (s.withReadData d).nrun = s.nrun := rfl
@[simp] theorem State.withReadData_cm (s : State) (d : ReadData) : (s.withReadData d).cm = s.cm := rfl
@[simp] theorem State.withReadData_pm (s : State) (d : ReadData) : (s.withReadData d).pm = s.pm := rfl
@[simp] theorem State.withReadData_slb (s : State) (d : ReadData) : (s.withReadData d).slb = s.slb := rfl
@[simp] theorem State.withReadData_doing (s : State) (d : ReadData) : (s.withReadData d).doing = s.doing := rfl
@[simp] theorem State.withReadData_params (s : State) (d : ReadData) : (s.withReadData d).params = s.params := rfl
@[simp] theorem State.withReadData_agenda (s : State) (d : ReadData) : (s.withReadData d).agenda = s.agenda := rfl
@[simp] theorem State.withReadData_readData (s : State) (d : ReadData) : (s.withReadData d).readData = d := rfl
@[simp] theorem State.withReadData_freeCount (s : State) (d : ReadData) :
    (s.withReadData d).freeCount = s.freeCount := rfl

/-! ### `State.atPlace` -/

@[simp] theorem State.atPlace_status (s : State) (place : Place) : (s.atPlace place).status = s.status := rfl
@[simp] theorem State.atPlace_errIdx (s : State) (place : Place) : (s.atPlace place).errIdx = s.errIdx := rfl
@[simp] theorem State.atPlace_errAddr (s : State) (place : Place) : (s.atPlace place).errAddr = s.errAddr := rfl
@[simp] theorem State.atPlace_clen (s : State) (place : Place) : (s.atPlace place).clen = s.clen := rfl
@[simp] theorem State.atPlace_idx (s : State) (place : Place) : (s.atPlace place).idx = s.idx := rfl
@[simp] theorem State.atPlace_imageCount (s : State) (place : Place) :
    (s.atPlace place).imageCount = s.imageCount := rfl
@[simp] theorem State.atPlace_version (s : State) (place : Place) : (s.atPlace place).version = s.version := rfl
@[simp] theorem State.atPlace_scanLineLen (s : State) (place : Place) :
    (s.atPlace place).scanLineLen = s.scanLineLen := rfl
@[simp] theorem State.atPlace_hres (s : State) (place : Place) : (s.atPlace place).hres = s.hres := rfl
@[simp] theorem State.atPlace_width (s : State) (place : Place) : (s.atPlace place).width = s.width := rfl
@[simp] theorem State.atPlace_height (s : State) (place : Place) : (s.atPlace place).height = s.height := rfl
@[simp] theorem State.atPlace_ires (s : State) (place : Place) : (s.atPlace place).ires = s.ires := rfl
@[simp] theorem State.atPlace_unpackedOff (s : State) (place : Place) :
    (s.atPlace place).unpackedOff = s.unpackedOff := rfl
@[simp] theorem State.atPlace_packedOff (s : State) (place : Place) : (s.atPlace place).packedOff = s.packedOff := rfl
@[simp] theorem State.atPlace_rgb24 (s : State) (place : Place) : (s.atPlace place).rgb24 = s.rgb24 := rfl
@[simp] theorem State.atPlace_rgb16 (s : State) (place : Place) : (s.atPlace place).rgb16 = s.rgb16 := rfl
@[simp] theorem State.atPlace_channels (s : State) (place : Place) : (s.atPlace place).channels = s.channels := rfl
@[simp] theorem State.atPlace_runpix (s : State) (place : Place) : (s.atPlace place).runpix = s.runpix := rfl
@[simp] theorem State.atPlace_sp (s : State) (place : Place) : (s.atPlace place).sp = s.sp := rfl
@[simp] theorem State.atPlace_cur (s : State) (place : Place) : (s.atPlace place).cur = s.cur := rfl
@[simp] theorem State.atPlace_prec (s : State) (place : Place) : (s.atPlace place).prec = s.prec := rfl
@[simp] theorem State.atPlace_nchunk (s : State) (place : Place) : (s.atPlace place).nchunk = s.nchunk := rfl
@[simp] theorem State.atPlace_nrun (s : State) (place : Place) : (s.atPlace place).nrun = s.nrun := rfl
@[simp] theorem State.atPlace_cm (s : State) (place : Place) : (s.atPlace place).cm = s.cm := rfl
@[simp] theorem State.atPlace_pm (s : State) (place : Place) : (s.atPlace place).pm = s.pm := rfl
@[simp] theorem State.atPlace_slb (s : State) (place : Place) : (s.atPlace place).slb = s.slb := rfl
@[simp] theorem State.atPlace_doing (s : State) (place : Place) :
    (s.atPlace place).doing = .opened place s.shownStatus := rfl
@[simp] theorem State.atPlace_params (s : State) (place : Place) : (s.atPlace place).params = s.params := rfl
@[simp] theorem State.atPlace_agenda (s : State) (place : Place) : (s.atPlace place).agenda = s.agenda := rfl
@[simp] theorem State.atPlace_readData (s : State) (place : Place) : (s.atPlace place).readData = s.readData := rfl
@[simp] theorem State.atPlace_freeCount (s : State) (place : Place) : (s.atPlace place).freeCount = s.freeCount := rfl

/-! ### `State.withWarnOdd` -/

@[simp] theorem State.withWarnOdd_status (s : State) (b : Bool) :
    (s.withWarnOdd b).status = statusWithOdd s.status b := rfl
@[simp] theorem State.withWarnOdd_errIdx (s : State) (b : Bool) : (s.withWarnOdd b).errIdx = s.errIdx := rfl
@[simp] theorem State.withWarnOdd_errAddr (s : State) (b : Bool) : (s.withWarnOdd b).errAddr = s.errAddr := rfl
@[simp] theorem State.withWarnOdd_clen (s : State) (b : Bool) : (s.withWarnOdd b).clen = s.clen := rfl
@[simp] theorem State.withWarnOdd_idx (s : State) (b : Bool) : (s.withWarnOdd b).idx = s.idx := rfl
@[simp] theorem State.withWarnOdd_imageCount (s : State) (b : Bool) :
    (s.withWarnOdd b).imageCount = s.imageCount := rfl
@[simp] theorem State.withWarnOdd_version (s : State) (b : Bool) : (s.withWarnOdd b).version = s.version := rfl
@[simp] theorem State.withWarnOdd_scanLineLen (s : State) (b : Bool) :
    (s.withWarnOdd b).scanLineLen = s.scanLineLen := rfl
@[simp] theorem State.withWarnOdd_hres (s : State) (b : Bool) : (s.withWarnOdd b).hres = s.hres := rfl
@[simp] theorem State.withWarnOdd_width (s : State) (b : Bool) : (s.withWarnOdd b).width = s.width := rfl
@[simp] theorem State.withWarnOdd_height (s : State) (b : Bool) : (s.withWarnOdd b).height = s.height := rfl
@[simp] theorem State.withWarnOdd_ires (s : State) (b : Bool) : (s.withWarnOdd b).ires = s.ires := rfl
@[simp] theorem State.withWarnOdd_unpackedOff (s : State) (b : Bool) :
    (s.withWarnOdd b).unpackedOff = s.unpackedOff := rfl
@[simp] theorem State.withWarnOdd_packedOff (s : State) (b : Bool) : (s.withWarnOdd b).packedOff = s.packedOff := rfl
@[simp] theorem State.withWarnOdd_rgb24 (s : State) (b : Bool) : (s.withWarnOdd b).rgb24 = s.rgb24 := rfl
@[simp] theorem State.withWarnOdd_rgb16 (s : State) (b : Bool) : (s.withWarnOdd b).rgb16 = s.rgb16 := rfl
@[simp] theorem State.withWarnOdd_channels (s : State) (b : Bool) : (s.withWarnOdd b).channels = s.channels := rfl
@[simp] theorem State.withWarnOdd_runpix (s : State) (b : Bool) : (s.withWarnOdd b).runpix = s.runpix := rfl
@[simp] theorem State.withWarnOdd_sp (s : State) (b : Bool) : (s.withWarnOdd b).sp = s.sp := rfl
@[simp] theorem State.withWarnOdd_cur (s : State) (b : Bool) : (s.withWarnOdd b).cur = s.cur := rfl
@[simp] theorem State.withWarnOdd_prec (s : State) (b : Bool) : (s.withWarnOdd b).prec = s.prec := rfl
@[simp] theorem State.withWarnOdd_nchunk (s : State) (b : Bool) : (s.withWarnOdd b).nchunk = s.nchunk := rfl
@[simp] theorem State.withWarnOdd_nrun (s : State) (b : Bool) : (s.withWarnOdd b).nrun = s.nrun := rfl
@[simp] theorem State.withWarnOdd_cm (s : State) (b : Bool) : (s.withWarnOdd b).cm = s.cm := rfl
@[simp] theorem State.withWarnOdd_pm (s : State) (b : Bool) : (s.withWarnOdd b).pm = s.pm := rfl
@[simp] theorem State.withWarnOdd_slb (s : State) (b : Bool) : (s.withWarnOdd b).slb = s.slb := rfl
@[simp] theorem State.withWarnOdd_doing (s : State) (b : Bool) : (s.withWarnOdd b).doing = s.doing := rfl
@[simp] theorem State.withWarnOdd_params (s : State) (b : Bool) : (s.withWarnOdd b).params = s.params := rfl
@[simp] theorem State.withWarnOdd_agenda (s : State) (b : Bool) : (s.withWarnOdd b).agenda = s.agenda := rfl
@[simp] theorem State.withWarnOdd_readData (s : State) (b : Bool) : (s.withWarnOdd b).readData = s.readData := rfl
@[simp] theorem State.withWarnOdd_freeCount (s : State) (b : Bool) : (s.withWarnOdd b).freeCount = s.freeCount := rfl

/-! ### `State.loosePm` -/

@[simp] theorem State.loosePm_status (s : State) : (s.loosePm).status = s.status := rfl
@[simp] theorem State.loosePm_errIdx (s : State) : (s.loosePm).errIdx = s.errIdx := rfl
@[simp] theorem State.loosePm_errAddr (s : State) : (s.loosePm).errAddr = s.errAddr := rfl
@[simp] theorem State.loosePm_clen (s : State) : (s.loosePm).clen = s.clen := rfl
@[simp] theorem State.loosePm_idx (s : State) : (s.loosePm).idx = s.idx := rfl
@[simp] theorem State.loosePm_imageCount (s : State) : (s.loosePm).imageCount = s.imageCount := rfl
@[simp] theorem State.loosePm_version (s : State) : (s.loosePm).version = s.version := rfl
@[simp] theorem State.loosePm_scanLineLen (s : State) : (s.loosePm).scanLineLen = s.scanLineLen := rfl
@[simp] theorem State.loosePm_hres (s : State) : (s.loosePm).hres = s.hres := rfl
@[simp] theorem State.loosePm_width (s : State) : (s.loosePm).width = s.width := rfl
@[simp] theorem State.loosePm_height (s : State) : (s.loosePm).height = s.height := rfl
@[simp] theorem State.loosePm_ires (s : State) : (s.loosePm).ires = s.ires := rfl
@[simp] theorem State.loosePm_unpackedOff (s : State) : (s.loosePm).unpackedOff = s.unpackedOff := rfl
@[simp] theorem State.loosePm_packedOff (s : State) : (s.loosePm).packedOff = s.packedOff := rfl
@[simp] theorem State.loosePm_rgb24 (s : State) : (s.loosePm).rgb24 = s.rgb24 := rfl
@[simp] theorem State.loosePm_rgb16 (s : State) : (s.loosePm).rgb16 = s.rgb16 := rfl
@[simp] theorem State.loosePm_channels (s : State) : (s.loosePm).channels = s.channels := rfl
@[simp] theorem State.loosePm_runpix (s : State) : (s.loosePm).runpix = s.runpix := rfl
@[simp] theorem State.loosePm_sp (s : State) : (s.loosePm).sp = s.sp := rfl
@[simp] theorem State.loosePm_cur (s : State) : (s.loosePm).cur = s.cur := rfl
@[simp] theorem State.loosePm_prec (s : State) : (s.loosePm).prec = s.prec := rfl
@[simp] theorem State.loosePm_nchunk (s : State) : (s.loosePm).nchunk = s.nchunk := rfl
@[simp] theorem State.loosePm_nrun (s : State) : (s.loosePm).nrun = s.nrun := rfl
@[simp] theorem State.loosePm_cm (s : State) : (s.loosePm).cm = s.cm := rfl
@[simp] theorem State.loosePm_pm (s : State) : (s.loosePm).pm = { fill := .free s.freeCount, cells := [] } := rfl
@[simp] theorem State.loosePm_slb (s : State) : (s.loosePm).slb = s.slb := rfl
@[simp] theorem State.loosePm_doing (s : State) : (s.loosePm).doing = s.doing := rfl
@[simp] theorem State.loosePm_params (s : State) : (s.loosePm).params = s.params := rfl
@[simp] theorem State.loosePm_agenda (s : State) : (s.loosePm).agenda = s.agenda := rfl
@[simp] theorem State.loosePm_readData (s : State) : (s.loosePm).readData = s.readData := rfl
@[simp] theorem State.loosePm_freeCount (s : State) : (s.loosePm).freeCount = s.freeCount + 1 := rfl

/-! ### `State.stored` -/

@[simp] theorem State.stored_status (s : State) (a : Nat) (bytes : List Byte) :
    (s.stored a bytes).status = s.status := rfl
@[simp] theorem State.stored_errIdx (s : State) (a : Nat) (bytes : List Byte) :
    (s.stored a bytes).errIdx = s.errIdx := rfl
@[simp] theorem State.stored_errAddr (s : State) (a : Nat) (bytes : List Byte) :
    (s.stored a bytes).errAddr = s.errAddr := rfl
@[simp] theorem State.stored_clen (s : State) (a : Nat) (bytes : List Byte) :
    (s.stored a bytes).clen = BitVec.ofNat 34 (max s.clen.toNat (a + bytes.length)) := rfl
@[simp] theorem State.stored_idx (s : State) (a : Nat) (bytes : List Byte) : (s.stored a bytes).idx = s.idx := rfl
@[simp] theorem State.stored_imageCount (s : State) (a : Nat) (bytes : List Byte) :
    (s.stored a bytes).imageCount = s.imageCount := rfl
@[simp] theorem State.stored_version (s : State) (a : Nat) (bytes : List Byte) :
    (s.stored a bytes).version = s.version := rfl
@[simp] theorem State.stored_scanLineLen (s : State) (a : Nat) (bytes : List Byte) :
    (s.stored a bytes).scanLineLen = s.scanLineLen := rfl
@[simp] theorem State.stored_hres (s : State) (a : Nat) (bytes : List Byte) : (s.stored a bytes).hres = s.hres := rfl
@[simp] theorem State.stored_width (s : State) (a : Nat) (bytes : List Byte) :
    (s.stored a bytes).width = s.width := rfl
@[simp] theorem State.stored_height (s : State) (a : Nat) (bytes : List Byte) :
    (s.stored a bytes).height = s.height := rfl
@[simp] theorem State.stored_ires (s : State) (a : Nat) (bytes : List Byte) : (s.stored a bytes).ires = s.ires := rfl
@[simp] theorem State.stored_unpackedOff (s : State) (a : Nat) (bytes : List Byte) :
    (s.stored a bytes).unpackedOff = s.unpackedOff := rfl
@[simp] theorem State.stored_packedOff (s : State) (a : Nat) (bytes : List Byte) :
    (s.stored a bytes).packedOff = s.packedOff := rfl
@[simp] theorem State.stored_rgb24 (s : State) (a : Nat) (bytes : List Byte) :
    (s.stored a bytes).rgb24 = s.rgb24 := rfl
@[simp] theorem State.stored_rgb16 (s : State) (a : Nat) (bytes : List Byte) :
    (s.stored a bytes).rgb16 = s.rgb16 := rfl
@[simp] theorem State.stored_channels (s : State) (a : Nat) (bytes : List Byte) :
    (s.stored a bytes).channels = s.channels := rfl
@[simp] theorem State.stored_runpix (s : State) (a : Nat) (bytes : List Byte) :
    (s.stored a bytes).runpix = s.runpix := rfl
@[simp] theorem State.stored_sp (s : State) (a : Nat) (bytes : List Byte) :
    (s.stored a bytes).sp = BitVec.ofNat 34 (a + bytes.length) := rfl
@[simp] theorem State.stored_cur (s : State) (a : Nat) (bytes : List Byte) : (s.stored a bytes).cur = s.cur := rfl
@[simp] theorem State.stored_prec (s : State) (a : Nat) (bytes : List Byte) : (s.stored a bytes).prec = s.prec := rfl
@[simp] theorem State.stored_nchunk (s : State) (a : Nat) (bytes : List Byte) :
    (s.stored a bytes).nchunk = s.nchunk := rfl
@[simp] theorem State.stored_nrun (s : State) (a : Nat) (bytes : List Byte) : (s.stored a bytes).nrun = s.nrun := rfl
@[simp] theorem State.stored_cm (s : State) (a : Nat) (bytes : List Byte) :
    (s.stored a bytes).cm = s.cm.writeBytes a bytes := rfl
@[simp] theorem State.stored_pm (s : State) (a : Nat) (bytes : List Byte) : (s.stored a bytes).pm = s.pm := rfl
@[simp] theorem State.stored_slb (s : State) (a : Nat) (bytes : List Byte) : (s.stored a bytes).slb = s.slb := rfl
@[simp] theorem State.stored_doing (s : State) (a : Nat) (bytes : List Byte) :
    (s.stored a bytes).doing = s.doing := rfl
@[simp] theorem State.stored_params (s : State) (a : Nat) (bytes : List Byte) :
    (s.stored a bytes).params = s.params := rfl
@[simp] theorem State.stored_agenda (s : State) (a : Nat) (bytes : List Byte) :
    (s.stored a bytes).agenda = s.agenda := rfl
@[simp] theorem State.stored_readData (s : State) (a : Nat) (bytes : List Byte) :
    (s.stored a bytes).readData = s.readData := rfl
@[simp] theorem State.stored_freeCount (s : State) (a : Nat) (bytes : List Byte) :
    (s.stored a bytes).freeCount = s.freeCount := rfl

/-! ### `State.complete` -/

@[simp] theorem State.complete_status (s : State) : (s.complete).status = statusEnded s.status := rfl
@[simp] theorem State.complete_errIdx (s : State) : (s.complete).errIdx = s.errIdx := rfl
@[simp] theorem State.complete_errAddr (s : State) : (s.complete).errAddr = s.errAddr := rfl
@[simp] theorem State.complete_clen (s : State) : (s.complete).clen = s.clen := rfl
@[simp] theorem State.complete_idx (s : State) : (s.complete).idx = s.idx := rfl
@[simp] theorem State.complete_imageCount (s : State) : (s.complete).imageCount = s.imageCount := rfl
@[simp] theorem State.complete_version (s : State) : (s.complete).version = s.version := rfl
@[simp] theorem State.complete_scanLineLen (s : State) : (s.complete).scanLineLen = s.scanLineLen := rfl
@[simp] theorem State.complete_hres (s : State) : (s.complete).hres = s.hres := rfl
@[simp] theorem State.complete_width (s : State) : (s.complete).width = s.width := rfl
@[simp] theorem State.complete_height (s : State) : (s.complete).height = s.height := rfl
@[simp] theorem State.complete_ires (s : State) : (s.complete).ires = s.ires := rfl
@[simp] theorem State.complete_unpackedOff (s : State) : (s.complete).unpackedOff = s.unpackedOff := rfl
@[simp] theorem State.complete_packedOff (s : State) : (s.complete).packedOff = s.packedOff := rfl
@[simp] theorem State.complete_rgb24 (s : State) : (s.complete).rgb24 = s.rgb24 := rfl
@[simp] theorem State.complete_rgb16 (s : State) : (s.complete).rgb16 = s.rgb16 := rfl
@[simp] theorem State.complete_channels (s : State) : (s.complete).channels = s.channels := rfl
@[simp] theorem State.complete_runpix (s : State) : (s.complete).runpix = s.runpix := rfl
@[simp] theorem State.complete_sp (s : State) : (s.complete).sp = s.sp := rfl
@[simp] theorem State.complete_cur (s : State) : (s.complete).cur = s.cur := rfl
@[simp] theorem State.complete_prec (s : State) : (s.complete).prec = s.prec := rfl
@[simp] theorem State.complete_nchunk (s : State) : (s.complete).nchunk = s.nchunk := rfl
@[simp] theorem State.complete_nrun (s : State) : (s.complete).nrun = s.nrun := rfl
@[simp] theorem State.complete_cm (s : State) : (s.complete).cm = s.cm := rfl
@[simp] theorem State.complete_pm (s : State) : (s.complete).pm = s.pm := rfl
@[simp] theorem State.complete_slb (s : State) : (s.complete).slb = s.slb := rfl
@[simp] theorem State.complete_doing (s : State) : (s.complete).doing = .idle := rfl
@[simp] theorem State.complete_params (s : State) : (s.complete).params = s.params := rfl
@[simp] theorem State.complete_agenda (s : State) : (s.complete).agenda = s.agenda := rfl
@[simp] theorem State.complete_readData (s : State) : (s.complete).readData = s.readData := rfl
@[simp] theorem State.complete_freeCount (s : State) : (s.complete).freeCount = s.freeCount := rfl

/-! ### `State.takeError` -/

@[simp] theorem State.takeError_status (s : State) (e : Raise) :
    (s.takeError e).status = statusEnded (statusRaised s.status e.cause) := rfl
@[simp] theorem State.takeError_errIdx (s : State) (e : Raise) : (s.takeError e).errIdx = s.idx := rfl
@[simp] theorem State.takeError_errAddr (s : State) (e : Raise) :
    (s.takeError e).errAddr = BitVec.ofNat 34 e.addr := rfl
@[simp] theorem State.takeError_clen (s : State) (e : Raise) : (s.takeError e).clen = s.clen := rfl
@[simp] theorem State.takeError_idx (s : State) (e : Raise) : (s.takeError e).idx = s.idx := rfl
@[simp] theorem State.takeError_imageCount (s : State) (e : Raise) : (s.takeError e).imageCount = s.imageCount := rfl
@[simp] theorem State.takeError_version (s : State) (e : Raise) : (s.takeError e).version = s.version := rfl
@[simp] theorem State.takeError_scanLineLen (s : State) (e : Raise) :
    (s.takeError e).scanLineLen = s.scanLineLen := rfl
@[simp] theorem State.takeError_hres (s : State) (e : Raise) : (s.takeError e).hres = s.hres := rfl
@[simp] theorem State.takeError_width (s : State) (e : Raise) : (s.takeError e).width = s.width := rfl
@[simp] theorem State.takeError_height (s : State) (e : Raise) : (s.takeError e).height = s.height := rfl
@[simp] theorem State.takeError_ires (s : State) (e : Raise) : (s.takeError e).ires = s.ires := rfl
@[simp] theorem State.takeError_unpackedOff (s : State) (e : Raise) :
    (s.takeError e).unpackedOff = s.unpackedOff := rfl
@[simp] theorem State.takeError_packedOff (s : State) (e : Raise) : (s.takeError e).packedOff = s.packedOff := rfl
@[simp] theorem State.takeError_rgb24 (s : State) (e : Raise) : (s.takeError e).rgb24 = s.rgb24 := rfl
@[simp] theorem State.takeError_rgb16 (s : State) (e : Raise) : (s.takeError e).rgb16 = s.rgb16 := rfl
@[simp] theorem State.takeError_channels (s : State) (e : Raise) : (s.takeError e).channels = s.channels := rfl
@[simp] theorem State.takeError_runpix (s : State) (e : Raise) : (s.takeError e).runpix = s.runpix := rfl
@[simp] theorem State.takeError_sp (s : State) (e : Raise) : (s.takeError e).sp = s.sp := rfl
@[simp] theorem State.takeError_cur (s : State) (e : Raise) : (s.takeError e).cur = s.cur := rfl
@[simp] theorem State.takeError_prec (s : State) (e : Raise) : (s.takeError e).prec = s.prec := rfl
@[simp] theorem State.takeError_nchunk (s : State) (e : Raise) : (s.takeError e).nchunk = s.nchunk := rfl
@[simp] theorem State.takeError_nrun (s : State) (e : Raise) : (s.takeError e).nrun = s.nrun := rfl
@[simp] theorem State.takeError_cm (s : State) (e : Raise) : (s.takeError e).cm = s.cm := rfl
@[simp] theorem State.takeError_pm (s : State) (e : Raise) : (s.takeError e).pm = s.pm := rfl
@[simp] theorem State.takeError_slb (s : State) (e : Raise) : (s.takeError e).slb = s.slb := rfl
@[simp] theorem State.takeError_doing (s : State) (e : Raise) : (s.takeError e).doing = .idle := rfl
@[simp] theorem State.takeError_params (s : State) (e : Raise) : (s.takeError e).params = s.params := rfl
@[simp] theorem State.takeError_agenda (s : State) (e : Raise) : (s.takeError e).agenda = s.agenda := rfl
@[simp] theorem State.takeError_readData (s : State) (e : Raise) : (s.takeError e).readData = s.readData := rfl
@[simp] theorem State.takeError_freeCount (s : State) (e : Raise) : (s.takeError e).freeCount = s.freeCount := rfl

/-! ### `State.clearError` -/

@[simp] theorem State.clearError_status (s : State) : (s.clearError).status = statusCleared s.status := rfl
@[simp] theorem State.clearError_errIdx (s : State) : (s.clearError).errIdx = 0 := rfl
@[simp] theorem State.clearError_errAddr (s : State) : (s.clearError).errAddr = 0 := rfl
@[simp] theorem State.clearError_clen (s : State) : (s.clearError).clen = s.clen := rfl
@[simp] theorem State.clearError_idx (s : State) : (s.clearError).idx = s.idx := rfl
@[simp] theorem State.clearError_imageCount (s : State) : (s.clearError).imageCount = s.imageCount := rfl
@[simp] theorem State.clearError_version (s : State) : (s.clearError).version = s.version := rfl
@[simp] theorem State.clearError_scanLineLen (s : State) : (s.clearError).scanLineLen = s.scanLineLen := rfl
@[simp] theorem State.clearError_hres (s : State) : (s.clearError).hres = s.hres := rfl
@[simp] theorem State.clearError_width (s : State) : (s.clearError).width = s.width := rfl
@[simp] theorem State.clearError_height (s : State) : (s.clearError).height = s.height := rfl
@[simp] theorem State.clearError_ires (s : State) : (s.clearError).ires = s.ires := rfl
@[simp] theorem State.clearError_unpackedOff (s : State) : (s.clearError).unpackedOff = s.unpackedOff := rfl
@[simp] theorem State.clearError_packedOff (s : State) : (s.clearError).packedOff = s.packedOff := rfl
@[simp] theorem State.clearError_rgb24 (s : State) : (s.clearError).rgb24 = s.rgb24 := rfl
@[simp] theorem State.clearError_rgb16 (s : State) : (s.clearError).rgb16 = s.rgb16 := rfl
@[simp] theorem State.clearError_channels (s : State) : (s.clearError).channels = s.channels := rfl
@[simp] theorem State.clearError_runpix (s : State) : (s.clearError).runpix = s.runpix := rfl
@[simp] theorem State.clearError_sp (s : State) : (s.clearError).sp = s.sp := rfl
@[simp] theorem State.clearError_cur (s : State) : (s.clearError).cur = s.cur := rfl
@[simp] theorem State.clearError_prec (s : State) : (s.clearError).prec = s.prec := rfl
@[simp] theorem State.clearError_nchunk (s : State) : (s.clearError).nchunk = s.nchunk := rfl
@[simp] theorem State.clearError_nrun (s : State) : (s.clearError).nrun = s.nrun := rfl
@[simp] theorem State.clearError_cm (s : State) : (s.clearError).cm = s.cm := rfl
@[simp] theorem State.clearError_pm (s : State) : (s.clearError).pm = s.pm := rfl
@[simp] theorem State.clearError_slb (s : State) : (s.clearError).slb = s.slb := rfl
@[simp] theorem State.clearError_doing (s : State) : (s.clearError).doing = s.doing := rfl
@[simp] theorem State.clearError_params (s : State) : (s.clearError).params = s.params := rfl
@[simp] theorem State.clearError_agenda (s : State) : (s.clearError).agenda = s.agenda := rfl
@[simp] theorem State.clearError_readData (s : State) : (s.clearError).readData = s.readData := rfl
@[simp] theorem State.clearError_freeCount (s : State) : (s.clearError).freeCount = s.freeCount := rfl

/-! ### `State.withRgb16` -/

@[simp] theorem State.withRgb16_status (s : State) : (s.withRgb16).status = s.status := rfl
@[simp] theorem State.withRgb16_errIdx (s : State) : (s.withRgb16).errIdx = s.errIdx := rfl
@[simp] theorem State.withRgb16_errAddr (s : State) : (s.withRgb16).errAddr = s.errAddr := rfl
@[simp] theorem State.withRgb16_clen (s : State) : (s.withRgb16).clen = s.clen := rfl
@[simp] theorem State.withRgb16_idx (s : State) : (s.withRgb16).idx = s.idx := rfl
@[simp] theorem State.withRgb16_imageCount (s : State) : (s.withRgb16).imageCount = s.imageCount := rfl
@[simp] theorem State.withRgb16_version (s : State) : (s.withRgb16).version = s.version := rfl
@[simp] theorem State.withRgb16_scanLineLen (s : State) : (s.withRgb16).scanLineLen = s.scanLineLen := rfl
@[simp] theorem State.withRgb16_hres (s : State) : (s.withRgb16).hres = s.hres := rfl
@[simp] theorem State.withRgb16_width (s : State) : (s.withRgb16).width = s.width := rfl
@[simp] theorem State.withRgb16_height (s : State) : (s.withRgb16).height = s.height := rfl
@[simp] theorem State.withRgb16_ires (s : State) : (s.withRgb16).ires = s.ires := rfl
@[simp] theorem State.withRgb16_unpackedOff (s : State) : (s.withRgb16).unpackedOff = s.unpackedOff := rfl
@[simp] theorem State.withRgb16_packedOff (s : State) : (s.withRgb16).packedOff = s.packedOff := rfl
@[simp] theorem State.withRgb16_rgb24 (s : State) : (s.withRgb16).rgb24 = s.rgb24 := rfl
@[simp] theorem State.withRgb16_rgb16 (s : State) : (s.withRgb16).rgb16 = to16 (rgbPixel s.rgb24) := rfl
@[simp] theorem State.withRgb16_channels (s : State) : (s.withRgb16).channels = s.channels := rfl
@[simp] theorem State.withRgb16_runpix (s : State) : (s.withRgb16).runpix = s.runpix := rfl
@[simp] theorem State.withRgb16_sp (s : State) : (s.withRgb16).sp = s.sp := rfl
@[simp] theorem State.withRgb16_cur (s : State) : (s.withRgb16).cur = s.cur := rfl
@[simp] theorem State.withRgb16_prec (s : State) : (s.withRgb16).prec = s.prec := rfl
@[simp] theorem State.withRgb16_nchunk (s : State) : (s.withRgb16).nchunk = s.nchunk := rfl
@[simp] theorem State.withRgb16_nrun (s : State) : (s.withRgb16).nrun = s.nrun := rfl
@[simp] theorem State.withRgb16_cm (s : State) : (s.withRgb16).cm = s.cm := rfl
@[simp] theorem State.withRgb16_pm (s : State) : (s.withRgb16).pm = s.pm := rfl
@[simp] theorem State.withRgb16_slb (s : State) : (s.withRgb16).slb = s.slb := rfl
@[simp] theorem State.withRgb16_doing (s : State) : (s.withRgb16).doing = s.doing := rfl
@[simp] theorem State.withRgb16_params (s : State) : (s.withRgb16).params = s.params := rfl
@[simp] theorem State.withRgb16_agenda (s : State) : (s.withRgb16).agenda = s.agenda := rfl
@[simp] theorem State.withRgb16_readData (s : State) : (s.withRgb16).readData = s.readData := rfl
@[simp] theorem State.withRgb16_freeCount (s : State) : (s.withRgb16).freeCount = s.freeCount := rfl

/-! ### `State.withRgb24` -/

@[simp] theorem State.withRgb24_status (s : State) : (s.withRgb24).status = s.status := rfl
@[simp] theorem State.withRgb24_errIdx (s : State) : (s.withRgb24).errIdx = s.errIdx := rfl
@[simp] theorem State.withRgb24_errAddr (s : State) : (s.withRgb24).errAddr = s.errAddr := rfl
@[simp] theorem State.withRgb24_clen (s : State) : (s.withRgb24).clen = s.clen := rfl
@[simp] theorem State.withRgb24_idx (s : State) : (s.withRgb24).idx = s.idx := rfl
@[simp] theorem State.withRgb24_imageCount (s : State) : (s.withRgb24).imageCount = s.imageCount := rfl
@[simp] theorem State.withRgb24_version (s : State) : (s.withRgb24).version = s.version := rfl
@[simp] theorem State.withRgb24_scanLineLen (s : State) : (s.withRgb24).scanLineLen = s.scanLineLen := rfl
@[simp] theorem State.withRgb24_hres (s : State) : (s.withRgb24).hres = s.hres := rfl
@[simp] theorem State.withRgb24_width (s : State) : (s.withRgb24).width = s.width := rfl
@[simp] theorem State.withRgb24_height (s : State) : (s.withRgb24).height = s.height := rfl
@[simp] theorem State.withRgb24_ires (s : State) : (s.withRgb24).ires = s.ires := rfl
@[simp] theorem State.withRgb24_unpackedOff (s : State) : (s.withRgb24).unpackedOff = s.unpackedOff := rfl
@[simp] theorem State.withRgb24_packedOff (s : State) : (s.withRgb24).packedOff = s.packedOff := rfl
@[simp] theorem State.withRgb24_rgb24 (s : State) : (s.withRgb24).rgb24 = pixelRgb (to24 s.rgb16) := rfl
@[simp] theorem State.withRgb24_rgb16 (s : State) : (s.withRgb24).rgb16 = s.rgb16 := rfl
@[simp] theorem State.withRgb24_channels (s : State) : (s.withRgb24).channels = s.channels := rfl
@[simp] theorem State.withRgb24_runpix (s : State) : (s.withRgb24).runpix = s.runpix := rfl
@[simp] theorem State.withRgb24_sp (s : State) : (s.withRgb24).sp = s.sp := rfl
@[simp] theorem State.withRgb24_cur (s : State) : (s.withRgb24).cur = s.cur := rfl
@[simp] theorem State.withRgb24_prec (s : State) : (s.withRgb24).prec = s.prec := rfl
@[simp] theorem State.withRgb24_nchunk (s : State) : (s.withRgb24).nchunk = s.nchunk := rfl
@[simp] theorem State.withRgb24_nrun (s : State) : (s.withRgb24).nrun = s.nrun := rfl
@[simp] theorem State.withRgb24_cm (s : State) : (s.withRgb24).cm = s.cm := rfl
@[simp] theorem State.withRgb24_pm (s : State) : (s.withRgb24).pm = s.pm := rfl
@[simp] theorem State.withRgb24_slb (s : State) : (s.withRgb24).slb = s.slb := rfl
@[simp] theorem State.withRgb24_doing (s : State) : (s.withRgb24).doing = s.doing := rfl
@[simp] theorem State.withRgb24_params (s : State) : (s.withRgb24).params = s.params := rfl
@[simp] theorem State.withRgb24_agenda (s : State) : (s.withRgb24).agenda = s.agenda := rfl
@[simp] theorem State.withRgb24_readData (s : State) : (s.withRgb24).readData = s.readData := rfl
@[simp] theorem State.withRgb24_freeCount (s : State) : (s.withRgb24).freeCount = s.freeCount := rfl

/-! ### `State.withContainerHeader` -/

@[simp] theorem State.withContainerHeader_status (s : State) (n v l x : U16) :
    (s.withContainerHeader n v l x).status = if x = 0 then s.status else statusWarnHres s.status := rfl
@[simp] theorem State.withContainerHeader_errIdx (s : State) (n v l x : U16) :
    (s.withContainerHeader n v l x).errIdx = s.errIdx := rfl
@[simp] theorem State.withContainerHeader_errAddr (s : State) (n v l x : U16) :
    (s.withContainerHeader n v l x).errAddr = s.errAddr := rfl
@[simp] theorem State.withContainerHeader_clen (s : State) (n v l x : U16) :
    (s.withContainerHeader n v l x).clen = s.clen := rfl
@[simp] theorem State.withContainerHeader_idx (s : State) (n v l x : U16) :
    (s.withContainerHeader n v l x).idx = s.idx := rfl
@[simp] theorem State.withContainerHeader_imageCount (s : State) (n v l x : U16) :
    (s.withContainerHeader n v l x).imageCount = n := rfl
@[simp] theorem State.withContainerHeader_version (s : State) (n v l x : U16) :
    (s.withContainerHeader n v l x).version = v := rfl
@[simp] theorem State.withContainerHeader_scanLineLen (s : State) (n v l x : U16) :
    (s.withContainerHeader n v l x).scanLineLen = l := rfl
@[simp] theorem State.withContainerHeader_hres (s : State) (n v l x : U16) :
    (s.withContainerHeader n v l x).hres = x := rfl
@[simp] theorem State.withContainerHeader_width (s : State) (n v l x : U16) :
    (s.withContainerHeader n v l x).width = s.width := rfl
@[simp] theorem State.withContainerHeader_height (s : State) (n v l x : U16) :
    (s.withContainerHeader n v l x).height = s.height := rfl
@[simp] theorem State.withContainerHeader_ires (s : State) (n v l x : U16) :
    (s.withContainerHeader n v l x).ires = s.ires := rfl
@[simp] theorem State.withContainerHeader_unpackedOff (s : State) (n v l x : U16) :
    (s.withContainerHeader n v l x).unpackedOff = s.unpackedOff := rfl
@[simp] theorem State.withContainerHeader_packedOff (s : State) (n v l x : U16) :
    (s.withContainerHeader n v l x).packedOff = s.packedOff := rfl
@[simp] theorem State.withContainerHeader_rgb24 (s : State) (n v l x : U16) :
    (s.withContainerHeader n v l x).rgb24 = s.rgb24 := rfl
@[simp] theorem State.withContainerHeader_rgb16 (s : State) (n v l x : U16) :
    (s.withContainerHeader n v l x).rgb16 = s.rgb16 := rfl
@[simp] theorem State.withContainerHeader_channels (s : State) (n v l x : U16) :
    (s.withContainerHeader n v l x).channels = s.channels := rfl
@[simp] theorem State.withContainerHeader_runpix (s : State) (n v l x : U16) :
    (s.withContainerHeader n v l x).runpix = s.runpix := rfl
@[simp] theorem State.withContainerHeader_sp (s : State) (n v l x : U16) :
    (s.withContainerHeader n v l x).sp = s.sp := rfl
@[simp] theorem State.withContainerHeader_cur (s : State) (n v l x : U16) :
    (s.withContainerHeader n v l x).cur = s.cur := rfl
@[simp] theorem State.withContainerHeader_prec (s : State) (n v l x : U16) :
    (s.withContainerHeader n v l x).prec = s.prec := rfl
@[simp] theorem State.withContainerHeader_nchunk (s : State) (n v l x : U16) :
    (s.withContainerHeader n v l x).nchunk = s.nchunk := rfl
@[simp] theorem State.withContainerHeader_nrun (s : State) (n v l x : U16) :
    (s.withContainerHeader n v l x).nrun = s.nrun := rfl
@[simp] theorem State.withContainerHeader_cm (s : State) (n v l x : U16) :
    (s.withContainerHeader n v l x).cm = s.cm := rfl
@[simp] theorem State.withContainerHeader_pm (s : State) (n v l x : U16) :
    (s.withContainerHeader n v l x).pm = s.pm := rfl
@[simp] theorem State.withContainerHeader_slb (s : State) (n v l x : U16) :
    (s.withContainerHeader n v l x).slb = s.slb := rfl
@[simp] theorem State.withContainerHeader_doing (s : State) (n v l x : U16) :
    (s.withContainerHeader n v l x).doing = s.doing := rfl
@[simp] theorem State.withContainerHeader_params (s : State) (n v l x : U16) :
    (s.withContainerHeader n v l x).params = s.params := rfl
@[simp] theorem State.withContainerHeader_agenda (s : State) (n v l x : U16) :
    (s.withContainerHeader n v l x).agenda = s.agenda := rfl
@[simp] theorem State.withContainerHeader_readData (s : State) (n v l x : U16) :
    (s.withContainerHeader n v l x).readData = s.readData := rfl
@[simp] theorem State.withContainerHeader_freeCount (s : State) (n v l x : U16) :
    (s.withContainerHeader n v l x).freeCount = s.freeCount := rfl

/-! ### `State.withNewContainer` -/

@[simp] theorem State.withNewContainer_status (s : State) : (s.withNewContainer).status = s.status := rfl
@[simp] theorem State.withNewContainer_errIdx (s : State) : (s.withNewContainer).errIdx = s.errIdx := rfl
@[simp] theorem State.withNewContainer_errAddr (s : State) : (s.withNewContainer).errAddr = s.errAddr := rfl
@[simp] theorem State.withNewContainer_clen (s : State) : (s.withNewContainer).clen = 0 := rfl
@[simp] theorem State.withNewContainer_idx (s : State) : (s.withNewContainer).idx = s.idx := rfl
@[simp] theorem State.withNewContainer_imageCount (s : State) : (s.withNewContainer).imageCount = s.imageCount := rfl
@[simp] theorem State.withNewContainer_version (s : State) : (s.withNewContainer).version = Config.encVersion := rfl
@[simp] theorem State.withNewContainer_scanLineLen (s : State) : (s.withNewContainer).scanLineLen = 0 := rfl
@[simp] theorem State.withNewContainer_hres (s : State) : (s.withNewContainer).hres = 0 := rfl
@[simp] theorem State.withNewContainer_width (s : State) : (s.withNewContainer).width = s.width := rfl
@[simp] theorem State.withNewContainer_height (s : State) : (s.withNewContainer).height = s.height := rfl
@[simp] theorem State.withNewContainer_ires (s : State) : (s.withNewContainer).ires = s.ires := rfl
@[simp] theorem State.withNewContainer_unpackedOff (s : State) :
    (s.withNewContainer).unpackedOff = s.unpackedOff := rfl
@[simp] theorem State.withNewContainer_packedOff (s : State) : (s.withNewContainer).packedOff = s.packedOff := rfl
@[simp] theorem State.withNewContainer_rgb24 (s : State) : (s.withNewContainer).rgb24 = s.rgb24 := rfl
@[simp] theorem State.withNewContainer_rgb16 (s : State) : (s.withNewContainer).rgb16 = s.rgb16 := rfl
@[simp] theorem State.withNewContainer_channels (s : State) : (s.withNewContainer).channels = s.channels := rfl
@[simp] theorem State.withNewContainer_runpix (s : State) : (s.withNewContainer).runpix = 0 := rfl
@[simp] theorem State.withNewContainer_sp (s : State) : (s.withNewContainer).sp = s.sp := rfl
@[simp] theorem State.withNewContainer_cur (s : State) : (s.withNewContainer).cur = s.cur := rfl
@[simp] theorem State.withNewContainer_prec (s : State) : (s.withNewContainer).prec = s.prec := rfl
@[simp] theorem State.withNewContainer_nchunk (s : State) : (s.withNewContainer).nchunk = s.nchunk := rfl
@[simp] theorem State.withNewContainer_nrun (s : State) : (s.withNewContainer).nrun = s.nrun := rfl
@[simp] theorem State.withNewContainer_cm (s : State) : (s.withNewContainer).cm = s.cm := rfl
@[simp] theorem State.withNewContainer_pm (s : State) : (s.withNewContainer).pm = s.pm := rfl
@[simp] theorem State.withNewContainer_slb (s : State) : (s.withNewContainer).slb = s.slb := rfl
@[simp] theorem State.withNewContainer_doing (s : State) : (s.withNewContainer).doing = s.doing := rfl
@[simp] theorem State.withNewContainer_params (s : State) : (s.withNewContainer).params = s.params := rfl
@[simp] theorem State.withNewContainer_agenda (s : State) : (s.withNewContainer).agenda = s.agenda := rfl
@[simp] theorem State.withNewContainer_readData (s : State) : (s.withNewContainer).readData = s.readData := rfl
@[simp] theorem State.withNewContainer_freeCount (s : State) : (s.withNewContainer).freeCount = s.freeCount := rfl

/-! ### `State.withImageHeader` -/

@[simp] theorem State.withImageHeader_status (s : State) (wb hb : Byte) (x : U16) (u p : U32) :
    (s.withImageHeader wb hb x u p).status = if x = 0 then s.status else statusWarnIres s.status := rfl
@[simp] theorem State.withImageHeader_errIdx (s : State) (wb hb : Byte) (x : U16) (u p : U32) :
    (s.withImageHeader wb hb x u p).errIdx = s.errIdx := rfl
@[simp] theorem State.withImageHeader_errAddr (s : State) (wb hb : Byte) (x : U16) (u p : U32) :
    (s.withImageHeader wb hb x u p).errAddr = s.errAddr := rfl
@[simp] theorem State.withImageHeader_clen (s : State) (wb hb : Byte) (x : U16) (u p : U32) :
    (s.withImageHeader wb hb x u p).clen = s.clen := rfl
@[simp] theorem State.withImageHeader_idx (s : State) (wb hb : Byte) (x : U16) (u p : U32) :
    (s.withImageHeader wb hb x u p).idx = s.idx := rfl
@[simp] theorem State.withImageHeader_imageCount (s : State) (wb hb : Byte) (x : U16) (u p : U32) :
    (s.withImageHeader wb hb x u p).imageCount = s.imageCount := rfl
@[simp] theorem State.withImageHeader_version (s : State) (wb hb : Byte) (x : U16) (u p : U32) :
    (s.withImageHeader wb hb x u p).version = s.version := rfl
@[simp] theorem State.withImageHeader_scanLineLen (s : State) (wb hb : Byte) (x : U16) (u p : U32) :
    (s.withImageHeader wb hb x u p).scanLineLen = s.scanLineLen := rfl
@[simp] theorem State.withImageHeader_hres (s : State) (wb hb : Byte) (x : U16) (u p : U32) :
    (s.withImageHeader wb hb x u p).hres = s.hres := rfl
@[simp] theorem State.withImageHeader_width (s : State) (wb hb : Byte) (x : U16) (u p : U32) :
    (s.withImageHeader wb hb x u p).width = dimDec wb := rfl
@[simp] theorem State.withImageHeader_height (s : State) (wb hb : Byte) (x : U16) (u p : U32) :
    (s.withImageHeader wb hb x u p).height = dimDec hb := rfl
@[simp] theorem State.withImageHeader_ires (s : State) (wb hb : Byte) (x : U16) (u p : U32) :
    (s.withImageHeader wb hb x u p).ires = x := rfl
@[simp] theorem State.withImageHeader_unpackedOff (s : State) (wb hb : Byte) (x : U16) (u p : U32) :
    (s.withImageHeader wb hb x u p).unpackedOff = u := rfl
@[simp] theorem State.withImageHeader_packedOff (s : State) (wb hb : Byte) (x : U16) (u p : U32) :
    (s.withImageHeader wb hb x u p).packedOff = p := rfl
@[simp] theorem State.withImageHeader_rgb24 (s : State) (wb hb : Byte) (x : U16) (u p : U32) :
    (s.withImageHeader wb hb x u p).rgb24 = s.rgb24 := rfl
@[simp] theorem State.withImageHeader_rgb16 (s : State) (wb hb : Byte) (x : U16) (u p : U32) :
    (s.withImageHeader wb hb x u p).rgb16 = s.rgb16 := rfl
@[simp] theorem State.withImageHeader_channels (s : State) (wb hb : Byte) (x : U16) (u p : U32) :
    (s.withImageHeader wb hb x u p).channels = s.channels := rfl
@[simp] theorem State.withImageHeader_runpix (s : State) (wb hb : Byte) (x : U16) (u p : U32) :
    (s.withImageHeader wb hb x u p).runpix = s.runpix := rfl
@[simp] theorem State.withImageHeader_sp (s : State) (wb hb : Byte) (x : U16) (u p : U32) :
    (s.withImageHeader wb hb x u p).sp = s.sp := rfl
@[simp] theorem State.withImageHeader_cur (s : State) (wb hb : Byte) (x : U16) (u p : U32) :
    (s.withImageHeader wb hb x u p).cur = s.cur := rfl
@[simp] theorem State.withImageHeader_prec (s : State) (wb hb : Byte) (x : U16) (u p : U32) :
    (s.withImageHeader wb hb x u p).prec = s.prec := rfl
@[simp] theorem State.withImageHeader_nchunk (s : State) (wb hb : Byte) (x : U16) (u p : U32) :
    (s.withImageHeader wb hb x u p).nchunk = s.nchunk := rfl
@[simp] theorem State.withImageHeader_nrun (s : State) (wb hb : Byte) (x : U16) (u p : U32) :
    (s.withImageHeader wb hb x u p).nrun = s.nrun := rfl
@[simp] theorem State.withImageHeader_cm (s : State) (wb hb : Byte) (x : U16) (u p : U32) :
    (s.withImageHeader wb hb x u p).cm = s.cm := rfl
@[simp] theorem State.withImageHeader_pm (s : State) (wb hb : Byte) (x : U16) (u p : U32) :
    (s.withImageHeader wb hb x u p).pm = s.pm := rfl
@[simp] theorem State.withImageHeader_slb (s : State) (wb hb : Byte) (x : U16) (u p : U32) :
    (s.withImageHeader wb hb x u p).slb = s.slb := rfl
@[simp] theorem State.withImageHeader_doing (s : State) (wb hb : Byte) (x : U16) (u p : U32) :
    (s.withImageHeader wb hb x u p).doing = s.doing := rfl
@[simp] theorem State.withImageHeader_params (s : State) (wb hb : Byte) (x : U16) (u p : U32) :
    (s.withImageHeader wb hb x u p).params = s.params := rfl
@[simp] theorem State.withImageHeader_agenda (s : State) (wb hb : Byte) (x : U16) (u p : U32) :
    (s.withImageHeader wb hb x u p).agenda = s.agenda := rfl
@[simp] theorem State.withImageHeader_readData (s : State) (wb hb : Byte) (x : U16) (u p : U32) :
    (s.withImageHeader wb hb x u p).readData = s.readData := rfl
@[simp] theorem State.withImageHeader_freeCount (s : State) (wb hb : Byte) (x : U16) (u p : U32) :
    (s.withImageHeader wb hb x u p).freeCount = s.freeCount := rfl

/-! ### `State.withHeaderConstants` -/

@[simp] theorem State.withHeaderConstants_status (s : State) : (s.withHeaderConstants).status = s.status := rfl
@[simp] theorem State.withHeaderConstants_errIdx (s : State) : (s.withHeaderConstants).errIdx = s.errIdx := rfl
@[simp] theorem State.withHeaderConstants_errAddr (s : State) : (s.withHeaderConstants).errAddr = s.errAddr := rfl
@[simp] theorem State.withHeaderConstants_clen (s : State) : (s.withHeaderConstants).clen = s.clen := rfl
@[simp] theorem State.withHeaderConstants_idx (s : State) : (s.withHeaderConstants).idx = s.idx := rfl
@[simp] theorem State.withHeaderConstants_imageCount (s : State) :
    (s.withHeaderConstants).imageCount = s.imageCount := rfl
@[simp] theorem State.withHeaderConstants_version (s : State) : (s.withHeaderConstants).version = s.version := rfl
@[simp] theorem State.withHeaderConstants_scanLineLen (s : State) :
    (s.withHeaderConstants).scanLineLen = s.scanLineLen := rfl
@[simp] theorem State.withHeaderConstants_hres (s : State) : (s.withHeaderConstants).hres = s.hres := rfl
@[simp] theorem State.withHeaderConstants_width (s : State) : (s.withHeaderConstants).width = s.width := rfl
@[simp] theorem State.withHeaderConstants_height (s : State) : (s.withHeaderConstants).height = s.height := rfl
@[simp] theorem State.withHeaderConstants_ires (s : State) : (s.withHeaderConstants).ires = 0 := rfl
@[simp] theorem State.withHeaderConstants_unpackedOff (s : State) :
    (s.withHeaderConstants).unpackedOff = s.unpackedOff := rfl
@[simp] theorem State.withHeaderConstants_packedOff (s : State) : (s.withHeaderConstants).packedOff = 0 := rfl
@[simp] theorem State.withHeaderConstants_rgb24 (s : State) : (s.withHeaderConstants).rgb24 = s.rgb24 := rfl
@[simp] theorem State.withHeaderConstants_rgb16 (s : State) : (s.withHeaderConstants).rgb16 = s.rgb16 := rfl
@[simp] theorem State.withHeaderConstants_channels (s : State) : (s.withHeaderConstants).channels = s.channels := rfl
@[simp] theorem State.withHeaderConstants_runpix (s : State) : (s.withHeaderConstants).runpix = s.runpix := rfl
@[simp] theorem State.withHeaderConstants_sp (s : State) : (s.withHeaderConstants).sp = s.sp := rfl
@[simp] theorem State.withHeaderConstants_cur (s : State) : (s.withHeaderConstants).cur = s.cur := rfl
@[simp] theorem State.withHeaderConstants_prec (s : State) : (s.withHeaderConstants).prec = s.prec := rfl
@[simp] theorem State.withHeaderConstants_nchunk (s : State) : (s.withHeaderConstants).nchunk = s.nchunk := rfl
@[simp] theorem State.withHeaderConstants_nrun (s : State) : (s.withHeaderConstants).nrun = s.nrun := rfl
@[simp] theorem State.withHeaderConstants_cm (s : State) : (s.withHeaderConstants).cm = s.cm := rfl
@[simp] theorem State.withHeaderConstants_pm (s : State) : (s.withHeaderConstants).pm = s.pm := rfl
@[simp] theorem State.withHeaderConstants_slb (s : State) : (s.withHeaderConstants).slb = s.slb := rfl
@[simp] theorem State.withHeaderConstants_doing (s : State) : (s.withHeaderConstants).doing = s.doing := rfl
@[simp] theorem State.withHeaderConstants_params (s : State) : (s.withHeaderConstants).params = s.params := rfl
@[simp] theorem State.withHeaderConstants_agenda (s : State) : (s.withHeaderConstants).agenda = s.agenda := rfl
@[simp] theorem State.withHeaderConstants_readData (s : State) : (s.withHeaderConstants).readData = s.readData := rfl
@[simp] theorem State.withHeaderConstants_freeCount (s : State) :
    (s.withHeaderConstants).freeCount = s.freeCount := rfl

/-! ### `State.withPackedStart` -/

@[simp] theorem State.withPackedStart_status (s : State) : (s.withPackedStart).status = s.status := rfl
@[simp] theorem State.withPackedStart_errIdx (s : State) : (s.withPackedStart).errIdx = s.errIdx := rfl
@[simp] theorem State.withPackedStart_errAddr (s : State) : (s.withPackedStart).errAddr = s.errAddr := rfl
@[simp] theorem State.withPackedStart_clen (s : State) : (s.withPackedStart).clen = s.clen := rfl
@[simp] theorem State.withPackedStart_idx (s : State) : (s.withPackedStart).idx = s.idx := rfl
@[simp] theorem State.withPackedStart_imageCount (s : State) : (s.withPackedStart).imageCount = s.imageCount := rfl
@[simp] theorem State.withPackedStart_version (s : State) : (s.withPackedStart).version = s.version := rfl
@[simp] theorem State.withPackedStart_scanLineLen (s : State) : (s.withPackedStart).scanLineLen = s.scanLineLen := rfl
@[simp] theorem State.withPackedStart_hres (s : State) : (s.withPackedStart).hres = s.hres := rfl
@[simp] theorem State.withPackedStart_width (s : State) : (s.withPackedStart).width = s.width := rfl
@[simp] theorem State.withPackedStart_height (s : State) : (s.withPackedStart).height = s.height := rfl
@[simp] theorem State.withPackedStart_ires (s : State) : (s.withPackedStart).ires = s.ires := rfl
@[simp] theorem State.withPackedStart_unpackedOff (s : State) : (s.withPackedStart).unpackedOff = s.unpackedOff := rfl
@[simp] theorem State.withPackedStart_packedOff (s : State) : (s.withPackedStart).packedOff = s.packedOff := rfl
@[simp] theorem State.withPackedStart_rgb24 (s : State) : (s.withPackedStart).rgb24 = s.rgb24 := rfl
@[simp] theorem State.withPackedStart_rgb16 (s : State) : (s.withPackedStart).rgb16 = s.rgb16 := rfl
@[simp] theorem State.withPackedStart_channels (s : State) : (s.withPackedStart).channels = s.channels := rfl
@[simp] theorem State.withPackedStart_runpix (s : State) : (s.withPackedStart).runpix = s.runpix := rfl
@[simp] theorem State.withPackedStart_sp (s : State) :
    (s.withPackedStart).sp = BitVec.ofNat 34 s.packedOff.toNat := rfl
@[simp] theorem State.withPackedStart_cur (s : State) : (s.withPackedStart).cur = 0 := rfl
@[simp] theorem State.withPackedStart_prec (s : State) : (s.withPackedStart).prec = 0 := rfl
@[simp] theorem State.withPackedStart_nchunk (s : State) : (s.withPackedStart).nchunk = 0 := rfl
@[simp] theorem State.withPackedStart_nrun (s : State) : (s.withPackedStart).nrun = 0 := rfl
@[simp] theorem State.withPackedStart_cm (s : State) : (s.withPackedStart).cm = s.cm := rfl
@[simp] theorem State.withPackedStart_pm (s : State) : (s.withPackedStart).pm = s.pm := rfl
@[simp] theorem State.withPackedStart_slb (s : State) : (s.withPackedStart).slb = PixelMem.cleared := rfl
@[simp] theorem State.withPackedStart_doing (s : State) : (s.withPackedStart).doing = s.doing := rfl
@[simp] theorem State.withPackedStart_params (s : State) : (s.withPackedStart).params = s.params := rfl
@[simp] theorem State.withPackedStart_agenda (s : State) : (s.withPackedStart).agenda = s.agenda := rfl
@[simp] theorem State.withPackedStart_readData (s : State) : (s.withPackedStart).readData = s.readData := rfl
@[simp] theorem State.withPackedStart_freeCount (s : State) : (s.withPackedStart).freeCount = s.freeCount := rfl

/-! ### `State.withChunkCount` -/

@[simp] theorem State.withChunkCount_status (s : State) (m : U16) : (s.withChunkCount m).status = s.status := rfl
@[simp] theorem State.withChunkCount_errIdx (s : State) (m : U16) : (s.withChunkCount m).errIdx = s.errIdx := rfl
@[simp] theorem State.withChunkCount_errAddr (s : State) (m : U16) : (s.withChunkCount m).errAddr = s.errAddr := rfl
@[simp] theorem State.withChunkCount_clen (s : State) (m : U16) : (s.withChunkCount m).clen = s.clen := rfl
@[simp] theorem State.withChunkCount_idx (s : State) (m : U16) : (s.withChunkCount m).idx = s.idx := rfl
@[simp] theorem State.withChunkCount_imageCount (s : State) (m : U16) :
    (s.withChunkCount m).imageCount = s.imageCount := rfl
@[simp] theorem State.withChunkCount_version (s : State) (m : U16) : (s.withChunkCount m).version = s.version := rfl
@[simp] theorem State.withChunkCount_scanLineLen (s : State) (m : U16) :
    (s.withChunkCount m).scanLineLen = s.scanLineLen := rfl
@[simp] theorem State.withChunkCount_hres (s : State) (m : U16) : (s.withChunkCount m).hres = s.hres := rfl
@[simp] theorem State.withChunkCount_width (s : State) (m : U16) : (s.withChunkCount m).width = s.width := rfl
@[simp] theorem State.withChunkCount_height (s : State) (m : U16) : (s.withChunkCount m).height = s.height := rfl
@[simp] theorem State.withChunkCount_ires (s : State) (m : U16) : (s.withChunkCount m).ires = s.ires := rfl
@[simp] theorem State.withChunkCount_unpackedOff (s : State) (m : U16) :
    (s.withChunkCount m).unpackedOff = s.unpackedOff := rfl
@[simp] theorem State.withChunkCount_packedOff (s : State) (m : U16) :
    (s.withChunkCount m).packedOff = s.packedOff := rfl
@[simp] theorem State.withChunkCount_rgb24 (s : State) (m : U16) : (s.withChunkCount m).rgb24 = s.rgb24 := rfl
@[simp] theorem State.withChunkCount_rgb16 (s : State) (m : U16) : (s.withChunkCount m).rgb16 = s.rgb16 := rfl
@[simp] theorem State.withChunkCount_channels (s : State) (m : U16) :
    (s.withChunkCount m).channels = s.channels := rfl
@[simp] theorem State.withChunkCount_runpix (s : State) (m : U16) : (s.withChunkCount m).runpix = s.runpix := rfl
@[simp] theorem State.withChunkCount_sp (s : State) (m : U16) : (s.withChunkCount m).sp = s.sp := rfl
@[simp] theorem State.withChunkCount_cur (s : State) (m : U16) : (s.withChunkCount m).cur = s.cur := rfl
@[simp] theorem State.withChunkCount_prec (s : State) (m : U16) : (s.withChunkCount m).prec = s.prec := rfl
@[simp] theorem State.withChunkCount_nchunk (s : State) (m : U16) :
    (s.withChunkCount m).nchunk = BitVec.ofNat 17 (storedCount m) := rfl
@[simp] theorem State.withChunkCount_nrun (s : State) (m : U16) : (s.withChunkCount m).nrun = s.nrun := rfl
@[simp] theorem State.withChunkCount_cm (s : State) (m : U16) : (s.withChunkCount m).cm = s.cm := rfl
@[simp] theorem State.withChunkCount_pm (s : State) (m : U16) : (s.withChunkCount m).pm = s.pm := rfl
@[simp] theorem State.withChunkCount_slb (s : State) (m : U16) : (s.withChunkCount m).slb = s.slb := rfl
@[simp] theorem State.withChunkCount_doing (s : State) (m : U16) : (s.withChunkCount m).doing = s.doing := rfl
@[simp] theorem State.withChunkCount_params (s : State) (m : U16) : (s.withChunkCount m).params = s.params := rfl
@[simp] theorem State.withChunkCount_agenda (s : State) (m : U16) : (s.withChunkCount m).agenda = s.agenda := rfl
@[simp] theorem State.withChunkCount_readData (s : State) (m : U16) :
    (s.withChunkCount m).readData = s.readData := rfl
@[simp] theorem State.withChunkCount_freeCount (s : State) (m : U16) :
    (s.withChunkCount m).freeCount = s.freeCount := rfl

/-! ### `State.withChunkHead` -/

@[simp] theorem State.withChunkHead_status (s : State) (ob rs : U16) :
    (s.withChunkHead ob rs).status = if oddOffset ob then statusWarnOdd s.status else s.status := rfl
@[simp] theorem State.withChunkHead_errIdx (s : State) (ob rs : U16) :
    (s.withChunkHead ob rs).errIdx = s.errIdx := rfl
@[simp] theorem State.withChunkHead_errAddr (s : State) (ob rs : U16) :
    (s.withChunkHead ob rs).errAddr = s.errAddr := rfl
@[simp] theorem State.withChunkHead_clen (s : State) (ob rs : U16) : (s.withChunkHead ob rs).clen = s.clen := rfl
@[simp] theorem State.withChunkHead_idx (s : State) (ob rs : U16) : (s.withChunkHead ob rs).idx = s.idx := rfl
@[simp] theorem State.withChunkHead_imageCount (s : State) (ob rs : U16) :
    (s.withChunkHead ob rs).imageCount = s.imageCount := rfl
@[simp] theorem State.withChunkHead_version (s : State) (ob rs : U16) :
    (s.withChunkHead ob rs).version = s.version := rfl
@[simp] theorem State.withChunkHead_scanLineLen (s : State) (ob rs : U16) :
    (s.withChunkHead ob rs).scanLineLen = s.scanLineLen := rfl
@[simp] theorem State.withChunkHead_hres (s : State) (ob rs : U16) : (s.withChunkHead ob rs).hres = s.hres := rfl
@[simp] theorem State.withChunkHead_width (s : State) (ob rs : U16) : (s.withChunkHead ob rs).width = s.width := rfl
@[simp] theorem State.withChunkHead_height (s : State) (ob rs : U16) :
    (s.withChunkHead ob rs).height = s.height := rfl
@[simp] theorem State.withChunkHead_ires (s : State) (ob rs : U16) : (s.withChunkHead ob rs).ires = s.ires := rfl
@[simp] theorem State.withChunkHead_unpackedOff (s : State) (ob rs : U16) :
    (s.withChunkHead ob rs).unpackedOff = s.unpackedOff := rfl
@[simp] theorem State.withChunkHead_packedOff (s : State) (ob rs : U16) :
    (s.withChunkHead ob rs).packedOff = s.packedOff := rfl
@[simp] theorem State.withChunkHead_rgb24 (s : State) (ob rs : U16) : (s.withChunkHead ob rs).rgb24 = s.rgb24 := rfl
@[simp] theorem State.withChunkHead_rgb16 (s : State) (ob rs : U16) : (s.withChunkHead ob rs).rgb16 = s.rgb16 := rfl
@[simp] theorem State.withChunkHead_channels (s : State) (ob rs : U16) :
    (s.withChunkHead ob rs).channels = s.channels := rfl
@[simp] theorem State.withChunkHead_runpix (s : State) (ob rs : U16) :
    (s.withChunkHead ob rs).runpix = s.runpix := rfl
@[simp] theorem State.withChunkHead_sp (s : State) (ob rs : U16) : (s.withChunkHead ob rs).sp = s.sp := rfl
@[simp] theorem State.withChunkHead_cur (s : State) (ob rs : U16) :
    (s.withChunkHead ob rs).cur = BitVec.ofNat 34 (s.cur.toNat + (carry s.scanLineLen.toNat s.prec.toNat (halfOffset ob)).1) := rfl
@[simp] theorem State.withChunkHead_prec (s : State) (ob rs : U16) :
    (s.withChunkHead ob rs).prec = BitVec.ofNat 33 (carry s.scanLineLen.toNat s.prec.toNat (halfOffset ob)).2 := rfl
@[simp] theorem State.withChunkHead_nchunk (s : State) (ob rs : U16) :
    (s.withChunkHead ob rs).nchunk = s.nchunk := rfl
@[simp] theorem State.withChunkHead_nrun (s : State) (ob rs : U16) :
    (s.withChunkHead ob rs).nrun = BitVec.ofNat 17 (storedCount rs) := rfl
@[simp] theorem State.withChunkHead_cm (s : State) (ob rs : U16) : (s.withChunkHead ob rs).cm = s.cm := rfl
@[simp] theorem State.withChunkHead_pm (s : State) (ob rs : U16) : (s.withChunkHead ob rs).pm = s.pm := rfl
@[simp] theorem State.withChunkHead_slb (s : State) (ob rs : U16) : (s.withChunkHead ob rs).slb = s.slb := rfl
@[simp] theorem State.withChunkHead_doing (s : State) (ob rs : U16) : (s.withChunkHead ob rs).doing = s.doing := rfl
@[simp] theorem State.withChunkHead_params (s : State) (ob rs : U16) :
    (s.withChunkHead ob rs).params = s.params := rfl
@[simp] theorem State.withChunkHead_agenda (s : State) (ob rs : U16) :
    (s.withChunkHead ob rs).agenda = s.agenda := rfl
@[simp] theorem State.withChunkHead_readData (s : State) (ob rs : U16) :
    (s.withChunkHead ob rs).readData = s.readData := rfl
@[simp] theorem State.withChunkHead_freeCount (s : State) (ob rs : U16) :
    (s.withChunkHead ob rs).freeCount = s.freeCount := rfl

/-! ### `State.withRunPixel` -/

@[simp] theorem State.withRunPixel_status (s : State) (v : U16) : (s.withRunPixel v).status = s.status := rfl
@[simp] theorem State.withRunPixel_errIdx (s : State) (v : U16) : (s.withRunPixel v).errIdx = s.errIdx := rfl
@[simp] theorem State.withRunPixel_errAddr (s : State) (v : U16) : (s.withRunPixel v).errAddr = s.errAddr := rfl
@[simp] theorem State.withRunPixel_clen (s : State) (v : U16) : (s.withRunPixel v).clen = s.clen := rfl
@[simp] theorem State.withRunPixel_idx (s : State) (v : U16) : (s.withRunPixel v).idx = s.idx := rfl
@[simp] theorem State.withRunPixel_imageCount (s : State) (v : U16) :
    (s.withRunPixel v).imageCount = s.imageCount := rfl
@[simp] theorem State.withRunPixel_version (s : State) (v : U16) : (s.withRunPixel v).version = s.version := rfl
@[simp] theorem State.withRunPixel_scanLineLen (s : State) (v : U16) :
    (s.withRunPixel v).scanLineLen = s.scanLineLen := rfl
@[simp] theorem State.withRunPixel_hres (s : State) (v : U16) : (s.withRunPixel v).hres = s.hres := rfl
@[simp] theorem State.withRunPixel_width (s : State) (v : U16) : (s.withRunPixel v).width = s.width := rfl
@[simp] theorem State.withRunPixel_height (s : State) (v : U16) : (s.withRunPixel v).height = s.height := rfl
@[simp] theorem State.withRunPixel_ires (s : State) (v : U16) : (s.withRunPixel v).ires = s.ires := rfl
@[simp] theorem State.withRunPixel_unpackedOff (s : State) (v : U16) :
    (s.withRunPixel v).unpackedOff = s.unpackedOff := rfl
@[simp] theorem State.withRunPixel_packedOff (s : State) (v : U16) : (s.withRunPixel v).packedOff = s.packedOff := rfl
@[simp] theorem State.withRunPixel_rgb24 (s : State) (v : U16) : (s.withRunPixel v).rgb24 = s.rgb24 := rfl
@[simp] theorem State.withRunPixel_rgb16 (s : State) (v : U16) : (s.withRunPixel v).rgb16 = s.rgb16 := rfl
@[simp] theorem State.withRunPixel_channels (s : State) (v : U16) : (s.withRunPixel v).channels = s.channels := rfl
@[simp] theorem State.withRunPixel_runpix (s : State) (v : U16) : (s.withRunPixel v).runpix = s.runpix := rfl
@[simp] theorem State.withRunPixel_sp (s : State) (v : U16) : (s.withRunPixel v).sp = s.sp := rfl
@[simp] theorem State.withRunPixel_cur (s : State) (v : U16) :
    (s.withRunPixel v).cur = BitVec.ofNat 34 (s.cur.toNat + 1) := rfl
@[simp] theorem State.withRunPixel_prec (s : State) (v : U16) :
    (s.withRunPixel v).prec = BitVec.ofNat 33 (s.prec.toNat + 1) := rfl
@[simp] theorem State.withRunPixel_nchunk (s : State) (v : U16) : (s.withRunPixel v).nchunk = s.nchunk := rfl
@[simp] theorem State.withRunPixel_nrun (s : State) (v : U16) : (s.withRunPixel v).nrun = s.nrun - 1 := rfl
@[simp] theorem State.withRunPixel_cm (s : State) (v : U16) : (s.withRunPixel v).cm = s.cm := rfl
@[simp] theorem State.withRunPixel_pm (s : State) (v : U16) : (s.withRunPixel v).pm = s.pm := rfl
@[simp] theorem State.withRunPixel_slb (s : State) (v : U16) :
    (s.withRunPixel v).slb = if s.cur.toNat < s.slbCells then s.slb.write s.cur.toNat (to24 v) else s.slb := rfl
@[simp] theorem State.withRunPixel_doing (s : State) (v : U16) : (s.withRunPixel v).doing = s.doing := rfl
@[simp] theorem State.withRunPixel_params (s : State) (v : U16) : (s.withRunPixel v).params = s.params := rfl
@[simp] theorem State.withRunPixel_agenda (s : State) (v : U16) : (s.withRunPixel v).agenda = s.agenda := rfl
@[simp] theorem State.withRunPixel_readData (s : State) (v : U16) : (s.withRunPixel v).readData = s.readData := rfl
@[simp] theorem State.withRunPixel_freeCount (s : State) (v : U16) : (s.withRunPixel v).freeCount = s.freeCount := rfl

/-! ### `State.withChunkDone` -/

@[simp] theorem State.withChunkDone_status (s : State) : (s.withChunkDone).status = s.status := rfl
@[simp] theorem State.withChunkDone_errIdx (s : State) : (s.withChunkDone).errIdx = s.errIdx := rfl
@[simp] theorem State.withChunkDone_errAddr (s : State) : (s.withChunkDone).errAddr = s.errAddr := rfl
@[simp] theorem State.withChunkDone_clen (s : State) : (s.withChunkDone).clen = s.clen := rfl
@[simp] theorem State.withChunkDone_idx (s : State) : (s.withChunkDone).idx = s.idx := rfl
@[simp] theorem State.withChunkDone_imageCount (s : State) : (s.withChunkDone).imageCount = s.imageCount := rfl
@[simp] theorem State.withChunkDone_version (s : State) : (s.withChunkDone).version = s.version := rfl
@[simp] theorem State.withChunkDone_scanLineLen (s : State) : (s.withChunkDone).scanLineLen = s.scanLineLen := rfl
@[simp] theorem State.withChunkDone_hres (s : State) : (s.withChunkDone).hres = s.hres := rfl
@[simp] theorem State.withChunkDone_width (s : State) : (s.withChunkDone).width = s.width := rfl
@[simp] theorem State.withChunkDone_height (s : State) : (s.withChunkDone).height = s.height := rfl
@[simp] theorem State.withChunkDone_ires (s : State) : (s.withChunkDone).ires = s.ires := rfl
@[simp] theorem State.withChunkDone_unpackedOff (s : State) : (s.withChunkDone).unpackedOff = s.unpackedOff := rfl
@[simp] theorem State.withChunkDone_packedOff (s : State) : (s.withChunkDone).packedOff = s.packedOff := rfl
@[simp] theorem State.withChunkDone_rgb24 (s : State) : (s.withChunkDone).rgb24 = s.rgb24 := rfl
@[simp] theorem State.withChunkDone_rgb16 (s : State) : (s.withChunkDone).rgb16 = s.rgb16 := rfl
@[simp] theorem State.withChunkDone_channels (s : State) : (s.withChunkDone).channels = s.channels := rfl
@[simp] theorem State.withChunkDone_runpix (s : State) : (s.withChunkDone).runpix = s.runpix := rfl
@[simp] theorem State.withChunkDone_sp (s : State) : (s.withChunkDone).sp = s.sp := rfl
@[simp] theorem State.withChunkDone_cur (s : State) : (s.withChunkDone).cur = s.cur := rfl
@[simp] theorem State.withChunkDone_prec (s : State) : (s.withChunkDone).prec = s.prec := rfl
@[simp] theorem State.withChunkDone_nchunk (s : State) : (s.withChunkDone).nchunk = s.nchunk - 1 := rfl
@[simp] theorem State.withChunkDone_nrun (s : State) : (s.withChunkDone).nrun = s.nrun := rfl
@[simp] theorem State.withChunkDone_cm (s : State) : (s.withChunkDone).cm = s.cm := rfl
@[simp] theorem State.withChunkDone_pm (s : State) : (s.withChunkDone).pm = s.pm := rfl
@[simp] theorem State.withChunkDone_slb (s : State) : (s.withChunkDone).slb = s.slb := rfl
@[simp] theorem State.withChunkDone_doing (s : State) : (s.withChunkDone).doing = s.doing := rfl
@[simp] theorem State.withChunkDone_params (s : State) : (s.withChunkDone).params = s.params := rfl
@[simp] theorem State.withChunkDone_agenda (s : State) : (s.withChunkDone).agenda = s.agenda := rfl
@[simp] theorem State.withChunkDone_readData (s : State) : (s.withChunkDone).readData = s.readData := rfl
@[simp] theorem State.withChunkDone_freeCount (s : State) : (s.withChunkDone).freeCount = s.freeCount := rfl

/-! ### `State.withPlacement` -/

@[simp] theorem State.withPlacement_status (s : State) : (s.withPlacement).status = s.status := rfl
@[simp] theorem State.withPlacement_errIdx (s : State) : (s.withPlacement).errIdx = s.errIdx := rfl
@[simp] theorem State.withPlacement_errAddr (s : State) : (s.withPlacement).errAddr = s.errAddr := rfl
@[simp] theorem State.withPlacement_clen (s : State) : (s.withPlacement).clen = s.clen := rfl
@[simp] theorem State.withPlacement_idx (s : State) : (s.withPlacement).idx = s.idx := rfl
@[simp] theorem State.withPlacement_imageCount (s : State) : (s.withPlacement).imageCount = s.imageCount := rfl
@[simp] theorem State.withPlacement_version (s : State) : (s.withPlacement).version = s.version := rfl
@[simp] theorem State.withPlacement_scanLineLen (s : State) : (s.withPlacement).scanLineLen = s.scanLineLen := rfl
@[simp] theorem State.withPlacement_hres (s : State) : (s.withPlacement).hres = s.hres := rfl
@[simp] theorem State.withPlacement_width (s : State) : (s.withPlacement).width = s.width := rfl
@[simp] theorem State.withPlacement_height (s : State) : (s.withPlacement).height = s.height := rfl
@[simp] theorem State.withPlacement_ires (s : State) : (s.withPlacement).ires = s.ires := rfl
@[simp] theorem State.withPlacement_unpackedOff (s : State) :
    (s.withPlacement).unpackedOff = BitVec.ofNat 32 (encOffset s.imageCount s.runpix) := rfl
@[simp] theorem State.withPlacement_packedOff (s : State) : (s.withPlacement).packedOff = s.packedOff := rfl
@[simp] theorem State.withPlacement_rgb24 (s : State) : (s.withPlacement).rgb24 = s.rgb24 := rfl
@[simp] theorem State.withPlacement_rgb16 (s : State) : (s.withPlacement).rgb16 = s.rgb16 := rfl
@[simp] theorem State.withPlacement_channels (s : State) : (s.withPlacement).channels = s.channels := rfl
@[simp] theorem State.withPlacement_runpix (s : State) : (s.withPlacement).runpix = s.runpix := rfl
@[simp] theorem State.withPlacement_sp (s : State) : (s.withPlacement).sp = s.sp := rfl
@[simp] theorem State.withPlacement_cur (s : State) : (s.withPlacement).cur = s.cur := rfl
@[simp] theorem State.withPlacement_prec (s : State) : (s.withPlacement).prec = s.prec := rfl
@[simp] theorem State.withPlacement_nchunk (s : State) : (s.withPlacement).nchunk = s.nchunk := rfl
@[simp] theorem State.withPlacement_nrun (s : State) : (s.withPlacement).nrun = s.nrun := rfl
@[simp] theorem State.withPlacement_cm (s : State) : (s.withPlacement).cm = s.cm := rfl
@[simp] theorem State.withPlacement_pm (s : State) : (s.withPlacement).pm = s.pm := rfl
@[simp] theorem State.withPlacement_slb (s : State) : (s.withPlacement).slb = s.slb := rfl
@[simp] theorem State.withPlacement_doing (s : State) : (s.withPlacement).doing = s.doing := rfl
@[simp] theorem State.withPlacement_params (s : State) : (s.withPlacement).params = s.params := rfl
@[simp] theorem State.withPlacement_agenda (s : State) : (s.withPlacement).agenda = s.agenda := rfl
@[simp] theorem State.withPlacement_readData (s : State) : (s.withPlacement).readData = s.readData := rfl
@[simp] theorem State.withPlacement_freeCount (s : State) : (s.withPlacement).freeCount = s.freeCount := rfl

/-! ### `State.withCounted` -/

@[simp] theorem State.withCounted_status (s : State) : (s.withCounted).status = s.status := rfl
@[simp] theorem State.withCounted_errIdx (s : State) : (s.withCounted).errIdx = s.errIdx := rfl
@[simp] theorem State.withCounted_errAddr (s : State) : (s.withCounted).errAddr = s.errAddr := rfl
@[simp] theorem State.withCounted_clen (s : State) : (s.withCounted).clen = s.clen := rfl
@[simp] theorem State.withCounted_idx (s : State) : (s.withCounted).idx = s.idx := rfl
@[simp] theorem State.withCounted_imageCount (s : State) : (s.withCounted).imageCount = s.imageCount := rfl
@[simp] theorem State.withCounted_version (s : State) : (s.withCounted).version = s.version := rfl
@[simp] theorem State.withCounted_scanLineLen (s : State) : (s.withCounted).scanLineLen = s.scanLineLen := rfl
@[simp] theorem State.withCounted_hres (s : State) : (s.withCounted).hres = s.hres := rfl
@[simp] theorem State.withCounted_width (s : State) : (s.withCounted).width = s.width := rfl
@[simp] theorem State.withCounted_height (s : State) : (s.withCounted).height = s.height := rfl
@[simp] theorem State.withCounted_ires (s : State) : (s.withCounted).ires = s.ires := rfl
@[simp] theorem State.withCounted_unpackedOff (s : State) : (s.withCounted).unpackedOff = s.unpackedOff := rfl
@[simp] theorem State.withCounted_packedOff (s : State) : (s.withCounted).packedOff = s.packedOff := rfl
@[simp] theorem State.withCounted_rgb24 (s : State) : (s.withCounted).rgb24 = s.rgb24 := rfl
@[simp] theorem State.withCounted_rgb16 (s : State) : (s.withCounted).rgb16 = s.rgb16 := rfl
@[simp] theorem State.withCounted_channels (s : State) : (s.withCounted).channels = s.channels := rfl
@[simp] theorem State.withCounted_runpix (s : State) :
    (s.withCounted).runpix = BitVec.ofNat 32 (s.runpix.toNat + s.pixelCount) := rfl
@[simp] theorem State.withCounted_sp (s : State) : (s.withCounted).sp = s.sp := rfl
@[simp] theorem State.withCounted_cur (s : State) : (s.withCounted).cur = s.cur := rfl
@[simp] theorem State.withCounted_prec (s : State) : (s.withCounted).prec = s.prec := rfl
@[simp] theorem State.withCounted_nchunk (s : State) : (s.withCounted).nchunk = s.nchunk := rfl
@[simp] theorem State.withCounted_nrun (s : State) : (s.withCounted).nrun = s.nrun := rfl
@[simp] theorem State.withCounted_cm (s : State) : (s.withCounted).cm = s.cm := rfl
@[simp] theorem State.withCounted_pm (s : State) : (s.withCounted).pm = s.pm := rfl
@[simp] theorem State.withCounted_slb (s : State) : (s.withCounted).slb = s.slb := rfl
@[simp] theorem State.withCounted_doing (s : State) : (s.withCounted).doing = s.doing := rfl
@[simp] theorem State.withCounted_params (s : State) : (s.withCounted).params = s.params := rfl
@[simp] theorem State.withCounted_agenda (s : State) : (s.withCounted).agenda = s.agenda := rfl
@[simp] theorem State.withCounted_readData (s : State) : (s.withCounted).readData = s.readData := rfl
@[simp] theorem State.withCounted_freeCount (s : State) : (s.withCounted).freeCount = s.freeCount := rfl

/-! ### `State.accepted` -/

@[simp] theorem State.accepted_status (s : State) (code : Byte) :
    (s.accepted code).status = statusAccepted s.status := rfl
@[simp] theorem State.accepted_errIdx (s : State) (code : Byte) : (s.accepted code).errIdx = s.errIdx := rfl
@[simp] theorem State.accepted_errAddr (s : State) (code : Byte) : (s.accepted code).errAddr = s.errAddr := rfl
@[simp] theorem State.accepted_clen (s : State) (code : Byte) : (s.accepted code).clen = s.clen := rfl
@[simp] theorem State.accepted_idx (s : State) (code : Byte) : (s.accepted code).idx = s.idx := rfl
@[simp] theorem State.accepted_imageCount (s : State) (code : Byte) :
    (s.accepted code).imageCount = s.imageCount := rfl
@[simp] theorem State.accepted_version (s : State) (code : Byte) : (s.accepted code).version = s.version := rfl
@[simp] theorem State.accepted_scanLineLen (s : State) (code : Byte) :
    (s.accepted code).scanLineLen = s.scanLineLen := rfl
@[simp] theorem State.accepted_hres (s : State) (code : Byte) : (s.accepted code).hres = s.hres := rfl
@[simp] theorem State.accepted_width (s : State) (code : Byte) : (s.accepted code).width = s.width := rfl
@[simp] theorem State.accepted_height (s : State) (code : Byte) : (s.accepted code).height = s.height := rfl
@[simp] theorem State.accepted_ires (s : State) (code : Byte) : (s.accepted code).ires = s.ires := rfl
@[simp] theorem State.accepted_unpackedOff (s : State) (code : Byte) :
    (s.accepted code).unpackedOff = s.unpackedOff := rfl
@[simp] theorem State.accepted_packedOff (s : State) (code : Byte) : (s.accepted code).packedOff = s.packedOff := rfl
@[simp] theorem State.accepted_rgb24 (s : State) (code : Byte) : (s.accepted code).rgb24 = s.rgb24 := rfl
@[simp] theorem State.accepted_rgb16 (s : State) (code : Byte) : (s.accepted code).rgb16 = s.rgb16 := rfl
@[simp] theorem State.accepted_channels (s : State) (code : Byte) : (s.accepted code).channels = s.channels := rfl
@[simp] theorem State.accepted_runpix (s : State) (code : Byte) : (s.accepted code).runpix = s.runpix := rfl
@[simp] theorem State.accepted_sp (s : State) (code : Byte) : (s.accepted code).sp = s.sp := rfl
@[simp] theorem State.accepted_cur (s : State) (code : Byte) : (s.accepted code).cur = s.cur := rfl
@[simp] theorem State.accepted_prec (s : State) (code : Byte) : (s.accepted code).prec = s.prec := rfl
@[simp] theorem State.accepted_nchunk (s : State) (code : Byte) : (s.accepted code).nchunk = s.nchunk := rfl
@[simp] theorem State.accepted_nrun (s : State) (code : Byte) : (s.accepted code).nrun = s.nrun := rfl
@[simp] theorem State.accepted_cm (s : State) (code : Byte) : (s.accepted code).cm = s.cm := rfl
@[simp] theorem State.accepted_pm (s : State) (code : Byte) : (s.accepted code).pm = s.pm := rfl
@[simp] theorem State.accepted_slb (s : State) (code : Byte) : (s.accepted code).slb = s.slb := rfl
@[simp] theorem State.accepted_doing (s : State) (code : Byte) : (s.accepted code).doing = .command code := rfl
@[simp] theorem State.accepted_params (s : State) (code : Byte) : (s.accepted code).params = s.params := rfl
@[simp] theorem State.accepted_agenda (s : State) (code : Byte) : (s.accepted code).agenda = s.agenda := rfl
@[simp] theorem State.accepted_readData (s : State) (code : Byte) : (s.accepted code).readData = s.readData := rfl
@[simp] theorem State.accepted_freeCount (s : State) (code : Byte) : (s.accepted code).freeCount = s.freeCount := rfl

/-! ### `State.resetUnit` -/

@[simp] theorem State.resetUnit_status (s : State) : (s.resetUnit).status = 0 := rfl
@[simp] theorem State.resetUnit_errIdx (s : State) : (s.resetUnit).errIdx = 0 := rfl
@[simp] theorem State.resetUnit_errAddr (s : State) : (s.resetUnit).errAddr = 0 := rfl
@[simp] theorem State.resetUnit_clen (s : State) : (s.resetUnit).clen = 0 := rfl
@[simp] theorem State.resetUnit_idx (s : State) : (s.resetUnit).idx = 0 := rfl
@[simp] theorem State.resetUnit_imageCount (s : State) : (s.resetUnit).imageCount = 0 := rfl
@[simp] theorem State.resetUnit_version (s : State) : (s.resetUnit).version = 0 := rfl
@[simp] theorem State.resetUnit_scanLineLen (s : State) : (s.resetUnit).scanLineLen = 0 := rfl
@[simp] theorem State.resetUnit_hres (s : State) : (s.resetUnit).hres = 0 := rfl
@[simp] theorem State.resetUnit_width (s : State) : (s.resetUnit).width = 0 := rfl
@[simp] theorem State.resetUnit_height (s : State) : (s.resetUnit).height = 0 := rfl
@[simp] theorem State.resetUnit_ires (s : State) : (s.resetUnit).ires = 0 := rfl
@[simp] theorem State.resetUnit_unpackedOff (s : State) : (s.resetUnit).unpackedOff = 0 := rfl
@[simp] theorem State.resetUnit_packedOff (s : State) : (s.resetUnit).packedOff = 0 := rfl
@[simp] theorem State.resetUnit_rgb24 (s : State) : (s.resetUnit).rgb24 = 0 := rfl
@[simp] theorem State.resetUnit_rgb16 (s : State) : (s.resetUnit).rgb16 = 0 := rfl
@[simp] theorem State.resetUnit_channels (s : State) : (s.resetUnit).channels = 0 := rfl
@[simp] theorem State.resetUnit_runpix (s : State) : (s.resetUnit).runpix = 0 := rfl
@[simp] theorem State.resetUnit_sp (s : State) : (s.resetUnit).sp = 0 := rfl
@[simp] theorem State.resetUnit_cur (s : State) : (s.resetUnit).cur = 0 := rfl
@[simp] theorem State.resetUnit_prec (s : State) : (s.resetUnit).prec = 0 := rfl
@[simp] theorem State.resetUnit_nchunk (s : State) : (s.resetUnit).nchunk = 0 := rfl
@[simp] theorem State.resetUnit_nrun (s : State) : (s.resetUnit).nrun = 0 := rfl
@[simp] theorem State.resetUnit_cm (s : State) : (s.resetUnit).cm = { epoch := s.freeCount, cells := [] } := rfl
@[simp] theorem State.resetUnit_pm (s : State) :
    (s.resetUnit).pm = { fill := .free (s.freeCount + 1), cells := [] } := rfl
@[simp] theorem State.resetUnit_slb (s : State) :
    (s.resetUnit).slb = { fill := .free (s.freeCount + 2), cells := [] } := rfl
@[simp] theorem State.resetUnit_doing (s : State) : (s.resetUnit).doing = .idle := rfl
@[simp] theorem State.resetUnit_params (s : State) : (s.resetUnit).params = s.params := rfl
@[simp] theorem State.resetUnit_agenda (s : State) : (s.resetUnit).agenda = s.agenda := rfl
@[simp] theorem State.resetUnit_readData (s : State) : (s.resetUnit).readData = s.readData := rfl
@[simp] theorem State.resetUnit_freeCount (s : State) : (s.resetUnit).freeCount = s.freeCount + 3 := rfl

end Sys2Proof.Machine
end

