-- ==== Sys2Proof/Laws/Flags.lean ====
section
/-! SUPPORT. The laws of `STATUS`: an update writes its own field's bits and no other (R23). -/

namespace Sys2Proof.Machine

/-- A field update, bit by bit. -/
theorem getLsbD_setField (v : BitVec 16) (lo w : Nat) (x : BitVec w) (i : Nat) (hi : i < 16) :
    (setField v lo w x).getLsbD i = if lo ≤ i ∧ i < lo + w then x.getLsbD (i - lo) else v.getLsbD i := by
  simp only [setField, BitVec.getLsbD_or, BitVec.getLsbD_and, BitVec.getLsbD_not, BitVec.getLsbD_shiftLeft,
    BitVec.getLsbD_setWidth, BitVec.getLsbD_allOnes]
  by_cases h : lo ≤ i ∧ i < lo + w
  · rw [if_pos h]
    have h₁ : ¬ i < lo := by omega
    have h₂ : i - lo < w := by omega
    have h₃ : i - lo < 16 := by omega
    simp [hi, h₁, h₂, h₃]
  · rw [if_neg h]
    by_cases hlo : i < lo
    · simp [hi, hlo]
    · have h₂ : ¬ i - lo < w := by omega
      have h₃ : x.getLsbD (i - lo) = false := BitVec.getLsbD_of_ge _ _ (by omega)
      simp [hi, hlo, h₂, h₃]

/-- Bit `i` of `STATUS` after each update, for every bit: the one lemma from which a field of any update follows. -/
theorem getLsbD_statusAccepted (v : BitVec 16) (i : Nat) (hi : i < 16) :
    (statusAccepted v).getLsbD i = if i = 0 then true else if i = 1 then false else v.getLsbD i := by
  simp only [statusAccepted, getLsbD_setField _ _ _ _ _ hi]
  interval_cases i <;> simp

theorem getLsbD_statusEnded (v : BitVec 16) (i : Nat) (hi : i < 16) :
    (statusEnded v).getLsbD i = if i = 0 then false else if i = 1 then true else v.getLsbD i := by
  simp only [statusEnded, getLsbD_setField _ _ _ _ _ hi]
  interval_cases i <;> simp

theorem getLsbD_statusRaised (v : BitVec 16) (c : Cause) (i : Nat) (hi : i < 16) :
    (statusRaised v c).getLsbD i =
      if 4 ≤ i ∧ i < 7 then c.code.getLsbD (i - 4)
      else if 12 ≤ i then c.sub.getLsbD (i - 12) else v.getLsbD i := by
  simp only [statusRaised, getLsbD_setField _ _ _ _ _ hi]
  interval_cases i <;> simp

theorem getLsbD_statusCleared (v : BitVec 16) (i : Nat) (hi : i < 16) :
    (statusCleared v).getLsbD i =
      if 4 ≤ i ∧ i < 7 ∨ 8 ≤ i ∧ i < 11 ∨ 12 ≤ i then false else v.getLsbD i := by
  simp only [statusCleared, getLsbD_setField _ _ _ _ _ hi]
  interval_cases i <;> simp

theorem getLsbD_statusWarnHres (v : BitVec 16) (i : Nat) (hi : i < 16) :
    (statusWarnHres v).getLsbD i = if i = 8 then true else v.getLsbD i := by
  simp only [statusWarnHres, getLsbD_setField _ _ _ _ _ hi]
  interval_cases i <;> simp

theorem getLsbD_statusWarnIres (v : BitVec 16) (i : Nat) (hi : i < 16) :
    (statusWarnIres v).getLsbD i = if i = 9 then true else v.getLsbD i := by
  simp only [statusWarnIres, getLsbD_setField _ _ _ _ _ hi]
  interval_cases i <;> simp

theorem getLsbD_statusWarnOdd (v : BitVec 16) (i : Nat) (hi : i < 16) :
    (statusWarnOdd v).getLsbD i = if i = 10 then true else v.getLsbD i := by
  simp only [statusWarnOdd, getLsbD_setField _ _ _ _ _ hi]
  interval_cases i <;> simp

theorem getLsbD_statusWithOdd (v : BitVec 16) (b : Bool) (i : Nat) (hi : i < 16) :
    (statusWithOdd v b).getLsbD i = if i = 10 then b else v.getLsbD i := by
  simp only [statusWithOdd, getLsbD_setField _ _ _ _ _ hi]
  interval_cases i <;> simp

/-- Giving `WARN_ODD` the value it has changes nothing. -/
theorem statusWithOdd_self (v : BitVec 16) : statusWithOdd v (v.getLsbD 10) = v := by
  apply BitVec.eq_of_getLsbD_eq
  intro i hi
  rw [getLsbD_statusWithOdd _ _ _ hi]
  split
  · subst i; rfl
  · rfl

/-- What a failed packed decode did to `WARN_ODD` is undone (D20). -/
theorem statusWithOdd_statusWarnOdd (v : BitVec 16) (b : Bool) :
    statusWithOdd (statusWarnOdd v) b = statusWithOdd v b := by
  apply BitVec.eq_of_getLsbD_eq
  intro i hi
  rw [getLsbD_statusWithOdd _ _ _ hi, getLsbD_statusWithOdd _ _ _ hi, getLsbD_statusWarnOdd _ _ hi]
  split <;> rfl

/-- `STATUS.ERR` after an update whose bits 6:4 are known. -/
theorem err_eq_of_bits {s : State} {x : BitVec 3} (h : ∀ i, i < 3 → s.status.getLsbD (4 + i) = x.getLsbD i) :
    s.err = x := by
  apply BitVec.eq_of_getLsbD_eq
  intro i hi
  simp only [State.err, BitVec.getLsbD_extractLsb', hi, decide_true, Bool.true_and]
  exact h i hi

/-- `STATUS.SUB` after an update whose bits 15:12 are known. -/
theorem sub_eq_of_bits {s : State} {x : BitVec 4} (h : ∀ i, i < 4 → s.status.getLsbD (12 + i) = x.getLsbD i) :
    s.sub = x := by
  apply BitVec.eq_of_getLsbD_eq
  intro i hi
  simp only [State.sub, BitVec.getLsbD_extractLsb', hi, decide_true, Bool.true_and]
  exact h i hi

/-! ### Every field after acceptance, completion, an error and `CLR` -/

@[simp] theorem State.busy_complete (s : State) : s.complete.busy = false := by
  simp only [State.busy, State.complete_status, getLsbD_statusEnded _ _ (show 0 < 16 by decide)]; rfl

@[simp] theorem State.done_complete (s : State) : s.complete.done = true := by
  simp only [State.done, State.complete_status, getLsbD_statusEnded _ _ (show 1 < 16 by decide)]; rfl

@[simp] theorem State.warnHres_complete (s : State) : s.complete.warnHres = s.warnHres := by
  simp only [State.warnHres, State.complete_status, getLsbD_statusEnded _ _ (show 8 < 16 by decide)]; rfl

@[simp] theorem State.warnIres_complete (s : State) : s.complete.warnIres = s.warnIres := by
  simp only [State.warnIres, State.complete_status, getLsbD_statusEnded _ _ (show 9 < 16 by decide)]; rfl

@[simp] theorem State.warnOdd_complete (s : State) : s.complete.warnOdd = s.warnOdd := by
  simp only [State.warnOdd, State.complete_status, getLsbD_statusEnded _ _ (show 10 < 16 by decide)]; rfl

@[simp] theorem State.err_complete (s : State) : s.complete.err = s.err := by
  apply err_eq_of_bits
  intro i hi
  simp only [State.complete_status, getLsbD_statusEnded _ _ (show 4 + i < 16 by omega)]
  rw [State.err, BitVec.getLsbD_extractLsb']
  interval_cases i <;> rfl

@[simp] theorem State.sub_complete (s : State) : s.complete.sub = s.sub := by
  apply sub_eq_of_bits
  intro i hi
  simp only [State.complete_status, getLsbD_statusEnded _ _ (show 12 + i < 16 by omega)]
  rw [State.sub, BitVec.getLsbD_extractLsb']
  interval_cases i <;> rfl

@[simp] theorem State.busy_accepted (s : State) (code : Byte) : (s.accepted code).busy = true := by
  simp only [State.busy, State.accepted_status, getLsbD_statusAccepted _ _ (show 0 < 16 by decide)]; rfl

@[simp] theorem State.done_accepted (s : State) (code : Byte) : (s.accepted code).done = false := by
  simp only [State.done, State.accepted_status, getLsbD_statusAccepted _ _ (show 1 < 16 by decide)]; rfl

@[simp] theorem State.warnHres_accepted (s : State) (code : Byte) : (s.accepted code).warnHres = s.warnHres := by
  simp only [State.warnHres, State.accepted_status, getLsbD_statusAccepted _ _ (show 8 < 16 by decide)]; rfl

@[simp] theorem State.warnIres_accepted (s : State) (code : Byte) : (s.accepted code).warnIres = s.warnIres := by
  simp only [State.warnIres, State.accepted_status, getLsbD_statusAccepted _ _ (show 9 < 16 by decide)]; rfl

@[simp] theorem State.warnOdd_accepted (s : State) (code : Byte) : (s.accepted code).warnOdd = s.warnOdd := by
  simp only [State.warnOdd, State.accepted_status, getLsbD_statusAccepted _ _ (show 10 < 16 by decide)]; rfl

@[simp] theorem State.err_accepted (s : State) (code : Byte) : (s.accepted code).err = s.err := by
  apply err_eq_of_bits
  intro i hi
  simp only [State.accepted_status, getLsbD_statusAccepted _ _ (show 4 + i < 16 by omega)]
  rw [State.err, BitVec.getLsbD_extractLsb']
  interval_cases i <;> rfl

@[simp] theorem State.sub_accepted (s : State) (code : Byte) : (s.accepted code).sub = s.sub := by
  apply sub_eq_of_bits
  intro i hi
  simp only [State.accepted_status, getLsbD_statusAccepted _ _ (show 12 + i < 16 by omega)]
  rw [State.sub, BitVec.getLsbD_extractLsb']
  interval_cases i <;> rfl

@[simp] theorem State.busy_clearError (s : State) : s.clearError.busy = s.busy := by
  simp only [State.busy, State.clearError_status, getLsbD_statusCleared _ _ (show 0 < 16 by decide)]; rfl

@[simp] theorem State.done_clearError (s : State) : s.clearError.done = s.done := by
  simp only [State.done, State.clearError_status, getLsbD_statusCleared _ _ (show 1 < 16 by decide)]; rfl

@[simp] theorem State.warnHres_clearError (s : State) : s.clearError.warnHres = false := by
  simp only [State.warnHres, State.clearError_status, getLsbD_statusCleared _ _ (show 8 < 16 by decide)]; rfl

@[simp] theorem State.warnIres_clearError (s : State) : s.clearError.warnIres = false := by
  simp only [State.warnIres, State.clearError_status, getLsbD_statusCleared _ _ (show 9 < 16 by decide)]; rfl

@[simp] theorem State.warnOdd_clearError (s : State) : s.clearError.warnOdd = false := by
  simp only [State.warnOdd, State.clearError_status, getLsbD_statusCleared _ _ (show 10 < 16 by decide)]; rfl

@[simp] theorem State.err_clearError (s : State) : s.clearError.err = 0 := by
  apply err_eq_of_bits
  intro i hi
  simp only [State.clearError_status, getLsbD_statusCleared _ _ (show 4 + i < 16 by omega)]
  interval_cases i <;> rfl

@[simp] theorem State.sub_clearError (s : State) : s.clearError.sub = 0 := by
  apply sub_eq_of_bits
  intro i hi
  simp only [State.clearError_status, getLsbD_statusCleared _ _ (show 12 + i < 16 by omega)]
  interval_cases i <;> rfl

@[simp] theorem State.busy_takeError (s : State) (e : Raise) : (s.takeError e).busy = false := by
  simp only [State.busy, State.takeError_status, getLsbD_statusEnded _ _ (show 0 < 16 by decide),
    getLsbD_statusRaised _ _ _ (show 0 < 16 by decide)]; rfl

@[simp] theorem State.done_takeError (s : State) (e : Raise) : (s.takeError e).done = true := by
  simp only [State.done, State.takeError_status, getLsbD_statusEnded _ _ (show 1 < 16 by decide),
    getLsbD_statusRaised _ _ _ (show 1 < 16 by decide)]; rfl

@[simp] theorem State.warnHres_takeError (s : State) (e : Raise) : (s.takeError e).warnHres = s.warnHres := by
  simp only [State.warnHres, State.takeError_status, getLsbD_statusEnded _ _ (show 8 < 16 by decide),
    getLsbD_statusRaised _ _ _ (show 8 < 16 by decide)]; rfl

@[simp] theorem State.warnIres_takeError (s : State) (e : Raise) : (s.takeError e).warnIres = s.warnIres := by
  simp only [State.warnIres, State.takeError_status, getLsbD_statusEnded _ _ (show 9 < 16 by decide),
    getLsbD_statusRaised _ _ _ (show 9 < 16 by decide)]; rfl

@[simp] theorem State.warnOdd_takeError (s : State) (e : Raise) : (s.takeError e).warnOdd = s.warnOdd := by
  simp only [State.warnOdd, State.takeError_status, getLsbD_statusEnded _ _ (show 10 < 16 by decide),
    getLsbD_statusRaised _ _ _ (show 10 < 16 by decide)]; rfl

@[simp] theorem State.err_takeError (s : State) (e : Raise) : (s.takeError e).err = e.cause.code := by
  apply err_eq_of_bits
  intro i hi
  simp only [State.takeError_status, getLsbD_statusEnded _ _ (show 4 + i < 16 by omega),
    getLsbD_statusRaised _ _ _ (show 4 + i < 16 by omega)]
  interval_cases i <;> rfl

@[simp] theorem State.sub_takeError (s : State) (e : Raise) : (s.takeError e).sub = e.cause.sub := by
  apply sub_eq_of_bits
  intro i hi
  simp only [State.takeError_status, getLsbD_statusEnded _ _ (show 12 + i < 16 by omega),
    getLsbD_statusRaised _ _ _ (show 12 + i < 16 by omega)]
  interval_cases i <;> rfl

@[simp] theorem State.busy_withWarnOdd (s : State) (b : Bool) : (s.withWarnOdd b).busy = s.busy := by
  simp only [State.busy, State.withWarnOdd_status, getLsbD_statusWithOdd _ _ _ (show 0 < 16 by decide)]; rfl

@[simp] theorem State.done_withWarnOdd (s : State) (b : Bool) : (s.withWarnOdd b).done = s.done := by
  simp only [State.done, State.withWarnOdd_status, getLsbD_statusWithOdd _ _ _ (show 1 < 16 by decide)]; rfl

@[simp] theorem State.warnHres_withWarnOdd (s : State) (b : Bool) : (s.withWarnOdd b).warnHres = s.warnHres := by
  simp only [State.warnHres, State.withWarnOdd_status, getLsbD_statusWithOdd _ _ _ (show 8 < 16 by decide)]; rfl

@[simp] theorem State.warnIres_withWarnOdd (s : State) (b : Bool) : (s.withWarnOdd b).warnIres = s.warnIres := by
  simp only [State.warnIres, State.withWarnOdd_status, getLsbD_statusWithOdd _ _ _ (show 9 < 16 by decide)]; rfl

@[simp] theorem State.warnOdd_withWarnOdd (s : State) (b : Bool) : (s.withWarnOdd b).warnOdd = b := by
  simp only [State.warnOdd, State.withWarnOdd_status, getLsbD_statusWithOdd _ _ _ (show 10 < 16 by decide)]; rfl

@[simp] theorem State.err_withWarnOdd (s : State) (b : Bool) : (s.withWarnOdd b).err = s.err := by
  apply err_eq_of_bits
  intro i hi
  simp only [State.withWarnOdd_status, getLsbD_statusWithOdd _ _ _ (show 4 + i < 16 by omega)]
  rw [State.err, BitVec.getLsbD_extractLsb']
  interval_cases i <;> rfl

@[simp] theorem State.sub_withWarnOdd (s : State) (b : Bool) : (s.withWarnOdd b).sub = s.sub := by
  apply sub_eq_of_bits
  intro i hi
  simp only [State.withWarnOdd_status, getLsbD_statusWithOdd _ _ _ (show 12 + i < 16 by omega)]
  rw [State.sub, BitVec.getLsbD_extractLsb']
  interval_cases i <;> rfl

end Sys2Proof.Machine
end

