-- ==== Sys2Proof/Laws/Memory.lean ====
section
/-! SUPPORT. The laws of the memories: a read after a write, and the canonical form, which every operation keeps. -/

namespace Sys2Proof.Machine

section Cells
variable {α : Type}

@[simp] theorem cellAt_nil (a : Nat) : cellAt ([] : List (Nat × α)) a = none := rfl

theorem cellAt_putCell (l : List (Nat × α)) (a b : Nat) (x : α) :
    cellAt (putCell l a x) b = if a = b then some x else cellAt l b := by
  induction l with
  | nil => simp [putCell, cellAt]
  | cons c rest ih =>
    obtain ⟨k, y⟩ := c
    unfold putCell
    split_ifs with h₁ h₂ <;> simp only [cellAt, ih] <;> split_ifs <;> first | rfl | omega

@[simp] theorem cellAt_putCell_same (l : List (Nat × α)) (a : Nat) (x : α) :
    cellAt (putCell l a x) a = some x := by simp [cellAt_putCell]

theorem cellAt_putCell_other (l : List (Nat × α)) {a b : Nat} (x : α) (h : a ≠ b) :
    cellAt (putCell l a x) b = cellAt l b := by simp [cellAt_putCell, h]

theorem cellAt_eq_none_of_risingAbove (l : List (Nat × α)) {n a : Nat} (h : risingAbove n l = true) (ha : a ≤ n) :
    cellAt l a = none := by
  induction l generalizing n with
  | nil => rfl
  | cons c rest ih =>
    simp only [risingAbove, Bool.and_eq_true, decide_eq_true_eq] at h
    simp only [cellAt]
    rw [if_neg (by omega)]
    exact ih h.2 (by omega)

theorem risingAbove_mono {l : List (Nat × α)} {m n : Nat} (h : risingAbove n l = true) (hm : m ≤ n) :
    risingAbove m l = true := by
  cases l with
  | nil => rfl
  | cons c rest =>
    simp only [risingAbove, Bool.and_eq_true, decide_eq_true_eq] at h ⊢
    exact ⟨by omega, h.2⟩

theorem rising_of_risingAbove {l : List (Nat × α)} {n : Nat} (h : risingAbove n l = true) : rising l = true := by
  cases l with
  | nil => rfl
  | cons c rest =>
    simp only [risingAbove, Bool.and_eq_true] at h
    exact h.2

theorem risingAbove_putCell (l : List (Nat × α)) {n a : Nat} (x : α) (h : risingAbove n l = true) (ha : n < a) :
    risingAbove n (putCell l a x) = true := by
  induction l generalizing n with
  | nil => simp [putCell, risingAbove, ha]
  | cons c rest ih =>
    obtain ⟨k, y⟩ := c
    simp only [risingAbove, Bool.and_eq_true, decide_eq_true_eq] at h
    unfold putCell
    split_ifs with h₁ h₂
    · simp only [risingAbove, Bool.and_eq_true, decide_eq_true_eq]
      exact ⟨ha, h₁, h.2⟩
    · subst h₂
      simp only [risingAbove, Bool.and_eq_true, decide_eq_true_eq]
      exact h
    · simp only [risingAbove, Bool.and_eq_true, decide_eq_true_eq]
      exact ⟨h.1, ih h.2 (by omega)⟩

/-- Listing a cell keeps the addresses strictly rising. -/
theorem rising_putCell (l : List (Nat × α)) (a : Nat) (x : α) (h : rising l = true) :
    rising (putCell l a x) = true := by
  cases l with
  | nil => rfl
  | cons c rest =>
    obtain ⟨k, y⟩ := c
    unfold putCell
    split_ifs with h₁ h₂
    · simp only [rising, risingAbove, Bool.and_eq_true, decide_eq_true_eq]
      exact ⟨h₁, h⟩
    · subst h₂; exact h
    · exact risingAbove_putCell rest x h (by omega)

theorem risingAbove_dropCell (l : List (Nat × α)) {n : Nat} (a : Nat) (h : risingAbove n l = true) :
    risingAbove n (dropCell l a) = true := by
  induction l generalizing n with
  | nil => rfl
  | cons c rest ih =>
    obtain ⟨k, y⟩ := c
    simp only [risingAbove, Bool.and_eq_true, decide_eq_true_eq] at h
    unfold dropCell
    split_ifs
    · exact risingAbove_mono h.2 (by omega)
    · simp only [risingAbove, Bool.and_eq_true, decide_eq_true_eq]
      exact ⟨h.1, ih h.2⟩

/-- Unlisting a cell keeps the addresses strictly rising. -/
theorem rising_dropCell (l : List (Nat × α)) (a : Nat) (h : rising l = true) : rising (dropCell l a) = true := by
  cases l with
  | nil => rfl
  | cons c rest =>
    obtain ⟨k, y⟩ := c
    unfold dropCell
    split_ifs
    · exact rising_of_risingAbove h
    · exact risingAbove_dropCell rest a h

theorem cellAt_dropCell (l : List (Nat × α)) (a b : Nat) (h : rising l = true) :
    cellAt (dropCell l a) b = if a = b then none else cellAt l b := by
  induction l with
  | nil => simp [dropCell]
  | cons c rest ih =>
    obtain ⟨k, y⟩ := c
    have h' : risingAbove k rest = true := h
    unfold dropCell
    split_ifs with h₁ h₂ h₂
    · subst h₁ h₂; exact cellAt_eq_none_of_risingAbove rest h' (le_refl _)
    · subst h₁; simp [cellAt, h₂]
    · subst h₂
      simp [cellAt, h₁, ih (rising_of_risingAbove h')]
    · simp only [cellAt, ih (rising_of_risingAbove h'), if_neg h₂]

theorem mem_putCell {l : List (Nat × α)} {a : Nat} {x : α} {c : Nat × α} (h : c ∈ putCell l a x) :
    c = (a, x) ∨ c ∈ l := by
  induction l with
  | nil => simpa [putCell] using h
  | cons d rest ih =>
    obtain ⟨k, y⟩ := d
    unfold putCell at h
    split_ifs at h <;> simp only [List.mem_cons] at h ⊢ <;> tauto

theorem mem_dropCell {l : List (Nat × α)} {a : Nat} {c : Nat × α} (h : c ∈ dropCell l a) : c ∈ l := by
  induction l with
  | nil => simp [dropCell] at h
  | cons d rest ih =>
    obtain ⟨k, y⟩ := d
    unfold dropCell at h
    split_ifs at h <;> simp only [List.mem_cons] at h ⊢ <;> tauto

end Cells

/-! ### `CM` -/

theorem ByteMem.read_write (m : ByteMem) (a c : Nat) (b : Byte) :
    (m.write a b).read c = if a = c then b else m.read c := by
  simp only [ByteMem.read, ByteMem.write, ByteMem.unlisted, cellAt_putCell]
  split_ifs <;> rfl

@[simp] theorem ByteMem.read_write_same (m : ByteMem) (a : Nat) (b : Byte) : (m.write a b).read a = b := by
  simp [ByteMem.read_write]

theorem ByteMem.read_write_other (m : ByteMem) {a c : Nat} (b : Byte) (h : a ≠ c) :
    (m.write a b).read c = m.read c := by simp [ByteMem.read_write, h]

/-- A byte string stored from `a`: its own bytes inside, every other cell as before. -/
theorem ByteMem.read_writeBytes (m : ByteMem) (a c : Nat) (bytes : List Byte) :
    (m.writeBytes a bytes).read c =
      if h : a ≤ c ∧ c < a + bytes.length then bytes[c - a]'(by omega) else m.read c := by
  induction bytes generalizing m a with
  | nil => simp only [ByteMem.writeBytes, List.length_nil]; rw [dif_neg (by omega)]
  | cons b rest ih =>
    simp only [ByteMem.writeBytes, ih, List.length_cons]
    by_cases h : a + 1 ≤ c ∧ c < a + 1 + rest.length
    · rw [dif_pos h, dif_pos (by omega)]
      have hc : c - a = (c - (a + 1)) + 1 := by omega
      simp only [hc, List.getElem_cons_succ]
    · rw [dif_neg h, ByteMem.read_write]
      by_cases hc : a = c
      · subst hc; rw [if_pos rfl, dif_pos (by omega)]; simp
      · rw [if_neg hc, dif_neg (by omega)]

theorem ByteMem.read_writeBytes_outside (m : ByteMem) {a c : Nat} (bytes : List Byte)
    (h : c < a ∨ a + bytes.length ≤ c) : (m.writeBytes a bytes).read c = m.read c := by
  rw [ByteMem.read_writeBytes, dif_neg (by omega)]

theorem ByteMem.read_writeBytes_inside (m : ByteMem) {a k : Nat} (bytes : List Byte) (h : k < bytes.length) :
    (m.writeBytes a bytes).read (a + k) = bytes[k] := by
  rw [ByteMem.read_writeBytes, dif_pos (by omega)]
  simp

@[simp] theorem ByteMem.length_readBytes (m : ByteMem) (a n : Nat) : (m.readBytes a n).length = n := by
  induction n generalizing a with
  | zero => rfl
  | succ n ih => simp [ByteMem.readBytes, ih]

theorem ByteMem.readBytes_append (m : ByteMem) (a k n : Nat) :
    m.readBytes a (k + n) = m.readBytes a k ++ m.readBytes (a + k) n := by
  induction k generalizing a with
  | zero => simp [ByteMem.readBytes]
  | succ k ih =>
    have h : k + 1 + n = (k + n) + 1 := by omega
    rw [h, ByteMem.readBytes, ByteMem.readBytes, ih]
    have h' : a + (k + 1) = a + 1 + k := by omega
    rw [h']; rfl

theorem ByteMem.wf_write (m : ByteMem) {a : Nat} (b : Byte) (h : m.wf = true) (ha : a < Config.cmCells) :
    (m.write a b).wf = true := by
  simp only [ByteMem.wf, ByteMem.write, Bool.and_eq_true, List.all_eq_true, decide_eq_true_eq] at h ⊢
  refine ⟨rising_putCell _ _ _ h.1, fun c hc => ?_⟩
  rcases mem_putCell hc with rfl | hc
  · exact ha
  · exact h.2 c hc

/-- Storing a field keeps the canonical form of `CM`. -/
theorem ByteMem.wf_writeBytes (m : ByteMem) {a : Nat} (bytes : List Byte) (h : m.wf = true)
    (ha : a + bytes.length ≤ Config.cmCells) : (m.writeBytes a bytes).wf = true := by
  induction bytes generalizing m a with
  | nil => exact h
  | cons b rest ih =>
    rw [List.length_cons] at ha
    exact ih _ (m.wf_write b h (by omega)) (by omega)

theorem ByteMem.wf_fresh (epoch : Nat) : (ByteMem.mk epoch []).wf = true := rfl

/-! ### `PM` and `SLB` -/

theorem PixelMem.read_write (m : PixelMem) (i j : Nat) (p : Pixel) (h : rising m.cells = true) :
    (m.write i p).read j = if i = j then p else m.read j := by
  unfold PixelMem.write
  split_ifs with hb hij hij
  · obtain ⟨hf, rfl⟩ := hb
    simp [PixelMem.read, PixelMem.unlisted, cellAt_dropCell _ _ _ h, hij, hf]
  · simp [PixelMem.read, PixelMem.unlisted, cellAt_dropCell _ _ _ h, hij]
  · simp [PixelMem.read, hij]
  · simp [PixelMem.read, PixelMem.unlisted, cellAt_putCell, hij]

/-- A memory with an unspecified fill lists every written cell, so no order is needed. -/
theorem PixelMem.read_write_free (m : PixelMem) (i j : Nat) (p : Pixel) (h : m.fill ≠ .black) :
    (m.write i p).read j = if i = j then p else m.read j := by
  unfold PixelMem.write
  rw [if_neg (by tauto)]
  simp only [PixelMem.read, PixelMem.unlisted, cellAt_putCell]
  split_ifs <;> rfl

@[simp] theorem PixelMem.fill_write (m : PixelMem) (i : Nat) (p : Pixel) : (m.write i p).fill = m.fill := by
  unfold PixelMem.write
  split_ifs <;> rfl

theorem PixelMem.rising_write (m : PixelMem) (i : Nat) (p : Pixel) (h : rising m.cells = true) :
    rising (m.write i p).cells = true := by
  unfold PixelMem.write
  split_ifs
  · exact rising_dropCell _ _ h
  · exact rising_putCell _ _ _ h

theorem PixelMem.rising_of_wf {m : PixelMem} {size : Nat} (h : m.wf size = true) : rising m.cells = true := by
  simp only [PixelMem.wf, Bool.and_eq_true] at h
  exact h.1

/-- A pixel write inside the memory keeps its canonical form. -/
theorem PixelMem.wf_write (m : PixelMem) {size i : Nat} (p : Pixel) (h : m.wf size = true) (hi : i < size) :
    (m.write i p).wf size = true := by
  have hr := PixelMem.rising_write m i p (PixelMem.rising_of_wf h)
  simp only [PixelMem.wf, Bool.and_eq_true, Bool.or_eq_true, List.all_eq_true, decide_eq_true_eq] at h ⊢
  refine ⟨hr, fun c hc => ?_⟩
  rw [PixelMem.fill_write]
  unfold PixelMem.write at hc
  split_ifs at hc with hb
  · exact h.2 c (mem_dropCell hc)
  · rcases mem_putCell hc with rfl | hc
    · exact ⟨hi, by tauto⟩
    · exact h.2 c hc

theorem PixelMem.wf_fresh (fill : Fill) (size : Nat) : (PixelMem.mk fill []).wf size = true := rfl

theorem PixelMem.wf_cleared (size : Nat) : PixelMem.cleared.wf size = true := rfl

@[simp] theorem PixelMem.read_cleared (i : Nat) : PixelMem.cleared.read i = Pixel.black := rfl

/-- Any memory of a larger size that is well formed at a smaller one is well formed. -/
theorem PixelMem.wf_mono {m : PixelMem} {small large : Nat} (h : m.wf small = true) (hs : small ≤ large) :
    m.wf large = true := by
  simp only [PixelMem.wf, Bool.and_eq_true, Bool.or_eq_true, List.all_eq_true, decide_eq_true_eq] at h ⊢
  exact ⟨h.1, fun c hc => ⟨lt_of_lt_of_le (h.2 c hc).1 hs, (h.2 c hc).2⟩⟩

/-! ### Reset -/

theorem reset_memories_wf :
    State.reset.cm.wf = true ∧ State.reset.pm.wf Config.pmDepth = true ∧ State.reset.slb.wf 0 = true :=
  ⟨rfl, rfl, rfl⟩

end Sys2Proof.Machine
end

