-- ==== Sys2Proof/Laws/Ops.lean ====
section
/-! SUPPORT. For each shared operation, once, everything it can do: sequencing of pseudocode, the primitives of R64
and R65, the tests, the end of a command, and the width lemmas of `SP` and `CLEN`. -/

namespace Sys2Proof.Machine

/-! ### Sequencing: how a `do` block runs -/

@[simp] theorem cmd_pure {α : Type} (a : α) (s : State) : (pure a : Cmd α) s = .ok a s := rfl

@[simp] theorem cmd_bind {α β : Type} (x : Cmd α) (f : α → Cmd β) (s : State) :
    (x >>= f) s = match x s with
      | .ok a t => f a t
      | .error e t => .error e t := by
  show EStateM.bind x f s = _
  unfold EStateM.bind
  cases x s <;> rfl

@[simp] theorem cmd_map {α β : Type} (f : α → β) (x : Cmd α) (s : State) :
    (f <$> x) s = match x s with
      | .ok a t => .ok (f a) t
      | .error e t => .error e t := by
  show EStateM.map f x s = _
  unfold EStateM.map
  cases x s <;> rfl

@[simp] theorem cmd_get (s : State) : (get : Cmd State) s = .ok s s := rfl

@[simp] theorem change_apply (f : State → State) (s : State) : change f s = .ok () (f s) := rfl

@[simp] theorem seek_apply (target : State → Nat) (s : State) : seek target s = .ok () (s.withSp (target s)) := rfl

@[simp] theorem advance_apply (n : Nat) (s : State) : advance n s = .ok () (s.withSp (s.sp.toNat + n)) := rfl

@[simp] theorem raise_apply {α : Type} (c : Cause) (a : Nat) (s : State) :
    (raise c a : Cmd α) s = .error ⟨c, a⟩ s := rfl

/-- What a block that runs to its end went through. -/
theorem cmd_bind_ok {α β : Type} {x : Cmd α} {f : α → Cmd β} {s u : State} {b : β} (h : (x >>= f) s = .ok b u) :
    ∃ a t, x s = .ok a t ∧ f a t = .ok b u := by
  simp only [cmd_bind] at h
  split at h
  · exact ⟨_, _, by assumption, h⟩
  · cases h

/-- Where a block that ends in a `raise` got to. -/
theorem cmd_bind_error {α β : Type} {x : Cmd α} {f : α → Cmd β} {s u : State} {e : Raise}
    (h : (x >>= f) s = .error e u) :
    x s = .error e u ∨ ∃ a t, x s = .ok a t ∧ f a t = .error e u := by
  simp only [cmd_bind] at h
  split at h
  · exact .inr ⟨_, _, by assumption, h⟩
  · cases h; exact .inl (by assumption)

/-! ### Tests -/

theorem check_pass {ok : State → Bool} {s : State} (c : Cause) (a : State → Nat) (h : ok s = true) :
    check ok c a s = .ok () s := by simp [check, h]

theorem check_fail {ok : State → Bool} {s : State} (c : Cause) (a : State → Nat) (h : ok s = false) :
    check ok c a s = .error ⟨c, a s⟩ s := by simp [check, h]

/-- Everything a test can do. -/
theorem check_cases (ok : State → Bool) (c : Cause) (a : State → Nat) (s : State) :
    ok s = true ∧ check ok c a s = .ok () s ∨ ok s = false ∧ check ok c a s = .error ⟨c, a s⟩ s := by
  cases h : ok s <;> simp [check, h]

/-! ### Access faults and readability -/

theorem accessFaults_eq_false_iff (p : Params) (kind : Access) (a n : Nat) :
    p.accessFaults kind a n = false ↔ ∀ k, k < n → (a + k, kind) ∉ p.cmFault := by
  simp [Params.accessFaults]

/-- A part of a range that does not fault does not fault. -/
theorem accessFaults_part {p : Params} {kind : Access} {a n b m : Nat} (h : p.accessFaults kind a n = false)
    (hb : a ≤ b) (hm : b + m ≤ a + n) : p.accessFaults kind b m = false := by
  rw [accessFaults_eq_false_iff] at h ⊢
  intro k hk
  have := h (b - a + k) (by omega)
  rwa [show a + (b - a + k) = b + k by omega] at this

/-- Every set of failing accesses over the cells of `CM` is some list of them, so a list stands for any predicate
`CM_FAULT` (R75; log 2). -/
theorem cmFault_any_predicate (p : Nat → Access → Bool) :
    ∃ l : List (Nat × Access), ∀ a kind, a < Config.cmCells → ((a, kind) ∈ l ↔ p a kind = true) := by
  refine ⟨((List.range Config.cmCells).flatMap fun a =>
    [(a, Access.fetch), (a, Access.store)]).filter fun c => p c.1 c.2, fun a kind ha => ?_⟩
  rw [List.mem_filter, List.mem_flatMap]
  constructor
  · exact fun h => h.2
  · intro h
    refine ⟨⟨a, List.mem_range.2 ha, ?_⟩, h⟩
    cases kind <;> simp

theorem readable_iff (s : State) (a n : Nat) :
    s.readable a n = true ↔ a + n ≤ s.clen.toNat ∧ s.params.accessFaults .fetch a n = false := by
  simp [State.readable]

theorem readable_part {s : State} {a n b m : Nat} (h : s.readable a n = true) (hb : a ≤ b) (hm : b + m ≤ a + n) :
    s.readable b m = true := by
  rw [readable_iff] at h ⊢
  exact ⟨by omega, accessFaults_part h.2 hb hm⟩

/-! ### The fetch of a field (R64) -/

theorem fetch_ok {s : State} (stage : Stage) {n : Nat} (h : s.readable s.sp.toNat n = true) :
    fetch stage n s = .ok s.sp.toNat (s.withSp (s.sp.toNat + n)) := by
  rw [readable_iff] at h
  simp [fetch, h.2, Nat.not_lt.2 h.1]

theorem fetch_short {s : State} (stage : Stage) {n : Nat} (h : s.clen.toNat < s.sp.toNat + n) :
    fetch stage n s = .error ⟨.truncated stage, s.sp.toNat⟩ s := by simp [fetch, h]

theorem fetch_fault {s : State} (stage : Stage) {n : Nat} (h : s.sp.toNat + n ≤ s.clen.toNat)
    (hf : s.params.accessFaults .fetch s.sp.toNat n = true) :
    fetch stage n s = .error ⟨.ioError .fetch, s.sp.toNat⟩ s := by simp [fetch, hf, Nat.not_lt.2 h]

/-- Everything a fetch can do. -/
theorem fetch_cases (stage : Stage) (n : Nat) (s : State) :
    s.readable s.sp.toNat n = true ∧ fetch stage n s = .ok s.sp.toNat (s.withSp (s.sp.toNat + n)) ∨
    s.clen.toNat < s.sp.toNat + n ∧ fetch stage n s = .error ⟨.truncated stage, s.sp.toNat⟩ s ∨
    (s.sp.toNat + n ≤ s.clen.toNat ∧ s.params.accessFaults .fetch s.sp.toNat n = true) ∧
      fetch stage n s = .error ⟨.ioError .fetch, s.sp.toNat⟩ s := by
  rcases Nat.lt_or_ge s.clen.toNat (s.sp.toNat + n) with h | h
  · exact .inr (.inl ⟨h, fetch_short stage h⟩)
  · cases hf : s.params.accessFaults .fetch s.sp.toNat n with
    | true => exact .inr (.inr ⟨⟨h, rfl⟩, fetch_fault stage h hf⟩)
    | false =>
      have hr : s.readable s.sp.toNat n = true := (readable_iff _ _ _).2 ⟨h, hf⟩
      exact .inl ⟨hr, fetch_ok stage hr⟩

/-- After a fetch that succeeds `SP` is at most `CLEN`, so its 34 bits hold it (R31, R40). -/
theorem toNat_sp_fetch {s : State} {n : Nat} (h : s.readable s.sp.toNat n = true) :
    (s.withSp (s.sp.toNat + n)).sp.toNat = s.sp.toNat + n := by
  rw [readable_iff] at h
  have := s.clen.isLt
  simp only [State.withSp_sp, BitVec.toNat_ofNat]
  exact Nat.mod_eq_of_lt (by omega)

theorem readU8_ok {s : State} (stage : Stage) (h : s.readable s.sp.toNat 1 = true) :
    readU8 stage s = .ok (s.byteAt s.sp.toNat) (s.withSp (s.sp.toNat + 1)) := by
  simp [readU8, fetch_ok stage h, State.byteAt]

theorem readU16_ok {s : State} (stage : Stage) (h : s.readable s.sp.toNat 2 = true) :
    readU16 stage s = .ok (s.word16At s.sp.toNat) (s.withSp (s.sp.toNat + 2)) := by
  simp [readU16, fetch_ok stage h, State.word16At]

theorem readU32_ok {s : State} (stage : Stage) (h : s.readable s.sp.toNat 4 = true) :
    readU32 stage s = .ok (s.word32At s.sp.toNat) (s.withSp (s.sp.toNat + 4)) := by
  simp [readU32, fetch_ok stage h, State.word32At]

/-- Why a field of `n` bytes at `SP` cannot be fetched (R64): short before faulting (R266). -/
def fetchError (stage : Stage) (n : Nat) (s : State) : Raise :=
  if s.clen.toNat < s.sp.toNat + n then ⟨.truncated stage, s.sp.toNat⟩ else ⟨.ioError .fetch, s.sp.toNat⟩

theorem fetch_error {s : State} (stage : Stage) {n : Nat} (h : s.readable s.sp.toNat n = false) :
    fetch stage n s = .error (fetchError stage n s) s := by
  rcases fetch_cases stage n s with ⟨hr, _⟩ | ⟨hs, he⟩ | ⟨⟨hs, _⟩, he⟩
  · rw [hr] at h; cases h
  · rw [he, fetchError, if_pos hs]
  · rw [he, fetchError, if_neg (by omega)]

theorem readU8_error {s : State} (stage : Stage) (h : s.readable s.sp.toNat 1 = false) :
    readU8 stage s = .error (fetchError stage 1 s) s := by simp [readU8, fetch_error stage h]

theorem readU16_error {s : State} (stage : Stage) (h : s.readable s.sp.toNat 2 = false) :
    readU16 stage s = .error (fetchError stage 2 s) s := by simp [readU16, fetch_error stage h]

theorem readU32_error {s : State} (stage : Stage) (h : s.readable s.sp.toNat 4 = false) :
    readU32 stage s = .error (fetchError stage 4 s) s := by simp [readU32, fetch_error stage h]

/-! ### The store of a field (R65) -/

theorem storeField_ok {s : State} {bytes : List Byte}
    (h : s.params.accessFaults .store s.sp.toNat bytes.length = false) :
    storeField bytes s = .ok () (s.stored s.sp.toNat bytes) := by simp [storeField, h]

theorem storeField_fault {s : State} {bytes : List Byte}
    (h : s.params.accessFaults .store s.sp.toNat bytes.length = true) :
    storeField bytes s = .error ⟨.ioError .store, s.sp.toNat⟩ s := by simp [storeField, h]

/-- Everything a store can do. -/
theorem storeField_cases (bytes : List Byte) (s : State) :
    s.params.accessFaults .store s.sp.toNat bytes.length = false ∧
      storeField bytes s = .ok () (s.stored s.sp.toNat bytes) ∨
    s.params.accessFaults .store s.sp.toNat bytes.length = true ∧
      storeField bytes s = .error ⟨.ioError .store, s.sp.toNat⟩ s := by
  cases h : s.params.accessFaults .store s.sp.toNat bytes.length with
  | true => exact .inr ⟨rfl, storeField_fault h⟩
  | false => exact .inl ⟨rfl, storeField_ok h⟩

@[simp] theorem length_bytes16 (v : U16) : (bytes16 v).length = 2 := rfl

@[simp] theorem length_bytes32 (v : U32) : (bytes32 v).length = 4 := rfl

/-- Two stores one after the other are one store of both byte strings. -/
theorem writeBytes_append (m : ByteMem) (a : Nat) (x y : List Byte) :
    m.writeBytes a (x ++ y) = (m.writeBytes a x).writeBytes (a + x.length) y := by
  induction x generalizing m a with
  | nil => simp [ByteMem.writeBytes]
  | cons b rest ih =>
    simp only [List.cons_append, ByteMem.writeBytes, List.length_cons, ih]
    congr 1; omega

/-- Two fields stored one after the other leave the state that one store of both leaves, so the fields of a header can
be told as one byte string. -/
theorem stored_stored (s : State) (a : Nat) (x y : List Byte) (h : a + x.length < 2 ^ 34) :
    (s.stored a x).stored (a + x.length) y = s.stored a (x ++ y) := by
  have hclen : (BitVec.ofNat 34 (max s.clen.toNat (a + x.length))).toNat = max s.clen.toNat (a + x.length) := by
    have := s.clen.isLt
    rw [BitVec.toNat_ofNat]; exact Nat.mod_eq_of_lt (by omega)
  simp only [State.stored, writeBytes_append, List.length_append, hclen, Nat.add_assoc]
  congr 2
  omega

/-- After a store `SP` stands behind it. -/
theorem toNat_sp_stored (s : State) (a : Nat) (bytes : List Byte) (h : a + bytes.length < 2 ^ 34) :
    (s.stored a bytes).sp.toNat = a + bytes.length := by
  show (BitVec.ofNat 34 (a + bytes.length)).toNat = _
  rw [BitVec.toNat_ofNat]; exact Nat.mod_eq_of_lt h

/-! ### The end of a command -/

/-- Everything a command can do: it runs to its end, or a `raise` ends it; there is always a next state (R231). -/
theorem runCommand_cases (c : Cmd Unit) (s : State) :
    (∃ t, c s = .ok () t ∧ runCommand c s = .next t.complete) ∨
    ∃ e t, c s = .error e t ∧ runCommand c s = .next (t.takeError e) := by
  cases h : c s with
  | ok a t => exact .inl ⟨t, rfl, by simp [runCommand, h]⟩
  | error e t => exact .inr ⟨e, t, rfl, by simp [runCommand, h]⟩

theorem runCommand_ok {c : Cmd Unit} {s t : State} (h : c s = .ok () t) : runCommand c s = .next t.complete := by
  simp [runCommand, h]

theorem runCommand_error {c : Cmd Unit} {s t : State} {e : Raise} (h : c s = .error e t) :
    runCommand c s = .next (t.takeError e) := by simp [runCommand, h]

theorem runPart_ok {c : Cmd Unit} {s t : State} (h : c s = .ok () t) : runPart c s = .next t := by
  simp [runPart, h]

theorem runPart_error {c : Cmd Unit} {s t : State} {e : Raise} (h : c s = .error e t) :
    runPart c s = .next (t.takeError e) := by simp [runPart, h]

/-- Everything a part of a payload command can do: it goes on as it is, or ends with `PM` unspecified and `WARN_ODD` as
the command found it (R277 (c), D20). -/
theorem payloadFrom_cases (odd : Bool) (c : Cmd Unit) (s : State) :
    (∃ t, c s = .ok () t ∧ payloadFrom odd c s = .ok () t) ∨
    ∃ e t, c s = .error e t ∧ payloadFrom odd c s = .error e (t.loosePm.withWarnOdd odd) := by
  cases h : c s with
  | ok a t => exact .inl ⟨t, rfl, by simp [payloadFrom, h]⟩
  | error e t => exact .inr ⟨e, t, rfl, by simp [payloadFrom, h]⟩

theorem payload_ok {c : Cmd Unit} {s t : State} (h : c s = .ok () t) : payload c s = .ok () t := by
  simp [payload, payloadFrom, h]

theorem payload_error {c : Cmd Unit} {s t : State} {e : Raise} (h : c s = .error e t) :
    payload c s = .error e (t.loosePm.withWarnOdd s.warnOdd) := by simp [payload, payloadFrom, h]

theorem openedPayload_ok {c : Cmd Unit} {s t : State} (h : c s = .ok () t) : openedPayload c s = .ok () t := by
  simp [openedPayload, payloadFrom, h]

theorem openedPayload_error {c : Cmd Unit} {s t : State} {e : Raise} (h : c s = .error e t) :
    openedPayload c s = .error e (t.loosePm.withWarnOdd (s.shownStatus.getLsbD 10)) := by
  simp [openedPayload, payloadFrom, h]

/-! ### What the host reads as `STATUS` (R6) -/

theorem shownStatus_idle {s : State} (h : s.busy = false) : s.shownStatus = s.status := by
  simp [State.shownStatus, h]

theorem shownStatus_command {s : State} {code : Byte} (h : s.doing = .command code) : s.shownStatus = s.status := by
  simp [State.shownStatus, h]

theorem shownStatus_opened {s : State} {place : Place} {shown : BitVec 16} (hb : s.busy = true)
    (h : s.doing = .opened place shown) : s.shownStatus = shown := by simp [State.shownStatus, hb, h]

/-- Going on to a record changes nothing that the host reads. -/
theorem shownStatus_atPlace {s : State} (place : Place) (h : s.busy = true) :
    (s.atPlace place).shownStatus = s.shownStatus := shownStatus_opened (s := s.atPlace place) h rfl

/-! ### Widths of `SP` -/

theorem toNat_withSp {s : State} {a : Nat} (h : a < 2 ^ 34) : (s.withSp a).sp.toNat = a := by
  simp only [State.withSp_sp, BitVec.toNat_ofNat]
  exact Nat.mod_eq_of_lt h

theorem ihdrAddr_le (i : BitVec 16) : ihdrAddr i ≤ 786432 := by
  have := i.isLt
  simp only [ihdrAddr, Config.hdrSize, Config.ihdrSize]
  omega

theorem dimOk_iff (d : BitVec 16) : dimOk d = true ↔ 1 ≤ d.toNat ∧ d.toNat ≤ 256 := by
  simp [dimOk]

theorem dimsOk_iff (s : State) :
    s.dimsOk = true ↔ (1 ≤ s.width.toNat ∧ s.width.toNat ≤ 256) ∧ 1 ≤ s.height.toNat ∧ s.height.toNat ≤ 256 := by
  simp [State.dimsOk, dimOk_iff]

/-- An image with legal dimensions has 1 to 65536 pixels (R36). -/
theorem pixelCount_bounds {s : State} (h : s.dimsOk = true) : 1 ≤ s.pixelCount ∧ s.pixelCount ≤ 65536 := by
  rw [dimsOk_iff] at h
  constructor
  · exact Nat.mul_pos h.1.1 h.2.1
  · exact (Nat.mul_le_mul h.1.2 h.2.2).trans (by decide)

/-- A decoded dimension byte is a legal dimension (R97). -/
theorem dimOk_dimDec (b : Byte) : dimOk (dimDec b) = true := by
  revert b; decide

end Sys2Proof.Machine
end

