-- ==== Sys2Proof/Laws/Loops.lean ====
section
/-! SUPPORT. For each loop of the payload codecs, once, everything it can do: the pixel loops of `RAW_DEC` and
`RAW_ENC`, the run of a chunk, the slice. -/

namespace Sys2Proof.Machine

/-! ### Counters at their widths -/

theorem ofNat_toNat_add {w : Nat} (a b : Nat) :
    BitVec.ofNat w ((BitVec.ofNat w a).toNat + b) = BitVec.ofNat w (a + b) := by
  apply BitVec.eq_of_toNat_eq
  simp

theorem sub_ofNat_sub_one {w : Nat} (x : BitVec w) (n : Nat) :
    x - 1 - BitVec.ofNat w n = x - BitVec.ofNat w (n + 1) := by
  rw [show n + 1 = 1 + n by omega, BitVec.ofNat_add]
  exact sub_sub _ _ _

theorem readable_add (s : State) (a n m : Nat) :
    s.readable a (n + m) = true ↔ s.readable a n = true ∧ s.readable (a + n) m = true := by
  constructor
  · exact fun h => ⟨readable_part h (by omega) (by omega), readable_part h (by omega) (by omega)⟩
  · rintro ⟨h1, h2⟩
    rw [readable_iff, accessFaults_eq_false_iff] at h1 h2 ⊢
    refine ⟨by omega, fun k hk => ?_⟩
    by_cases hkn : k < n
    · exact h1.2 k hkn
    · have := h2.2 (k - n) (by omega)
      rwa [show a + n + (k - n) = a + k by omega] at this

/-- What the accessors of `CM` and the checks read does not depend on `SP`. -/
@[simp] theorem readable_withSp (s : State) (b a n : Nat) : (s.withSp b).readable a n = s.readable a n := rfl
@[simp] theorem readable_withPm (s : State) (i : Nat) (p : Pixel) (a n : Nat) :
    (s.withPm i p).readable a n = s.readable a n := rfl
@[simp] theorem readable_withRunPixel (s : State) (v : U16) (a n : Nat) :
    (s.withRunPixel v).readable a n = s.readable a n := rfl
@[simp] theorem readable_withChunkHead (s : State) (o r : U16) (a n : Nat) :
    (s.withChunkHead o r).readable a n = s.readable a n := rfl
@[simp] theorem word16At_withSp (s : State) (b a : Nat) : (s.withSp b).word16At a = s.word16At a := rfl
@[simp] theorem word16At_withPm (s : State) (i : Nat) (p : Pixel) (a : Nat) :
    (s.withPm i p).word16At a = s.word16At a := rfl
@[simp] theorem word16At_withRunPixel (s : State) (v : U16) (a : Nat) :
    (s.withRunPixel v).word16At a = s.word16At a := rfl
@[simp] theorem word16At_withChunkHead (s : State) (o r : U16) (a : Nat) :
    (s.withChunkHead o r).word16At a = s.word16At a := rfl

/-! ### Writing a range of pixels -/

/-- `n` pixels written in order from cell `i` on, cell `j` with `f j`. -/
def PixelMem.putRange (f : Nat → Pixel) : (n i : Nat) → PixelMem → PixelMem
  | 0, _, m => m
  | n + 1, i, m => PixelMem.putRange f n (i + 1) (m.write i (f i))

theorem PixelMem.rising_putRange (f : Nat → Pixel) (n i : Nat) (m : PixelMem) (h : rising m.cells = true) :
    rising (m.putRange f n i).cells = true := by
  induction n generalizing i m with
  | zero => exact h
  | succ n ih => exact ih _ _ (m.rising_write i _ h)

theorem PixelMem.wf_putRange (f : Nat → Pixel) (n i size : Nat) (m : PixelMem) (h : m.wf size = true)
    (hi : i + n ≤ size) : (m.putRange f n i).wf size = true := by
  induction n generalizing i m with
  | zero => exact h
  | succ n ih => exact ih _ _ (m.wf_write _ h (by omega)) (by omega)

theorem PixelMem.read_putRange (f : Nat → Pixel) (n i j : Nat) (m : PixelMem) (h : rising m.cells = true) :
    (m.putRange f n i).read j = if i ≤ j ∧ j < i + n then f j else m.read j := by
  induction n generalizing i m with
  | zero => rw [if_neg (by omega)]; rfl
  | succ n ih =>
    rw [PixelMem.putRange, ih _ _ (m.rising_write i _ h), m.read_write i j _ h]
    by_cases hj : j = i
    · subst hj
      rw [if_neg (by omega), if_pos (by omega), if_pos ⟨Nat.le_refl _, by omega⟩]
    · by_cases hr : i + 1 ≤ j ∧ j < i + 1 + n
      · rw [if_pos hr, if_pos (by omega)]
      · rw [if_neg hr, if_neg (by omega), if_neg (by omega)]

/-! ### The slice (R198) -/

/-- The pixel of `SLB` that the slice puts into cell `i` of `PM` (R198). -/
def State.slicePixel (s : State) (i : Nat) : Pixel :=
  s.slb.read (i / s.width.toNat * s.scanLineLen.toNat + i % s.width.toNat)

/-- Everything the slice does: `PM` takes the pixels, nothing else changes. -/
theorem sliceLoop_eq (n i : Nat) (s : State) :
    sliceLoop n i s = { s with pm := s.pm.putRange s.slicePixel n i } := by
  induction n generalizing i s with
  | zero => rfl
  | succ n ih => rw [sliceLoop, ih]; rfl

theorem sliced_eq (s : State) : s.sliced = { s with pm := s.pm.putRange s.slicePixel s.pixelCount 0 } :=
  sliceLoop_eq _ _ _

/-! ### The pixel loop of `RAW_DEC` (R170) -/

/-- The pixel whose word is the `i`-th from `base` on (R170). -/
def State.rawPixelAt (s : State) (base i : Nat) : Pixel := to24 (s.word16At (base + 2 * i))

theorem readable_zero {s : State} {a : Nat} (h : a ≤ s.clen.toNat) : s.readable a 0 = true := by
  rw [readable_iff]
  exact ⟨by omega, by simp [Params.accessFaults]⟩

/-- Everything the pixel loop can do: all words are read, or it stops at the first that cannot be. -/
theorem rawDecLoop_cases (base n i : Nat) (s : State) (hb : s.sp.toNat = base + 2 * i)
    (hs : base + 2 * (i + n) < 2 ^ 34) :
    (n ≠ 0 → s.readable (base + 2 * i) (2 * n) = true) ∧
      rawDecLoop n i s = .ok () { s with
        pm := s.pm.putRange (s.rawPixelAt base) n i, sp := BitVec.ofNat 34 (base + 2 * (i + n)) } ∨
    ∃ k, k < n ∧ (k ≠ 0 → s.readable (base + 2 * i) (2 * k) = true) ∧ s.readable (base + 2 * (i + k)) 2 = false ∧
      rawDecLoop n i s = .error
        ⟨if s.clen.toNat < base + 2 * (i + k) + 2 then .truncated .rawPayload else .ioError .fetch,
          base + 2 * (i + k)⟩
        { s with pm := s.pm.putRange (s.rawPixelAt base) k i, sp := BitVec.ofNat 34 (base + 2 * (i + k)) } := by
  induction n generalizing i s with
  | zero =>
    refine .inl ⟨fun h => absurd rfl h, ?_⟩
    simp [rawDecLoop, PixelMem.putRange, ← hb]
  | succ n ih =>
    cases hr : s.readable (base + 2 * i) 2 with
    | false =>
      refine .inr ⟨0, by omega, fun h => absurd rfl h, hr, ?_⟩
      rw [← hb] at hr
      simp only [rawDecLoop, cmd_bind, readU16_error .rawPayload hr, fetchError, PixelMem.putRange, Nat.add_zero, ← hb]
      split <;> simp
    | true =>
      have hr' := hr
      rw [← hb] at hr'
      let t := (s.withSp (base + 2 * (i + 1))).withPm i (s.rawPixelAt base i)
      have hstep : rawDecLoop (n + 1) i s = rawDecLoop n (i + 1) t := by
        simp only [rawDecLoop, cmd_bind, readU16_ok .rawPayload hr', change_apply, hb, Nat.mul_add, Nat.mul_one,
          ← Nat.add_assoc, State.rawPixelAt, t]
      have hsp : t.sp.toNat = base + 2 * (i + 1) := toNat_withSp (s := s) (by omega)
      have hmore : ∀ k, (k ≠ 0 → t.readable (base + 2 * (i + 1)) (2 * k) = true) →
          s.readable (base + 2 * i) (2 * (k + 1)) = true := by
        intro k h
        rw [show 2 * (k + 1) = 2 + 2 * k by omega, readable_add]
        refine ⟨hr, ?_⟩
        cases k with
        | zero => exact readable_zero ((readable_iff _ _ _).1 hr).1
        | succ k => exact h (by omega)
      rcases ih (i + 1) t hsp (by omega) with ⟨h, he⟩ | ⟨k, hk, hpre, hf, he⟩
      · refine .inl ⟨fun _ => hmore n h, ?_⟩
        rw [hstep, he, show i + 1 + n = i + (n + 1) by omega]
        rfl
      · rw [show i + 1 + k = i + (k + 1) by omega] at hf he
        refine .inr ⟨k + 1, by omega, fun _ => hmore k hpre, hf, ?_⟩
        rw [hstep, he]
        rfl

/-! ### The pixel loop of `RAW_ENC` (R171) -/

/-- The bytes of the pixel words of cells `i`, `i + 1`, … of `PM` (R171). -/
def pixelWordBytes (m : PixelMem) : (n i : Nat) → List Byte
  | 0, _ => []
  | n + 1, i => bytes16 (to16 (m.read i)) ++ pixelWordBytes m n (i + 1)

@[simp] theorem length_pixelWordBytes (m : PixelMem) (n i : Nat) : (pixelWordBytes m n i).length = 2 * n := by
  induction n generalizing i with
  | zero => rfl
  | succ n ih => simp only [pixelWordBytes, List.length_append, length_bytes16, ih]; omega

/-- The bytes of word `k` of the pixel words. -/
theorem getElem?_pixelWordBytes (m : PixelMem) (n i k : Nat) (h : k < n) :
    (pixelWordBytes m n i)[2 * k]? = some ((to16 (m.read (i + k))).extractLsb' 8 8) ∧
    (pixelWordBytes m n i)[2 * k + 1]? = some ((to16 (m.read (i + k))).extractLsb' 0 8) := by
  induction n generalizing i k with
  | zero => omega
  | succ n ih =>
    cases k with
    | zero => exact ⟨rfl, rfl⟩
    | succ k =>
      have := ih (i + 1) k (by omega)
      rw [show i + 1 + k = i + (k + 1) by omega] at this
      exact this

/-- Everything the loop can do: all words are stored one after another, or it stops at the first store that fails. -/
theorem rawEncLoop_cases (base n i : Nat) (s : State) (hb : s.sp.toNat = base + 2 * i)
    (hs : base + 2 * (i + n) < 2 ^ 34) :
    s.params.accessFaults .store (base + 2 * i) (2 * n) = false ∧
      rawEncLoop n i s = .ok () { s with
        cm := s.cm.writeBytes (base + 2 * i) (pixelWordBytes s.pm n i)
        clen := if n = 0 then s.clen else BitVec.ofNat 34 (max s.clen.toNat (base + 2 * (i + n)))
        sp := BitVec.ofNat 34 (base + 2 * (i + n)) } ∨
    ∃ k, k < n ∧ s.params.accessFaults .store (base + 2 * i) (2 * k) = false ∧
      s.params.accessFaults .store (base + 2 * (i + k)) 2 = true ∧
      rawEncLoop n i s = .error ⟨.ioError .store, base + 2 * (i + k)⟩ { s with
        cm := s.cm.writeBytes (base + 2 * i) (pixelWordBytes s.pm k i)
        clen := if k = 0 then s.clen else BitVec.ofNat 34 (max s.clen.toNat (base + 2 * (i + k)))
        sp := BitVec.ofNat 34 (base + 2 * (i + k)) } := by
  induction n generalizing i s with
  | zero =>
    refine .inl ⟨by simp [Params.accessFaults], ?_⟩
    simp [rawEncLoop, pixelWordBytes, ByteMem.writeBytes, ← hb]
  | succ n ih =>
    cases hf : s.params.accessFaults .store (base + 2 * i) 2 with
    | true =>
      refine .inr ⟨0, by omega, by simp [Params.accessFaults], hf, ?_⟩
      have he : writeU16 (to16 (s.pm.read i)) s = _ := storeField_fault (by rw [hb]; exact hf)
      simp only [rawEncLoop, cmd_bind, cmd_get, he, pixelWordBytes, ByteMem.writeBytes, Nat.add_zero, ← hb]
      simp
    | false =>
      let t := s.stored s.sp.toNat (bytes16 (to16 (s.pm.read i)))
      have he : writeU16 (to16 (s.pm.read i)) s = .ok () t := storeField_ok (by rw [hb]; exact hf)
      have hstep : rawEncLoop (n + 1) i s = rawEncLoop n (i + 1) t := by
        simp only [rawEncLoop, cmd_bind, cmd_get, he]
      have hsp : t.sp.toNat = base + 2 * (i + 1) := by
        show (BitVec.ofNat 34 (s.sp.toNat + 2)).toNat = _
        rw [BitVec.toNat_ofNat, Nat.mod_eq_of_lt (by omega)]; omega
      have hclen : t.clen.toNat = max s.clen.toNat (base + 2 * (i + 1)) := by
        show (BitVec.ofNat 34 (max s.clen.toNat (s.sp.toNat + 2))).toNat = _
        have := s.clen.isLt
        rw [BitVec.toNat_ofNat, Nat.mod_eq_of_lt (by omega)]; omega
      have hcm : ∀ k, t.cm.writeBytes (base + 2 * (i + 1)) (pixelWordBytes t.pm k (i + 1)) =
          s.cm.writeBytes (base + 2 * i) (pixelWordBytes s.pm (k + 1) i) := by
        intro k
        rw [pixelWordBytes, writeBytes_append, length_bytes16, show base + 2 * (i + 1) = base + 2 * i + 2 by omega,
          ← hb]
        rfl
      have hmore : ∀ k, t.params.accessFaults .store (base + 2 * (i + 1)) (2 * k) = false →
          s.params.accessFaults .store (base + 2 * i) (2 * (k + 1)) = false := by
        intro k h
        rw [accessFaults_eq_false_iff] at h hf ⊢
        intro j hj
        by_cases hj2 : j < 2
        · exact hf j hj2
        · have := h (j - 2) (by omega)
          rwa [show base + 2 * (i + 1) + (j - 2) = base + 2 * i + j by omega] at this
      have hlen : ∀ k, (if k = 0 then t.clen else BitVec.ofNat 34 (max t.clen.toNat (base + 2 * (i + 1 + k)))) =
          BitVec.ofNat 34 (max s.clen.toNat (base + 2 * (i + (k + 1)))) := by
        intro k
        rw [show i + (k + 1) = i + 1 + k by omega, hclen]
        split
        · subst k
          apply BitVec.eq_of_toNat_eq
          have := s.clen.isLt
          rw [hclen, BitVec.toNat_ofNat, Nat.mod_eq_of_lt (by omega)]
        · congr 1; omega
      rcases ih (i + 1) t hsp (by omega) with ⟨h, hl⟩ | ⟨k, hk, hpre, hst, hl⟩
      · refine .inl ⟨hmore n h, ?_⟩
        rw [hstep, hl, hcm, hlen, show i + 1 + n = i + (n + 1) by omega]
        rfl
      · rw [hcm, hlen] at hl
        rw [show i + 1 + k = i + (k + 1) by omega] at hst hl
        refine .inr ⟨k + 1, by omega, hmore k hpre, hst, ?_⟩
        rw [hstep, hl]
        rfl

/-! ### The run of a chunk (R196, R197) -/

theorem PixelMem.putRange_congr {f g : Nat → Pixel} (n i : Nat) (m : PixelMem)
    (h : ∀ j, i ≤ j → j < i + n → f j = g j) : m.putRange f n i = m.putRange g n i := by
  induction n generalizing i m with
  | zero => rfl
  | succ n ih =>
    rw [PixelMem.putRange, PixelMem.putRange, h i (Nat.le_refl _) (by omega)]
    exact ih _ _ fun j h1 h2 => h j (by omega) (by omega)

/-- The state after the run's words: those that land below `L*H` are in `SLB`, the counters have gone on by their
number. -/
def State.afterRun (s : State) (px : List U16) : State :=
  { s with
    slb := s.slb.putRange (fun j => to24 (px.getD (j - s.cur.toNat) 0)) (min px.length (s.slbCells - s.cur.toNat))
      s.cur.toNat
    cur := BitVec.ofNat 34 (s.cur.toNat + px.length)
    prec := BitVec.ofNat 33 (s.prec.toNat + px.length)
    nrun := s.nrun - BitVec.ofNat 17 px.length
    sp := BitVec.ofNat 34 (s.sp.toNat + 2 * px.length) }

theorem afterRun_nil (s : State) : s.afterRun [] = s := by
  simp [State.afterRun, PixelMem.putRange]

/-- The first word of a run, in `SLB`: the rest of the run goes on from the next cell. -/
theorem putRange_run_cons (m : PixelMem) (v : U16) (rest : List U16) (c c' cells : Nat) (hc' : c' = c + 1) :
    (if c < cells then m.write c (to24 v) else m).putRange (fun j => to24 (rest.getD (j - c') 0))
      (min rest.length (cells - c')) c' =
    m.putRange (fun j => to24 ((v :: rest).getD (j - c) 0)) (min (v :: rest).length (cells - c)) c := by
  subst hc'
  rw [List.length_cons]
  by_cases hc : c < cells
  · rw [if_pos hc, show min (rest.length + 1) (cells - c) = min rest.length (cells - (c + 1)) + 1 by omega,
      PixelMem.putRange]
    simp only [Nat.sub_self, List.getD_cons_zero]
    refine PixelMem.putRange_congr _ _ _ fun j h1 _ => ?_
    rw [show j - c = (j - (c + 1)) + 1 by omega, List.getD_cons_succ]
  · have h1 : min rest.length (cells - (c + 1)) = 0 := by omega
    have h2 : min (rest.length + 1) (cells - c) = 0 := by omega
    simp only [if_neg hc, h1, h2, PixelMem.putRange]

theorem runFields_congr (s : State) {slb slb' : PixelMem} {cur cur' sp sp' : BitVec 34} {prec prec' : BitVec 33}
    {nrun nrun' : BitVec 17} (h1 : slb = slb') (h2 : cur = cur') (h3 : prec = prec') (h4 : nrun = nrun')
    (h5 : sp = sp') :
    ({ s with slb := slb, cur := cur, prec := prec, nrun := nrun, sp := sp } : State) =
      { s with slb := slb', cur := cur', prec := prec', nrun := nrun', sp := sp' } := by
  rw [h1, h2, h3, h4, h5]

theorem ofNat_next {w : Nat} (a k n : Nat) :
    BitVec.ofNat w ((BitVec.ofNat w (a + k)).toNat + n) = BitVec.ofNat w (a + (k + n)) := by
  rw [ofNat_toNat_add, Nat.add_assoc]

theorem afterRun_cons (s : State) (v : U16) (rest : List U16) (h : s.cur.toNat + (rest.length + 1) < 2 ^ 34) :
    ((s.withSp (s.sp.toNat + 2)).withRunPixel v).afterRun rest = s.afterRun (v :: rest) := by
  refine runFields_congr s
    (putRange_run_cons s.slb v rest s.cur.toNat (BitVec.ofNat 34 (s.cur.toNat + 1)).toNat s.slbCells ?_) ?_ ?_
    (sub_ofNat_sub_one s.nrun rest.length) ?_
  · rw [BitVec.toNat_ofNat]
    exact Nat.mod_eq_of_lt (by omega)
  · exact (ofNat_next s.cur.toNat 1 rest.length).trans (by rw [List.length_cons, Nat.add_comm 1])
  · exact (ofNat_next s.prec.toNat 1 rest.length).trans (by rw [List.length_cons, Nat.add_comm 1])
  · exact (ofNat_next s.sp.toNat 2 (2 * rest.length)).trans (by rw [List.length_cons, Nat.mul_add, Nat.add_comm 2])

/-- Everything the run of a fetched chunk does. -/
theorem runWords_eq (px : List U16) (s : State) (h : s.cur.toNat + px.length < 2 ^ 34) :
    runWords px s = .ok () (s.afterRun px) := by
  induction px generalizing s with
  | nil => rw [afterRun_nil]; rfl
  | cons v rest ih =>
    simp only [List.length_cons] at h
    have hcur : ((s.withSp (s.sp.toNat + 2)).withRunPixel v).cur.toNat = s.cur.toNat + 1 := by
      show (BitVec.ofNat 34 (s.cur.toNat + 1)).toNat = _
      rw [BitVec.toNat_ofNat]; exact Nat.mod_eq_of_lt (by omega)
    rw [← afterRun_cons s v rest h, ← ih _ (by omega)]
    simp only [runWords, cmd_bind, advance_apply, change_apply]

/-- The `n` pixel words from `a` on. -/
def State.wordsAt (s : State) : (a n : Nat) → List U16
  | _, 0 => []
  | a, n + 1 => s.word16At a :: s.wordsAt (a + 2) n

@[simp] theorem length_wordsAt (s : State) (a n : Nat) : (s.wordsAt a n).length = n := by
  induction n generalizing a with
  | zero => rfl
  | succ n ih => simp only [State.wordsAt, List.length_cons, ih]

theorem wordsAt_congr {s t : State} (h : t.cm = s.cm) (a n : Nat) : t.wordsAt a n = s.wordsAt a n := by
  induction n generalizing a with
  | zero => rfl
  | succ n ih => rw [State.wordsAt, State.wordsAt, ih, State.word16At, State.word16At, h]

/-- Everything the run loop can do: all words are fetched and it does what `runWords` does on them, or it stops at the
first that cannot be. -/
theorem runLoop_cases (n : Nat) (s : State) (hs : s.sp.toNat + 2 * n < 2 ^ 34) :
    (n ≠ 0 → s.readable s.sp.toNat (2 * n) = true) ∧
      runLoop n s = runWords (s.wordsAt s.sp.toNat n) s ∨
    ∃ k, k < n ∧ (k ≠ 0 → s.readable s.sp.toNat (2 * k) = true) ∧ s.readable (s.sp.toNat + 2 * k) 2 = false ∧
      ∃ t, runWords (s.wordsAt s.sp.toNat k) s = .ok () t ∧ runLoop n s = .error
        ⟨if s.clen.toNat < s.sp.toNat + 2 * k + 2 then .truncated .packedPayload else .ioError .fetch,
          s.sp.toNat + 2 * k⟩ t := by
  induction n generalizing s with
  | zero => exact .inl ⟨fun h => absurd rfl h, rfl⟩
  | succ n ih =>
    cases hr : s.readable s.sp.toNat 2 with
    | false =>
      refine .inr ⟨0, by omega, fun h => absurd rfl h, hr, s, rfl, ?_⟩
      simp only [runLoop, cmd_bind, readU16_error .packedPayload hr, fetchError, Nat.mul_zero, Nat.add_zero]
      split <;> rfl
    | true =>
      let t := (s.withSp (s.sp.toNat + 2)).withRunPixel (s.word16At s.sp.toNat)
      have hstep : runLoop (n + 1) s = runLoop n t := by
        simp only [runLoop, cmd_bind, readU16_ok .packedPayload hr, change_apply, t]
      have hsp : t.sp.toNat = s.sp.toNat + 2 := toNat_withSp (s := s) (by omega)
      have hwords : ∀ k, runWords (s.wordsAt s.sp.toNat (k + 1)) s = runWords (t.wordsAt t.sp.toNat k) t := by
        intro k
        rw [wordsAt_congr (s := s) (t := t) rfl, hsp]
        simp only [State.wordsAt, runWords, cmd_bind, advance_apply, change_apply, t]
      have hmore : ∀ k, (k ≠ 0 → t.readable t.sp.toNat (2 * k) = true) →
          s.readable s.sp.toNat (2 * (k + 1)) = true := by
        intro k h
        rw [show 2 * (k + 1) = 2 + 2 * k by omega, readable_add]
        refine ⟨hr, ?_⟩
        cases k with
        | zero => exact readable_zero ((readable_iff _ _ _).1 hr).1
        | succ k => rw [← hsp]; exact h (by omega)
      rcases ih t (by omega) with ⟨h, he⟩ | ⟨k, hk, hpre, hf, u, hu, he⟩
      · exact .inl ⟨fun _ => hmore n h, by rw [hstep, he, hwords]⟩
      · rw [hsp] at hf he
        rw [show s.sp.toNat + 2 + 2 * k = s.sp.toNat + 2 * (k + 1) by omega] at hf he
        exact .inr ⟨k + 1, by omega, fun _ => hmore k hpre, hf, u, by rw [hwords]; exact hu, by rw [hstep]; exact he⟩

end Sys2Proof.Machine
end

