-- ==== Sys2Proof/Laws/PerInstr.lean ====
section
/-! SUPPORT. Statements made instruction by instruction: how long a well-formed instruction's encoding is (R90 to
R96). -/

namespace Sys2Proof.Laws.EncodedLength

/-- The number of bytes of an instruction (R90): a chunk's own `run_length` tells its length (R94). -/
def bytes : Instr → Nat
  | .to16 => 1
  | .to24 => 1
  | .clr => 1
  | .hdrGet => 1
  | .ihdrGet => 1
  | .rawDec => 1
  | .pkDec => 1
  | .imgDec => 1
  | .hdrPut => 1
  | .ihdrPut => 1
  | .rawEnc => 1
  | .imgEnc => 1
  | .containerHeader _ _ _ _ _ => 12
  | .imageHeader _ _ _ _ _ => 12
  | .packedPreamble _ => 2
  | .chunk _ runLength _ => 4 + 2 * (runLength.toNat + 1)
  | .pixel _ _ _ => 2

/-- A well-formed instruction's encoding has the length its format says. -/
def Statement (i : Instr) : Prop := i.wf = true → (encode i).length = bytes i

/-- The words of a run take two bytes each. -/
theorem length_flatMap_bytes16 (px : List U16) : (px.flatMap bytes16).length = 2 * px.length := by
  induction px with
  | nil => rfl
  | cons v rest ih => simp only [List.flatMap_cons, List.length_append, ih, List.length_cons, bytes16, List.length_nil]; omega

theorem to16 : Statement .to16 := fun _ => rfl
theorem to24 : Statement .to24 := fun _ => rfl
theorem clr : Statement .clr := fun _ => rfl
theorem hdrGet : Statement .hdrGet := fun _ => rfl
theorem ihdrGet : Statement .ihdrGet := fun _ => rfl
theorem rawDec : Statement .rawDec := fun _ => rfl
theorem pkDec : Statement .pkDec := fun _ => rfl
theorem imgDec : Statement .imgDec := fun _ => rfl
theorem hdrPut : Statement .hdrPut := fun _ => rfl
theorem ihdrPut : Statement .ihdrPut := fun _ => rfl
theorem rawEnc : Statement .rawEnc := fun _ => rfl
theorem imgEnc : Statement .imgEnc := fun _ => rfl
theorem containerHeader (m : U32) (n v l x : U16) : Statement (.containerHeader m n v l x) := fun _ => rfl
theorem imageHeader (w h : Byte) (x : U16) (u p : U32) : Statement (.imageHeader w h x u p) := fun _ => rfl
theorem packedPreamble (c : U16) : Statement (.packedPreamble c) := fun _ => rfl
theorem chunk (o r : U16) (px : List U16) : Statement (.chunk o r px) := by
  intro h
  have h' : px.length = r.toNat + 1 := by simpa [Instr.wf, chunkWordsMatch] using h
  simp only [encode, bytes, List.length_append, length_flatMap_bytes16, h', bytes16, List.length_cons, List.length_nil]
theorem pixel (r : BitVec 5) (g : BitVec 6) (b : BitVec 5) : Statement (.pixel r g b) := fun _ => rfl

end Sys2Proof.Laws.EncodedLength
end

