-- ==== Sys2Proof/Tests/Slice0.lean ====
section
/-! SUPPORT. The model's own tests. Expected results are the spec's vectors (`95_test_vectors.md`) and worked examples.
The tag is four bytes of the tests' own choice, as that file allows. -/

namespace Sys2Proof.Tests

open Sys2Proof.Machine

-- One theorem after another: checked side by side they take a thread, and its stack, each.
set_option Elab.async false

/-! ### Helpers -/

/-- The next state of an outcome that has one. -/
def nextOf : Host.Outcome State Fault Refusal → Option State
  | .next s => some s
  | .fault _ => none
  | .refused _ => none

/-- The state after an instruction. -/
def after (i : Instr) (s : State) : State := (nextOf (exec i s)).getD s

/-- `LOAD CM, a: bytes` (R105). -/
def load (a : Nat) (bytes : List Byte) (s : State) : State := { s with cm := s.cm.writeBytes a bytes }

/-- Reset, with the tests' tag. -/
def base : State := { State.reset with params := { magicTag := 0x54525330, cmFault := [] } }

/-- The registers a decode leaves: `STATUS`, `ERR_ADDR`, `SP`, `CUR`, `PREC`, `NCHUNK`, `NRUN`. -/
def trail (s : State) : List Nat :=
  [s.status.toNat, s.errAddr.toNat, s.sp.toNat, s.cur.toNat, s.prec.toNat, s.nchunk.toNat, s.nrun.toNat]

/-- The first `n` pixels of `PM` as numbers. -/
def raster (n : Nat) (s : State) : List (Nat × Nat × Nat) :=
  (List.range n).map fun i => ((s.pm.read i).r.toNat, (s.pm.read i).g.toNat, (s.pm.read i).b.toNat)

/-- The 64 bytes of program B. -/
def programB : List Byte :=
  [0x54, 0x52, 0x53, 0x30, 0, 2, 0, 2, 0, 4, 0, 0, 2, 2, 0, 0, 0, 0, 0, 0x24, 0, 0, 0, 0,
   3, 2, 0, 0, 0, 0, 0, 0, 0, 0, 0, 0x2C, 0xF8, 0, 7, 0xE0, 0, 0x1F, 0xFF, 0xFF,
   0, 1, 0, 2, 0, 1, 0xF8, 0, 7, 0xE0, 0, 4, 0, 2, 0, 0x1F, 0xFF, 0xFF, 0x84, 0x10]

/-- The 56 bytes of program C. -/
def programC : List Byte :=
  [0x54, 0x52, 0x53, 0x30, 0, 1, 0, 2, 0, 4, 0, 0, 3, 4, 0, 0, 0, 0, 0, 0, 0, 0, 0, 0x18,
   0, 3, 0, 2, 0, 1, 0xFF, 0xFF, 0xF8, 0, 0, 0x0A, 0, 0, 7, 0xE0, 0, 4, 0, 0, 0, 0x1F,
   0, 0, 0, 2, 0x84, 0x10, 0x12, 0x34, 0xAB, 0xCD]

/-- Program B loaded, its header parsed. -/
def sB : State := after .hdrGet { load 0 programB base with clen := 64 }

/-- Program C loaded with `CLEN = n` and its counts in the registers. -/
def sC (n : Nat) : State :=
  { load 0 programC base with clen := BitVec.ofNat 34 n, imageCount := 1, scanLineLen := 4 }

/-- Vector V-P1: a packed payload at 44 of program B, the image 3 by 2. -/
def sP1 : State := { sB with width := 3, height := 2, packedOff := 44 }

/-- Vector V-R1: a raw payload at 36 of program B, the image 2 by 2. -/
def sR1 : State := { sB with width := 2, height := 2, unpackedOff := 36 }

/-- Vector V-P2, one chunk with an odd offset, with `CLEN = n`. -/
def sP2 (n : Nat) : State :=
  { load 24 [0, 0, 0, 3, 0, 0, 0xFF, 0xFF] base with
    width := 3, height := 4, scanLineLen := 4, packedOff := 24, clen := BitVec.ofNat 34 n }

/-- Four pixels in `PM`, ready to be encoded as image 1 of 3 after one 2 by 2 image (R236). -/
def sE : State :=
  { base with
    imageCount := 3, idx := 1, channels := 3, width := 2, height := 2, runpix := 4, clen := 56
    pm := { fill := .free 1, cells := [(0, ⟨255, 255, 255⟩), (1, ⟨0, 0, 0⟩), (2, ⟨0, 0, 0⟩), (3, ⟨255, 255, 255⟩)] } }

/-! ### Well-formedness: each check refuses an ill-formed term -/

theorem test_wf_refuses_missing_pixel : (Instr.chunk 0 1 [0xFFFF]).wf = false := by decide
theorem test_wf_refuses_extra_pixel : (Instr.chunk 0 0 [1, 2]).wf = false := by decide
theorem test_wf_accepts_chunk : (Instr.chunk 2 1 [0xF800, 0x07E0]).wf = true := by decide

/-! ### Decoding: a word of each row, written out from its encoding (R91 to R96) -/

theorem test_decode_command_codes :
    ([0x01, 0x02, 0x0F, 0x10, 0x11, 0x12, 0x13, 0x14, 0x20, 0x21, 0x22, 0x23] : List Byte).map decodeCommand =
      [Instr.to16, .to24, .clr, .hdrGet, .ihdrGet, .rawDec, .pkDec, .imgDec, .hdrPut, .ihdrPut, .rawEnc,
        .imgEnc].map some := by decide
theorem test_decode_undefined_codes :
    ([0x00, 0x03, 0x0E, 0x15, 0x1F, 0x24, 0xFF] : List Byte).map decodeCommand = List.replicate 7 none := by decide
theorem test_decode_containerHeader :
    decode .containerHeader [0x54, 0x52, 0x53, 0x30, 0, 1, 0, 2, 0, 4, 0, 5] =
      .ok (.containerHeader 0x54525330 1 2 4 5, []) := by decide
theorem test_decode_imageHeader :
    decode .imageHeader [0x02, 0x02, 0x00, 0x07, 0, 0, 0, 0x30, 0, 0, 0, 0x40] = .ok (.imageHeader 2 2 7 48 64, []) := by
  decide
theorem test_decode_packedPreamble : decode .packedPreamble [0x00, 0x03] = .ok (.packedPreamble 3, []) := by decide
theorem test_decode_chunk :
    decode .chunk [0x00, 0x0A, 0x00, 0x00, 0x07, 0xE0, 0x00, 0x04] = .ok (.chunk 10 0 [0x07E0], [0x00, 0x04]) := by
  decide
theorem test_decode_pixel : decode .pixel [0x79, 0x68] = .ok (.pixel 15 11 8, []) := by decide
theorem test_decode_short : decode .chunk [0, 2, 0, 1, 0xF8, 0] = .error (.shortRecord .chunk) := by decide
theorem test_encode_chunk : encode (.chunk 2 1 [0xF800, 0x07E0]) = [0, 2, 0, 1, 0xF8, 0, 0x07, 0xE0] := by decide

/-- The host's words: the decoder's answer for each table row that has fixed bits, and what a step runs. -/
theorem test_decodeTableWord :
    (List.map (decodeTableWord 8) [0x01, 0x0F, 0x14, 0x23, 0x00]) =
      [some .to16, some .clr, some .imgDec, some .imgEnc, none] := by decide
theorem test_withFetchWord_runs_hdrPut :
    (nextOf (step (State.reset.withFetchWord 8 0x20))).map (fun s => (s.clen, s.sp, s.status)) =
      some (12, 12, 0x0002) := by decide
theorem test_withFetchWord_runs_chunk :
    (nextOf (step (State.reset.withFetchWord 48 0x000200001234))).map (fun s => (s.sp, s.cur, s.nchunk)) =
      some (6, 2, 0) := by decide +kernel

/-! ### The colour converter (V-C) -/

theorem test_to16_worked_example : (after .to16 { base with rgb24 := 0x7B2D43 }).rgb16 = 0x7968 := by decide
theorem test_to16_thresholds : [to16 ⟨4, 2, 4⟩, to16 ⟨5, 3, 5⟩, to16 ⟨7, 1, 8⟩, to16 ⟨250, 251, 252⟩] =
    [0x0000, 0x0821, 0x0801, 0xF7DF] := by decide
theorem test_to24_worked_example : (after .to24 { base with rgb16 := 0x7968 }).rgb24 = 0x7B2D42 := by decide
theorem test_to24_vectors : [to24 0x1234, to24 0xABCD, to24 0x8410] =
    [⟨16, 69, 165⟩, ⟨173, 121, 107⟩, ⟨132, 130, 132⟩] := by decide

/-! ### The header marshaler (V-H) -/

theorem test_hdrGet_program_B :
    (sB.imageCount, sB.version, sB.scanLineLen, sB.hres, sB.sp, sB.status) = (2, 2, 4, 0, 12, 0x0002) := by
  decide +kernel
theorem test_hdrGet_bad_tag_before_truncation :
    trail (after .hdrGet { load 0 [0x54, 0x52, 0x53, 0x31, 0, 1] base with clen := 6 }) =
      [0x1012, 0, 4, 0, 0, 0, 0] := by decide +kernel
theorem test_ihdrGet_V_H6 :
    let s := after .ihdrGet { sB with idx := 1 }
    (s.width, s.height, s.ires, s.unpackedOff, s.packedOff, s.sp) = (3, 2, 0, 0, 44, 36) := by decide +kernel
theorem test_ihdrGet_no_payload :
    let s := after .ihdrGet { load 12 [2, 2, 0, 0, 0, 0, 0, 0, 0, 0, 0, 0] base with clen := 24 }
    (s.status, s.errAddr, s.sp, s.width) = (0x4012, 16, 24, 0) := by decide +kernel
theorem test_hdrPut_V_H10 :
    let s := after .hdrPut { base with imageCount := 3, clen := 99, runpix := 77, scanLineLen := 9 }
    (s.cm.readBytes 0 12, s.clen, s.sp, s.runpix) =
      ([0x54, 0x52, 0x53, 0x30, 0, 3, 0, 3, 0, 0, 0, 0], 12, 12, 0) := by decide +kernel
theorem test_ihdrPut_V_H9 :
    let s := after .ihdrPut { base with width := 256, height := 1, unpackedOff := 24, clen := 12 }
    (s.cm.readBytes 12 12, s.clen, s.sp) = ([0, 1, 0, 0, 0, 0, 0, 0x18, 0, 0, 0, 0], 24, 24) := by decide +kernel
theorem test_ihdrPut_V_H12 :
    let s := after .ihdrPut { base with idx := 2, width := 1, height := 1 }
    (s.status, s.errAddr, s.errIdx, s.cm.cells) = (0x4012, 40, 2, []) := by decide +kernel
theorem test_containerHeader_record_V_H4b :
    let s := after (.containerHeader 0x54525330 1 2 4 5) base
    (s.imageCount, s.version, s.scanLineLen, s.hres, s.status, s.sp) = (1, 2, 4, 5, 0x0100, 12) := by decide
theorem test_imageHeader_record_256 :
    let s := after (.imageHeader 0 1 0 24 0) base
    (s.width, s.height, s.unpackedOff, s.sp) = (256, 1, 24, 12) := by decide

/-! ### The raw payload codec (V-R) -/

theorem test_rawDec_V_R1 :
    raster 4 (after .rawDec sR1) = [(255, 0, 0), (0, 255, 0), (0, 0, 255), (255, 255, 255)] ∧
      (after .rawDec sR1).sp = 44 := by decide +kernel
theorem test_rawDec_V_R2 : trail (after .rawDec { sR1 with clen := 43 }) = [0x3022, 42, 42, 0, 0, 0, 0] := by
  decide +kernel
theorem test_rawEnc_V_R5 :
    let s := after .rawEnc { sE with unpackedOff := 64, clen := 64 }
    (s.cm.readBytes 64 8, s.sp, s.clen) = ([0xFF, 0xFF, 0, 0, 0, 0, 0xFF, 0xFF], 72, 72) := by decide +kernel

/-! ### The packed payload decoder (V-K, V-P, program C) -/

theorem test_carry_vectors :
    [carry 4 3 4, carry 4 3 5, carry 4 7 6, carry 1 5 2, carry 65535 9 32767, carry 32766 9 32767, carry 320 100 321] =
      [(4, 3), (8, 0), (13, 0), (7, 0), (32767, 9), (32776, 0), (421, 0)] := by decide
theorem test_pkDec_V_P1 :
    raster 6 (after .pkDec sP1) =
        [(0, 0, 0), (255, 0, 0), (0, 255, 0), (0, 0, 0), (0, 0, 255), (255, 255, 255)] ∧
      trail (after .pkDec sP1) = [0x0002, 0, 64, 8, 5, 0, 0] := by decide +kernel
/-- V-P2, and the same payload cut in its pixel word: the flag is "set on success only" (D20). -/
theorem test_pkDec_odd_offset_V_P2 :
    let s := after .pkDec (sP2 32)
    trail s = [0x0402, 0, 32, 2, 1, 0, 0] ∧ raster 3 s = [(0, 0, 0), (255, 255, 255), (0, 0, 0)] ∧
      trail (after .pkDec (sP2 31)) = [0x4022, 30, 30, 1, 0, 1, 1] := by
  decide +kernel
theorem test_packedPreamble_record : (after (.packedPreamble 0xFFFF) base).nchunk = 65536 := by decide
theorem test_chunk_record_carries :
    let s := after (.chunk 10 0 [0x07E0])
      { base with scanLineLen := 4, height := 4, cur := 3, prec := 2, nchunk := 3, slb := PixelMem.cleared }
    (s.cur, s.prec, s.nrun, s.nchunk, s.slb.cells) = (11, 1, 0, 2, [(10, ⟨0, 255, 0⟩)]) := by decide +kernel
theorem test_pixel_record_in_run :
    let s := after (.pixel 16 32 16)
      { base with scanLineLen := 4, height := 4, cur := 14, prec := 2, nrun := 3, slb := PixelMem.cleared }
    (s.cur, s.prec, s.nrun, s.slb.cells) = (15, 3, 2, [(14, ⟨132, 130, 132⟩)]) := by decide +kernel
theorem test_pixel_record_in_raw :
    (after (.pixel 16 32 16) { base with doing := .opened .rawPixels 1, sp := 42, unpackedOff := 36 }).pm.cells =
      [(3, ⟨132, 130, 132⟩)] := by decide +kernel

/-! ### The sequencer (V-S, programs B, C) -/

theorem test_clr_V_S8 :
    (after .clr { base with status := 0x0702 }).status = 0x0002 ∧
      (after .clr { base with status := 0x1062, errIdx := 3, errAddr := 9 }).errAddr = 0 := by decide
theorem test_imgDec_program_C :
    raster 12 (after .imgDec (sC 56)) =
        [(0, 0, 0), (255, 255, 255), (255, 0, 0), (0, 0, 0), (0, 0, 0), (0, 0, 0), (0, 0, 0), (0, 0, 0), (0, 255, 0),
          (0, 0, 0), (0, 0, 255), (132, 130, 132)] ∧
      trail (after .imgDec (sC 56)) = [0x0002, 0, 56, 17, 5, 0, 0] := by decide +kernel
theorem test_imgDec_truncations_of_program_C :
    [12, 23, 25, 26, 29, 31, 32, 45, 49, 55].map (fun n => trail (after .imgDec (sC n))) =
      [[0x2022, 12, 12, 0, 0, 0, 0], [0x2022, 20, 20, 0, 0, 0, 0], [0x4022, 24, 24, 0, 0, 0, 0],
       [0x4022, 26, 26, 0, 0, 4, 0], [0x4022, 28, 28, 0, 0, 4, 0], [0x4022, 30, 30, 1, 0, 4, 2],
       [0x4022, 32, 32, 2, 1, 4, 1], [0x4022, 44, 44, 13, 1, 2, 1], [0x4022, 48, 48, 14, 2, 1, 0],
       [0x4022, 54, 54, 16, 4, 1, 1]] := by decide +kernel
theorem test_imgEnc_worked_example :
    let s := after .imgEnc sE
    (s.unpackedOff, s.cm.readBytes 24 12, s.cm.readBytes 56 8, s.runpix, s.sp, s.clen, s.status) =
      (56, [2, 2, 0, 0, 0, 0, 0, 0x38, 0, 0, 0, 0], [0xFF, 0xFF, 0, 0, 0, 0, 0xFF, 0xFF], 8, 64, 64, 0x0002) := by
  decide +kernel
theorem test_imgEnc_refusals :
    [(after .imgEnc { sE with channels := 4, width := 0 }).status, (after .imgEnc { sE with width := 257 }).status,
     (after .imgEnc { sE with imageCount := 1, idx := 0, runpix := 0x7FFFFFF4 }).status,
     (after .imgEnc { sE with idx := 3 }).status,
     (after .imgEnc { sE with params := { base.params with cmFault := [(59, .store)] } }).status] =
      [0x0032, 0x3012, 0x0042, 0x2062, 0x2052] := by decide +kernel

/-! ### Steps: issue, ignored commands, the record grain -/

theorem test_step_undefined_code :
    (nextOf (Host.Core.run core 2 { base with agenda := [.regWrite 0 0x24, .unitTurn] })).map (fun s => s.status) =
      some 0x1062 := by decide +kernel
theorem test_step_ignored_while_error :
    (nextOf (step { base with status := 0x1062, agenda := [.regWrite 0 0x01] })).map (fun s => (s.status, s.doing)) =
      some (0x1062, .idle) := by decide
theorem test_record_grain_program_B :
    nextOf (Host.Core.run core 5 { sB.accepted 0x14 with idx := 1, agenda := [.unitOpen] }) =
      nextOf (exec .imgDec { sB.accepted 0x14 with idx := 1 }) := by decide +kernel

/-- `PK_DEC` of V-P2 opened and read as far as its run: `WARN_ODD` is set inside the unit, and the host reads `STATUS`
without it (R6). -/
theorem test_status_hides_warning_mid_command :
    (nextOf (Host.Core.run core 4
      { (sP2 32).accepted 0x13 with agenda := [.unitOpen, .unitTurn, .unitOpen, .regRead 1] })).map
      (fun s => (s.status, s.doing, s.readData)) =
      some (0x0401, .opened .runPixels 0x0001, .register 0x0001) := by decide +kernel

/-! ### Witnesses: for each statement with hypotheses, states and operands that meet them together, clause by clause -/

theorem witness_DecodeOfEncode :
    (Instr.chunk 0xFFFF 0 [0x1234]).wf = true ∧ (Instr.pixel 31 63 31).wf = true ∧ Instr.clr.wf = true := by decide

theorem witness_EncodeOfDecode :
    decode .chunk [0, 2, 0, 0, 0xF8, 0, 0x55] = .ok (.chunk 2 0 [0xF800], [0x55]) ∧
    decode .command [0x23, 0x01] = .ok (.imgEnc, [0x01]) := by decide

theorem witness_DimensionBytes :
    (1 ≤ (1 : BitVec 16).toNat ∧ (1 : BitVec 16).toNat ≤ 256) ∧
    1 ≤ (256 : BitVec 16).toNat ∧ (256 : BitVec 16).toNat ≤ 256 := by decide

theorem witness_StepRunsTheCommand :
    (sB.accepted 0x14).busy = true ∧ (sB.accepted 0x14).doing = .command 0x14 ∧
    decode .command [0x14] = .ok (.imgDec, []) ∧ (sB.accepted 0x14).agenda = [] ∧
    ({ sB.accepted 0x14 with agenda := [.unitTurn, .reset] } : State).agenda = .unitTurn :: [.reset] := by
  decide +kernel

/-- Program B's second image header, and the last pixel of its raw payload, as the records the unit stands at. -/
theorem witness_StepRunsTheRecord :
    (let s := ({ sB.accepted 0x14 with idx := 1, sp := 24, doing := .opened (.imageHeader true) 1 } : State)
     let i := Instr.imageHeader 3 2 0 0 44
     s.agenda = [] ∧ s.busy = true ∧ s.doing.record = some i.format ∧ i.wf = true ∧
      s.readable s.sp.toNat (encode i).length = true ∧ s.cm.readBytes s.sp.toNat (encode i).length = encode i) ∧
    (let s := ({ sR1.accepted 0x12 with sp := 42, clen := 44, doing := .opened .rawPixels 1 } : State)
     let i := Instr.pixel 31 63 31
     s.agenda = [] ∧ s.busy = true ∧ s.doing.record = some i.format ∧ i.wf = true ∧
      s.readable s.sp.toNat (encode i).length = true ∧ s.cm.readBytes s.sp.toNat (encode i).length = encode i) := by
  decide +kernel

theorem witness_UndefinedCodeRaises :
    (0x03 : Byte) ∉ ([0x01, 0x02, 0x0F, 0x10, 0x11, 0x12, 0x13, 0x14, 0x20, 0x21, 0x22, 0x23] : List Byte) ∧
    (base.accepted 0x03).agenda = [] ∧ (base.accepted 0x03).busy = true ∧
    (base.accepted 0x03).doing = .command 0x03 := by decide

theorem witness_CommandIssue :
    (let s := ({ base.accepted 0x01 with agenda := [.regWrite 0 0x10] } : State)
     s.agenda = .regWrite 0 0x10 :: [] ∧ s.busy = true) ∧
    (let s := ({ base with status := 0x1062, agenda := [.regWrite 0 0x110] } : State)
     s.agenda = .regWrite 0 0x110 :: [] ∧ s.busy = false ∧ s.err ≠ 0 ∧ BitVec.ofNat 8 0x110 ≠ (0x0F : Byte)) ∧
    (let s := ({ base with status := 0x1062, agenda := [.regWrite 0 0x0F] } : State)
     s.agenda = .regWrite 0 0x0F :: [] ∧ s.busy = false ∧ BitVec.ofNat 8 0x0F = (0x0F : Byte)) ∧
    decode .command [BitVec.ofNat 8 0x0F] = .ok (.clr, []) ∧
    decode .command [BitVec.ofNat 8 0x24] = .error (.undefinedCode 0x24) ∧
    (let s := ({ base with agenda := [.regWrite 0 0x24] } : State)
     s.agenda = .regWrite 0 0x24 :: [] ∧ s.busy = false ∧ s.err = 0) := by decide

theorem witness_EveryCommandEnds : Instr.pkDec.format = .command ∧ Instr.to16.format = .command := by decide

theorem witness_RecordGrainAgrees :
    (let s := ({ sB.accepted 0x14 with idx := 1, agenda := [.unitOpen] } : State)
     s.busy = true ∧ s.doing = .command 0x14 ∧ decode .command [0x14] = .ok (.imgDec, []) ∧ s.agenda = [.unitOpen]) ∧
    ∃ t, let s := ({ sB.accepted 0x10 with agenda := [.unitOpen] } : State)
      step s = .next t ∧ s.busy = true ∧ t.busy = true :=
  ⟨by decide +kernel, _, rfl, by decide +kernel, by decide +kernel⟩

theorem witness_ErrorLatchHolds :
    ∃ t, let s := ({ base with status := 0x1062, agenda := [.regWrite 5 7] } : State)
      BusyLegal s ∧ s.err ≠ 0 ∧ step s = .next t := ⟨_, by decide, by decide, rfl⟩

theorem witness_RaiseWritesExactly : (undefinedCommand base) = .error ⟨.undefinedCode, 0⟩ base := rfl

theorem witness_ClrClearsTheLatch :
    let s := ({ base with status := 0x1062 } : State)
    s.busy = false ∧ s.err ≠ 0 := by decide

theorem witness_WarningsAreSticky :
    ∃ t, let s := ({ base.accepted 0x01 with status := 0x0701 } : State)
      ShownLegal s ∧ step s = .next t ∧ s.shownStatus.getLsbD 8 = true ∧ s.shownStatus.getLsbD 9 = true ∧
        s.shownStatus.getLsbD 10 = true :=
  ⟨_, by decide +kernel, rfl, by decide, by decide, by decide⟩

/-- `SP` at 60 in program B, with `CLEN` and `CM_FAULT` as a clause needs them. -/
def sF (clen : Nat) (cmFault : List (Nat × Access)) : State :=
  { load 0 programB base with sp := 60, clen := BitVec.ofNat 34 clen, params := { base.params with cmFault := cmFault } }

theorem witness_FetchPrimitive :
    (sF 60 []).clen.toNat < (sF 60 []).sp.toNat + 1 ∧ (sF 61 []).clen.toNat < (sF 61 []).sp.toNat + 2 ∧
    (sF 63 []).clen.toNat < (sF 63 []).sp.toNat + 4 ∧
    (let s := sF 61 [(60, .fetch)]
     s.sp.toNat + 1 ≤ s.clen.toNat ∧ s.params.accessFaults .fetch s.sp.toNat 1 = true) ∧
    (let s := sF 62 [(61, .fetch)]
     s.sp.toNat + 2 ≤ s.clen.toNat ∧ s.params.accessFaults .fetch s.sp.toNat 2 = true) ∧
    (let s := sF 64 [(63, .fetch)]
     s.sp.toNat + 4 ≤ s.clen.toNat ∧ s.params.accessFaults .fetch s.sp.toNat 4 = true) ∧
    (sF 61 []).readable 60 1 = true ∧ (sF 62 []).readable 60 2 = true ∧ (sF 64 []).readable 60 4 = true ∧
    (sF 64 []).sp.toNat = 60 := by decide +kernel

theorem witness_StorePrimitive :
    ({ base with sp := 8589934588 } : State).sp.toNat + 4 ≤ 2 ^ 33 ∧ (sF 64 []).sp.toNat + 4 ≤ 2 ^ 33 ∧
    (sF 64 [(60, .store)]).params.accessFaults .store 60 1 = true ∧
    (sF 64 [(61, .store)]).params.accessFaults .store 60 1 = false ∧
    (sF 64 [(61, .store)]).params.accessFaults .store 60 2 = true ∧
    (sF 64 [(63, .store)]).params.accessFaults .store 60 4 = true ∧
    (sF 64 [(63, .store)]).params.accessFaults .store 60 2 = false ∧
    (sF 64 []).params.accessFaults .store 60 4 = false := by decide +kernel

/-- Twelve bytes of container header with the tests' tag and this version byte, `CLEN` and `CM_FAULT` as needed. -/
def sH (version : Byte) (clen : Nat) (cmFault : List (Nat × Access)) : State :=
  { load 0 [0x54, 0x52, 0x53, 0x30, 0, 1, 0, version, 0, 4, 0, 5] base with
    clen := BitVec.ofNat 34 clen, params := { base.params with cmFault := cmFault } }

theorem witness_HdrGetParses :
    ((sH 2 12 []).readable 0 12 = true ∧ (sH 2 12 []).word32At 0 = (sH 2 12 []).params.magicTag ∧
      (sH 2 12 []).word16At 6 = 2) ∧
    (sH 3 12 []).readable 0 12 = true ∧ (sH 3 12 []).word32At 0 = (sH 3 12 []).params.magicTag ∧
      (sH 3 12 []).word16At 6 = 3 := by decide +kernel

theorem witness_HdrGetRefuses :
    (sH 2 3 []).readable 0 4 = false ∧ (sH 2 12 [(3, .fetch)]).readable 0 4 = false ∧
    (let s := ({ sH 2 4 [] with params := { magicTag := 0, cmFault := [] } } : State)
     s.readable 0 4 = true ∧ s.word32At 0 ≠ s.params.magicTag) ∧
    ([4, 6, 8, 10].all fun a =>
      let s := sH 2 (a + 1) []
      s.readable 0 a && s.word32At 0 == s.params.magicTag && !s.readable a 2) = true ∧
    (let s := sH 4 12 []
     s.readable 0 12 = true ∧ s.word32At 0 = s.params.magicTag ∧ s.word16At 6 ≠ 2 ∧ s.word16At 6 ≠ 3) := by
  decide +kernel

theorem witness_HdrPutEmits : (sH 2 0 [(12, .store)]).params.accessFaults .store 0 12 = false := by decide

/-- Program B with both image headers in reach, image `i` selected. -/
def sI (i : Nat) (clen : Nat) : State := { sB with idx := BitVec.ofNat 16 i, clen := BitVec.ofNat 34 clen }

theorem witness_IhdrGetParses :
    ((sI 0 24).readable (ihdrAddr (sI 0 24).idx) 12 = true ∧ (sI 0 24).word32At (ihdrAddr (sI 0 24).idx + 4) ≠ 0) ∧
    (sI 1 36).readable (ihdrAddr (sI 1 36).idx) 12 = true ∧
      (sI 1 36).word32At (ihdrAddr (sI 1 36).idx + 8) ≠ 0 := by decide +kernel

/-- An image header with both offsets 0 (V-H). -/
def sNoPayload : State := { load 12 [2, 2, 0, 0, 0, 0, 0, 0, 0, 0, 0, 0] base with clen := 24, imageCount := 1 }

theorem witness_IhdrGetRefuses :
    ([(0, 1), (1, 1), (2, 2), (4, 4), (8, 4)].all fun f =>
      let s := sI 1 (24 + f.1 + f.2 - 1)
      (f.1 == 0 || s.readable (ihdrAddr s.idx) f.1) && !s.readable (ihdrAddr s.idx + f.1) f.2) = true ∧
    (let s := sNoPayload
     s.readable (ihdrAddr s.idx) 12 = true ∧ s.word32At (ihdrAddr s.idx + 4) = 0 ∧
      s.word32At (ihdrAddr s.idx + 8) = 0) := by decide +kernel

theorem witness_IhdrPutEmits :
    let s := ({ sE with unpackedOff := 0xFFFFFFFF, width := 256, idx := 0xFFFF } : State)
    s.dimsOk = true ∧ s.unpackedOff ≠ 0 ∧ s.params.accessFaults .store (ihdrAddr s.idx) 12 = false := by decide

theorem witness_IhdrPutRefuses :
    ({ sE with width := 257 } : State).dimsOk = false ∧ ({ sE with height := 0 } : State).dimsOk = false ∧
    sE.dimsOk = true ∧ sE.unpackedOff = 0 := by decide

/-- Other header registers, flags and counters than the encoder left, as when another container is worked on between;
`CM`, `CLEN`, `IDX` and the parameters as they were. -/
def scrambled (t : State) : State :=
  { t with
    status := 0x0702, imageCount := 9, version := 7, scanLineLen := 5, hres := 1, width := 0, height := 9, ires := 2
    unpackedOff := 1, packedOff := 3, sp := 77, pm := { fill := .free 8, cells := [] } }

theorem scrambled_agrees (t : State) :
    (scrambled t).cm = t.cm ∧ (scrambled t).clen = t.clen ∧ (scrambled t).idx = t.idx ∧
      (scrambled t).params = t.params := ⟨rfl, rfl, rfl, rfl⟩

theorem witness_ContainerHeaderRoundTrip :
    let t := after .hdrPut sE
    sE.params.cmFault = [] ∧ (scrambled t).cm = t.cm ∧ (scrambled t).clen = t.clen ∧ (scrambled t).idx = t.idx ∧
      (scrambled t).params = t.params := ⟨rfl, scrambled_agrees _⟩

theorem witness_ImageHeaderRoundTrip :
    let s := ({ sE with width := 256, height := 1, unpackedOff := 1 } : State)
    let t := after .ihdrPut s
    (s.params.cmFault = [] ∧ s.dimsOk = true ∧ s.unpackedOff ≠ 0) ∧ (scrambled t).cm = t.cm ∧
      (scrambled t).clen = t.clen ∧ (scrambled t).idx = t.idx ∧ (scrambled t).params = t.params :=
  ⟨by decide, scrambled_agrees _⟩

theorem witness_ContainerHeaderRecord :
    (0 : U32) ≠ base.params.magicTag ∧ (0x54525330 : U32) = base.params.magicTag ∧ (1 : U16) ≠ 2 ∧ (1 : U16) ≠ 3 ∧
    (4 : U16) ≠ 2 ∧ (4 : U16) ≠ 3 := by decide

theorem witness_ImageHeaderRecord : ((0 : U32) = 0 ∧ (0 : U32) = 0) ∧ ((0 : U32) ≠ 0 ∨ (1 : U32) ≠ 0) := by decide

theorem witness_RawDecDecodes :
    let s := ({ sR1 with clen := 44 } : State)
    s.dimsOk = true ∧ s.readable s.unpackedOff.toNat (2 * s.pixelCount) = true ∧ s.pm.wf Config.pmDepth = true := by
  decide +kernel

theorem witness_RawDecStops :
    ({ sR1 with width := 0 } : State).dimsOk = false ∧
    (let s := ({ sR1 with clen := 37 } : State)
     s.dimsOk = true ∧ 0 < s.pixelCount ∧ s.readable (s.unpackedOff.toNat + 2 * 0) 2 = false) ∧
    (let s := ({ sR1 with params := { base.params with cmFault := [(43, .fetch)] } } : State)
     s.dimsOk = true ∧ 3 < s.pixelCount ∧ s.readable s.unpackedOff.toNat (2 * 3) = true ∧
      s.readable (s.unpackedOff.toNat + 2 * 3) 2 = false) := by decide +kernel

theorem witness_RawEncEncodes :
    let s := ({ sE with unpackedOff := 0xFFFFFFFF } : State)
    s.dimsOk = true ∧ s.params.accessFaults .store s.unpackedOff.toNat (2 * s.pixelCount) = false := by decide +kernel

theorem witness_RawEncStops :
    ({ sE with height := 257 } : State).dimsOk = false ∧
    ([0, 3].all fun i =>
      let s := ({ sE with unpackedOff := 64, params := { base.params with cmFault := [(65 + 2 * i, .store)] } } : State)
      s.dimsOk && decide (i < s.pixelCount) && !s.params.accessFaults .store s.unpackedOff.toNat (2 * i) &&
        s.params.accessFaults .store (s.unpackedOff.toNat + 2 * i) 2) = true := by decide +kernel

theorem witness_CarryRule :
    (5 > 4) ∧ (4 ≤ 4) := by decide

theorem witness_CarryNeedsShortLine : carry 32766 9 (halfOffset 0xFFFF) ≠ (halfOffset 0xFFFF, 9) := by decide

theorem witness_PkDecRefuses :
    ({ sP1 with width := 0 } : State).dimsOk = false ∧
    (let s := ({ sP1 with scanLineLen := 0 } : State)
     s.dimsOk = true ∧ s.scanLineLen = 0) ∧
    (let s := ({ sP1 with scanLineLen := 2 } : State)
     s.dimsOk = true ∧ s.scanLineLen ≠ 0 ∧ s.scanLineLen.toNat < s.width.toNat) ∧
    PackedOk { sP1 with scanLineLen := 3, packedOff := 0 } := by decide +kernel

/-- The chunks of program B's packed payload. -/
def chunksB : List ChunkRecord := [⟨2, 1, [0xF800, 0x07E0]⟩, ⟨4, 2, [0x001F, 0xFFFF, 0x8410]⟩]

theorem witness_PkDecClosedForm :
    PackedOk sP1 ∧ sP1.pm.wf Config.pmDepth = true ∧ chunksB.length = (1 : U16).toNat + 1 ∧
    (∀ k ∈ chunksB, k.instr.wf = true) ∧
    sP1.readable sP1.packedOff.toNat (payloadBytes 1 chunksB).length = true ∧
    sP1.cm.readBytes sP1.packedOff.toNat (payloadBytes 1 chunksB).length = payloadBytes 1 chunksB := by
  decide +kernel

/-- The preamble cut short; then, after no chunk and after one, the first header word, the second, and a pixel of the
run. -/
theorem witness_PkDecStopsInStream :
    PackedOk sP1 ∧ PackedOk { sP1 with clen := 45 } ∧ ({ sP1 with clen := 45 } : State).readable 44 2 = false ∧
    ([0, 1].all fun n => [0, 2].all fun h =>
      let done := chunksB.take n
      let a := sP1.packedOff.toNat + (payloadBytes 1 done).length + h
      let s := ({ sP1 with clen := BitVec.ofNat 34 (a + 1) } : State)
      decide (done.length ≤ (1 : U16).toNat) && (done.all fun k => k.instr.wf) &&
        s.readable s.packedOff.toNat ((payloadBytes 1 done).length + h) &&
        s.cm.readBytes s.packedOff.toNat (payloadBytes 1 done).length == payloadBytes 1 done &&
        !s.readable a 2) = true ∧
    ([0, 2].all fun n =>
      let done := chunksB.take 1
      let part : ChunkRecord := ⟨4, 2, [0x001F, 0xFFFF, 0x8410].take n⟩
      let a := sP1.packedOff.toNat + (payloadBytes 1 (done ++ [part])).length
      let s := ({ sP1 with clen := BitVec.ofNat 34 (a + 1) } : State)
      decide (part.pixels.length ≤ part.runLength.toNat) &&
        s.readable s.packedOff.toNat (payloadBytes 1 (done ++ [part])).length &&
        s.cm.readBytes s.packedOff.toNat (payloadBytes 1 (done ++ [part])).length == payloadBytes 1 (done ++ [part]) &&
        !s.readable a 2) = true := by decide +kernel

theorem witness_ChunkRecordSkipsAndCopies :
    let s := ({ base with scanLineLen := 4, height := 4, cur := 3, prec := 2, nchunk := 3, slb := PixelMem.cleared } : State)
    [(0x07E0 : U16), 1].length = (1 : U16).toNat + 1 ∧ carry s.scanLineLen.toNat s.prec.toNat ((11 : U16).toNat / 2) = (7, 0) ∧
    s.cur.toNat + 7 + 2 < 2 ^ 34 ∧ 0 + 2 < 2 ^ 33 ∧ rising s.slb.cells = true := by decide

theorem witness_PixelRecordSteps :
    (⟨132, 130, 132⟩ : Pixel) = ⟨BitVec.ofNat 8 (((16 : BitVec 5).toNat * 527 + 23) / 64),
      BitVec.ofNat 8 (((32 : BitVec 6).toNat * 259 + 33) / 64), BitVec.ofNat 8 (((16 : BitVec 5).toNat * 527 + 23) / 64)⟩ ∧
    ({ base with doing := .opened .rawPixels 1 } : State).doing.place = some .rawPixels ∧
    base.doing.place ≠ some .rawPixels := by decide

theorem witness_ImgDecDispatches :
    ((sI 0 36).idx.toNat < (sI 0 36).imageCount.toNat ∧ (sI 0 36).readable (ihdrAddr (sI 0 36).idx) 12 = true ∧
      (sI 0 36).word32At (ihdrAddr (sI 0 36).idx + 4) ≠ 0) ∧
    (sI 1 64).idx.toNat < (sI 1 64).imageCount.toNat ∧ (sI 1 64).readable (ihdrAddr (sI 1 64).idx) 12 = true ∧
      (sI 1 64).word32At (ihdrAddr (sI 1 64).idx + 4) = 0 ∧ (sI 1 64).word32At (ihdrAddr (sI 1 64).idx + 8) ≠ 0 := by
  decide +kernel

theorem witness_ImgDecDecodesRawImage :
    let s := sI 0 44
    s.idx.toNat < s.imageCount.toNat ∧ s.readable (ihdrAddr s.idx) 12 = true ∧
    36 = (s.word32At (ihdrAddr s.idx + 4)).toNat ∧ 2 = (dimDec (s.byteAt (ihdrAddr s.idx))).toNat ∧
    2 = (dimDec (s.byteAt (ihdrAddr s.idx + 1))).toNat ∧ s.readable 36 (2 * (2 * 2)) = true ∧
    s.pm.wf Config.pmDepth = true := by decide +kernel

theorem witness_ImgDecRefuses :
    (sI 2 64).imageCount.toNat ≤ (sI 2 64).idx.toNat ∧
    ((sI 1 35).idx.toNat < (sI 1 35).imageCount.toNat ∧ (sI 1 35).readable (ihdrAddr (sI 1 35).idx) 12 = false) ∧
    sNoPayload.idx.toNat < sNoPayload.imageCount.toNat ∧ sNoPayload.word32At (ihdrAddr sNoPayload.idx + 4) = 0 ∧
    sNoPayload.word32At (ihdrAddr sNoPayload.idx + 8) = 0 := by decide +kernel

/-- At the boundary of R265: the largest placement is 0xFFFFFFFE (offsets here are even). -/
theorem witness_ImgEncEncodes :
    let s := ({ sE with runpix := 0x7FFFFFE7, idx := 2 } : State)
    0xFFFFFFFE = 12 + 12 * s.imageCount.toNat + 2 * s.runpix.toNat ∧ s.idx.toNat < s.imageCount.toNat ∧
    s.channels = 3 ∧ s.dimsOk = true ∧ 0xFFFFFFFE ≤ 0xFFFFFFFF ∧
    s.params.accessFaults .store (ihdrAddr s.idx) 12 = false ∧
    s.params.accessFaults .store 0xFFFFFFFE (2 * s.pixelCount) = false := by decide +kernel

theorem witness_ImgEncRefuses :
    ({ sE with idx := 3 } : State).imageCount.toNat ≤ ({ sE with idx := 3 } : State).idx.toNat ∧
    sE.idx.toNat < sE.imageCount.toNat ∧ ({ sE with channels := 4 } : State).channels ≠ 3 ∧
    (sE.channels = 3 ∧ ({ sE with width := 257 } : State).dimsOk = false) ∧ sE.dimsOk = true ∧
    (let s := ({ sE with runpix := 0x7FFFFFE8 } : State)
     0xFFFFFFFF < 12 + 12 * s.imageCount.toNat + 2 * s.runpix.toNat) := by decide

/-- A store that fails in the first and in the last field of each header, and at the first and the last pixel word. -/
theorem witness_EncodersStopAtStore :
    ([(0, 4), (10, 2)].all fun f =>
      let s := ({ sE with params := { base.params with cmFault := [(f.1 + 1, .store)] } } : State)
      !s.params.accessFaults .store 0 f.1 && s.params.accessFaults .store f.1 f.2) = true ∧
    ([(0, 1), (8, 4)].all fun f =>
      let a := ihdrAddr sE.idx
      let s := ({ sE with
        unpackedOff := 56, params := { base.params with cmFault := [(a + f.1 + f.2 - 1, .store)] } } : State)
      s.dimsOk && s.unpackedOff != 0 && !s.params.accessFaults .store a f.1 &&
        s.params.accessFaults .store (a + f.1) f.2) = true ∧
    (56 = 12 + 12 * sE.imageCount.toNat + 2 * sE.runpix.toNat ∧ sE.idx.toNat < sE.imageCount.toNat ∧
      sE.channels = 3 ∧ sE.dimsOk = true ∧ 56 ≤ 0xFFFFFFFF) ∧
    ([0, 3].all fun i =>
      let s := ({ sE with params := { base.params with cmFault := [(56 + 2 * i + 1, .store)] } } : State)
      decide (i < s.pixelCount) && !s.params.accessFaults .store (ihdrAddr s.idx) 12 &&
        !s.params.accessFaults .store 56 (2 * i) && s.params.accessFaults .store (56 + 2 * i) 2) = true := by
  decide +kernel

theorem witness_EncodedImageDecodes :
    let t := after .imgEnc sE
    (sE.params.cmFault = [] ∧ sE.idx.toNat < sE.imageCount.toNat ∧ sE.channels = 3 ∧ sE.dimsOk = true ∧
      12 + 12 * sE.imageCount.toNat + 2 * sE.runpix.toNat ≤ 0xFFFFFFFF) ∧
    ((scrambled t).cm = t.cm ∧ (scrambled t).clen = t.clen ∧ (scrambled t).idx = t.idx ∧
      (scrambled t).params = t.params) ∧
    (scrambled t).idx.toNat < (scrambled t).imageCount.toNat ∧ (scrambled t).pm.wf Config.pmDepth = true :=
  ⟨by decide, scrambled_agrees _, by decide +kernel, by decide +kernel⟩

theorem witness_RegisterWrite :
    (let s := ({ base.accepted 0x01 with agenda := [.regWrite 5 1] } : State)
     s.agenda = .regWrite 5 1 :: [] ∧ s.busy = true) ∧
    (let s := ({ base with agenda := [.regRead 24] } : State)
     s.agenda = .regRead 24 :: [] ∧ s.busy = false ∧ 23 < 24) ∧
    base.busy = false ∧ 23 ∈ [1, 2, 3, 19, 20, 21, 22, 23] ∧ 23 < 24 ∧
    writableWidth 5 = some 16 ∧ writableWidth 18 = some 32 := by decide

theorem witness_RegisterRead :
    (let s := ({ base with agenda := [.regRead 24] } : State)
     s.agenda = .regRead 24 :: [] ∧ s.busy = false ∧ 23 < 24) ∧
    (let s := ({ base.accepted 0x01 with agenda := [.regRead 2] } : State)
     s.agenda = .regRead 2 :: [] ∧ s.busy = true ∧ 2 ≠ 1 ∧ s.doing.place = none) ∧
    (let s := ({ base with status := 0x0401, doing := .opened .chunks 1, agenda := [.regRead 1] } : State)
     s.agenda = .regRead 1 :: [] ∧ s.busy = true ∧ s.doing = .opened .chunks 1) := by decide

theorem witness_HostMemoryAccess :
    (let s := ({ base with agenda := [.cmWrite (2 ^ 33 - 1) 1] } : State)
     s.busy = false ∧ 2 ^ 33 - 1 < 2 ^ 33 ∧ s.agenda = .cmWrite (2 ^ 33 - 1) 1 :: []) ∧
    (let s := ({ base with agenda := [.cmRead 0] } : State)
     s.busy = false ∧ s.agenda = .cmRead 0 :: []) ∧
    (let s := ({ base with agenda := [.pmWrite 65535 ⟨1, 2, 3⟩] } : State)
     s.busy = false ∧ 65535 < 65536 ∧ rising s.pm.cells = true ∧ s.agenda = .pmWrite 65535 ⟨1, 2, 3⟩ :: []) ∧
    (let s := ({ base with agenda := [.pmRead 0] } : State)
     s.busy = false ∧ s.agenda = .pmRead 0 :: []) ∧
    (let s := ({ base.accepted 0x01 with agenda := [.pmRead 0] } : State)
     s.busy = true ∧ s.agenda = .pmRead 0 :: []) ∧
    (let s := ({ base with agenda := [.cmRead (2 ^ 33)] } : State)
     s.busy = false ∧ 2 ^ 33 ≤ 2 ^ 33 ∧ s.agenda = .cmRead (2 ^ 33) :: []) ∧
    (let s := ({ base with agenda := [.pmRead 65536] } : State)
     s.busy = false ∧ 65536 ≤ 65536 ∧ s.agenda = .pmRead 65536 :: []) := by decide +kernel

theorem witness_ResetAtAnyTime :
    ({ base.accepted 0x13 with agenda := [.reset] } : State).agenda = .reset :: [] := by decide

/-- A legal state in which a decode is about to be opened. -/
theorem witness_InvariantKept : ∃ t, let s := ({ sB.accepted 0x11 with agenda := [.unitOpen] } : State)
    Inv s ∧ step s = .next t :=
  ⟨_, ⟨by decide +kernel, by decide +kernel, by decide +kernel, by decide +kernel, by decide +kernel,
    by decide +kernel, by decide +kernel⟩, rfl⟩

theorem witness_MemoriesStayRising : ∃ t, let s := ({ base with agenda := [.cmWrite 7 1] } : State)
    MemoriesRising s ∧ step s = .next t := ⟨_, by decide, rfl⟩

theorem witness_OnlyEncodersStore : ∃ t, let s := ({ base with agenda := [.cmWrite 7 1] } : State)
    step s = .next t ∧ t.cm ≠ s.cm := ⟨_, rfl, by decide⟩

theorem witness_UnitNeverWritesHostRegisters : ∃ t, let s := ({ base with agenda := [.regWrite 5 7] } : State)
    step s = .next t ∧ t.idx ≠ s.idx := ⟨_, rfl, by decide⟩

end Sys2Proof.Tests
end

section
/-! The decoder on what the encoder wrote, and the fetch of a record: what it answers, format by format (R60, R91 to
R95). With it `StepRunsTheRecord`. -/

namespace Sys2Proof.Machine

/-! ### Fields split into bytes and put together again (R60, R95) -/

theorem be16_of_bytes (v : U16) : be16 (v.extractLsb' 8 8) (v.extractLsb' 0 8) = v := by
  rw [be16, BitVec.extractLsb'_append_extractLsb'_eq_extractLsb' (by rfl), BitVec.extractLsb'_eq_self]

theorem be32_of_bytes (v : U32) :
    be32 (v.extractLsb' 24 8) (v.extractLsb' 16 8) (v.extractLsb' 8 8) (v.extractLsb' 0 8) = v := by
  rw [be32, BitVec.extractLsb'_append_extractLsb'_eq_extractLsb' (by rfl),
    BitVec.extractLsb'_append_extractLsb'_eq_extractLsb' (by rfl),
    BitVec.extractLsb'_append_extractLsb'_eq_extractLsb' (by rfl), BitVec.extractLsb'_eq_self]

theorem pack565_unpack565 (v : U16) : pack565 (unpack565 v).1 (unpack565 v).2.1 (unpack565 v).2.2 = v := by
  rw [pack565, unpack565, BitVec.extractLsb'_append_extractLsb'_eq_extractLsb' (by rfl),
    BitVec.extractLsb'_append_extractLsb'_eq_extractLsb' (by rfl), BitVec.extractLsb'_eq_self]

theorem unpack565_pack565 (r5 : BitVec 5) (g6 : BitVec 6) (b5 : BitVec 5) :
    unpack565 (pack565 r5 g6 b5) = (r5, g6, b5) := by
  simp only [pack565, unpack565, Prod.mk.injEq]
  refine ⟨?_, ?_, ?_⟩ <;> ext i hi <;> simp <;> grind

/-! ### Taking an encoded field back -/

@[simp] theorem take16_bytes16 (v : U16) (rest : List Byte) : take16 (bytes16 v ++ rest) = some (v, rest) := by
  simp only [bytes16, List.cons_append, List.nil_append, take16, be16_of_bytes]

@[simp] theorem take32_bytes32 (v : U32) (rest : List Byte) : take32 (bytes32 v ++ rest) = some (v, rest) := by
  simp only [bytes32, List.cons_append, List.nil_append, take32, be32_of_bytes]

@[simp] theorem takeWords_flatMap_bytes16 (px : List U16) (rest : List Byte) :
    takeWords px.length (px.flatMap bytes16 ++ rest) = some (px, rest) := by
  induction px with
  | nil => rfl
  | cons v px ih => simp [takeWords, ih]

/-- Every well-formed instruction's encoding decodes to it, whatever follows (R91 to R96). -/
theorem decode_encode_append (i : Instr) (rest : List Byte) (h : i.wf = true) :
    decode i.format (encode i ++ rest) = .ok (i, rest) := by
  cases i with
  | containerHeader m n v l x => simp [Instr.format, encode, decode, decodeContainerHeader, List.append_assoc]
  | imageHeader w h x u p =>
    simp [Instr.format, encode, decode, decodeImageHeader, take8, List.append_assoc]
  | packedPreamble c => simp [Instr.format, encode, decode, decodePackedPreamble]
  | chunk o r px =>
    have hlen : px.length = r.toNat + 1 := by simpa [Instr.wf, chunkWordsMatch] using h
    simp [Instr.format, encode, decode, decodeChunk, List.append_assoc, ← hlen]
  | pixel r5 g6 b5 => simp [Instr.format, encode, decode, decodePixel, unpack565_pack565]
  | _ => rfl

/-! ### The record at `SP`, format by format -/

theorem fetchRecord_containerHeader (s : State) :
    s.fetchRecord .containerHeader =
      if s.readable s.sp.toNat 12 then
        some (.containerHeader (s.word32At s.sp.toNat) (s.word16At (s.sp.toNat + 4)) (s.word16At (s.sp.toNat + 6))
          (s.word16At (s.sp.toNat + 8)) (s.word16At (s.sp.toNat + 10)))
      else none := rfl

theorem fetchRecord_imageHeader (s : State) :
    s.fetchRecord .imageHeader =
      if s.readable s.sp.toNat 12 then
        some (.imageHeader (s.byteAt s.sp.toNat) (s.byteAt (s.sp.toNat + 1)) (s.word16At (s.sp.toNat + 2))
          (s.word32At (s.sp.toNat + 4)) (s.word32At (s.sp.toNat + 8)))
      else none := rfl

theorem fetchRecord_packedPreamble (s : State) :
    s.fetchRecord .packedPreamble =
      if s.readable s.sp.toNat 2 then some (.packedPreamble (s.word16At s.sp.toNat)) else none := rfl

theorem fetchRecord_pixel (s : State) :
    s.fetchRecord .pixel =
      if s.readable s.sp.toNat 2 then
        some (.pixel (unpack565 (s.word16At s.sp.toNat)).1 (unpack565 (s.word16At s.sp.toNat)).2.1
          (unpack565 (s.word16At s.sp.toNat)).2.2)
      else none := rfl

theorem takeWords_readBytes (s : State) (n a : Nat) :
    takeWords n (s.cm.readBytes a (2 * n)) = some (s.wordsAt a n, []) := by
  induction n generalizing a with
  | zero => rfl
  | succ n ih => simp [Nat.mul_succ, ByteMem.readBytes, takeWords, take16, ih, State.wordsAt, State.word16At]

/-- The pixel words that the chunk at `SP` says it holds (R94, R98). -/
def State.chunkWords (s : State) : Nat := storedCount (s.word16At (s.sp.toNat + 2))

theorem recordLength_chunk (s : State) :
    s.recordLength .chunk = if s.readable s.sp.toNat 4 then some (4 + 2 * s.chunkWords) else none := rfl

theorem decode_chunk_readBytes (s : State) :
    decode .chunk (s.cm.readBytes s.sp.toNat (4 + 2 * s.chunkWords)) =
      .ok (.chunk (s.word16At s.sp.toNat) (s.word16At (s.sp.toNat + 2))
        (s.wordsAt (s.sp.toNat + 4) s.chunkWords), []) := by
  have hhead : decodeChunk (s.cm.readBytes s.sp.toNat (4 + 2 * s.chunkWords)) =
      (takeWords s.chunkWords (s.cm.readBytes (s.sp.toNat + 4) (2 * s.chunkWords))).bind fun w =>
        some (.chunk (s.word16At s.sp.toNat) (s.word16At (s.sp.toNat + 2)) w.1, w.2) := by
    rw [ByteMem.readBytes_append]
    rfl
  simp only [decode, hhead, takeWords_readBytes, Option.bind_some]

theorem fetchRecord_chunk (s : State) :
    s.fetchRecord .chunk =
      if s.readable s.sp.toNat (4 + 2 * s.chunkWords) then
        some (.chunk (s.word16At s.sp.toNat) (s.word16At (s.sp.toNat + 2)) (s.wordsAt (s.sp.toNat + 4) s.chunkWords))
      else none := by
  cases hr : s.readable s.sp.toNat (4 + 2 * s.chunkWords) with
  | true =>
    have hhead : s.readable s.sp.toNat 4 = true := readable_part hr (Nat.le_refl _) (by omega)
    simp only [State.fetchRecord, recordLength_chunk, hhead, hr, decode_chunk_readBytes, if_true]
  | false =>
    cases hhead : s.readable s.sp.toNat 4 <;>
      simp [State.fetchRecord, recordLength_chunk, hhead, hr]

/-! ### A record that lies readable at `SP` is fetched -/

/-- Where a well-formed instruction's bytes lie at `SP`, the length the unit finds is that of its encoding (R90,
R104). -/
theorem recordLength_of_encode {s : State} {i : Instr} (hwf : i.wf = true)
    (hr : s.readable s.sp.toNat (encode i).length = true)
    (hbytes : s.cm.readBytes s.sp.toNat (encode i).length = encode i) :
    s.recordLength i.format = some (encode i).length := by
  cases i with
  | chunk o r px =>
    have hlen : (encode (.chunk o r px)).length = 4 + 2 * storedCount r := Laws.EncodedLength.chunk o r px hwf
    have hhead : s.readable s.sp.toNat 4 = true := readable_part hr (Nat.le_refl _) (by omega)
    have hword : s.word16At (s.sp.toNat + 2) = r := by
      rw [hlen, ByteMem.readBytes_append] at hbytes
      obtain ⟨hhigh, hlow⟩ : s.cm.read (s.sp.toNat + 2) = r.extractLsb' 8 8 ∧
          s.cm.read (s.sp.toNat + 3) = r.extractLsb' 0 8 := by
        simp only [ByteMem.readBytes, encode, bytes16, List.cons_append, List.nil_append, List.cons.injEq] at hbytes
        obtain ⟨_, _, hhigh, hlow, _⟩ := hbytes
        exact ⟨hhigh, hlow⟩
      rw [State.word16At, hhigh, hlow, be16_of_bytes]
    simp only [Instr.format, State.recordLength, hhead, if_true, hword, hlen]
  | _ => rfl

theorem fetchRecord_of_encode {s : State} {i : Instr} (hwf : i.wf = true)
    (hr : s.readable s.sp.toNat (encode i).length = true)
    (hbytes : s.cm.readBytes s.sp.toNat (encode i).length = encode i) :
    s.fetchRecord i.format = some i := by
  have hdecode : decode i.format (encode i) = .ok (i, []) := by simpa using decode_encode_append i [] hwf
  simp only [State.fetchRecord, recordLength_of_encode hwf hr hbytes, hr, if_true, hbytes, hdecode]

/-! ### The turn at a record -/

theorem recordTurn_some {format : Format} {rest : Cmd Unit} {s : State} {i : Instr}
    (h : s.fetchRecord format = some i) : recordTurn format rest s = thenSequence (exec i s) := by
  simp only [recordTurn, h]

theorem recordTurn_none {format : Format} {rest : Cmd Unit} {s : State} (h : s.fetchRecord format = none) :
    recordTurn format rest s = runCommand rest s := by
  simp only [recordTurn, h]

theorem placeTurn_some {place : Place} {s : State} {i : Instr} (h : s.fetchRecord place.record = some i) :
    placeTurn place s = thenSequence (exec i s) := by
  cases place <;> exact recordTurn_some h

theorem unitTurn_opened {s : State} {place : Place} {shown : BitVec 16} (hb : s.busy = true)
    (hd : s.doing = .opened place shown) : unitTurn s = placeTurn place s := by
  simp only [unitTurn, hb, hd, if_true]

theorem step_nil {s : State} (h : s.agenda = []) : step s = unitTurn s := by
  simp only [step, h]

/-- What stands at a record is an opened command at a place of that record's format. -/
theorem record_eq_some {d : Activity} {f : Format} (h : d.record = some f) :
    ∃ place shown, d = .opened place shown ∧ place.record = f := by
  cases d with
  | opened place shown => exact ⟨place, shown, rfl, Option.some.inj h⟩
  | idle => cases h
  | command code => cases h

/-- Settles O6: the bytes at `SP` decode to the instruction they encode, so the turn at the record runs it. -/
theorem stepRunsTheRecord : Obligations.StepRunsTheRecord := by
  unfold Obligations.StepRunsTheRecord
  intro s i hagenda hbusy hrecord hwf hr hbytes
  obtain ⟨place, shown, hdoing, hplace⟩ := record_eq_some hrecord
  rw [step_nil hagenda, unitTurn_opened hbusy hdoing, placeTurn_some]
  rw [hplace]
  exact fetchRecord_of_encode hwf hr hbytes

end Sys2Proof.Machine
end

section
/-! Pieces of pseudocode that leave the sequencing alone: they neither read nor change what the unit is doing and which
events are to come, and they keep `STATUS.BUSY`. Such a piece does the same at either grain of log 10. -/

namespace Sys2Proof.Machine

/-- The state with another activity and other events to come. -/
def State.withControl (s : State) (d : Activity) (events : List Event) : State :=
  { s with doing := d, agenda := events }

@[simp] theorem State.withControl_sp (s : State) (d : Activity) (events : List Event) :
    (s.withControl d events).sp = s.sp := rfl
@[simp] theorem State.withControl_clen (s : State) (d : Activity) (events : List Event) :
    (s.withControl d events).clen = s.clen := rfl
@[simp] theorem State.withControl_params (s : State) (d : Activity) (events : List Event) :
    (s.withControl d events).params = s.params := rfl
@[simp] theorem State.withControl_doing (s : State) (d : Activity) (events : List Event) :
    (s.withControl d events).doing = d := rfl
@[simp] theorem State.withControl_agenda (s : State) (d : Activity) (events : List Event) :
    (s.withControl d events).agenda = events := rfl
@[simp] theorem State.withControl_complete (s : State) (d : Activity) (events : List Event) :
    (s.withControl d events).complete = s.complete.withControl .idle events := rfl
@[simp] theorem State.withControl_takeError (s : State) (d : Activity) (events : List Event) (e : Raise) :
    (s.withControl d events).takeError e = (s.takeError e).withControl .idle events := rfl

/-- The result of a piece, with another activity and other events to come in its state. -/
def resultWithControl {α : Type} (d : Activity) (events : List Event) :
    EStateM.Result Raise State α → EStateM.Result Raise State α
  | .ok a t => .ok a (t.withControl d events)
  | .error e t => .error e (t.withControl d events)

/-- The piece leaves the sequencing alone. -/
structure Quiet {α : Type} (c : Cmd α) : Prop where
  withControl : ∀ s d events, c (s.withControl d events) = resultWithControl d events (c s)
  busy : ∀ s a t, c s = .ok a t → t.busy = s.busy

/-- A quiet piece that goes on has kept what the unit is doing, the events to come, and `BUSY`. -/
theorem Quiet.keeps {α : Type} {c : Cmd α} (h : Quiet c) {s t : State} {a : α} (hc : c s = .ok a t) :
    t.busy = s.busy ∧ t.doing = s.doing ∧ t.agenda = s.agenda := by
  have hself := h.withControl s s.doing s.agenda
  rw [show s.withControl s.doing s.agenda = s from rfl, hc] at hself
  have ht : t = t.withControl s.doing s.agenda := by injection hself
  have hdoing : t.doing = (t.withControl s.doing s.agenda).doing := congrArg State.doing ht
  have hagenda : t.agenda = (t.withControl s.doing s.agenda).agenda := congrArg State.agenda ht
  exact ⟨h.busy s a t hc, hdoing, hagenda⟩

/-- How a command ends does not depend on what the unit was said to be doing. -/
theorem runCommand_atPlace {c : Cmd Unit} (h : Quiet c) (s : State) (place : Place) :
    runCommand c (s.atPlace place) = runCommand c s := by
  have hcontrol := h.withControl s (.opened place s.shownStatus) s.agenda
  have hself := h.withControl s s.doing s.agenda
  rw [show s.withControl s.doing s.agenda = s from rfl] at hself
  rw [runCommand, runCommand, show s.atPlace place = s.withControl (.opened place s.shownStatus) s.agenda from rfl,
    hcontrol, hself]
  cases c s <;> rfl

/-! ### The forms of pseudocode -/

theorem quiet_pure {α : Type} (a : α) : Quiet (pure a : Cmd α) where
  withControl _ _ _ := rfl
  busy s b t h := by cases h; rfl

theorem Quiet.bind {α β : Type} {c : Cmd α} {f : α → Cmd β} (hc : Quiet c) (hf : ∀ a, Quiet (f a)) :
    Quiet (c >>= f) where
  withControl s d events := by
    rw [cmd_bind, cmd_bind, hc.withControl]
    cases c s with
    | ok a t => exact (hf a).withControl t d events
    | error e t => rfl
  busy s b u h := by
    obtain ⟨a, t, hct, hfu⟩ := cmd_bind_ok h
    exact ((hf a).busy t b u hfu).trans (hc.busy s a t hct)

/-- Reading the state is quiet where what follows does not read the sequencing from it. -/
theorem quiet_get_bind {β : Type} {f : State → Cmd β} (hread : ∀ s d events, f (s.withControl d events) = f s)
    (hf : ∀ s, Quiet (f s)) : Quiet ((get : Cmd State) >>= f) where
  withControl s d events := by
    rw [cmd_bind, cmd_bind]
    simp only [cmd_get, hread]
    exact (hf s).withControl s d events
  busy s b u h := (hf s).busy s b u h

theorem quiet_change {f : State → State}
    (hf : ∀ s d events, f (s.withControl d events) = (f s).withControl d events)
    (hbusy : ∀ s, (f s).busy = s.busy) : Quiet (change f) where
  withControl s d events := by rw [change_apply, hf]; rfl
  busy s a t h := by
    rw [change_apply] at h
    cases h
    exact hbusy s

theorem quiet_check {ok : State → Bool} {addr : State → Nat} (cause : Cause)
    (hok : ∀ s d events, ok (s.withControl d events) = ok s)
    (haddr : ∀ s d events, addr (s.withControl d events) = addr s) : Quiet (check ok cause addr) where
  withControl s d events := by
    simp only [check, hok, haddr]
    split <;> rfl
  busy s a t h := by
    rcases check_cases ok cause addr s with ⟨_, hc⟩ | ⟨_, hc⟩ <;> rw [hc] at h <;> cases h
    rfl

theorem quiet_seek {target : State → Nat} (h : ∀ s d events, target (s.withControl d events) = target s) :
    Quiet (seek target) :=
  quiet_change (fun s d events => by rw [h]; rfl) fun _ => rfl

theorem quiet_fetch (stage : Stage) (n : Nat) : Quiet (fetch stage n) where
  withControl s d events := by
    rcases fetch_cases stage n s with ⟨hr, hc⟩ | ⟨hs, hc⟩ | ⟨⟨hs, hf⟩, hc⟩ <;> rw [hc]
    · exact fetch_ok (s := s.withControl d events) stage hr
    · exact fetch_short (s := s.withControl d events) stage hs
    · exact fetch_fault (s := s.withControl d events) stage hs hf
  busy s a t h := by
    rcases fetch_cases stage n s with ⟨_, hc⟩ | ⟨_, hc⟩ | ⟨_, hc⟩ <;> rw [hc] at h <;> cases h
    rfl

theorem quiet_readU8 (stage : Stage) : Quiet (readU8 stage) :=
  (quiet_fetch stage 1).bind fun _ => quiet_get_bind (fun _ _ _ => rfl) fun _ => quiet_pure _

theorem quiet_readU16 (stage : Stage) : Quiet (readU16 stage) :=
  (quiet_fetch stage 2).bind fun _ => quiet_get_bind (fun _ _ _ => rfl) fun _ => quiet_pure _

theorem quiet_readU32 (stage : Stage) : Quiet (readU32 stage) :=
  (quiet_fetch stage 4).bind fun _ => quiet_get_bind (fun _ _ _ => rfl) fun _ => quiet_pure _

theorem quiet_payloadFrom {c : Cmd Unit} (odd : Bool) (h : Quiet c) : Quiet (payloadFrom odd c) where
  withControl s d events := by
    rw [payloadFrom, payloadFrom, h.withControl]
    cases c s <;> rfl
  busy s a t hp := by
    rcases payloadFrom_cases odd c s with ⟨u, hc, hok⟩ | ⟨e, u, hc, herr⟩
    · rw [hok] at hp
      cases hp
      exact h.busy s () _ hc
    · rw [herr] at hp
      cases hp

theorem quiet_payload {c : Cmd Unit} (h : Quiet c) : Quiet (payload c) where
  withControl s d events := (quiet_payloadFrom s.warnOdd h).withControl s d events
  busy s a t hp := (quiet_payloadFrom s.warnOdd h).busy s a t hp

/-! ### The updates that write `STATUS` keep `BUSY` -/

@[simp] theorem busy_withContainerHeader (s : State) (n v l x : U16) :
    (s.withContainerHeader n v l x).busy = s.busy := by
  simp only [State.busy, State.withContainerHeader]
  split
  · rfl
  · exact (getLsbD_statusWarnHres _ 0 (by decide)).trans (if_neg (by decide))

@[simp] theorem busy_withImageHeader (s : State) (wb hb : Byte) (x : U16) (u p : U32) :
    (s.withImageHeader wb hb x u p).busy = s.busy := by
  simp only [State.busy, State.withImageHeader]
  split
  · rfl
  · exact (getLsbD_statusWarnIres _ 0 (by decide)).trans (if_neg (by decide))

@[simp] theorem busy_withChunkHead (s : State) (ob rs : U16) : (s.withChunkHead ob rs).busy = s.busy := by
  simp only [State.busy, State.withChunkHead]
  split
  · exact (getLsbD_statusWarnOdd _ 0 (by decide)).trans (if_neg (by decide))
  · rfl

/-! ### The pieces of the decoding commands -/

theorem quiet_withPm (i : Nat) (p : Pixel) : Quiet (change fun s => s.withPm i p) :=
  quiet_change (fun _ _ _ => rfl) fun _ => rfl

theorem quiet_withRunPixel (v : U16) : Quiet (change fun s => s.withRunPixel v) :=
  quiet_change (fun _ _ _ => rfl) fun _ => rfl

theorem quiet_commitHeader (n v l x : U16) : Quiet (commitHeader n v l x) :=
  (quiet_check _ (fun _ _ _ => rfl) fun _ _ _ => rfl).bind fun _ =>
    quiet_change (fun _ _ _ => rfl) fun s => busy_withContainerHeader s n v l x

theorem quiet_headerBody : Quiet headerBody :=
  (quiet_readU32 _).bind fun _ => (quiet_check _ (fun _ _ _ => rfl) fun _ _ _ => rfl).bind fun _ =>
    (quiet_readU16 _).bind fun _ => (quiet_readU16 _).bind fun _ => (quiet_readU16 _).bind fun _ =>
      (quiet_readU16 _).bind fun _ => quiet_commitHeader _ _ _ _

theorem quiet_commitImageHeader (wb hb : Byte) (x : U16) (u p : U32) : Quiet (commitImageHeader wb hb x u p) :=
  (quiet_check _ (fun _ _ _ => rfl) fun _ _ _ => rfl).bind fun _ =>
    quiet_change (fun _ _ _ => rfl) fun s => busy_withImageHeader s wb hb x u p

theorem quiet_imageHeaderBody : Quiet imageHeaderBody :=
  (quiet_readU8 _).bind fun _ => (quiet_readU8 _).bind fun _ => (quiet_readU16 _).bind fun _ =>
    (quiet_readU32 _).bind fun _ => (quiet_readU32 _).bind fun _ => quiet_commitImageHeader _ _ _ _ _

theorem quiet_checkDims : Quiet checkDims := quiet_check _ (fun _ _ _ => rfl) fun _ _ _ => rfl

theorem quiet_rawPixelRead : Quiet rawPixelRead :=
  quiet_get_bind (fun _ _ _ => rfl) fun _ => (quiet_readU16 _).bind fun _ => quiet_withPm _ _

theorem quiet_rawDecLoop (n i : Nat) : Quiet (rawDecLoop n i) := by
  induction n generalizing i with
  | zero => exact quiet_pure ()
  | succ n ih =>
    exact (quiet_readU16 _).bind fun _ => (quiet_withPm _ _).bind fun _ => ih (i + 1)

theorem quiet_rawDec : Quiet rawDec :=
  quiet_checkDims.bind fun _ => (quiet_seek fun _ _ _ => rfl).bind fun _ =>
    quiet_get_bind (fun _ _ _ => rfl) fun _ => quiet_payload (quiet_rawDecLoop _ _)

theorem quiet_packedStart : Quiet packedStart :=
  (quiet_checkDims.bind fun _ => (quiet_check _ (fun _ _ _ => rfl) fun _ _ _ => rfl).bind fun _ =>
    quiet_check _ (fun _ _ _ => rfl) fun _ _ _ => rfl).bind fun _ => quiet_change (fun _ _ _ => rfl) fun _ => rfl

theorem quiet_preambleStep : Quiet preambleStep :=
  (quiet_readU16 _).bind fun _ => quiet_change (fun _ _ _ => rfl) fun _ => rfl

theorem quiet_runLoop (n : Nat) : Quiet (runLoop n) := by
  induction n with
  | zero => exact quiet_pure ()
  | succ n ih =>
    exact (quiet_readU16 _).bind fun _ => (quiet_withRunPixel _).bind fun _ => ih

theorem quiet_chunkHead : Quiet chunkHead :=
  (quiet_readU16 _).bind fun ob => (quiet_readU16 _).bind fun rs =>
    (quiet_change (fun _ _ _ => rfl) fun s => busy_withChunkHead s ob rs).bind fun _ => quiet_pure _

theorem quiet_chunkStep : Quiet chunkStep :=
  quiet_chunkHead.bind fun n => (quiet_runLoop n).bind fun _ => quiet_change (fun _ _ _ => rfl) fun _ => rfl

theorem quiet_chunkLoop (n : Nat) : Quiet (chunkLoop n) := by
  induction n with
  | zero => exact quiet_pure ()
  | succ n ih => exact quiet_chunkStep.bind fun _ => ih

theorem quiet_sliced : Quiet (change State.sliced) :=
  quiet_change (fun s d events => by rw [sliced_eq, sliced_eq]; rfl) fun s => by rw [sliced_eq]; rfl

/-- The chunks that are still to come, and the slice (R193, R198). -/
def chunksFrom (n : Nat) : Cmd Unit := do
  chunkLoop n
  change State.sliced

theorem quiet_chunksFrom (n : Nat) : Quiet (chunksFrom n) := (quiet_chunkLoop n).bind fun _ => quiet_sliced

theorem quiet_packedBody : Quiet packedBody :=
  quiet_preambleStep.bind fun _ => quiet_get_bind (fun _ _ _ => rfl) fun s => quiet_chunksFrom s.nchunk.toNat

theorem quiet_pkDec : Quiet pkDec := quiet_packedStart.bind fun _ => quiet_payload quiet_packedBody

end Sys2Proof.Machine
end

section
/-! The turn at a record is the pseudocode that fetches the record's fields one by one: where the whole record can be
fetched its meaning does the same, and where it cannot, the pseudocode raises (R64, R91 to R95). -/

namespace Sys2Proof.Machine

/-! ### Reading at a known `SP` -/

@[simp] theorem withSp_withSp (s : State) (a b : Nat) : (s.withSp a).withSp b = s.withSp b := rfl

theorem advance_withSp (n a : Nat) (s : State) : advance n (s.withSp a) = .ok () (s.withSp (a + n)) := by
  rw [advance_apply, withSp_withSp, State.withSp_sp]
  simp only [State.withSp, ofNat_toNat_add]

theorem sp_withSp_of_readable {s : State} {a n : Nat} (h : s.readable a n = true) : (s.withSp a).sp.toNat = a := by
  rw [readable_iff] at h
  have := s.clen.isLt
  exact toNat_withSp (by omega)

theorem readU8_withSp {s : State} {a : Nat} (stage : Stage) (h : s.readable a 1 = true) :
    readU8 stage (s.withSp a) = .ok (s.byteAt a) (s.withSp (a + 1)) := by
  have hsp := sp_withSp_of_readable h
  rw [readU8_ok stage (by rw [hsp]; exact h), hsp]
  rfl

theorem readU16_withSp {s : State} {a : Nat} (stage : Stage) (h : s.readable a 2 = true) :
    readU16 stage (s.withSp a) = .ok (s.word16At a) (s.withSp (a + 2)) := by
  have hsp := sp_withSp_of_readable h
  rw [readU16_ok stage (by rw [hsp]; exact h), hsp]
  rfl

theorem readU32_withSp {s : State} {a : Nat} (stage : Stage) (h : s.readable a 4 = true) :
    readU32 stage (s.withSp a) = .ok (s.word32At a) (s.withSp (a + 4)) := by
  have hsp := sp_withSp_of_readable h
  rw [readU32_ok stage (by rw [hsp]; exact h), hsp]
  rfl

/-! ### How many bytes a piece needs -/

/-- The piece goes on only where `n` bytes can be fetched at `SP`. -/
def Needs {α : Type} (n : Nat) (c : Cmd α) : Prop :=
  ∀ s a t, c s = .ok a t → s.readable s.sp.toNat n = true

/-- The piece fetches a field of `n` bytes and does nothing else. -/
def Reads {α : Type} (n : Nat) (c : Cmd α) : Prop :=
  ∀ s a t, c s = .ok a t → s.readable s.sp.toNat n = true ∧ t = s.withSp (s.sp.toNat + n)

theorem reads_of_fetch {α : Type} (stage : Stage) (n : Nat) (value : State → Nat → α) :
    Reads n (do
      let a ← fetch stage n
      let s ← get
      pure (value s a)) := by
  intro s v t h
  obtain ⟨a, u, hfetch, hvalue⟩ := cmd_bind_ok h
  cases hvalue
  cases hr : s.readable s.sp.toNat n with
  | true => rw [fetch_ok stage hr] at hfetch; cases hfetch; exact ⟨rfl, rfl⟩
  | false => rw [fetch_error stage hr] at hfetch; cases hfetch

theorem reads_readU8 (stage : Stage) : Reads 1 (readU8 stage) := reads_of_fetch stage 1 State.byteAt

theorem reads_readU16 (stage : Stage) : Reads 2 (readU16 stage) := reads_of_fetch stage 2 State.word16At

theorem reads_readU32 (stage : Stage) : Reads 4 (readU32 stage) := reads_of_fetch stage 4 State.word32At

theorem Reads.needs_bind {α β : Type} {n : Nat} {c : Cmd α} (hc : Reads n c) (f : α → Cmd β) :
    Needs n (c >>= f) := by
  intro s b u h
  obtain ⟨a, t, hct, _⟩ := cmd_bind_ok h
  exact (hc s a t hct).1

theorem Reads.bind {α β : Type} {n m : Nat} {c : Cmd α} {f : α → Cmd β} (hc : Reads n c)
    (hf : ∀ a, Needs m (f a)) :
    Needs (n + m) (c >>= f) := by
  intro s b u h
  obtain ⟨a, t, hct, hfu⟩ := cmd_bind_ok h
  obtain ⟨hr, rfl⟩ := hc s a t hct
  have hrest := hf a _ b u hfu
  rw [toNat_sp_fetch hr, readable_withSp] at hrest
  exact (readable_add _ _ _ _).2 ⟨hr, hrest⟩

theorem needs_checkTag_bind {β : Type} {m : Nat} {f : Unit → Cmd β} (tag : U32) (hf : Needs m (f ())) :
    Needs m (checkTag tag >>= f) := by
  intro s b u h
  obtain ⟨_, t, hct, hfu⟩ := cmd_bind_ok h
  have ht : t = s := by
    rcases check_cases (fun s => tag == s.params.magicTag) .badTag (fun _ => 0) s with ⟨_, hc⟩ | ⟨_, hc⟩ <;>
      rw [checkTag, hc] at hct <;> cases hct
    rfl
  rw [ht] at hfu
  exact hf s b u hfu

theorem needs_withRunPixel_bind {β : Type} {m : Nat} {f : Unit → Cmd β} (v : U16) (hf : Needs m (f ())) :
    Needs m ((change fun s => s.withRunPixel v) >>= f) := by
  intro s b u h
  obtain ⟨_, t, hct, hfu⟩ := cmd_bind_ok h
  cases hct
  have hr := hf (s.withRunPixel v) b u hfu
  exact hr

/-! ### The header records -/

theorem needs_headerBody : Needs 12 headerBody :=
  (reads_readU32 _).bind (m := 8) fun _ => needs_checkTag_bind _ <| (reads_readU16 _).bind (m := 6) fun _ =>
    (reads_readU16 _).bind (m := 4) fun _ => (reads_readU16 _).bind fun _ => (reads_readU16 _).needs_bind _

theorem headerBody_readable {s : State} (h : s.readable s.sp.toNat 12 = true) :
    runPart headerBody s = execContainerHeader (s.word32At s.sp.toNat) (s.word16At (s.sp.toNat + 4))
      (s.word16At (s.sp.toNat + 6)) (s.word16At (s.sp.toNat + 8)) (s.word16At (s.sp.toNat + 10)) s := by
  have part : ∀ k n, k + n ≤ 12 → s.readable (s.sp.toNat + k) n = true :=
    fun k n hk => readable_part h (by omega) (by omega)
  have hm := readU32_ok .header (part 0 4 (by omega))
  have htag : advance 4 s = .ok () (s.withSp (s.sp.toNat + 4)) := rfl
  have hn := readU16_withSp .header (part 4 2 (by omega))
  have hv := readU16_withSp .header (part 6 2 (by omega))
  have hl := readU16_withSp .header (part 8 2 (by omega))
  have hx := readU16_withSp .header (part 10 2 (by omega))
  rw [execContainerHeader, runPart, runPart]
  simp only [headerBody, cmd_bind, hm, htag, checkTag]
  rcases check_cases (fun t => s.word32At s.sp.toNat == t.params.magicTag) .badTag (fun _ => 0)
    (s.withSp (s.sp.toNat + 4)) with ⟨_, hc⟩ | ⟨_, hc⟩
  · simp only [hc, hn, hv, hl, hx, advance_withSp]
  · simp only [hc]

theorem needs_imageHeaderBody : Needs 12 imageHeaderBody :=
  (reads_readU8 _).bind fun _ => (reads_readU8 _).bind fun _ => (reads_readU16 _).bind fun _ =>
    (reads_readU32 _).bind fun _ => (reads_readU32 _).needs_bind _

theorem imageHeaderBody_readable {s : State} (h : s.readable s.sp.toNat 12 = true) :
    runPart imageHeaderBody s = execImageHeader (s.byteAt s.sp.toNat) (s.byteAt (s.sp.toNat + 1))
      (s.word16At (s.sp.toNat + 2)) (s.word32At (s.sp.toNat + 4)) (s.word32At (s.sp.toNat + 8)) s := by
  have part : ∀ k n, k + n ≤ 12 → s.readable (s.sp.toNat + k) n = true :=
    fun k n hk => readable_part h (by omega) (by omega)
  have hw := readU8_ok .imageHeader (part 0 1 (by omega))
  have hh := readU8_withSp .imageHeader (part 1 1 (by omega))
  have hx := readU16_withSp .imageHeader (part 2 2 (by omega))
  have hu := readU32_withSp .imageHeader (part 4 4 (by omega))
  have hp := readU32_withSp .imageHeader (part 8 4 (by omega))
  rw [execImageHeader, runPart, runPart]
  simp only [imageHeaderBody, cmd_bind, hw, hh, hx, hu, hp, advance_apply]

/-! ### The words of a payload -/

theorem needs_rawPixelRead : Needs 2 rawPixelRead :=
  fun s a t h => ((reads_readU16 .rawPayload).needs_bind fun v => change fun t => t.withPm s.rawIndex (to24 v)) s a t h

theorem needs_preambleStep : Needs 2 preambleStep := (reads_readU16 _).needs_bind _

theorem needs_runLoop (n : Nat) : Needs (2 * (n + 1)) (runLoop (n + 1)) := by
  induction n with
  | zero => exact (reads_readU16 _).needs_bind _
  | succ n ih =>
    rw [show 2 * (n + 1 + 1) = 2 + 2 * (n + 1) by omega]
    exact (reads_readU16 _).bind fun v => needs_withRunPixel_bind v ih

theorem openedPayload_eq_ok {c : Cmd Unit} {s t : State} (h : openedPayload c s = .ok () t) : c s = .ok () t := by
  rcases payloadFrom_cases (s.shownStatus.getLsbD 10) c s with ⟨u, hc, hok⟩ | ⟨e, u, _, herr⟩
  · rw [openedPayload, hok] at h
    rw [hc, ← h]
  · rw [openedPayload, herr] at h
    cases h

theorem Needs.openedPayload {n : Nat} {c : Cmd Unit} (h : Needs n c) : Needs n (openedPayload c) :=
  fun s _ t hc => h s () t (openedPayload_eq_ok hc)

theorem rawPixelRead_readable {s : State} (h : s.readable s.sp.toNat 2 = true) :
    rawPixelRead s = .ok () ((s.withSp (s.sp.toNat + 2)).withPm s.rawIndex (to24 (s.word16At s.sp.toNat))) := by
  simp only [rawPixelRead, cmd_bind, cmd_get, readU16_ok .rawPayload h, change_apply]

theorem preambleStep_readable {s : State} (h : s.readable s.sp.toNat 2 = true) :
    preambleStep s = .ok () ((s.withSp (s.sp.toNat + 2)).withChunkCount (s.word16At s.sp.toNat)) := by
  simp only [preambleStep, cmd_bind, readU16_ok .packedPayload h, change_apply]

theorem runLoop_one_readable {s : State} (h : s.readable s.sp.toNat 2 = true) :
    runLoop 1 s = .ok () ((s.withSp (s.sp.toNat + 2)).withRunPixel (s.word16At s.sp.toNat)) := by
  simp only [runLoop, cmd_bind, readU16_ok .packedPayload h, change_apply, cmd_pure]

/-! ### The chunk -/

/-- The state after the two header words of the chunk at `SP` (R193 (a) to (d)). -/
def State.headRead (s : State) : State :=
  (s.withSp (s.sp.toNat + 4)).withChunkHead (s.word16At s.sp.toNat) (s.word16At (s.sp.toNat + 2))

theorem chunkHead_readable {s : State} (h : s.readable s.sp.toNat 4 = true) :
    chunkHead s = .ok s.chunkWords s.headRead := by
  have hob := readU16_ok .packedPayload (readable_part h (m := 2) (Nat.le_refl _) (by omega))
  have hrs := readU16_withSp .packedPayload (readable_part h (b := s.sp.toNat + 2) (m := 2) (by omega) (by omega))
  simp only [chunkHead, cmd_bind, hob, hrs, change_apply, cmd_pure, State.headRead, State.chunkWords]

theorem needs_chunkHead : Needs 4 chunkHead :=
  (reads_readU16 _).bind fun _ => (reads_readU16 _).needs_bind _

theorem chunkStep_of_head {s : State} (h : s.readable s.sp.toNat 4 = true) :
    chunkStep s = (runLoop s.chunkWords >>= fun _ => change State.withChunkDone) s.headRead := by
  rw [chunkStep, cmd_bind, chunkHead_readable h]

theorem sp_headRead {s : State} (h : s.readable s.sp.toNat 4 = true) : s.headRead.sp.toNat = s.sp.toNat + 4 :=
  toNat_sp_fetch h

/-- A chunk step that goes on has fetched the whole record. -/
theorem readable_of_chunkStep {s t : State} (h : chunkStep s = .ok () t) :
    s.readable s.sp.toNat (4 + 2 * s.chunkWords) = true := by
  obtain ⟨n, u, hhead, _⟩ := cmd_bind_ok h
  have h4 : s.readable s.sp.toNat 4 = true := needs_chunkHead s n u hhead
  rw [chunkStep_of_head h4] at h
  obtain ⟨_, v, hrun, _⟩ := cmd_bind_ok h
  have hwords := needs_runLoop _ _ _ _ hrun
  rw [sp_headRead h4] at hwords
  exact (readable_add _ _ _ _).2 ⟨h4, hwords⟩

/-- On a chunk that can be fetched whole, the run loop does what the fetched words do. -/
theorem runLoop_readable {n : Nat} {s : State} (h : s.readable s.sp.toNat (2 * n) = true) :
    runLoop n s = runWords (s.wordsAt s.sp.toNat n) s := by
  have hbound : s.sp.toNat + 2 * n < 2 ^ 34 := by
    have := ((readable_iff _ _ _).1 h).1
    have := s.clen.isLt
    omega
  rcases runLoop_cases n s hbound with ⟨_, hrun⟩ | ⟨k, hk, _, hfail, _⟩
  · exact hrun
  · rw [readable_part h (by omega) (by omega)] at hfail
    cases hfail

/-- Fetched words are never refused, and they leave the chunk count alone (R196, R197). -/
theorem runWords_ok (px : List U16) (s : State) : ∃ t, runWords px s = .ok () t ∧ t.nchunk = s.nchunk := by
  induction px generalizing s with
  | nil => exact ⟨s, rfl, rfl⟩
  | cons v px ih =>
    obtain ⟨t, ht, hn⟩ := ih ((s.withSp (s.sp.toNat + 2)).withRunPixel v)
    refine ⟨t, ?_, hn⟩
    simp only [runWords, cmd_bind, advance_apply, change_apply, ht]

/-- On a chunk that can be fetched whole, the chunk step is the chunk's meaning and counts `NCHUNK` down (R193). -/
theorem chunkStep_readable {s : State} (h : s.readable s.sp.toNat (4 + 2 * s.chunkWords) = true) :
    ∃ t, chunkStep s = .ok () t ∧ t.nchunk = s.nchunk - 1 ∧
      execChunk (s.word16At s.sp.toNat) (s.word16At (s.sp.toNat + 2)) (s.wordsAt (s.sp.toNat + 4) s.chunkWords) s =
        .next t := by
  obtain ⟨h4, hwords⟩ := (readable_add _ _ _ _).1 h
  obtain ⟨u, hu, hn⟩ := runWords_ok (s.wordsAt (s.sp.toNat + 4) s.chunkWords) s.headRead
  have hrun : runLoop s.chunkWords s.headRead = .ok () u := by
    rw [runLoop_readable (by rw [sp_headRead h4]; exact hwords), sp_headRead h4,
      wordsAt_congr (s := s) (t := s.headRead) rfl, hu]
  refine ⟨u.withChunkDone, ?_, congrArg (· - 1) hn, runPart_ok ?_⟩
  · rw [chunkStep_of_head h4, cmd_bind, hrun]
    rfl
  · simp only [cmd_bind, advance_apply, change_apply]
    rw [← State.headRead, hu]

/-! ### The turn at a place -/

/-- The pseudocode from a record on, up to the end of that record. -/
def Place.rest : Place → Cmd Unit
  | .header => headerBody
  | .imageHeader _ => imageHeaderBody
  | .rawPixels => openedPayload rawPixelRead
  | .preamble => openedPayload preambleStep
  | .chunks => openedPayload chunkStep
  | .runPixels => openedPayload (runLoop 1)

theorem placeTurn_eq_recordTurn (place : Place) (s : State) :
    placeTurn place s = recordTurn place.record place.rest s := by
  cases place <;> rfl

theorem thenSequence_takeError (s : State) (e : Raise) :
    thenSequence (.next (s.takeError e)) = .next (s.takeError e) := by
  simp [thenSequence]

/-- Where a fetched record does what the pseudocode does, and the pseudocode raises where none is fetched, the turn is
the pseudocode and what follows it. -/
theorem recordTurn_eq_runPart {format : Format} {rest : Cmd Unit} {s : State}
    (hfetched : ∀ i, s.fetchRecord format = some i → exec i s = runPart rest s)
    (hneeds : ∀ t, rest s = .ok () t → (s.fetchRecord format).isSome = true) :
    recordTurn format rest s = thenSequence (runPart rest s) := by
  cases hf : s.fetchRecord format with
  | some i => rw [recordTurn_some hf, hfetched i hf]
  | none =>
    rw [recordTurn_none hf]
    cases hrest : rest s with
    | ok a t => simpa [hf] using hneeds t hrest
    | error e t => rw [runCommand_error hrest, runPart_error hrest, thenSequence_takeError]

theorem headerTurn_eq (s : State) :
    recordTurn .containerHeader headerBody s = thenSequence (runPart headerBody s) := by
  refine recordTurn_eq_runPart (fun i hi => ?_) fun t ht => ?_
  · rw [fetchRecord_containerHeader] at hi
    split at hi <;> cases hi
    exact (headerBody_readable ‹_›).symm
  · rw [fetchRecord_containerHeader, if_pos (needs_headerBody s () t ht)]
    rfl

theorem imageHeaderTurn_eq (s : State) :
    recordTurn .imageHeader imageHeaderBody s = thenSequence (runPart imageHeaderBody s) := by
  refine recordTurn_eq_runPart (fun i hi => ?_) fun t ht => ?_
  · rw [fetchRecord_imageHeader] at hi
    split at hi <;> cases hi
    exact (imageHeaderBody_readable ‹_›).symm
  · rw [fetchRecord_imageHeader, if_pos (needs_imageHeaderBody s () t ht)]
    rfl

theorem preambleTurn_eq (s : State) :
    recordTurn .packedPreamble (openedPayload preambleStep) s =
      thenSequence (runPart (openedPayload preambleStep) s) := by
  refine recordTurn_eq_runPart (fun i hi => ?_) fun t ht => ?_
  · rw [fetchRecord_packedPreamble] at hi
    split at hi <;> cases hi
    rw [runPart_ok (openedPayload_ok (preambleStep_readable ‹_›))]
    rfl
  · rw [fetchRecord_packedPreamble, if_pos (needs_preambleStep.openedPayload s () t ht)]
    rfl

theorem execPixel_rawPixels {s : State} (v : U16) (h : s.doing.place = some .rawPixels) :
    execPixel (unpack565 v).1 (unpack565 v).2.1 (unpack565 v).2.2 s =
      .next ((s.withSp (s.sp.toNat + 2)).withPm s.rawIndex (to24 v)) := by
  rw [execPixel, if_pos h, pack565_unpack565]
  rfl

theorem execPixel_run {s : State} (v : U16) (h : s.doing.place ≠ some .rawPixels) :
    execPixel (unpack565 v).1 (unpack565 v).2.1 (unpack565 v).2.2 s =
      .next ((s.withSp (s.sp.toNat + 2)).withRunPixel v) := by
  rw [execPixel, if_neg h, pack565_unpack565]
  rfl

/-- A pixel word at `SP`, where the unit's step on a fetched word does what the pseudocode does. -/
theorem pixelTurn_eq {s : State} {c : Cmd Unit} {t : State} (hneeds : Needs 2 c)
    (hok : s.readable s.sp.toNat 2 = true → c s = .ok () t)
    (hexec : execPixel (unpack565 (s.word16At s.sp.toNat)).1 (unpack565 (s.word16At s.sp.toNat)).2.1
      (unpack565 (s.word16At s.sp.toNat)).2.2 s = .next t) :
    recordTurn .pixel (openedPayload c) s = thenSequence (runPart (openedPayload c) s) := by
  refine recordTurn_eq_runPart (fun i hi => ?_) fun u hu => ?_
  · rw [fetchRecord_pixel] at hi
    split at hi <;> cases hi
    rw [runPart_ok (openedPayload_ok (hok ‹_›))]
    exact hexec
  · rw [fetchRecord_pixel, if_pos (hneeds.openedPayload s () u hu)]
    rfl

theorem chunkTurn_eq (s : State) :
    recordTurn .chunk (openedPayload chunkStep) s = thenSequence (runPart (openedPayload chunkStep) s) := by
  refine recordTurn_eq_runPart (fun i hi => ?_) fun t ht => ?_
  · rw [fetchRecord_chunk] at hi
    split at hi <;> cases hi
    obtain ⟨t, hstep, _, hexec⟩ := chunkStep_readable ‹_›
    rw [runPart_ok (openedPayload_ok hstep)]
    exact hexec
  · rw [fetchRecord_chunk, if_pos (readable_of_chunkStep (openedPayload_eq_ok ht))]
    rfl

/-- The turn of an opened command is the pseudocode of the record it stands at, and what follows it. -/
theorem placeTurn_eq {place : Place} {s : State} (h : s.doing.place = some place) :
    placeTurn place s = thenSequence (runPart place.rest s) := by
  rw [placeTurn_eq_recordTurn]
  cases place with
  | header => exact headerTurn_eq s
  | imageHeader _ => exact imageHeaderTurn_eq s
  | rawPixels => exact pixelTurn_eq needs_rawPixelRead rawPixelRead_readable (execPixel_rawPixels _ h)
  | preamble => exact preambleTurn_eq s
  | chunks => exact chunkTurn_eq s
  | runPixels => exact pixelTurn_eq (needs_runLoop 0) runLoop_one_readable (execPixel_run _ (by rw [h]; decide))

/-- The record's pseudocode, where it goes on, leaves the sequencing alone. -/
theorem rest_keeps {place : Place} {s t : State} (h : place.rest s = .ok () t) :
    t.busy = s.busy ∧ t.doing = s.doing ∧ t.agenda = s.agenda := by
  cases place with
  | header => exact quiet_headerBody.keeps h
  | imageHeader _ => exact quiet_imageHeaderBody.keeps h
  | rawPixels => exact quiet_rawPixelRead.keeps (openedPayload_eq_ok h)
  | preamble => exact quiet_preambleStep.keeps (openedPayload_eq_ok h)
  | chunks => exact quiet_chunkStep.keeps (openedPayload_eq_ok h)
  | runPixels => exact (quiet_runLoop 1).keeps (openedPayload_eq_ok h)

end Sys2Proof.Machine
end

section
/-! What an opened command does next, and that the host reads the same `STATUS` as long as the unit stays busy (R6; log
26). -/

namespace Sys2Proof.Machine

/-! ### Opening a payload -/

/-- Everything the opening of the raw path can do, beside the dimension check of `RAW_DEC` (R147, R170). -/
theorem rawOpen_cases (s : State) :
    s.dimsOk = true ∧ checkDims s = .ok () s ∧
      rawOpen s = .ok () ((s.withSp s.unpackedOff.toNat).atPlace .rawPixels) ∨
    ∃ e, checkDims s = .error e s ∧ rawOpen s = .error e s := by
  rcases check_cases (fun s => s.dimsOk) .badDimension (fun s => ihdrAddr s.idx) s with ⟨hok, hc⟩ | ⟨_, hc⟩ <;>
    rw [← checkDims] at hc
  · exact .inl ⟨hok, hc, by simp only [rawOpen, cmd_bind, hc, change_apply]⟩
  · exact .inr ⟨_, hc, by simp only [rawOpen, cmd_bind, hc]⟩

/-- Everything `PK_DEC` can do up to its first fetch (R190 to R192). -/
theorem packedStart_cases (s : State) :
    packedStart s = .ok () s.withPackedStart ∨ ∃ e, packedStart s = .error e s := by
  simp only [packedStart, packedChecks, cmd_bind, checkDims]
  rcases check_cases (fun s => s.dimsOk) .badDimension (fun s => ihdrAddr s.idx) s with ⟨_, hd⟩ | ⟨_, hd⟩ <;>
    rw [hd]
  · rcases check_cases (fun s => s.scanLineLen != 0) .zeroScanLine (fun _ => 8) s with ⟨_, hz⟩ | ⟨_, hz⟩ <;>
      simp only [hz]
    · rcases check_cases (fun s => decide (s.width.toNat ≤ s.scanLineLen.toNat)) .widthGtLine (fun _ => 8) s with
        ⟨_, hw⟩ | ⟨_, hw⟩ <;> simp only [hw]
      · exact .inl rfl
      · exact .inr ⟨_, rfl⟩
    · exact .inr ⟨_, rfl⟩
  · exact .inr ⟨_, rfl⟩

theorem packedOpen_cases (s : State) :
    packedStart s = .ok () s.withPackedStart ∧ packedOpen s = .ok () (s.withPackedStart.atPlace .preamble) ∨
    ∃ e, packedStart s = .error e s ∧ packedOpen s = .error e s := by
  rcases packedStart_cases s with h | ⟨e, h⟩
  · exact .inl ⟨h, by simp only [packedOpen, cmd_bind, h, change_apply]⟩
  · exact .inr ⟨e, h, by simp only [packedOpen, cmd_bind, h]⟩

/-! ### What the host reads as `STATUS` does not change while the unit stays busy (R6; log 26) -/

/-- Where this outcome leaves the unit busy, the host reads the same `STATUS` as before. -/
def KeepsShown (s : State) (o : Host.Outcome State Fault Refusal) : Prop :=
  ∀ t, o = .next t → t.busy = true → t.shownStatus = s.shownStatus

theorem keepsShown_next {s t : State} (h : t.busy = true → t.shownStatus = s.shownStatus) :
    KeepsShown s (.next t) := by
  rintro _ ⟨⟩
  exact h

theorem keepsShown_of_idle {s t : State} (h : t.busy = false) : KeepsShown s (.next t) :=
  keepsShown_next fun hb => by simp [h] at hb

theorem keepsShown_atPlace {s t : State} (place : Place) (h : t.shownStatus = s.shownStatus) :
    KeepsShown s (.next (t.atPlace place)) :=
  keepsShown_next fun hb => (shownStatus_atPlace (s := t) place hb).trans h

theorem keepsShown_runCommand (c : Cmd Unit) (s u : State) : KeepsShown s (runCommand c u) := by
  rcases runCommand_cases c u with ⟨t, _, h⟩ | ⟨e, t, _, h⟩ <;> rw [h]
  · exact keepsShown_of_idle t.busy_complete
  · exact keepsShown_of_idle (t.busy_takeError e)

theorem keepsShown_runPart {c : Cmd Unit} {s u : State} (h : ∀ t, c u = .ok () t → KeepsShown s (.next t)) :
    KeepsShown s (runPart c u) := by
  cases hc : c u with
  | ok a t => rw [runPart_ok hc]; exact h t hc
  | error e t => rw [runPart_error hc]; exact keepsShown_of_idle (t.busy_takeError e)

theorem keepsShown_exec_command {i : Instr} (hf : i.format = .command) (s : State) : KeepsShown s (exec i s) := by
  cases i with
  | containerHeader => cases hf
  | imageHeader => cases hf
  | packedPreamble => cases hf
  | chunk => cases hf
  | pixel => cases hf
  | to16 => exact keepsShown_runCommand (change State.withRgb16) s s
  | to24 => exact keepsShown_runCommand (change State.withRgb24) s s
  | clr => exact keepsShown_runCommand (change State.clearError) s s
  | _ => exact keepsShown_runCommand _ s s

theorem keepsShown_rawOpen {s t : State} (h : t.shownStatus = s.shownStatus) : KeepsShown s (runPart rawOpen t) := by
  refine keepsShown_runPart fun u hu => ?_
  rcases rawOpen_cases t with ⟨_, _, ho⟩ | ⟨e, _, ho⟩ <;> rw [ho] at hu <;> cases hu
  exact keepsShown_atPlace _ h

theorem keepsShown_packedOpen {s t : State} (h : t.shownStatus = s.shownStatus) :
    KeepsShown s (runPart packedOpen t) := by
  refine keepsShown_runPart fun u hu => ?_
  rcases packedOpen_cases t with ⟨_, ho⟩ | ⟨e, _, ho⟩ <;> rw [ho] at hu <;> cases hu
  exact keepsShown_atPlace _ h

theorem keepsShown_afterChunk {s t : State} (h : t.shownStatus = s.shownStatus) : KeepsShown s (afterChunk t) := by
  unfold afterChunk
  split
  · exact keepsShown_of_idle (State.busy_complete _)
  · exact keepsShown_atPlace _ h

theorem keepsShown_afterRecordAt {s t : State} (place : Place) (h : t.shownStatus = s.shownStatus) :
    KeepsShown s (afterRecordAt place t) := by
  cases place with
  | header => exact keepsShown_of_idle t.busy_complete
  | imageHeader decoding =>
    cases decoding with
    | false => exact keepsShown_of_idle t.busy_complete
    | true =>
      rw [afterRecordAt]
      split
      · exact keepsShown_rawOpen h
      · exact keepsShown_packedOpen h
  | rawPixels =>
    rw [afterRecordAt]
    split
    · exact keepsShown_of_idle t.busy_complete
    · exact keepsShown_next fun _ => h
  | preamble => exact keepsShown_atPlace _ h
  | chunks => exact keepsShown_afterChunk h
  | runPixels =>
    rw [afterRecordAt]
    split
    · exact keepsShown_afterChunk (t := t.withChunkDone) h
    · exact keepsShown_next fun _ => h

/-- An opened command that keeps its place shows the same `STATUS`. -/
theorem shownStatus_of_keeps {s t : State} {place : Place} {shown : BitVec 16} (hb : s.busy = true)
    (hd : s.doing = .opened place shown) (htb : t.busy = s.busy) (htd : t.doing = s.doing) :
    t.shownStatus = s.shownStatus :=
  (shownStatus_opened (htb.trans hb) (htd.trans hd)).trans (shownStatus_opened hb hd).symm

theorem afterRecord_opened {s : State} {place : Place} {shown : BitVec 16} (hd : s.doing = .opened place shown) :
    afterRecord s = afterRecordAt place s := by
  simp only [afterRecord, hd, Activity.place]

/-- Everything the turn of an opened command does: the record's pseudocode raises, or it goes on to what follows. -/
theorem placeTurn_cases {s : State} {place : Place} {shown : BitVec 16} (hb : s.busy = true)
    (hd : s.doing = .opened place shown) :
    (∃ t, place.rest s = .ok () t ∧ placeTurn place s = afterRecordAt place t) ∨
    ∃ e t, place.rest s = .error e t ∧ placeTurn place s = .next (t.takeError e) := by
  rw [placeTurn_eq (place := place) (by rw [hd]; rfl)]
  cases hrest : place.rest s with
  | ok a t =>
    obtain ⟨htb, htd, _⟩ := rest_keeps hrest
    refine .inl ⟨t, rfl, ?_⟩
    rw [runPart_ok hrest, thenSequence, htb, hb, if_pos rfl, afterRecord_opened (htd.trans hd)]
  | error e t => exact .inr ⟨e, t, rfl, by rw [runPart_error hrest, thenSequence_takeError]⟩

theorem keepsShown_placeTurn {s : State} {place : Place} {shown : BitVec 16} (hb : s.busy = true)
    (hd : s.doing = .opened place shown) : KeepsShown s (placeTurn place s) := by
  rcases placeTurn_cases hb hd with ⟨t, hrest, h⟩ | ⟨e, t, _, h⟩ <;> rw [h]
  · obtain ⟨htb, htd, _⟩ := rest_keeps hrest
    exact keepsShown_afterRecordAt place (shownStatus_of_keeps hb hd htb htd)
  · exact keepsShown_of_idle (t.busy_takeError e)

/-- A code that decodes is one of the twelve commands (R96). -/
theorem format_of_decode_command {code : Byte} {i : Instr} {rest : List Byte}
    (h : decode .command [code] = .ok (i, rest)) : i.format = .command := by
  have hall : ∀ row ∈ commandCodes, row.2.format = .command := by decide
  cases hc : commandCodes.find? (fun row => row.1 == code) with
  | none => simp [decode, decodeCommand, hc] at h
  | some row =>
    simp only [decode, decodeCommand, hc, Option.map_some, Except.ok.injEq, Prod.mk.injEq] at h
    rw [← h.1]
    exact hall row (List.mem_of_find?_eq_some hc)

theorem unitTurn_command {s : State} {code : Byte} {i : Instr} {rest : List Byte} (hb : s.busy = true)
    (hd : s.doing = .command code) (hc : decode .command [code] = .ok (i, rest)) : unitTurn s = exec i s := by
  simp only [unitTurn, hb, hd, hc, if_true]

theorem keepsShown_unitTurn {s : State} (hb : s.busy = true) : KeepsShown s (unitTurn s) := by
  cases hd : s.doing with
  | idle =>
    have h : unitTurn s = .next s := by simp only [unitTurn, hb, hd, if_true]
    rw [h]
    exact keepsShown_next fun _ => rfl
  | command code =>
    cases hc : decode .command [code] with
    | ok row =>
      rw [unitTurn_command (i := row.1) (rest := row.2) hb hd hc]
      exact keepsShown_exec_command (format_of_decode_command (rest := row.2) hc) s
    | error e =>
      have h : unitTurn s = runCommand undefinedCommand s := by simp only [unitTurn, hb, hd, hc, if_true]
      rw [h]
      exact keepsShown_runCommand _ s s
  | opened place shown =>
    rw [unitTurn_opened hb hd]
    exact keepsShown_placeTurn hb hd

theorem checkIndex_cases (s : State) : checkIndex s = .ok () s ∨ ∃ e, checkIndex s = .error e s := by
  rcases check_cases (fun s => decide (s.idx.toNat < s.imageCount.toNat)) .indexRange (fun _ => 0) s with
    ⟨_, hc⟩ | ⟨_, hc⟩
  · exact .inl hc
  · exact .inr ⟨_, hc⟩

theorem keepsShown_openCommand {i : Instr} {c : Cmd Unit} (h : openCommand i = some c) (s : State) :
    KeepsShown s (runPart c s) := by
  cases i <;> cases h
  case hdrGet => exact keepsShown_atPlace (t := s.withSp 0) _ rfl
  case ihdrGet => exact keepsShown_atPlace (t := s.withSp (ihdrAddr s.idx)) _ rfl
  case rawDec => exact keepsShown_rawOpen rfl
  case pkDec => exact keepsShown_packedOpen rfl
  case imgDec =>
    refine keepsShown_runPart fun t ht => ?_
    obtain ⟨_, u, hu, ht⟩ := cmd_bind_ok ht
    rcases checkIndex_cases s with hc | ⟨e, hc⟩ <;> rw [hc] at hu <;> cases hu
    cases ht
    exact keepsShown_atPlace (t := s.withSp (ihdrAddr s.idx)) _ rfl

theorem keepsShown_chunkOpen {s : State} {place : Place} {shown : BitVec 16} (hb : s.busy = true)
    (hd : s.doing = .opened place shown) : KeepsShown s (runPart chunkOpen s) := by
  refine keepsShown_runPart fun t ht => ?_
  obtain ⟨_, u, hu, ht⟩ := cmd_bind_ok (openedPayload_eq_ok ht)
  obtain ⟨hub, hud, _⟩ := quiet_chunkHead.keeps hu
  cases ht
  exact keepsShown_atPlace _ (shownStatus_of_keeps hb hd hub hud)

theorem unitOpen_command_some {s : State} {code : Byte} {i : Instr} {rest : List Byte} {c : Cmd Unit}
    (hb : s.busy = true) (hd : s.doing = .command code) (hc : decode .command [code] = .ok (i, rest))
    (ho : openCommand i = some c) : unitOpen s = runPart c s := by
  simp only [unitOpen, hb, hd, hc, ho, if_true]

theorem unitOpen_command_none {s : State} {code : Byte} {i : Instr} {rest : List Byte}
    (hb : s.busy = true) (hd : s.doing = .command code) (hc : decode .command [code] = .ok (i, rest))
    (ho : openCommand i = none) : unitOpen s = exec i s := by
  rw [← unitTurn_command hb hd hc]
  simp only [unitOpen, hb, hd, hc, ho, if_true]

theorem keepsShown_unitOpen {s : State} (hb : s.busy = true) : KeepsShown s (unitOpen s) := by
  cases hd : s.doing with
  | idle =>
    have h : unitOpen s = unitTurn s := by simp only [unitOpen, hb, hd, if_true]
    rw [h]
    exact keepsShown_unitTurn hb
  | command code =>
    cases hc : decode .command [code] with
    | ok row =>
      cases ho : openCommand row.1 with
      | some c =>
        rw [unitOpen_command_some (rest := row.2) hb hd hc ho]
        exact keepsShown_openCommand ho s
      | none =>
        rw [unitOpen_command_none (rest := row.2) hb hd hc ho]
        exact keepsShown_exec_command (format_of_decode_command (rest := row.2) hc) s
    | error e =>
      have h : unitOpen s = unitTurn s := by simp only [unitOpen, hb, hd, hc, if_true]
      rw [h]
      exact keepsShown_unitTurn hb
  | opened place shown =>
    have h : unitOpen s = if place = .chunks then runPart chunkOpen s else unitTurn s := by
      simp only [unitOpen, hb, hd, if_true]
    rw [h]
    split
    · exact keepsShown_chunkOpen hb hd
    · exact keepsShown_unitTurn hb

theorem keepsShown_hostCm {s : State} (hb : s.busy = true) (a : Nat) (t : State) : KeepsShown s (hostCm s a t) := by
  rw [hostCm, if_pos hb]
  rintro _ ⟨⟩

theorem keepsShown_hostPm {s : State} (hb : s.busy = true) (i : Nat) (t : State) : KeepsShown s (hostPm s i t) := by
  rw [hostPm, if_pos hb]
  rintro _ ⟨⟩

theorem shownStatus_hostRegRead (s : State) (n : Nat) : (s.hostRegRead n).shownStatus = s.shownStatus := by
  unfold State.hostRegRead
  split_ifs <;> rfl

theorem keepsShown_event {s : State} (hb : s.busy = true) (e : Event) : KeepsShown s (event e s) := by
  cases e with
  | reset => exact keepsShown_of_idle (by simp [State.busy])
  | regRead n => exact keepsShown_next fun _ => shownStatus_hostRegRead s n
  | regWrite n value =>
    rw [event, State.hostRegWrite, if_pos hb]
    exact keepsShown_next fun _ => rfl
  | cmRead a => exact keepsShown_hostCm hb a _
  | cmWrite a b => exact keepsShown_hostCm hb a _
  | pmRead i => exact keepsShown_hostPm hb i _
  | pmWrite i p => exact keepsShown_hostPm hb i _
  | unitTurn => exact keepsShown_unitTurn hb
  | unitOpen => exact keepsShown_unitOpen hb

/-- While the unit stays busy no step changes what the host reads as `STATUS`. -/
theorem shownStatus_step {s t : State} (h : step s = .next t) (hb : s.busy = true) (htb : t.busy = true) :
    t.shownStatus = s.shownStatus := by
  cases ha : s.agenda with
  | nil =>
    rw [step_nil ha] at h
    exact keepsShown_unitTurn hb t h htb
  | cons e rest =>
    have hstep : step s = event e { s with agenda := rest } := by simp only [step, ha]
    rw [hstep] at h
    exact keepsShown_event (s := { s with agenda := rest }) hb e t h htb

end Sys2Proof.Machine
end

section
/-! A decoding command that has been opened ends, record by record, where the command run as one step ends (R6; log
10): one lemma per place, each about the pseudocode from that place on. -/

namespace Sys2Proof.Machine

/-! ### Steps one after another -/

/-- Some number of steps from `s` has this outcome. -/
def Reaches (s : State) (o : Host.Outcome State Fault Refusal) : Prop := ∃ k, Host.Core.run Sys2Proof.core k s = o

theorem reaches_here (s : State) : Reaches s (.next s) := ⟨0, rfl⟩

theorem run_succ_of_step {s t : State} (h : step s = .next t) (k : Nat) :
    Host.Core.run Sys2Proof.core (k + 1) s = Host.Core.run Sys2Proof.core k t := by
  have hcore : Sys2Proof.core.step s = .next t := h
  simp only [Host.Core.run, hcore]

theorem Reaches.of_step {s t : State} {o : Host.Outcome State Fault Refusal} (h : step s = .next t)
    (ht : Reaches t o) : Reaches s o := by
  obtain ⟨k, hk⟩ := ht
  exact ⟨k + 1, (run_succ_of_step h k).trans hk⟩

theorem reaches_of_step {s : State} {o : Host.Outcome State Fault Refusal} (h : step s = o) : Reaches s o := by
  have hcore : Sys2Proof.core.step s = o := h
  refine ⟨1, ?_⟩
  cases o <;> simp only [Host.Core.run, hcore] <;> rfl

/-! ### An opened command at a record, with no event to come -/

/-- The command stands opened at this place, the host reads `shown` as `STATUS`, and no event is to come. -/
structure StandsAt (place : Place) (shown : BitVec 16) (s : State) : Prop where
  busy : s.busy = true
  doing : s.doing = .opened place shown
  agenda : s.agenda = []

theorem standsAt_atPlace {s : State} (place : Place) (hb : s.busy = true) (ha : s.agenda = []) :
    StandsAt place s.shownStatus (s.atPlace place) := ⟨hb, rfl, ha⟩

theorem StandsAt.shownStatus {place : Place} {shown : BitVec 16} {s : State} (h : StandsAt place shown s) :
    s.shownStatus = shown := shownStatus_opened h.busy h.doing

theorem StandsAt.atPlace_self {place : Place} {shown : BitVec 16} {s : State} (h : StandsAt place shown s) :
    s.atPlace place = s := by
  rw [State.atPlace, h.shownStatus, ← h.doing]

/-- A record worked through, and what follows it reaches the end of the pseudocode that is left: then so does the
record's turn. -/
theorem reaches_of_record {place : Place} {shown : BitVec 16} {s : State} {f : Cmd Unit} (hs : StandsAt place shown s)
    (hok : ∀ t, place.rest s = .ok () t → StandsAt place shown t →
      ∃ u, afterRecordAt place t = .next u ∧ Reaches u (runCommand f t)) :
    Reaches s (runCommand (place.rest >>= fun _ => f) s) := by
  have hstep : step s = placeTurn place s := (step_nil hs.agenda).trans (unitTurn_opened hs.busy hs.doing)
  rcases placeTurn_cases hs.busy hs.doing with ⟨t, hrest, hturn⟩ | ⟨e, t, hrest, hturn⟩
  · obtain ⟨htb, htd, hta⟩ := rest_keeps hrest
    obtain ⟨u, hafter, hu⟩ := hok t hrest ⟨htb.trans hs.busy, htd.trans hs.doing, hta.trans hs.agenda⟩
    have hrun : runCommand (place.rest >>= fun _ => f) s = runCommand f t := by
      simp only [runCommand, cmd_bind, hrest]
    rw [hrun]
    exact hu.of_step ((hstep.trans hturn).trans hafter)
  · have hrun : (place.rest >>= fun _ => f) s = .error e t := by rw [cmd_bind, hrest]
    rw [runCommand_error hrun]
    exact (reaches_here _).of_step (hstep.trans hturn)

/-- The last record of a command whose end follows it. -/
theorem reaches_of_last_record {place : Place} {shown : BitVec 16} {s : State} (hs : StandsAt place shown s)
    (hend : ∀ t, afterRecordAt place t = .next t.complete) : Reaches s (runCommand place.rest s) := by
  have h := reaches_of_record (f := pure ()) hs fun t _ _ => ⟨t.complete, hend t, reaches_here _⟩
  rwa [bind_pure] at h

theorem payloadFrom_bind (odd : Bool) (c f : Cmd Unit) (s : State) :
    payloadFrom odd (c >>= fun _ => f) s = (payloadFrom odd c >>= fun _ => payloadFrom odd f) s := by
  rw [cmd_bind, payloadFrom, payloadFrom, cmd_bind]
  cases c s <;> rfl

theorem runCommand_congr {c c' : Cmd Unit} {s : State} (h : c s = c' s) : runCommand c s = runCommand c' s := by
  rw [runCommand, runCommand, h]

/-- The same for a record of a payload, which ends with `PM` loose and `WARN_ODD` as it is shown where it raises. -/
theorem reaches_of_payload_record {place : Place} {shown : BitVec 16} {s : State} {c f : Cmd Unit}
    (hs : StandsAt place shown s) (hrest : place.rest = openedPayload c)
    (hok : ∀ t, c s = .ok () t → StandsAt place shown t →
      ∃ u, afterRecordAt place t = .next u ∧ Reaches u (runCommand (payloadFrom (shown.getLsbD 10) f) t)) :
    Reaches s (runCommand (payloadFrom (shown.getLsbD 10) (c >>= fun _ => f)) s) := by
  have hfrom : payloadFrom (shown.getLsbD 10) c s = place.rest s := by
    rw [hrest, openedPayload, hs.shownStatus]
  have hsplit : payloadFrom (shown.getLsbD 10) (c >>= fun _ => f) s =
      (place.rest >>= fun _ => payloadFrom (shown.getLsbD 10) f) s := by
    rw [payloadFrom_bind, cmd_bind, cmd_bind, hfrom]
  rw [runCommand_congr hsplit]
  exact reaches_of_record hs fun t ht => hok t (openedPayload_eq_ok (hrest ▸ ht))

/-! ### The raw payload (R170) -/

theorem rawPixelRead_eq_ok {s t : State} (h : rawPixelRead s = .ok () t) :
    t.sp.toNat = s.sp.toNat + 2 ∧ t.unpackedOff = s.unpackedOff ∧ t.pixelCount = s.pixelCount := by
  have hr := needs_rawPixelRead s () t h
  rw [rawPixelRead_readable hr] at h
  cases h
  exact ⟨toNat_sp_fetch hr, rfl, rfl⟩

theorem rawDecLoop_succ {s : State} {i : Nat} (n : Nat) (hi : s.rawIndex = i) :
    rawDecLoop (n + 1) i s = (rawPixelRead >>= fun _ => rawDecLoop n (i + 1)) s := by
  simp only [rawDecLoop, rawPixelRead, cmd_bind, cmd_get, hi]
  cases readU16 .rawPayload s <;> rfl

theorem payloadFrom_congr {odd : Bool} {c c' : Cmd Unit} {s : State} (h : c s = c' s) :
    payloadFrom odd c s = payloadFrom odd c' s := by
  rw [payloadFrom, payloadFrom, h]

theorem reaches_rawPixels {shown : BitVec 16} (n i : Nat) (s : State) (hs : StandsAt .rawPixels shown s)
    (hsp : s.sp.toNat = s.unpackedOff.toNat + 2 * i) (hn : i + (n + 1) = s.pixelCount) :
    Reaches s (runCommand (payloadFrom (shown.getLsbD 10) (rawDecLoop (n + 1) i)) s) := by
  induction n generalizing i s with
  | zero =>
    have hi : s.rawIndex = i := by rw [State.rawIndex]; omega
    rw [runCommand_congr (payloadFrom_congr (rawDecLoop_succ 0 hi))]
    refine reaches_of_payload_record hs rfl fun t ht _ => ⟨t.complete, ?_, reaches_here _⟩
    obtain ⟨htsp, htoff, htcount⟩ := rawPixelRead_eq_ok ht
    exact if_pos (by rw [htsp, htoff, htcount]; omega)
  | succ n ih =>
    have hi : s.rawIndex = i := by rw [State.rawIndex]; omega
    rw [runCommand_congr (payloadFrom_congr (rawDecLoop_succ (n + 1) hi))]
    refine reaches_of_payload_record hs rfl fun t ht hst => ⟨t, ?_, ?_⟩
    all_goals obtain ⟨htsp, htoff, htcount⟩ := rawPixelRead_eq_ok ht
    · exact if_neg (by rw [htsp, htoff, htcount]; omega)
    · exact ih (i + 1) t hst (by rw [htsp, htoff]; omega) (by rw [htcount]; omega)

/-! ### The packed payload (R191 to R199) -/

theorem chunksFrom_succ (n : Nat) : chunksFrom (n + 1) = chunkStep >>= fun _ => chunksFrom n := by
  simp only [chunksFrom, chunkLoop, bind_assoc]

theorem chunkStep_nchunk {s t : State} (h : chunkStep s = .ok () t) : t.nchunk = s.nchunk - 1 := by
  obtain ⟨u, hu, hn, _⟩ := chunkStep_readable (readable_of_chunkStep h)
  rw [h] at hu
  cases hu
  exact hn

theorem reaches_chunks {shown : BitVec 16} (n : Nat) (s : State) (hs : StandsAt .chunks shown s)
    (hn : s.nchunk.toNat = n + 1) :
    Reaches s (runCommand (payloadFrom (shown.getLsbD 10) (chunksFrom (n + 1))) s) := by
  induction n generalizing s with
  | zero =>
    rw [chunksFrom_succ]
    refine reaches_of_payload_record hs rfl fun t ht _ => ⟨t.sliced.complete, if_pos ?_, reaches_here _⟩
    rw [chunkStep_nchunk ht]
    bv_omega
  | succ n ih =>
    rw [chunksFrom_succ]
    refine reaches_of_payload_record hs rfl fun t ht hst => ⟨t, ?_, ?_⟩
    all_goals have htn := chunkStep_nchunk ht
    · have hmore : ¬ t.nchunk = 0 := by bv_omega
      rw [afterRecordAt, afterChunk, if_neg hmore, hst.atPlace_self]
    · exact ih t hst (by bv_omega)

theorem preambleStep_eq_ok {s t : State} (h : preambleStep s = .ok () t) : ∃ n, t.nchunk.toNat = n + 1 := by
  rw [preambleStep_readable (needs_preambleStep s () t h)] at h
  cases h
  have hcount : storedCount (s.word16At s.sp.toNat) < 2 ^ 17 := by
    have := (s.word16At s.sp.toNat).isLt
    rw [storedCount]
    omega
  refine ⟨(s.word16At s.sp.toNat).toNat, ?_⟩
  rw [State.withChunkCount_nchunk, BitVec.toNat_ofNat, Nat.mod_eq_of_lt hcount, storedCount]

theorem reaches_preamble {shown : BitVec 16} {s : State} (hs : StandsAt .preamble shown s) :
    Reaches s (runCommand (payloadFrom (shown.getLsbD 10) packedBody) s) := by
  refine reaches_of_payload_record (f := get >>= fun u => chunksFrom u.nchunk.toNat) hs rfl fun t ht hst =>
    ⟨t.atPlace .chunks, rfl, ?_⟩
  obtain ⟨n, hn⟩ := preambleStep_eq_ok ht
  have hloop : runCommand (payloadFrom (shown.getLsbD 10) (get >>= fun u => chunksFrom u.nchunk.toNat)) t =
      runCommand (payloadFrom (shown.getLsbD 10) (chunksFrom (n + 1))) (t.atPlace .chunks) := by
    rw [runCommand_atPlace (quiet_payloadFrom _ (quiet_chunksFrom _))]
    refine runCommand_congr (payloadFrom_congr ?_)
    show chunksFrom t.nchunk.toNat t = _
    rw [hn]
  have hchunks := standsAt_atPlace .chunks hst.busy hst.agenda
  rw [hst.shownStatus] at hchunks
  rw [hloop]
  exact reaches_chunks n _ hchunks hn

/-! ### The commands opened -/

/-- `RAW_DEC` opened, in a state in which the `WARN_ODD` shown is the flag's value. -/
theorem reaches_rawOpen {s : State} (hb : s.busy = true) (ha : s.agenda = [])
    (hodd : s.shownStatus.getLsbD 10 = s.warnOdd) :
    ∃ u, runPart rawOpen s = .next u ∧ Reaches u (runCommand rawDec s) := by
  rcases rawOpen_cases s with ⟨hok, hdims, hopen⟩ | ⟨e, hdims, hopen⟩
  · let t := s.withSp s.unpackedOff.toNat
    have hcommand : runCommand rawDec s =
        runCommand (payloadFrom (s.shownStatus.getLsbD 10) (rawDecLoop s.pixelCount 0)) t := by
      rw [hodd]
      simp only [runCommand, rawDec, cmd_bind, hdims, seek_apply, cmd_get]
      rfl
    obtain ⟨n, hn⟩ : ∃ n, s.pixelCount = n + 1 := ⟨s.pixelCount - 1, by have := pixelCount_bounds hok; omega⟩
    refine ⟨_, runPart_ok hopen, ?_⟩
    rw [hcommand, ← runCommand_atPlace (quiet_payloadFrom _ (quiet_rawDecLoop _ _)) t .rawPixels, hn]
    refine reaches_rawPixels n 0 _ (standsAt_atPlace (s := t) .rawPixels hb ha) ?_ ?_
    · exact toNat_withSp (s := s) (by have := s.unpackedOff.isLt; omega)
    · rw [Nat.zero_add]; exact hn.symm
  · refine ⟨_, runPart_error hopen, ?_⟩
    have hcommand : rawDec s = .error e s := by simp only [rawDec, cmd_bind, hdims]
    rw [runCommand_error hcommand]
    exact reaches_here _

theorem reaches_packedOpen {s : State} (hb : s.busy = true) (ha : s.agenda = [])
    (hodd : s.shownStatus.getLsbD 10 = s.warnOdd) :
    ∃ u, runPart packedOpen s = .next u ∧ Reaches u (runCommand pkDec s) := by
  rcases packedOpen_cases s with ⟨hstart, hopen⟩ | ⟨e, hstart, hopen⟩
  · have hcommand : runCommand pkDec s =
        runCommand (payloadFrom (s.shownStatus.getLsbD 10) packedBody) s.withPackedStart := by
      rw [hodd]
      simp only [runCommand, pkDec, cmd_bind, hstart]
      rfl
    refine ⟨_, runPart_ok hopen, ?_⟩
    rw [hcommand, ← runCommand_atPlace (quiet_payloadFrom _ quiet_packedBody) s.withPackedStart .preamble]
    exact reaches_preamble (standsAt_atPlace (s := s.withPackedStart) .preamble hb ha)
  · refine ⟨_, runPart_error hopen, ?_⟩
    have hcommand : pkDec s = .error e s := by simp only [pkDec, cmd_bind, hstart]
    rw [runCommand_error hcommand]
    exact reaches_here _

theorem reaches_hdrGet {s : State} (hb : s.busy = true) (ha : s.agenda = []) :
    Reaches ((s.withSp 0).atPlace .header) (exec .hdrGet s) := by
  have hcommand : exec .hdrGet s = runCommand headerBody (s.withSp 0) := rfl
  rw [hcommand, ← runCommand_atPlace quiet_headerBody (s.withSp 0) .header]
  exact reaches_of_last_record (standsAt_atPlace (s := s.withSp 0) .header hb ha) fun _ => rfl

theorem reaches_ihdrGet {s : State} (hb : s.busy = true) (ha : s.agenda = []) :
    Reaches ((s.withSp (ihdrAddr s.idx)).atPlace (.imageHeader false)) (exec .ihdrGet s) := by
  let t := s.withSp (ihdrAddr s.idx)
  have hcommand : exec .ihdrGet s = runCommand imageHeaderBody t := rfl
  rw [hcommand, ← runCommand_atPlace quiet_imageHeaderBody t (.imageHeader false)]
  exact reaches_of_last_record (standsAt_atPlace (s := t) (.imageHeader false) hb ha) fun _ => rfl

/-- The dispatch of `IMG_DEC` on the header it has parsed (R235). -/
def payloadByOffset : Cmd Unit := do
  if (← get).unpackedOff ≠ 0 then rawDec else pkDec

theorem payloadByOffset_apply (s : State) :
    payloadByOffset s = (if s.unpackedOff ≠ 0 then rawDec else pkDec) s := rfl

theorem quiet_payloadByOffset : Quiet payloadByOffset :=
  quiet_get_bind (fun _ _ _ => rfl) fun s => by
    split
    · exact quiet_rawDec
    · exact quiet_pkDec

theorem warnOdd_withImageHeader (s : State) (wb hb : Byte) (x : U16) (u p : U32) :
    (s.withImageHeader wb hb x u p).warnOdd = s.warnOdd := by
  simp only [State.warnOdd, State.withImageHeader]
  split
  · rfl
  · exact (getLsbD_statusWarnIres _ 10 (by decide)).trans (if_neg (by decide))

theorem warnOdd_execImageHeader {wb hb : Byte} {x : U16} {u p : U32} {s t : State}
    (h : execImageHeader wb hb x u p s = .next t) : t.warnOdd = s.warnOdd := by
  have hrun : (do advance 12; commitImageHeader wb hb x u p : Cmd Unit) s =
      commitImageHeader wb hb x u p (s.withSp (s.sp.toNat + 12)) := rfl
  rw [execImageHeader, runPart, hrun, commitImageHeader, cmd_bind] at h
  rcases check_cases (fun _ => !(u == 0 && p == 0)) .noPayload (fun s => ihdrAddr s.idx + 4)
    (s.withSp (s.sp.toNat + 12)) with ⟨_, hc⟩ | ⟨_, hc⟩ <;> rw [hc] at h <;> cases h
  · exact warnOdd_withImageHeader _ wb hb x u p
  · exact State.warnOdd_takeError _ _

/-- The header's parse writes no other warning than `WARN_IRES` (R145). -/
theorem warnOdd_imageHeaderBody {s t : State} (h : imageHeaderBody s = .ok () t) : t.warnOdd = s.warnOdd := by
  have hr := imageHeaderBody_readable (needs_imageHeaderBody s () t h)
  rw [runPart_ok h] at hr
  exact warnOdd_execImageHeader hr.symm

/-- `IMG_DEC` from its image header on (R234). -/
theorem reaches_imgDec {s : State} (hb : s.busy = true) (ha : s.agenda = [])
    (hodd : s.shownStatus.getLsbD 10 = s.warnOdd) :
    Reaches (s.atPlace (.imageHeader true)) (runCommand (imageHeaderBody >>= fun _ => payloadByOffset) s) := by
  rw [← runCommand_atPlace (quiet_imageHeaderBody.bind fun _ => quiet_payloadByOffset) s (.imageHeader true)]
  refine reaches_of_record (standsAt_atPlace (.imageHeader true) hb ha) fun t ht hst => ?_
  have htodd : t.shownStatus.getLsbD 10 = t.warnOdd := by
    rw [hst.shownStatus, hodd]
    exact (warnOdd_imageHeaderBody ht).symm
  have hraw := reaches_rawOpen hst.busy hst.agenda htodd
  have hpacked := reaches_packedOpen hst.busy hst.agenda htodd
  rw [afterRecordAt, runCommand_congr (payloadByOffset_apply t)]
  split
  · exact hraw
  · exact hpacked

/-- A decoding command opened in a state in which it has been accepted: its opening does not raise and steps lead from
it to the command's end, or it raises as the command does. -/
theorem reaches_openCommand {i : Instr} {c : Cmd Unit} {s : State} {code : Byte} (ho : openCommand i = some c)
    (hb : s.busy = true) (hd : s.doing = .command code) (ha : s.agenda = []) :
    ∃ u, runPart c s = .next u ∧ Reaches u (exec i s) := by
  have hodd : s.shownStatus.getLsbD 10 = s.warnOdd := by rw [shownStatus_command hd, State.warnOdd]
  cases i <;> cases ho
  case hdrGet => exact ⟨_, rfl, reaches_hdrGet hb ha⟩
  case ihdrGet => exact ⟨_, rfl, reaches_ihdrGet hb ha⟩
  case rawDec => exact reaches_rawOpen hb ha hodd
  case pkDec => exact reaches_packedOpen hb ha hodd
  case imgDec =>
    let t := s.withSp (ihdrAddr s.idx)
    have hexec : exec .imgDec s = runCommand imgDec s := rfl
    rw [hexec]
    rcases checkIndex_cases s with hindex | ⟨e, hindex⟩
    · have hcommand : runCommand imgDec s = runCommand (imageHeaderBody >>= fun _ => payloadByOffset) t := by
        simp only [runCommand, imgDec, ihdrGet, cmd_bind, hindex, seek_apply]
        rfl
      rw [hcommand]
      exact ⟨t.atPlace (.imageHeader true), runPart_ok (by simp only [cmd_bind, hindex, change_apply]; rfl),
        reaches_imgDec (s := t) hb ha hodd⟩
    · have hcommand : imgDec s = .error e s := by simp only [imgDec, cmd_bind, hindex]
      rw [runCommand_error hcommand]
      exact ⟨_, runPart_error (by simp only [cmd_bind, hindex]), reaches_here _⟩

/-- Settles O10: the opening and the record turns run the command's own pseudocode piece by piece, and what a piece does
depends neither on the place the unit stands at nor on the grain. -/
theorem recordGrainAgrees : Obligations.RecordGrainAgrees := by
  unfold Obligations.RecordGrainAgrees
  refine ⟨fun s code i hb hd hc ha => ?_, fun s t h hb htb => shownStatus_step h hb htb⟩
  let u : State := { s with agenda := [] }
  have hstep : step s = unitOpen u := by simp only [step, ha, event, u]
  cases ho : openCommand i with
  | none => exact reaches_of_step (hstep.trans (unitOpen_command_none (s := u) hb hd hc ho))
  | some c =>
    obtain ⟨v, hopen, hv⟩ := reaches_openCommand (s := u) ho hb hd rfl
    exact hv.of_step ((hstep.trans (unitOpen_command_some (s := u) hb hd hc ho)).trans hopen)

end Sys2Proof.Machine
end

section
/-! The host's side: what an event that is next on the agenda does, what a register write and a register read reach, and
the host's access to the memories (R21, R41, R77, R230, R300, R312). -/

namespace Sys2Proof.Machine

/-! ### The next event -/

/-- The state with these events to come. -/
def State.withAgenda (s : State) (rest : List Event) : State := { s with agenda := rest }

theorem step_cons {s : State} {e : Event} {rest : List Event} (h : s.agenda = e :: rest) :
    step s = event e (s.withAgenda rest) := by
  simp only [step, h, State.withAgenda]

theorem hostCm_idle {s : State} {a : Nat} (hb : s.busy = false) (ha : a < 2 ^ 33) (t : State) :
    hostCm s a t = .next t := by
  rw [hostCm, if_neg (by simp [hb]), if_pos ha]

theorem hostCm_busy {s : State} (hb : s.busy = true) (a : Nat) (t : State) :
    hostCm s a t = .refused .memoryAccessWhileBusy := if_pos hb

theorem hostCm_fault {s : State} {a : Nat} (hb : s.busy = false) (ha : 2 ^ 33 ≤ a) (t : State) :
    hostCm s a t = .fault (.noContainerCell a) := by
  rw [hostCm, if_neg (by simp [hb]), if_neg (Nat.not_lt.2 ha)]

theorem hostPm_idle {s : State} {i : Nat} (hb : s.busy = false) (hi : i < 65536) (t : State) :
    hostPm s i t = .next t := by
  rw [hostPm, if_neg (by simp [hb]), if_pos hi]

theorem hostPm_busy {s : State} (hb : s.busy = true) (i : Nat) (t : State) :
    hostPm s i t = .refused .memoryAccessWhileBusy := if_pos hb

theorem hostPm_fault {s : State} {i : Nat} (hb : s.busy = false) (hi : 65536 ≤ i) (t : State) :
    hostPm s i t = .fault (.noPixelCell i) := by
  rw [hostPm, if_neg (by simp [hb]), if_neg (Nat.not_lt.2 hi)]

/-- Settles O53: the access happens on an idle unit at a cell that exists, and then it is a read or a write of the
memory. -/
theorem hostMemoryAccess : Obligations.HostMemoryAccess := by
  unfold Obligations.HostMemoryAccess
  intro s rest a i b p
  refine ⟨fun hb ha h => ⟨s.cm.write a b, ?_, ByteMem.read_write_same _ _ _, fun c hc => ?_⟩, fun hb ha h => ?_,
    fun hb hi hr h => ⟨s.pm.write i p, ?_, ?_, fun j hj => ?_⟩, fun hb hi h => ?_, fun hb h => ?_,
    fun hb ha h => ?_, fun hb hi h => ?_⟩
  · rw [step_cons h]
    exact hostCm_idle hb ha _
  · exact ByteMem.read_write_other _ _ hc.symm
  · rw [step_cons h]
    exact hostCm_idle hb ha _
  · rw [step_cons h]
    exact hostPm_idle hb hi _
  · rw [PixelMem.read_write _ _ _ _ hr, if_pos rfl]
  · rw [PixelMem.read_write _ _ _ _ hr, if_neg hj.symm]
  · rw [step_cons h]
    exact hostPm_idle hb hi _
  · rcases h with h | h | h | h <;> rw [step_cons h]
    · exact hostCm_busy hb _ _
    · exact hostCm_busy hb _ _
    · exact hostPm_busy hb _ _
    · exact hostPm_busy hb _ _
  · rcases h with h | h <;> rw [step_cons h] <;> exact hostCm_fault hb ha _
  · rcases h with h | h <;> rw [step_cons h] <;> exact hostPm_fault hb hi _

/-! ### Registers -/

theorem hostRegWrite_busy {s : State} (hb : s.busy = true) (n v : Nat) : s.hostRegWrite n v = s := if_pos hb

theorem hostRegWrite_idle {s : State} (hb : s.busy = false) (n v : Nat) :
    s.hostRegWrite n v = s.withRegister n v := by
  simp [State.hostRegWrite, hb]

theorem withRegister_readOnly {n : Nat} (h : n ∈ [1, 2, 3, 19, 20, 21, 22, 23] ∨ 23 < n) (s : State) (v : Nat) :
    s.withRegister n v = s := by
  unfold State.withRegister
  split <;> first | rfl | simp at h

theorem register_absent (s : State) {n : Nat} (h : 23 < n) : s.register n = 0 := by
  unfold State.register
  split <;> first | rfl | omega

/-- A write of a register other than `CMD` writes no other register (R41). -/
theorem register_withRegister_other (s : State) (v : Nat) {n k : Nat} (hn : n ≠ 0) (hk : k ≠ n) :
    (s.withRegister n v).register k = s.register k := by
  unfold State.withRegister
  split
  case h_1 => exact absurd rfl hn
  all_goals
    unfold State.register
    split <;> first | rfl | exact absurd rfl hk

/-- A write keeps the low bits of the value (R41). -/
theorem register_withRegister_same (s : State) (v : Nat) {n w : Nat} (h : writableWidth n = some w) :
    ((s.withRegister n v).register n).toNat = v % 2 ^ w := by
  unfold writableWidth at h
  split at h <;> cases h <;>
    simp only [State.withRegister, State.register, BitVec.toNat_setWidth, BitVec.toNat_ofNat] <;> omega

/-- What a host write of a register other than `CMD` leaves alone: all that the host cannot write (R20, R41). -/
structure SameUnit (s t : State) : Prop where
  status : t.status = s.status
  errIdx : t.errIdx = s.errIdx
  errAddr : t.errAddr = s.errAddr
  sp : t.sp = s.sp
  cur : t.cur = s.cur
  prec : t.prec = s.prec
  nchunk : t.nchunk = s.nchunk
  nrun : t.nrun = s.nrun
  cm : t.cm = s.cm
  pm : t.pm = s.pm
  slb : t.slb = s.slb
  doing : t.doing = s.doing
  params : t.params = s.params
  agenda : t.agenda = s.agenda
  readData : t.readData = s.readData
  freeCount : t.freeCount = s.freeCount

theorem sameUnit_withRegister (s : State) (v : Nat) {n : Nat} (hn : n ≠ 0) : SameUnit s (s.withRegister n v) := by
  unfold State.withRegister
  split
  case h_1 => exact absurd rfl hn
  all_goals constructor <;> rfl

theorem step_regWrite_busy {s : State} {n v : Nat} {rest : List Event} (h : s.agenda = .regWrite n v :: rest)
    (hb : s.busy = true) : step s = .next (s.withAgenda rest) := by
  rw [step_cons h, event, hostRegWrite_busy (s := s.withAgenda rest) hb]

theorem step_regWrite_idle {s : State} {n v : Nat} {rest : List Event} (h : s.agenda = .regWrite n v :: rest)
    (hb : s.busy = false) : step s = .next ((s.withAgenda rest).withRegister n v) := by
  rw [step_cons h, event, hostRegWrite_idle (s := s.withAgenda rest) hb]

theorem hostRegRead_idle {s : State} (hb : s.busy = false) (n : Nat) :
    s.hostRegRead n = s.withReadData (.register (s.register n)) := by
  rw [State.hostRegRead, if_neg (by simp [hb])]
  split
  · subst n
    rw [shownStatus_idle hb]
    rfl
  · rfl

theorem step_regRead_idle {s : State} {n : Nat} {rest : List Event} (h : s.agenda = .regRead n :: rest)
    (hb : s.busy = false) :
    step s = .next ((s.withAgenda rest).withReadData (.register (s.register n))) := by
  rw [step_cons h, event, hostRegRead_idle (s := s.withAgenda rest) hb]
  rfl

/-- Settles O51: a write reaches the register of its number alone, and only on an idle unit. -/
theorem registerWrite : Obligations.RegisterWrite := by
  unfold Obligations.RegisterWrite
  refine ⟨fun s n v rest h => ⟨step_regWrite_busy h, fun hb hn => ?_, fun hb hn => ?_, fun w hb hw => ?_⟩,
    fun s n rest h hb hn => ?_⟩
  · rw [step_regWrite_idle h hb, withRegister_readOnly hn]
    rfl
  · subst hn
    exact step_regWrite_idle h hb
  · have hn : n ≠ 0 := by
      rintro rfl
      cases hw
    have same := sameUnit_withRegister (s.withAgenda rest) v hn
    exact ⟨_, step_regWrite_idle h hb, register_withRegister_same _ v hw,
      fun k hk => register_withRegister_other _ v hn hk, same.cm, same.pm, same.slb, same.doing, same.params,
      same.agenda, same.readData, same.freeCount⟩
  · rw [step_regRead_idle h hb, register_absent s hn]
    rfl

/-- Settles O52: the host reads the register of that number, unless the unit is busy. -/
theorem registerRead : Obligations.RegisterRead := by
  unfold Obligations.RegisterRead
  intro s n rest h
  refine ⟨step_regRead_idle h, fun hn => ?_, fun hs => ?_, fun place shown hb hd => shownStatus_opened hb hd,
    fun hb hn => ?_, register_absent s, ?_⟩
  · subst hn
    rw [step_cons h, event, State.hostRegRead, if_neg (by simp), if_pos rfl]
    rfl
  · rcases hs with hb | hd
    · exact shownStatus_idle hb
    · unfold State.shownStatus
      split
      · cases hdoing : s.doing with
        | idle => rfl
        | command code => rfl
        | opened place shown => simp [hdoing, Activity.place] at hd
      · rfl
  · rw [step_cons h, event, State.hostRegRead, if_pos ⟨hb, hn⟩]
    rfl
  · simp (disch := decide) only [List.range, List.range.loop, List.map, State.register, BitVec.toNat_setWidth_of_le]
    rfl

/-! ### Reset -/

@[simp] theorem State.busy_resetUnit (s : State) : s.resetUnit.busy = false := by
  simp only [State.busy, State.resetUnit_status]
  decide

theorem register_resetUnit (s : State) (n : Nat) : s.resetUnit.register n = 0 := by
  unfold State.register
  split <;> rfl

/-- Settles O54: a reset does not look at what the unit is doing. -/
theorem resetAtAnyTime : Obligations.ResetAtAnyTime := by
  unfold Obligations.ResetAtAnyTime
  intro s rest h
  exact ⟨(s.withAgenda rest).resetUnit, step_cons h, register_resetUnit _,
    State.busy_resetUnit _, rfl, rfl, rfl, fun _ => rfl,
    fun _ => rfl, Nat.le_refl _⟩

/-- Settles O55: with every register 0 the checks of R301 fail in its order, and nothing else stops a command. -/
theorem commandsRightAfterReset : Obligations.CommandsRightAfterReset := by
  unfold Obligations.CommandsRightAfterReset
  refine ⟨fun n => ?_, rfl, rfl, rfl, rfl, rfl, rfl, rfl, rfl, ⟨_, rfl, rfl, rfl, rfl⟩, ⟨_, rfl, rfl, rfl⟩,
    _, rfl, rfl, rfl⟩
  unfold State.register
  split <;> rfl

/-- Settles O56: with every register 0 and no cell listed, each clause is a closed fact. -/
theorem invariantAtReset : Obligations.InvariantAtReset := by
  unfold Obligations.InvariantAtReset
  exact ⟨by decide, by decide, by decide, by decide, by decide, by decide, by decide⟩

/-! ### Command issue (R230) -/

/-- The sole results of decoding one byte as a command: it is a command, with no byte left, or it is none (R96). -/
theorem decode_command_cases (code : Byte) :
    (∃ i, decode .command [code] = .ok (i, [])) ∨ decode .command [code] = .error (.undefinedCode code) := by
  cases hc : decodeCommand code with
  | some i => exact .inl ⟨i, by simp only [decode, hc]⟩
  | none => exact .inr (by simp only [decode, hc])

theorem unitTurn_undefined {s : State} {code : Byte} (hb : s.busy = true) (hd : s.doing = .command code)
    (hc : decode .command [code] = .error (.undefinedCode code)) :
    unitTurn s = .next (s.takeError ⟨.undefinedCode, 0⟩) := by
  simp only [unitTurn, hb, hd, hc, if_true]
  rfl

theorem issue_accepted {s : State} {code : Byte} (hb : s.busy = false) (h : s.err = 0 ∨ code = 0x0F) :
    s.issue code = s.accepted code := by
  rw [State.issue, if_neg (by simp [hb]), if_neg]
  rintro ⟨herr, hcode⟩
  exact h.elim herr hcode

theorem issue_refused {s : State} {code : Byte} (h : s.err ≠ 0) (hc : code ≠ 0x0F) : s.issue code = s := by
  rw [State.issue]
  split
  · rfl
  · exact if_pos ⟨h, hc⟩

/-- Settles O8: the three cases are those of `State.issue`, and an accepted code is what the turn decodes. -/
theorem commandIssue : Obligations.CommandIssue := by
  unfold Obligations.CommandIssue
  intro s v rest h
  refine ⟨step_regWrite_busy h, fun hb herr hcode => ?_, fun hb hok => ?_⟩
  · rw [step_regWrite_idle h hb, State.withRegister, issue_refused (s := s.withAgenda rest) herr hcode]
    rfl
  · let code : Byte := BitVec.ofNat 8 v
    let t := (s.withAgenda rest).accepted code
    have hbusy : t.busy = true := State.busy_accepted _ _
    refine ⟨t, ?_, hbusy, State.done_accepted _ _, fun k hk => ?_, rfl, fun hrest => ⟨fun i hi => ?_, fun hnone => ?_⟩⟩
    · rw [step_regWrite_idle h hb, State.withRegister, issue_accepted (s := s.withAgenda rest) hb hok]
    · by_cases hk16 : k < 16
      · exact (getLsbD_statusAccepted _ _ hk16).trans (by rw [if_neg (by omega), if_neg (by omega)]; rfl)
      · rw [BitVec.getLsbD_of_ge _ _ (by omega), BitVec.getLsbD_of_ge _ _ (by omega)]
    · rw [step_nil (s := t) hrest]
      exact unitTurn_command hbusy rfl hi
    · rcases decode_command_cases code with ⟨i, hi⟩ | hc
      · exact absurd hi (hnone i)
      · refine ⟨t.takeError ⟨.undefinedCode, 0⟩, ?_, State.err_takeError _ _, State.sub_takeError _ _⟩
        rw [step_nil (s := t) hrest]
        exact unitTurn_undefined hbusy rfl hc

end Sys2Proof.Machine
end

section
/-! Reasoning about pseudocode: what holds of the state a piece leaves, whether it goes on or raises. -/

namespace Sys2Proof.Machine

/-- The piece run from `s` goes on with `Q` of its result and its state, or raises with `E` of the state it leaves. -/
def Ends {α : Type} (c : Cmd α) (s : State) (Q : α → State → Prop) (E : State → Prop) : Prop :=
  match c s with
  | .ok a t => Q a t
  | .error _ t => E t

section Rules
variable {α β : Type} {c : Cmd α} {s t : State} {Q Q' : α → State → Prop} {E E' : State → Prop}

theorem Ends.of_ok {a : α} (h : Ends c s Q E) (hc : c s = .ok a t) : Q a t := by
  rw [Ends, hc] at h
  exact h

theorem Ends.of_error {e : Raise} (h : Ends c s Q E) (hc : c s = .error e t) : E t := by
  rw [Ends, hc] at h
  exact h

theorem ends_of_ok {a : α} (hc : c s = .ok a t) (h : Q a t) : Ends c s Q E := by
  rw [Ends, hc]
  exact h

theorem ends_of_error {e : Raise} (hc : c s = .error e t) (h : E t) : Ends c s Q E := by
  rw [Ends, hc]
  exact h

theorem Ends.mono (h : Ends c s Q E) (hQ : ∀ a t, Q a t → Q' a t) (hE : ∀ t, E t → E' t) : Ends c s Q' E' := by
  cases hc : c s with
  | ok a t => exact ends_of_ok hc (hQ a t (h.of_ok hc))
  | error e t => exact ends_of_error hc (hE t (h.of_error hc))

/-- What is known of where a piece goes on may use that it does. -/
theorem Ends.of_eq (h : Ends c s Q E) : Ends c s (fun a t => c s = .ok a t ∧ Q a t) E := by
  cases hc : c s with
  | ok a t => exact ends_of_ok hc ⟨rfl, h.of_ok hc⟩
  | error e t => exact ends_of_error hc (h.of_error hc)

theorem ends_bind {f : α → Cmd β} {R : β → State → Prop} (h : Ends c s (fun a t => Ends (f a) t R E) E) :
    Ends (c >>= f) s R E := by
  cases hc : c s with
  | ok a t =>
    have hf : Ends (f a) t R E := h.of_ok hc
    simpa only [Ends, cmd_bind, hc] using hf
  | error e t => exact ends_of_error (by rw [cmd_bind, hc]) (h.of_error hc)

theorem ends_get_bind {f : State → Cmd β} {R : β → State → Prop} (h : Ends (f s) s R E) :
    Ends ((get : Cmd State) >>= f) s R E := ends_bind (ends_of_ok (cmd_get s) h)

theorem ends_change {f : State → State} {R : Unit → State → Prop} (h : R () (f s)) : Ends (change f) s R E :=
  ends_of_ok (change_apply f s) h

/-- A test leaves the state alone. -/
theorem ends_check {ok : State → Bool} {cause : Cause} {addr : State → Nat} {R : Unit → State → Prop}
    (hok : ok s = true → R () s) (herr : E s) : Ends (check ok cause addr) s R E := by
  rcases check_cases ok cause addr s with ⟨h, hc⟩ | ⟨_, hc⟩
  · exact ends_of_ok hc (hok h)
  · exact ends_of_error hc herr

/-- A fetch moves `SP` over a field that can be fetched, or leaves the state alone. -/
theorem ends_fetch {stage : Stage} {n : Nat} {R : Nat → State → Prop}
    (hok : s.readable s.sp.toNat n = true → R s.sp.toNat (s.withSp (s.sp.toNat + n))) (herr : E s) :
    Ends (fetch stage n) s R E := by
  rcases fetch_cases stage n s with ⟨h, hc⟩ | ⟨_, hc⟩ | ⟨_, hc⟩
  · exact ends_of_ok hc (hok h)
  · exact ends_of_error hc herr
  · exact ends_of_error hc herr

theorem ends_readU8 {stage : Stage} {R : Byte → State → Prop}
    (hok : s.readable s.sp.toNat 1 = true → ∀ v, R v (s.withSp (s.sp.toNat + 1))) (herr : E s) :
    Ends (readU8 stage) s R E :=
  ends_bind (ends_fetch (fun h => ends_get_bind (ends_of_ok (cmd_pure _ _) (hok h _))) herr)

theorem ends_readU16 {stage : Stage} {R : U16 → State → Prop}
    (hok : s.readable s.sp.toNat 2 = true → ∀ v, R v (s.withSp (s.sp.toNat + 2))) (herr : E s) :
    Ends (readU16 stage) s R E :=
  ends_bind (ends_fetch (fun h => ends_get_bind (ends_of_ok (cmd_pure _ _) (hok h _))) herr)

theorem ends_readU32 {stage : Stage} {R : U32 → State → Prop}
    (hok : s.readable s.sp.toNat 4 = true → ∀ v, R v (s.withSp (s.sp.toNat + 4))) (herr : E s) :
    Ends (readU32 stage) s R E :=
  ends_bind (ends_fetch (fun h => ends_get_bind (ends_of_ok (cmd_pure _ _) (hok h _))) herr)

/-- A store writes its field at `SP`, or leaves the state alone. -/
theorem ends_storeField {bytes : List Byte} {R : Unit → State → Prop} (hok : R () (s.stored s.sp.toNat bytes))
    (herr : E s) : Ends (storeField bytes) s R E := by
  rcases storeField_cases bytes s with ⟨_, hc⟩ | ⟨_, hc⟩
  · exact ends_of_ok hc hok
  · exact ends_of_error hc herr

/-- A part of a payload command that raises leaves `PM` loose and `WARN_ODD` as the command found it. -/
theorem ends_payloadFrom {odd : Bool} {c : Cmd Unit} {R : Unit → State → Prop} (h : Ends c s R E')
    (herr : ∀ t, E' t → E (t.loosePm.withWarnOdd odd)) : Ends (payloadFrom odd c) s R E := by
  rcases payloadFrom_cases odd c s with ⟨t, hc, hp⟩ | ⟨e, t, hc, hp⟩
  · exact ends_of_ok hp (h.of_ok hc)
  · exact ends_of_error hp (herr t (h.of_error hc))

theorem ends_payload {c : Cmd Unit} {R : Unit → State → Prop} (h : Ends c s R E')
    (herr : ∀ t, E' t → E (t.loosePm.withWarnOdd s.warnOdd)) : Ends (payload c) s R E := by
  have hp : Ends (payloadFrom s.warnOdd c) s R E := ends_payloadFrom h herr
  rw [Ends] at hp ⊢
  exact hp

theorem ends_openedPayload {c : Cmd Unit} {R : Unit → State → Prop} (h : Ends c s R E')
    (herr : ∀ t, E' t → E (t.loosePm.withWarnOdd (s.shownStatus.getLsbD 10))) : Ends (openedPayload c) s R E := by
  have hp : Ends (payloadFrom (s.shownStatus.getLsbD 10) c) s R E := ends_payloadFrom h herr
  rw [Ends] at hp ⊢
  exact hp

end Rules

end Sys2Proof.Machine
end

section
/-! What a step can be: one case per event of R312, and one per way a busy unit takes its turn. -/

namespace Sys2Proof.Machine

/-! ### The command of a code -/

/-- The pseudocode of a command; the container records are no commands. -/
def commandBody : Instr → Cmd Unit
  | .to16 => change State.withRgb16
  | .to24 => change State.withRgb24
  | .clr => change State.clearError
  | .hdrGet => hdrGet
  | .ihdrGet => ihdrGet
  | .rawDec => rawDec
  | .pkDec => pkDec
  | .imgDec => imgDec
  | .hdrPut => hdrPut
  | .ihdrPut => ihdrPut
  | .rawEnc => rawEnc
  | .imgEnc => imgEnc
  | .containerHeader _ _ _ _ _ => pure ()
  | .imageHeader _ _ _ _ _ => pure ()
  | .packedPreamble _ => pure ()
  | .chunk _ _ _ => pure ()
  | .pixel _ _ _ => pure ()

theorem exec_eq_runCommand {i : Instr} (h : i.format = .command) (s : State) :
    exec i s = runCommand (commandBody i) s := by
  cases i <;> first | rfl | cases h

/-- What the unit runs for an accepted code (R230, R232). -/
def codeBody (code : Byte) : Cmd Unit :=
  match decodeCommand code with
  | some i => commandBody i
  | none => undefinedCommand

/-- A code decodes as the table of R96 says, and then it is a command; or it is none. -/
theorem codeBody_cases (code : Byte) :
    (∃ i, decode .command [code] = .ok (i, []) ∧ i.format = .command ∧ decodeCommand code = some i ∧
      codeBody code = commandBody i) ∨
    decode .command [code] = .error (.undefinedCode code) ∧ codeBody code = undefinedCommand := by
  cases hc : decodeCommand code with
  | some i =>
    have hd : decode .command [code] = .ok (i, []) := by simp only [decode, hc]
    exact .inl ⟨i, hd, format_of_decode_command hd, rfl, by simp only [codeBody, hc]⟩
  | none => exact .inr ⟨by simp only [decode, hc], by simp only [codeBody, hc]⟩

/-- `CLR` has one code (R96). -/
theorem code_of_decodeCommand_clr {code : Byte} (h : decodeCommand code = some .clr) : code = clrCode := by
  revert code
  decide

theorem unitTurn_code {s : State} {code : Byte} (hb : s.busy = true) (hd : s.doing = .command code) :
    unitTurn s = runCommand (codeBody code) s := by
  rcases codeBody_cases code with ⟨i, hc, hf, _, hbody⟩ | ⟨hc, hbody⟩ <;> rw [hbody]
  · exact (unitTurn_command hb hd hc).trans (exec_eq_runCommand hf s)
  · exact unitTurn_undefined hb hd hc

/-! ### The turn of a busy unit -/

/-- The ways a busy unit takes its turn (R6; log 10). -/
inductive BusyTurn (s : State) : State → Prop
  /-- The command in progress, run as a whole. -/
  | command {code : Byte} {t : State} (hd : s.doing = .command code) (h : runCommand (codeBody code) s = .next t) :
      BusyTurn s t
  /-- A decoding command, opened. -/
  | opens {code : Byte} {i : Instr} {c : Cmd Unit} {t : State} (hd : s.doing = .command code)
      (hi : decodeCommand code = some i) (hc : openCommand i = some c) (h : runPart c s = .next t) : BusyTurn s t
  /-- An opened command's record. -/
  | record {place : Place} {shown : BitVec 16} {t : State} (hd : s.doing = .opened place shown)
      (h : placeTurn place s = .next t) : BusyTurn s t
  /-- An opened command's chunk, opened. -/
  | chunkOpens {shown : BitVec 16} {t : State} (hd : s.doing = .opened .chunks shown)
      (h : runPart chunkOpen s = .next t) : BusyTurn s t

theorem unitTurn_busy_idle {s : State} (hb : s.busy = true) (hd : s.doing = .idle) : unitTurn s = .next s := by
  simp only [unitTurn, hb, hd, if_true]

theorem unitTurn_not_busy {s : State} (hb : s.busy = false) : unitTurn s = .next s := by
  simp [unitTurn, hb]

theorem unitTurn_cases {s t : State} (h : unitTurn s = .next t) : t = s ∨ s.busy = true ∧ BusyTurn s t := by
  cases hb : s.busy with
  | false =>
    rw [unitTurn_not_busy hb] at h
    cases h
    exact .inl rfl
  | true =>
    cases hd : s.doing with
    | idle =>
      rw [unitTurn_busy_idle hb hd] at h
      cases h
      exact .inl rfl
    | command code =>
      rw [unitTurn_code hb hd] at h
      exact .inr ⟨rfl, .command hd h⟩
    | opened place shown =>
      rw [unitTurn_opened hb hd] at h
      exact .inr ⟨rfl, .record hd h⟩

/-- Opening what the unit stands at is a turn, but for what has parts: a decoding command and a chunk. -/
theorem unitOpen_cases {s t : State} (h : unitOpen s = .next t) : t = s ∨ s.busy = true ∧ BusyTurn s t := by
  obtain hb | hb := Bool.eq_false_or_eq_true s.busy
  · cases hd : s.doing with
    | idle =>
      simp only [unitOpen, hb, hd, if_true] at h
      exact unitTurn_cases h
    | command code =>
      rcases codeBody_cases code with ⟨i, hc, hf, hi, _⟩ | ⟨hc, _⟩
      · cases ho : openCommand i with
        | some c =>
          rw [unitOpen_command_some hb hd hc ho] at h
          exact .inr ⟨hb, .opens hd hi ho h⟩
        | none =>
          rw [unitOpen_command_none hb hd hc ho, ← unitTurn_command hb hd hc] at h
          exact unitTurn_cases h
      · simp only [unitOpen, hb, hd, hc, if_true] at h
        exact unitTurn_cases h
    | opened place shown =>
      simp only [unitOpen, hb, hd, if_true] at h
      split at h
      · subst place
        exact .inr ⟨hb, .chunkOpens hd h⟩
      · exact unitTurn_cases h
  · simp only [unitOpen, hb, Bool.false_eq_true, if_false] at h
    cases h
    exact .inl rfl

/-! ### A step -/

/-- Everything a step that has a next state can be. -/
inductive StepCase (s : State) : State → Prop
  | reset {rest : List Event} (h : s.agenda = .reset :: rest) : StepCase s (s.withAgenda rest).resetUnit
  | regRead {n : Nat} {rest : List Event} : StepCase s ((s.withAgenda rest).hostRegRead n)
  | regWrite {n v : Nat} {rest : List Event} (h : s.agenda = .regWrite n v :: rest) :
      StepCase s ((s.withAgenda rest).hostRegWrite n v)
  | memoryRead {d : ReadData} {rest : List Event} : StepCase s ((s.withAgenda rest).withReadData d)
  | cmWrite {a : Nat} {b : Byte} {rest : List Event} (hb : s.busy = false) (ha : a < 2 ^ 33) :
      StepCase s ((s.withAgenda rest).withCm a b)
  | pmWrite {i : Nat} {p : Pixel} {rest : List Event} (hb : s.busy = false) (hi : i < 65536) :
      StepCase s ((s.withAgenda rest).withPm i p)
  /-- The turn of a unit with no command in progress (log 24). -/
  | rests {rest : List Event} : StepCase s (s.withAgenda rest)
  | turn {rest : List Event} {t : State} (hn : UnitTurnNext s) (hb : s.busy = true)
      (h : BusyTurn (s.withAgenda rest) t) : StepCase s t

theorem hostCm_cases {s u t : State} {a : Nat} (h : hostCm s a u = .next t) : s.busy = false ∧ a < 2 ^ 33 ∧ t = u := by
  unfold hostCm at h
  split_ifs at h with hb ha
  cases h
  exact ⟨by simpa using hb, ha, rfl⟩

theorem hostPm_cases {s u t : State} {i : Nat} (h : hostPm s i u = .next t) : s.busy = false ∧ i < 65536 ∧ t = u := by
  unfold hostPm at h
  split_ifs at h with hb hi
  cases h
  exact ⟨by simpa using hb, hi, rfl⟩

theorem step_cases {s t : State} (h : step s = .next t) : StepCase s t := by
  have turns : ∀ rest, UnitTurnNext s →
      (t = s.withAgenda rest ∨ (s.withAgenda rest).busy = true ∧ BusyTurn (s.withAgenda rest) t) → StepCase s t := by
    rintro rest hn (rfl | ⟨hb, ht⟩)
    · exact .rests
    · exact .turn hn hb ht
  cases ha : s.agenda with
  | nil =>
    rw [step_nil ha] at h
    have hs : s.withAgenda [] = s := by rw [← ha]; rfl
    exact turns [] (.inl ha) (by rw [hs]; exact unitTurn_cases h)
  | cons e rest =>
    rw [step_cons ha] at h
    cases e with
    | reset => cases h; exact .reset ha
    | regRead n => cases h; exact .regRead
    | regWrite n v => cases h; exact .regWrite ha
    | cmRead a => obtain ⟨_, _, rfl⟩ := hostCm_cases h; exact .memoryRead
    | cmWrite a b => obtain ⟨hb, ha, rfl⟩ := hostCm_cases h; exact .cmWrite hb ha
    | pmRead i => obtain ⟨_, _, rfl⟩ := hostPm_cases h; exact .memoryRead
    | pmWrite i p => obtain ⟨hb, hi, rfl⟩ := hostPm_cases h; exact .pmWrite hb hi
    | unitTurn => exact turns rest (.inr ⟨rest, .inl ha⟩) (unitTurn_cases h)
    | unitOpen => exact turns rest (.inr ⟨rest, .inr ha⟩) (unitOpen_cases h)

/-! ### The host's events -/

/-- A read is seen in the host's data and the counter of free values, and nowhere else. -/
theorem hostRegRead_eq (s : State) (n : Nat) :
    s.hostRegRead n = { s with readData := (s.hostRegRead n).readData, freeCount := (s.hostRegRead n).freeCount } := by
  unfold State.hostRegRead
  split_ifs <;> rfl

/-- A write to `CMD` is ignored, or the command is accepted: by an idle unit, with no error pending or as `CLR` (R230).
-/
theorem issue_cases (s : State) (code : Byte) :
    s.issue code = s ∨ s.busy = false ∧ (s.err ≠ 0 → code = clrCode) ∧ s.issue code = s.accepted code := by
  cases hb : s.busy with
  | true => exact .inl (if_pos hb)
  | false =>
    by_cases h : s.err = 0 ∨ code = clrCode
    · exact .inr ⟨rfl, h.resolve_left, issue_accepted hb h⟩
    · rw [not_or] at h
      exact .inl (issue_refused h.1 h.2)

/-- Everything a register write can be: ignored, a command accepted, or a register of the host written. -/
theorem hostRegWrite_cases (s : State) (n v : Nat) :
    s.hostRegWrite n v = s ∨
    s.busy = false ∧ (∃ code, (s.err ≠ 0 → code = clrCode) ∧ s.hostRegWrite n v = s.accepted code) ∨
    s.busy = false ∧ n ≠ 0 ∧ s.hostRegWrite n v = s.withRegister n v := by
  cases hb : s.busy with
  | true => exact .inl (hostRegWrite_busy hb n v)
  | false =>
    rw [hostRegWrite_idle hb]
    by_cases hn : n = 0
    · subst hn
      rcases issue_cases s (BitVec.ofNat 8 v) with h | ⟨_, hcode, h⟩
      · exact .inl h
      · exact .inr (.inl ⟨rfl, _, hcode, h⟩)
    · exact .inr (.inr ⟨rfl, hn, rfl⟩)

end Sys2Proof.Machine
end

section
/-! What the unit's work leaves alone: every piece of every command but `CLR`, and of every record, keeps the
parameters, the host's registers, the context of an error and every bit of `STATUS` but warnings, never loses a
warning, and keeps the memories' cells in order. -/

namespace Sys2Proof.Machine

/-! ### The relation of a state and what work leaves of it -/

/-- What no work but `CLR` writes until the command ends: the parameters, `IDX`, `CHANNELS` (R20, R38) and the context
of an error (R24). -/
def State.unworked (s : State) : Params × BitVec 16 × BitVec 8 × BitVec 16 × BitVec 34 :=
  (s.params, s.idx, s.channels, s.errIdx, s.errAddr)

/-- Each warning of `v` (bits 8 to 10) is set in `STATUS`. -/
def Covers (v : BitVec 16) (s : State) : Prop :=
  ∀ k, 8 ≤ k → k ≤ 10 → v.getLsbD k = true → s.status.getLsbD k = true

/-- What work leaves of `s`, where it may set the warnings at the bits `warns` and the host reads the warnings of `v`.
-/
structure Works (warns : List Nat) (v : BitVec 16) (s t : State) : Prop where
  unworked : t.unworked = s.unworked
  bits : ∀ k, k < 16 → k ∉ warns → t.status.getLsbD k = s.status.getLsbD k
  covers : Covers v s → Covers v t
  rising : MemoriesRising s → MemoriesRising t

section Relation
variable {warns : List Nat} {v : BitVec 16} {s t u : State}

theorem works_refl : Works warns v s s := ⟨rfl, fun _ _ _ => rfl, id, id⟩

theorem Works.trans (h : Works warns v s t) (h' : Works warns v t u) : Works warns v s u where
  unworked := h'.unworked.trans h.unworked
  bits k hk hw := (h'.bits k hk hw).trans (h.bits k hk hw)
  covers := h'.covers ∘ h.covers
  rising := h'.rising ∘ h.rising

theorem Works.params (h : Works warns v s t) : t.params = s.params := congrArg (·.1) h.unworked

theorem Works.idx (h : Works warns v s t) : t.idx = s.idx := congrArg (·.2.1) h.unworked

theorem Works.channels (h : Works warns v s t) : t.channels = s.channels := congrArg (·.2.2.1) h.unworked

theorem Works.errIdx (h : Works warns v s t) : t.errIdx = s.errIdx := congrArg (·.2.2.2.1) h.unworked

theorem Works.errAddr (h : Works warns v s t) : t.errAddr = s.errAddr := congrArg (·.2.2.2.2) h.unworked

/-- Work that leaves `STATUS` alone. -/
theorem works_of_status (hu : t.unworked = s.unworked) (hst : t.status = s.status)
    (hr : MemoriesRising s → MemoriesRising t) : Works warns v s t where
  unworked := hu
  bits k _ _ := by rw [hst]
  covers h k hlo hhi hk := by rw [hst]; exact h k hlo hhi hk
  rising := hr

/-- Work that may set the warning at bit `k` of `STATUS`. -/
theorem works_of_warning {k : Nat} (hw : k ∈ warns) (hu : t.unworked = s.unworked)
    (hst : t.status = s.status ∨ ∀ i, i < 16 → t.status.getLsbD i = if i = k then true else s.status.getLsbD i)
    (hr : MemoriesRising s → MemoriesRising t) : Works warns v s t := by
  rcases hst with hst | hst
  · exact works_of_status hu hst hr
  · refine ⟨hu, fun i hi hiw => ?_, fun h i hlo hhi hi => ?_, hr⟩
    · rw [hst i hi, if_neg]
      rintro rfl
      exact hiw hw
    · rw [hst i (by omega)]
      split
      · rfl
      · exact h i hlo hhi hi

end Relation

/-! ### The memories' order under the operations -/

theorem ByteMem.rising_writeBytes (m : ByteMem) (a : Nat) (bytes : List Byte) (h : rising m.cells = true) :
    rising (m.writeBytes a bytes).cells = true := by
  induction bytes generalizing m a with
  | nil => exact h
  | cons b rest ih => exact ih _ _ (rising_putCell _ _ _ h)

theorem memoriesRising_withPm {s : State} (i : Nat) (p : Pixel) (h : MemoriesRising s) :
    MemoriesRising (s.withPm i p) := ⟨h.1, PixelMem.rising_write _ _ _ h.2.1, h.2.2⟩

theorem memoriesRising_withCm {s : State} (a : Nat) (b : Byte) (h : MemoriesRising s) :
    MemoriesRising (s.withCm a b) := ⟨rising_putCell _ _ _ h.1, h.2⟩

theorem memoriesRising_stored {s : State} (a : Nat) (bytes : List Byte) (h : MemoriesRising s) :
    MemoriesRising (s.stored a bytes) := ⟨ByteMem.rising_writeBytes _ _ _ h.1, h.2⟩

theorem memoriesRising_sliced {s : State} (h : MemoriesRising s) : MemoriesRising s.sliced := by
  rw [sliced_eq]
  exact ⟨h.1, PixelMem.rising_putRange _ _ _ _ h.2.1, h.2.2⟩

theorem memoriesRising_withRunPixel {s : State} (w : U16) (h : MemoriesRising s) :
    MemoriesRising (s.withRunPixel w) := by
  refine ⟨h.1, h.2.1, ?_⟩
  rw [State.withRunPixel_slb]
  split
  · exact PixelMem.rising_write _ _ _ h.2.2
  · exact h.2.2

/-! ### Pieces of pseudocode that work -/

/-- Whether the piece goes on or raises, what it leaves is `Works`. -/
def WorksAt {α : Type} (warns : List Nat) (v : BitVec 16) (c : Cmd α) (s : State) : Prop :=
  Ends c s (fun _ => Works warns v s) (Works warns v s)

/-- The piece works from every state. -/
def Working {α : Type} (warns : List Nat) (v : BitVec 16) (c : Cmd α) : Prop := ∀ s, WorksAt warns v c s

/-- The warnings that the record at this place may set (R99, R145). -/
def Place.warns : Place → List Nat
  | .header => [8]
  | .imageHeader _ => [9, 10]
  | .rawPixels => [9, 10]
  | .preamble => [9, 10]
  | .chunks => [9, 10]
  | .runPixels => [9, 10]

section Pieces
variable {α β : Type} {warns : List Nat} {v : BitVec 16}

theorem working_pure (a : α) : Working warns v (pure a : Cmd α) := fun s => ends_of_ok (cmd_pure a s) works_refl

theorem working_raise (cause : Cause) (addr : Nat) : Working warns v (raise cause addr : Cmd α) :=
  fun s => ends_of_error (raise_apply cause addr s) works_refl

theorem Working.bind {c : Cmd α} {f : α → Cmd β} (hc : Working warns v c) (hf : ∀ a, Working warns v (f a)) :
    Working warns v (c >>= f) := fun s =>
  ends_bind ((hc s).mono (fun a t h => (hf a t).mono (fun _ _ h' => h.trans h') fun _ h' => h.trans h') fun _ h => h)

theorem working_get_bind {f : State → Cmd β} (hf : ∀ s, Working warns v (f s)) :
    Working warns v ((get : Cmd State) >>= f) := fun s => ends_get_bind (hf s s)

theorem working_change {f : State → State} (h : ∀ s, Works warns v s (f s)) : Working warns v (change f) :=
  fun s => ends_change (h s)

theorem working_check (ok : State → Bool) (cause : Cause) (addr : State → Nat) :
    Working warns v (check ok cause addr) := fun _ => ends_check (fun _ => works_refl) works_refl

theorem works_withSp (s : State) (a : Nat) : Works warns v s (s.withSp a) := works_of_status rfl rfl id

theorem working_seek (target : State → Nat) : Working warns v (seek target) :=
  working_change fun s => works_withSp s (target s)

theorem working_readU8 (stage : Stage) : Working warns v (readU8 stage) :=
  fun s => ends_readU8 (fun _ _ => works_withSp s _) works_refl

theorem working_readU16 (stage : Stage) : Working warns v (readU16 stage) :=
  fun s => ends_readU16 (fun _ _ => works_withSp s _) works_refl

theorem working_readU32 (stage : Stage) : Working warns v (readU32 stage) :=
  fun s => ends_readU32 (fun _ _ => works_withSp s _) works_refl

theorem working_storeField (bytes : List Byte) : Working warns v (storeField bytes) :=
  fun _ => ends_storeField (works_of_status rfl rfl (memoriesRising_stored _ _)) works_refl

/-- A failed payload puts `WARN_ODD` back as the command found it, which loses no warning the host reads as set. -/
theorem Works.loose {s t : State} {odd : Bool} (h10 : 10 ∈ warns) (h : Works warns v s t)
    (hodd : Covers v s → v.getLsbD 10 = true → odd = true) : Works warns v s (t.loosePm.withWarnOdd odd) where
  unworked := h.unworked
  bits k hk hw := by
    have hk10 : k ≠ 10 := by
      rintro rfl
      exact hw h10
    rw [State.withWarnOdd_status, getLsbD_statusWithOdd _ _ _ hk, if_neg hk10]
    exact h.bits k hk hw
  covers hc k hlo hhi hk := by
    rw [State.withWarnOdd_status, getLsbD_statusWithOdd _ _ _ (by omega)]
    split
    · subst k
      exact hodd hc hk
    · exact h.covers hc k hlo hhi hk
  rising hr := ⟨(h.rising hr).1, rfl, (h.rising hr).2.2⟩

theorem Working.payload {c : Cmd Unit} (h10 : 10 ∈ warns) (hc : Working warns v c) : Working warns v (payload c) :=
  fun s => ends_payload (hc s) fun _ h => h.loose h10 fun hv h10 => hv 10 (by decide) (by decide) h10

/-- In an opened command the flag as it is shown to the host is put back. -/
theorem Working.openedPayload {c : Cmd Unit} {s : State} (h10 : 10 ∈ warns) (hc : Working warns s.shownStatus c) :
    WorksAt warns s.shownStatus (openedPayload c) s :=
  ends_openedPayload (hc s) fun _ h => h.loose h10 fun _ h10 => h10

/-! ### The updates of the commands -/

theorem works_withContainerHeader (h8 : 8 ∈ warns) (s : State) (n w l x : U16) :
    Works warns v s (s.withContainerHeader n w l x) := by
  refine works_of_warning h8 rfl ?_ id
  rw [State.withContainerHeader_status]
  split
  · exact .inl rfl
  · exact .inr fun i hi => getLsbD_statusWarnHres _ i hi

theorem works_withImageHeader (h9 : 9 ∈ warns) (s : State) (wb hb : Byte) (x : U16) (u p : U32) :
    Works warns v s (s.withImageHeader wb hb x u p) := by
  refine works_of_warning h9 rfl ?_ id
  rw [State.withImageHeader_status]
  split
  · exact .inl rfl
  · exact .inr fun i hi => getLsbD_statusWarnIres _ i hi

theorem works_withChunkHead (h10 : 10 ∈ warns) (s : State) (ob rs : U16) :
    Works warns v s (s.withChunkHead ob rs) := by
  refine works_of_warning h10 rfl ?_ id
  rw [State.withChunkHead_status]
  split
  · exact .inr fun i hi => getLsbD_statusWarnOdd _ i hi
  · exact .inl rfl

theorem works_withPm (s : State) (i : Nat) (p : Pixel) : Works warns v s (s.withPm i p) :=
  works_of_status rfl rfl (memoriesRising_withPm i p)

theorem works_withRunPixel (s : State) (w : U16) : Works warns v s (s.withRunPixel w) :=
  works_of_status rfl rfl (memoriesRising_withRunPixel w)

theorem works_withPackedStart (s : State) : Works warns v s s.withPackedStart :=
  works_of_status rfl rfl fun h => ⟨h.1, h.2.1, rfl⟩

theorem works_sliced (s : State) : Works warns v s s.sliced :=
  works_of_status (by rw [sliced_eq]; rfl) (by rw [sliced_eq]) memoriesRising_sliced

theorem works_withChunkDone (s : State) : Works warns v s s.withChunkDone := works_of_status rfl rfl id

theorem works_withNewContainer (s : State) : Works warns v s s.withNewContainer := works_of_status rfl rfl id

theorem works_withHeaderConstants (s : State) : Works warns v s s.withHeaderConstants := works_of_status rfl rfl id

theorem works_withPlacement (s : State) : Works warns v s s.withPlacement := works_of_status rfl rfl id

theorem works_withCounted (s : State) : Works warns v s s.withCounted := works_of_status rfl rfl id

theorem works_withChunkCount (s : State) (m : U16) : Works warns v s (s.withChunkCount m) :=
  works_of_status rfl rfl id

theorem works_withRgb16 (s : State) : Works warns v s s.withRgb16 := works_of_status rfl rfl id

theorem works_withRgb24 (s : State) : Works warns v s s.withRgb24 := works_of_status rfl rfl id

theorem works_atPlace (s : State) (place : Place) : Works warns v s (s.atPlace place) := works_of_status rfl rfl id

/-! ### The commands and the records -/

theorem working_checkDims : Working warns v checkDims := working_check _ _ _

theorem working_checkIndex : Working warns v checkIndex := working_check _ _ _

theorem working_headerBody (h8 : 8 ∈ warns) : Working warns v headerBody :=
  (working_readU32 _).bind fun _ => (working_check _ _ _).bind fun _ => (working_readU16 _).bind fun _ =>
    (working_readU16 _).bind fun _ => (working_readU16 _).bind fun _ => (working_readU16 _).bind fun _ =>
      (working_check _ _ _).bind fun _ => working_change fun s => works_withContainerHeader h8 s _ _ _ _

theorem working_imageHeaderBody (h9 : 9 ∈ warns) : Working warns v imageHeaderBody :=
  (working_readU8 _).bind fun _ => (working_readU8 _).bind fun _ => (working_readU16 _).bind fun _ =>
    (working_readU32 _).bind fun _ => (working_readU32 _).bind fun _ => (working_check _ _ _).bind fun _ =>
      working_change fun s => works_withImageHeader h9 s _ _ _ _ _

theorem working_hdrGet (h8 : 8 ∈ warns) : Working warns v hdrGet :=
  (working_seek _).bind fun _ => working_headerBody h8

theorem working_ihdrGet (h9 : 9 ∈ warns) : Working warns v ihdrGet :=
  (working_seek _).bind fun _ => working_imageHeaderBody h9

theorem working_hdrPut : Working warns v hdrPut :=
  (working_change works_withNewContainer).bind fun _ => (working_seek _).bind fun _ =>
    working_get_bind fun _ => (working_storeField _).bind fun _ => working_get_bind fun _ =>
      (working_storeField _).bind fun _ => working_get_bind fun _ => (working_storeField _).bind fun _ =>
        working_get_bind fun _ => (working_storeField _).bind fun _ => working_get_bind fun _ => working_storeField _

theorem working_ihdrPut : Working warns v ihdrPut :=
  working_checkDims.bind fun _ => (working_check _ _ _).bind fun _ =>
    (working_change works_withHeaderConstants).bind fun _ => (working_seek _).bind fun _ =>
      working_get_bind fun _ => (working_storeField _).bind fun _ => working_get_bind fun _ =>
        (working_storeField _).bind fun _ => working_get_bind fun _ => (working_storeField _).bind fun _ =>
          working_get_bind fun _ => (working_storeField _).bind fun _ => working_get_bind fun _ =>
            working_storeField _

theorem working_rawDecLoop (n i : Nat) : Working warns v (rawDecLoop n i) := by
  induction n generalizing i with
  | zero => exact working_pure ()
  | succ n ih =>
    exact (working_readU16 _).bind fun _ => (working_change fun s => works_withPm s _ _).bind fun _ => ih (i + 1)

theorem working_rawDec (h10 : 10 ∈ warns) : Working warns v rawDec :=
  working_checkDims.bind fun _ => (working_seek _).bind fun _ => working_get_bind fun _ =>
    (working_rawDecLoop _ _).payload h10

theorem working_rawEncLoop (n i : Nat) : Working warns v (rawEncLoop n i) := by
  induction n generalizing i with
  | zero => exact working_pure ()
  | succ n ih => exact working_get_bind fun _ => (working_storeField _).bind fun _ => ih (i + 1)

theorem working_rawEnc : Working warns v rawEnc :=
  working_checkDims.bind fun _ => (working_seek _).bind fun _ => working_get_bind fun _ => working_rawEncLoop _ _

theorem working_packedStart : Working warns v packedStart :=
  (working_checkDims.bind fun _ => (working_check _ _ _).bind fun _ => working_check _ _ _).bind fun _ =>
    working_change works_withPackedStart

theorem working_preambleStep : Working warns v preambleStep :=
  (working_readU16 _).bind fun _ => working_change fun s => works_withChunkCount s _

theorem working_runLoop (n : Nat) : Working warns v (runLoop n) := by
  induction n with
  | zero => exact working_pure ()
  | succ n ih =>
    exact (working_readU16 _).bind fun _ => (working_change fun s => works_withRunPixel s _).bind fun _ => ih

theorem working_chunkHead (h10 : 10 ∈ warns) : Working warns v chunkHead :=
  (working_readU16 _).bind fun _ => (working_readU16 _).bind fun _ =>
    (working_change fun s => works_withChunkHead h10 s _ _).bind fun _ => working_pure _

theorem working_chunkStep (h10 : 10 ∈ warns) : Working warns v chunkStep :=
  (working_chunkHead h10).bind fun n => (working_runLoop n).bind fun _ => working_change works_withChunkDone

theorem working_chunkLoop (h10 : 10 ∈ warns) (n : Nat) : Working warns v (chunkLoop n) := by
  induction n with
  | zero => exact working_pure ()
  | succ n ih => exact (working_chunkStep h10).bind fun _ => ih

theorem working_pkDec (h10 : 10 ∈ warns) : Working warns v pkDec :=
  working_packedStart.bind fun _ => Working.payload h10 <| working_preambleStep.bind fun _ =>
    working_get_bind fun s => (working_chunkLoop h10 s.nchunk.toNat).bind fun _ => working_change works_sliced

theorem working_imgDec (h9 : 9 ∈ warns) (h10 : 10 ∈ warns) : Working warns v imgDec :=
  working_checkIndex.bind fun _ => (working_ihdrGet h9).bind fun _ => working_get_bind fun s => by
    split
    · exact working_rawDec h10
    · exact working_pkDec h10

theorem working_imgEnc : Working warns v imgEnc :=
  working_checkIndex.bind fun _ => (working_check _ _ _).bind fun _ => working_checkDims.bind fun _ =>
    (working_check _ _ _).bind fun _ => (working_change works_withPlacement).bind fun _ =>
      working_ihdrPut.bind fun _ => working_rawEnc.bind fun _ =>
        working_change works_withCounted

theorem working_rawOpen : Working warns v rawOpen :=
  working_checkDims.bind fun _ => working_change fun s => (works_withSp s _).trans (works_atPlace _ _)

theorem working_packedOpen : Working warns v packedOpen :=
  working_packedStart.bind fun _ => working_change fun s => works_atPlace s _

/-- The three warning bits of `STATUS` (R23). -/
def warningBits : List Nat := [8, 9, 10]

/-- Every command but `CLR` works. -/
theorem working_commandBody {i : Instr} (hi : i ≠ .clr) : Working warningBits v (commandBody i) := by
  have h8 : 8 ∈ warningBits := by decide
  have h9 : 9 ∈ warningBits := by decide
  have h10 : 10 ∈ warningBits := by decide
  cases i with
  | to16 => exact working_change works_withRgb16
  | to24 => exact working_change works_withRgb24
  | clr => exact absurd rfl hi
  | hdrGet => exact working_hdrGet h8
  | ihdrGet => exact working_ihdrGet h9
  | rawDec => exact working_rawDec h10
  | pkDec => exact working_pkDec h10
  | imgDec => exact working_imgDec h9 h10
  | hdrPut => exact working_hdrPut
  | ihdrPut => exact working_ihdrPut
  | rawEnc => exact working_rawEnc
  | imgEnc => exact working_imgEnc
  | _ => exact working_pure ()

theorem working_codeBody {code : Byte} (hcode : code ≠ clrCode) : Working warningBits v (codeBody code) := by
  rcases codeBody_cases code with ⟨i, _, _, hi, hbody⟩ | ⟨_, hbody⟩ <;> rw [hbody]
  · refine working_commandBody ?_
    rintro rfl
    exact hcode (code_of_decodeCommand_clr hi)
  · exact working_raise _ _

theorem working_openCommand {i : Instr} {c : Cmd Unit} (h : openCommand i = some c) : Working warns v c := by
  cases i <;> cases h
  case hdrGet => exact working_change fun s => (works_withSp s _).trans (works_atPlace _ _)
  case ihdrGet => exact working_change fun s => (works_withSp s _).trans (works_atPlace _ _)
  case rawDec => exact working_rawOpen
  case pkDec => exact working_packedOpen
  case imgDec =>
    exact working_checkIndex.bind fun _ => working_change fun s => (works_withSp s _).trans (works_atPlace _ _)

theorem worksAt_rest (place : Place) (s : State) : WorksAt place.warns s.shownStatus place.rest s := by
  have h9 : 9 ∈ [9, 10] := by decide
  have h10 : 10 ∈ [9, 10] := by decide
  cases place with
  | header => exact working_headerBody (List.mem_singleton_self 8) s
  | imageHeader _ => exact working_imageHeaderBody h9 s
  | rawPixels =>
    exact Working.openedPayload h10 <| working_get_bind fun _ => (working_readU16 _).bind fun _ =>
      working_change fun s => works_withPm s _ _
  | preamble => exact working_preambleStep.openedPayload h10
  | chunks => exact (working_chunkStep h10).openedPayload h10
  | runPixels => exact (working_runLoop 1).openedPayload h10

theorem worksAt_chunkOpen (s : State) : WorksAt [9, 10] s.shownStatus chunkOpen s :=
  have h10 : 10 ∈ [9, 10] := by decide
  Working.openedPayload h10 <| (working_chunkHead h10).bind fun _ => working_change fun s => works_atPlace s _

end Pieces

end Sys2Proof.Machine
end

section
/-! What a step leaves alone: the error latch, the warnings the host reads, the order of the memories' cells, the
parameters and the host's registers (R20, R24, R34, R35 to R38). -/

namespace Sys2Proof.Machine

/-! ### How a turn leaves its work -/

/-- A turn leaves the state its work has reached, or ends the command there, or takes an error there. -/
inductive Settled (w : State) : State → Prop
  | goesOn : Settled w w
  | completes : Settled w w.complete
  | fails (e : Raise) : Settled w (w.takeError e)

/-- Where this outcome is a next state, it is one that work on `s` has settled in. -/
def Leaves (warns : List Nat) (v : BitVec 16) (s : State) (o : Host.Outcome State Fault Refusal) : Prop :=
  ∀ t, o = .next t → ∃ w, Works warns v s w ∧ Settled w t

section Leaving
variable {warns : List Nat} {v : BitVec 16} {s t : State} {c : Cmd Unit}

theorem leaves_goesOn (h : Works warns v s t) : Leaves warns v s (.next t) := by
  rintro _ ⟨⟩
  exact ⟨t, h, .goesOn⟩

theorem leaves_completes (h : Works warns v s t) : Leaves warns v s (.next t.complete) := by
  rintro _ ⟨⟩
  exact ⟨t, h, .completes⟩

theorem leaves_fails (h : Works warns v s t) (e : Raise) : Leaves warns v s (.next (t.takeError e)) := by
  rintro _ ⟨⟩
  exact ⟨t, h, .fails e⟩

theorem leaves_runCommand (h : WorksAt warns v c s) : Leaves warns v s (runCommand c s) := by
  rcases runCommand_cases c s with ⟨t, hc, hrun⟩ | ⟨e, t, hc, hrun⟩ <;> rw [hrun]
  · exact leaves_completes (h.of_ok hc)
  · exact leaves_fails (h.of_error hc) e

theorem leaves_runPart (h : WorksAt warns v c s) : Leaves warns v s (runPart c s) := by
  cases hc : c s with
  | ok a t =>
    rw [runPart_ok hc]
    exact leaves_goesOn (h.of_ok hc)
  | error e t =>
    rw [runPart_error hc]
    exact leaves_fails (h.of_error hc) e

theorem leaves_afterChunk (s : State) : Leaves warns v s (afterChunk s) := by
  unfold afterChunk
  split
  · exact leaves_completes (works_sliced s)
  · exact leaves_goesOn (works_atPlace s _)

/-- Work before an outcome joins the work in it. -/
theorem Leaves.after {o : Host.Outcome State Fault Refusal} (h : Works warns v s t) (ho : Leaves warns v t o) :
    Leaves warns v s o := by
  intro u hu
  obtain ⟨w, hw, hs⟩ := ho u hu
  exact ⟨w, h.trans hw, hs⟩

theorem leaves_afterRecordAt (place : Place) (s : State) : Leaves warns v s (afterRecordAt place s) := by
  cases place with
  | header => exact leaves_completes works_refl
  | imageHeader decoding =>
    cases decoding with
    | false => exact leaves_completes works_refl
    | true =>
      rw [afterRecordAt]
      split
      · exact leaves_runPart (working_rawOpen s)
      · exact leaves_runPart (working_packedOpen s)
  | rawPixels =>
    rw [afterRecordAt]
    split
    · exact leaves_completes works_refl
    · exact leaves_goesOn works_refl
  | preamble => exact leaves_goesOn (works_atPlace s _)
  | chunks => exact leaves_afterChunk s
  | runPixels =>
    rw [afterRecordAt]
    split
    · exact (leaves_afterChunk _).after (works_withChunkDone s)
    · exact leaves_goesOn works_refl

/-- A piece that works with few warnings works with more. -/
theorem WorksAt.mono {warns' : List Nat} (hw : ∀ k ∈ warns, k ∈ warns') (h : WorksAt warns v c s) :
    WorksAt warns' v c s :=
  have more : ∀ t, Works warns v s t → Works warns' v s t := fun _ ht =>
    ⟨ht.unworked, fun k hk hk' => ht.bits k hk fun hin => hk' (hw k hin), ht.covers, ht.rising⟩
  Ends.mono h (fun _ => more) more

end Leaving

theorem warns_subset (place : Place) : ∀ k ∈ place.warns, k ∈ warningBits := by
  have hrecord : ∀ k ∈ [9, 10], k ∈ warningBits := by decide
  cases place with
  | header => decide
  | _ => exact hrecord

/-- The turn of a unit that does not run `CLR` leaves work, settled. -/
theorem leaves_busyTurn {s t : State} (hb : s.busy = true) (hclr : s.doing ≠ .command clrCode) (h : BusyTurn s t) :
    ∃ w, Works warningBits s.shownStatus s w ∧ Settled w t := by
  cases h with
  | @command code _ hd h =>
    have hcode : code ≠ clrCode := by
      rintro rfl
      exact hclr hd
    exact leaves_runCommand (working_codeBody hcode s) t h
  | opens hd hi hc h => exact leaves_runPart (working_openCommand hc s) t h
  | @record place shown _ hd h =>
    have hrest : WorksAt warningBits s.shownStatus place.rest s := (worksAt_rest place s).mono (warns_subset place)
    rcases placeTurn_cases hb hd with ⟨u, hu, hturn⟩ | ⟨e, u, hu, hturn⟩ <;> rw [hturn] at h
    · exact (leaves_afterRecordAt place u).after (hrest.of_ok hu) t h
    · exact leaves_fails (hrest.of_error hu) e t h
  | chunkOpens hd h => exact leaves_runPart ((worksAt_chunkOpen s).mono (warns_subset .chunks)) t h

/-- The turn of a unit that runs `CLR` (R233). -/
theorem busyTurn_clr {s t : State} (hclr : s.doing = .command clrCode) (h : BusyTurn s t) :
    t = s.clearError.complete := by
  cases h with
  | command hd h =>
    cases hclr.symm.trans hd
    cases h
    rfl
  | opens hd hi hc h =>
    cases hclr.symm.trans hd
    cases hi
    cases hc
  | record hd h => cases hclr.symm.trans hd
  | chunkOpens hd h => cases hclr.symm.trans hd

/-! ### The end of a command leaves the rest alone -/

theorem Settled.memoriesRising {w t : State} (h : Settled w t) (hw : MemoriesRising w) : MemoriesRising t := by
  cases h <;> exact hw

theorem Settled.params {w t : State} (h : Settled w t) : t.params = w.params := by cases h <;> rfl

theorem Settled.idx {w t : State} (h : Settled w t) : t.idx = w.idx := by cases h <;> rfl

theorem Settled.channels {w t : State} (h : Settled w t) : t.channels = w.channels := by cases h <;> rfl

/-- The end of a command loses no warning. -/
theorem Settled.covers {w t : State} {v : BitVec 16} (h : Settled w t) (hw : Covers v w) : Covers v t := by
  intro k hlo hhi hk
  have hwk := hw k hlo hhi hk
  cases h with
  | goesOn => exact hwk
  | completes => rwa [State.complete_status, getLsbD_statusEnded _ _ (by omega), if_neg (by omega), if_neg (by omega)]
  | fails e =>
    rwa [State.takeError_status, getLsbD_statusEnded _ _ (by omega), if_neg (by omega), if_neg (by omega),
      getLsbD_statusRaised _ _ _ (by omega), if_neg (by omega), if_neg (by omega)]

/-- A turn's frame, `CLR`'s too. -/
theorem busyTurn_frame {s t : State} (hb : s.busy = true) (h : BusyTurn s t) :
    (t.params = s.params ∧ t.idx = s.idx ∧ t.channels = s.channels) ∧ (MemoriesRising s → MemoriesRising t) := by
  by_cases hclr : s.doing = .command clrCode
  · cases busyTurn_clr hclr h
    exact ⟨⟨rfl, rfl, rfl⟩, id⟩
  · obtain ⟨w, hw, hs⟩ := leaves_busyTurn hb hclr h
    exact ⟨⟨hs.params.trans hw.params, hs.idx.trans hw.idx, hs.channels.trans hw.channels⟩,
      fun hr => hs.memoriesRising (hw.rising hr)⟩

/-! ### The order of the memories' cells (R35, R36, R37) -/

theorem memoriesRising_hostRegWrite {s : State} (n v : Nat) (h : MemoriesRising s) :
    MemoriesRising (s.hostRegWrite n v) := by
  rcases hostRegWrite_cases s n v with hw | ⟨_, code, _, hw⟩ | ⟨_, hn, hw⟩ <;> rw [hw]
  · exact h
  · exact h
  · have same := sameUnit_withRegister s v hn
    rw [MemoriesRising, same.cm, same.pm, same.slb]
    exact h

/-- Settles O58: every write of a cell lists it in its place. -/
theorem memoriesStayRising : Obligations.MemoriesStayRising := by
  unfold Obligations.MemoriesStayRising
  intro s t hr h
  cases step_cases h with
  | reset => exact ⟨rfl, rfl, rfl⟩
  | regRead =>
    rw [hostRegRead_eq]
    exact hr
  | regWrite => exact memoriesRising_hostRegWrite _ _ hr
  | memoryRead => exact hr
  | cmWrite => exact memoriesRising_withCm (s := s.withAgenda _) _ _ hr
  | pmWrite => exact memoriesRising_withPm (s := s.withAgenda _) _ _ hr
  | rests => exact hr
  | @turn rest _ _ hb ht => exact (busyTurn_frame (s := s.withAgenda rest) hb ht).2 hr

/-! ### The parameters and the host's registers (R20, R38) -/

theorem idx_hostRegWrite (s : State) (v : Nat) {n : Nat} (hn : n ≠ 5) : (s.hostRegWrite n v).idx = s.idx := by
  rcases hostRegWrite_cases s n v with hw | ⟨_, code, _, hw⟩ | ⟨_, hn0, hw⟩ <;> rw [hw]
  · rfl
  · unfold State.withRegister
    split <;> first | rfl | contradiction

theorem channels_hostRegWrite (s : State) (v : Nat) {n : Nat} (hn : n ≠ 17) :
    (s.hostRegWrite n v).channels = s.channels := by
  rcases hostRegWrite_cases s n v with hw | ⟨_, code, _, hw⟩ | ⟨_, hn0, hw⟩ <;> rw [hw]
  · rfl
  · unfold State.withRegister
    split <;> first | rfl | contradiction

theorem params_hostRegWrite (s : State) (n v : Nat) : (s.hostRegWrite n v).params = s.params := by
  rcases hostRegWrite_cases s n v with hw | ⟨_, code, _, hw⟩ | ⟨_, hn, hw⟩ <;> rw [hw]
  · rfl
  · exact (sameUnit_withRegister s v hn).params

/-- Settles O60: the parameters are in no update, and the unit's work keeps `IDX` and `CHANNELS`. -/
theorem unitNeverWritesHostRegisters : Obligations.UnitNeverWritesHostRegisters := by
  unfold Obligations.UnitNeverWritesHostRegisters
  intro s t h
  cases step_cases h with
  | reset ha => exact ⟨rfl, fun _ => .inr ⟨_, ha⟩, fun _ => .inr ⟨_, ha⟩⟩
  | regRead =>
    rw [hostRegRead_eq]
    exact ⟨rfl, fun hne => absurd rfl hne, fun hne => absurd rfl hne⟩
  | @regWrite n v rest ha =>
    refine ⟨params_hostRegWrite _ n v, fun hne => .inl ?_, fun hne => .inl ?_⟩
    · have hn : n = 5 := by
        by_contra hn
        exact hne (idx_hostRegWrite _ v hn)
      exact ⟨v, rest, hn ▸ ha⟩
    · have hn : n = 17 := by
        by_contra hn
        exact hne (channels_hostRegWrite _ v hn)
      exact ⟨v, rest, hn ▸ ha⟩
  | memoryRead | cmWrite | pmWrite | rests => exact ⟨rfl, fun hne => absurd rfl hne, fun hne => absurd rfl hne⟩
  | @turn rest _ _ hb ht =>
    obtain ⟨⟨hparams, hidx, hchannels⟩, _⟩ := busyTurn_frame (s := s.withAgenda rest) hb ht
    exact ⟨hparams, fun hne => absurd hidx hne, fun hne => absurd hchannels hne⟩

/-! ### The error latch (R24, R272) -/

/-- Settles O13: a pending error leaves the host nothing that writes the latch, and the unit no command but `CLR`. -/
theorem errorLatchHolds : Obligations.ErrorLatchHolds := by
  unfold Obligations.ErrorLatchHolds
  intro s t hbusy herr h
  obtain ⟨_, _, hclr⟩ := hbusy
  cases step_cases h with
  | reset ha => exact .inr (.inl ⟨_, ha⟩)
  | regRead =>
    rw [hostRegRead_eq]
    exact .inl ⟨rfl, rfl, rfl, rfl⟩
  | @regWrite n v rest ha =>
    rcases hostRegWrite_cases (s.withAgenda rest) n v with hw | ⟨_, code, _, hw⟩ | ⟨_, hn, hw⟩ <;> rw [hw]
    · exact .inl ⟨rfl, rfl, rfl, rfl⟩
    · exact .inl ⟨State.err_accepted _ _, State.sub_accepted _ _, rfl, rfl⟩
    · have same := sameUnit_withRegister (s.withAgenda rest) v hn
      refine .inl ⟨?_, ?_, same.errIdx, same.errAddr⟩
      · rw [State.err, same.status]
        rfl
      · rw [State.sub, same.status]
        rfl
  | memoryRead | cmWrite | pmWrite | rests => exact .inl ⟨rfl, rfl, rfl, rfl⟩
  | turn hn hb => exact .inr (.inr ⟨hb, hclr hb herr, hn⟩)

/-! ### The warnings (R34, R274) -/

theorem covers_shownStatus {s : State} (h : ShownLegal s) : Covers s.shownStatus s :=
  fun k _ hhi hk => h.2 k (by omega) hk

/-- A register write, the one that is a command too, shows the host the same warnings. -/
theorem warnings_hostRegWrite (s : State) (n v k : Nat) (hlo : 8 ≤ k) (hhi : k ≤ 10) :
    (s.hostRegWrite n v).shownStatus.getLsbD k = s.shownStatus.getLsbD k := by
  rcases hostRegWrite_cases s n v with hw | ⟨hb, code, _, hw⟩ | ⟨hb, hn, hw⟩ <;> rw [hw]
  · rw [shownStatus_command (s := s.accepted code) rfl, shownStatus_idle hb, State.accepted_status,
      getLsbD_statusAccepted _ _ (by omega), if_neg (by omega), if_neg (by omega)]
  · have same := sameUnit_withRegister s v hn
    have hb' : (s.withRegister n v).busy = false := by
      rw [State.busy, same.status]
      exact hb
    rw [shownStatus_idle hb', shownStatus_idle hb, same.status]

/-- Settles O14: the unit's work covers the warnings the host reads, and a unit that stays busy shows what it showed. -/
theorem warningsAreSticky : Obligations.WarningsAreSticky := by
  unfold Obligations.WarningsAreSticky
  intro s t hshown h
  cases step_cases h with
  | reset ha => exact .inr (.inl ⟨_, ha⟩)
  | regRead =>
    rw [shownStatus_hostRegRead]
    exact .inl fun _ _ _ hk => hk
  | regWrite => exact .inl fun k hlo hhi hk => (warnings_hostRegWrite _ _ _ k hlo hhi).trans hk
  | memoryRead | cmWrite | pmWrite | rests => exact .inl fun _ _ _ hk => hk
  | @turn rest _ hn hb ht =>
    by_cases hclr : s.doing = .command clrCode
    · exact .inr (.inr ⟨hb, hclr, hn⟩)
    · refine .inl fun k hlo hhi hk => ?_
      obtain htb | htb := Bool.eq_false_or_eq_true t.busy
      · rw [shownStatus_step h hb htb]
        exact hk
      · obtain ⟨w, hw, hs⟩ := leaves_busyTurn (s := s.withAgenda rest) hb hclr ht
        rw [shownStatus_idle htb]
        exact hs.covers (hw.covers (covers_shownStatus (s := s.withAgenda rest) hshown)) k hlo hhi hk

end Sys2Proof.Machine
end

section
/-! The bounds of R40 and R310 through the unit's work: `SP`, `CLEN`, the counters of a packed payload, and the extent
of the memories. -/

namespace Sys2Proof.Machine

/-! ### Bounded states -/

/-- The memories list only cells that exist, and the counters are within R40. -/
abbrev Bounded (s : State) : Prop := MemoriesLegal s ∧ CountersLegal s

/-- The piece, run from `s`, leaves a bounded state where it raises, and `Q` where it goes on. -/
abbrev Stays {α : Type} (c : Cmd α) (s : State) (Q : α → State → Prop) : Prop := Ends c s Q Bounded

section Rules
variable {α β : Type} {c : Cmd α} {s : State} {Q Q' : α → State → Prop}

theorem Stays.imp (h : Stays c s Q) (hQ : ∀ a t, Q a t → Q' a t) : Stays c s Q' := Ends.mono h hQ fun _ ht => ht

theorem Stays.bind {f : α → Cmd β} {R : β → State → Prop} (h : Stays c s Q) (hf : ∀ a t, Q a t → Stays (f a) t R) :
    Stays (c >>= f) s R := ends_bind (h.imp hf)

theorem stays_check {ok : State → Bool} {cause : Cause} {addr : State → Nat} {R : Unit → State → Prop} (h : Bounded s)
    (hR : ok s = true → R () s) : Stays (check ok cause addr) s R := ends_check hR h

end Rules

theorem bounded_withSp {s : State} {a : Nat} (h : Bounded s) (ha : a ≤ 2 ^ 33) : Bounded (s.withSp a) := by
  obtain ⟨hmem, _, hcounters⟩ := h
  exact ⟨hmem, by rw [toNat_withSp (by omega)]; exact ha, hcounters⟩

/-- After a fetch `SP` is at most `CLEN` (R40). -/
theorem bounded_fetched {s : State} {n : Nat} (h : Bounded s) (hr : s.readable s.sp.toNat n = true) :
    Bounded (s.withSp (s.sp.toNat + n)) := by
  have hclen : s.clen.toNat ≤ 2 ^ 33 := by
    obtain ⟨_, _, hclen, _⟩ := h
    exact hclen
  exact bounded_withSp h (((readable_iff _ _ _).1 hr).1.trans hclen)

theorem bounded_loose {s : State} (odd : Bool) (h : Bounded s) : Bounded (s.loosePm.withWarnOdd odd) := by
  obtain ⟨⟨hcm, _, hslb⟩, hcounters⟩ := h
  exact ⟨⟨hcm, PixelMem.wf_fresh _ _, hslb⟩, hcounters⟩

theorem bounded_withPm {s : State} {i : Nat} (p : Pixel) (h : Bounded s) (hi : i < 65536) : Bounded (s.withPm i p) := by
  obtain ⟨⟨hcm, hpm, hslb⟩, hcounters⟩ := h
  exact ⟨⟨hcm, PixelMem.wf_write _ _ hpm hi, hslb⟩, hcounters⟩

/-- The slice fills the pixels of an image of legal dimensions (R36, R198). -/
theorem bounded_sliced {s : State} (h : Bounded s) (hd : s.dimsOk = true) : Bounded s.sliced := by
  obtain ⟨⟨hcm, hpm, hslb⟩, hcounters⟩ := h
  rw [sliced_eq]
  refine ⟨⟨hcm, PixelMem.wf_putRange _ _ _ _ _ hpm ?_, hslb⟩, hcounters⟩
  rw [Nat.zero_add]
  exact (pixelCount_bounds hd).2

section Reads
variable {s : State} {stage : Stage}

theorem stays_readU8 {Q : Byte → State → Prop} (h : Bounded s)
    (hQ : ∀ v t, Bounded t → t = s.withSp (s.sp.toNat + 1) → Q v t) : Stays (readU8 stage) s Q :=
  ends_readU8 (fun hr v => hQ v _ (bounded_fetched h hr) rfl) h

theorem stays_readU16 {Q : U16 → State → Prop} (h : Bounded s)
    (hQ : ∀ v t, Bounded t → t = s.withSp (s.sp.toNat + 2) → Q v t) : Stays (readU16 stage) s Q :=
  ends_readU16 (fun hr v => hQ v _ (bounded_fetched h hr) rfl) h

theorem stays_readU32 {Q : U32 → State → Prop} (h : Bounded s)
    (hQ : ∀ v t, Bounded t → t = s.withSp (s.sp.toNat + 4) → Q v t) : Stays (readU32 stage) s Q :=
  ends_readU32 (fun hr v => hQ v _ (bounded_fetched h hr) rfl) h

end Reads

/-! ### The headers -/

theorem stays_headerBody {s : State} (h : Bounded s) : Stays headerBody s fun _ => Bounded :=
  ends_bind <| stays_readU32 h fun _ _ h _ => ends_bind <| stays_check h fun _ => ends_bind <|
    stays_readU16 h fun _ _ h _ => ends_bind <| stays_readU16 h fun _ _ h _ => ends_bind <|
    stays_readU16 h fun _ _ h _ => ends_bind <| stays_readU16 h fun _ _ h _ => ends_bind <|
    stays_check h fun _ => ends_change h

theorem stays_imageHeaderBody {s : State} (h : Bounded s) : Stays imageHeaderBody s fun _ => Bounded :=
  ends_bind <| stays_readU8 h fun _ _ h _ => ends_bind <| stays_readU8 h fun _ _ h _ => ends_bind <|
    stays_readU16 h fun _ _ h _ => ends_bind <| stays_readU32 h fun _ _ h _ => ends_bind <|
    stays_readU32 h fun _ _ h _ => ends_bind <| stays_check h fun _ => ends_change h

/-- The image header table ends far below the end of `CM`. -/
theorem ihdrAddr_add_le (i : BitVec 16) : ihdrAddr i + 12 ≤ 2 ^ 33 := by
  have := ihdrAddr_le i
  omega

theorem bounded_seek_ihdr {s : State} (h : Bounded s) : Bounded (s.withSp (ihdrAddr s.idx)) :=
  bounded_withSp h ((Nat.le_add_right _ 12).trans (ihdrAddr_add_le s.idx))

theorem stays_hdrGet {s : State} (h : Bounded s) : Stays hdrGet s fun _ => Bounded :=
  ends_bind <| ends_change <| stays_headerBody (bounded_withSp h (Nat.zero_le _))

theorem stays_ihdrGet {s : State} (h : Bounded s) : Stays ihdrGet s fun _ => Bounded :=
  ends_bind <| ends_change <| stays_imageHeaderBody (bounded_seek_ihdr h)

/-! ### The raw payload -/

/-- The pixel loop reaches at most pixel `i + n`. -/
theorem stays_rawDecLoop {n i : Nat} {s : State} (h : Bounded s) (hi : i + n ≤ 65536) :
    Stays (rawDecLoop n i) s fun _ => Bounded := by
  induction n generalizing i s with
  | zero => exact ends_of_ok (cmd_pure () s) h
  | succ n ih =>
    exact ends_bind <| stays_readU16 h fun v t ht _ => ends_bind <| ends_change <|
      ih (bounded_withPm (to24 v) ht (by omega)) (by omega)

theorem bounded_seek_offset {s : State} (h : Bounded s) (off : BitVec 32) : Bounded (s.withSp off.toNat) :=
  bounded_withSp h (by have := off.isLt; omega)

theorem stays_payload {c : Cmd Unit} {s : State} (h : Stays c s fun _ => Bounded) :
    Stays (payload c) s fun _ => Bounded := ends_payload h fun _ => bounded_loose _

theorem stays_openedPayload {c : Cmd Unit} {s : State} {Q : Unit → State → Prop} (h : Stays c s Q) :
    Stays (openedPayload c) s Q := ends_openedPayload h fun _ => bounded_loose _

theorem stays_rawDec {s : State} (h : Bounded s) : Stays rawDec s fun _ => Bounded := by
  refine ends_bind <| stays_check h fun hd => ends_bind <| ends_change <| ends_get_bind <| stays_payload ?_
  have hcount := (pixelCount_bounds hd).2
  exact stays_rawDecLoop (bounded_seek_offset h _) ((Nat.zero_add _).trans_le hcount)

/-! ### Stores -/

/-- The state is bounded, and `n` bytes can still be stored at `SP` inside `CM`. -/
def Room (n : Nat) (s : State) : Prop := Bounded s ∧ s.sp.toNat + n ≤ 2 ^ 33

theorem room_withSp {s : State} {a n : Nat} (h : Bounded s) (ha : a + n ≤ 2 ^ 33) : Room n (s.withSp a) :=
  ⟨bounded_withSp h (by omega), by rw [toNat_withSp (by omega)]; exact ha⟩

/-- A store uses up its room. -/
theorem stays_storeField {bytes : List Byte} {s : State} {m n : Nat} {Q : Unit → State → Prop} (h : Room m s)
    (hm : bytes.length + n = m) (hQ : ∀ t, Room n t → Q () t) : Stays (storeField bytes) s Q := by
  obtain ⟨⟨⟨hcm, hpm, hslb⟩, hsp, hclen, hcounters⟩, hroom⟩ := h
  have hsp' : (s.stored s.sp.toNat bytes).sp.toNat = s.sp.toNat + bytes.length := toNat_sp_stored _ _ _ (by omega)
  have hclen' : (s.stored s.sp.toNat bytes).clen.toNat ≤ 2 ^ 33 := by
    rw [State.stored_clen, BitVec.toNat_ofNat, Nat.mod_eq_of_lt (by omega)]
    omega
  have hcm' := ByteMem.wf_writeBytes s.cm bytes hcm (a := s.sp.toNat) (by rw [Config.cmCells]; omega)
  exact ends_storeField (hQ _ ⟨⟨⟨hcm', hpm, hslb⟩, by omega, hclen', hcounters⟩, by omega⟩)
    ⟨⟨hcm, hpm, hslb⟩, hsp, hclen, hcounters⟩

theorem stays_hdrPut {s : State} (h : Bounded s) : Stays hdrPut s fun _ => Bounded := by
  obtain ⟨hmem, hsp, _, hcounters⟩ := h
  have hnew : Bounded s.withNewContainer := ⟨hmem, hsp, Nat.zero_le _, hcounters⟩
  have hroom : Room 12 (s.withNewContainer.withSp 0) := room_withSp hnew (by decide)
  exact ends_bind <| ends_change <| ends_bind <| ends_change <| ends_get_bind <| ends_bind <|
    stays_storeField hroom (n := 8) rfl fun _ h => ends_get_bind <| ends_bind <|
    stays_storeField h (n := 6) rfl fun _ h => ends_get_bind <| ends_bind <|
    stays_storeField h (n := 4) rfl fun _ h => ends_get_bind <| ends_bind <|
    stays_storeField h (n := 2) rfl fun _ h => ends_get_bind <|
    stays_storeField h (n := 0) rfl fun _ h => h.1

theorem stays_ihdrPut {s : State} (h : Bounded s) : Stays ihdrPut s fun _ => Bounded := by
  have hroom : Room 12 (s.withHeaderConstants.withSp (ihdrAddr s.idx)) :=
    room_withSp (s := s.withHeaderConstants) h (ihdrAddr_add_le s.idx)
  exact ends_bind <| stays_check h fun _ => ends_bind <| stays_check h fun _ => ends_bind <| ends_change <|
    ends_bind <| ends_change <| ends_get_bind <| ends_bind <|
    stays_storeField hroom (n := 11) rfl fun _ h => ends_get_bind <| ends_bind <|
    stays_storeField h (n := 10) rfl fun _ h => ends_get_bind <| ends_bind <|
    stays_storeField h (n := 8) rfl fun _ h => ends_get_bind <| ends_bind <|
    stays_storeField h (n := 4) rfl fun _ h => ends_get_bind <|
    stays_storeField h (n := 0) rfl fun _ h => h.1

theorem stays_rawEncLoop {n i : Nat} {s : State} (h : Room (2 * n) s) : Stays (rawEncLoop n i) s fun _ => Bounded := by
  induction n generalizing i s with
  | zero => exact ends_of_ok (cmd_pure () s) h.1
  | succ n ih =>
    exact ends_get_bind <| ends_bind <| stays_storeField h (n := 2 * n) (by simp; omega) fun t ht => ih ht

theorem stays_rawEnc {s : State} (h : Bounded s) : Stays rawEnc s fun _ => Bounded := by
  refine ends_bind <| stays_check h fun hd => ends_bind <| ends_change <| ends_get_bind <| stays_rawEncLoop ?_
  have hcount : s.pixelCount ≤ 65536 := (pixelCount_bounds hd).2
  have hoff := s.unpackedOff.isLt
  refine room_withSp h ?_
  show s.unpackedOff.toNat + 2 * s.pixelCount ≤ 2 ^ 33
  omega

theorem stays_imgEnc {s : State} (h : Bounded s) : Stays imgEnc s fun _ => Bounded :=
  ends_bind <| stays_check h fun _ => ends_bind <| stays_check h fun _ => ends_bind <| stays_check h fun _ =>
    ends_bind <| stays_check h fun _ => ends_bind <| ends_change <|
      (stays_ihdrPut (s := s.withPlacement) h).bind fun _ _ h => (stays_rawEnc h).bind fun _ _ h => ends_change h

/-! ### The packed payload (R193 to R197, R40) -/

/-- The counters between two chunks: a chunk adds at most 32767 skipped pixels and 65536 run pixels, and a carry moves
`PREC` into `CUR`. -/
structure BetweenChunks (s : State) : Prop where
  packedOk : PackedOk s
  nrun : s.nrun = 0
  prec : s.prec.toNat ≤ (65536 - s.nchunk.toNat) * 65536
  cur : s.cur.toNat + s.prec.toNat ≤ (65536 - s.nchunk.toNat) * (32767 + 2 * 65536)

/-- The counters inside a chunk, `NRUN` run pixels before its end. -/
structure InChunk (s : State) : Prop where
  packedOk : PackedOk s
  nchunk : 0 < s.nchunk.toNat
  prec : s.prec.toNat + s.nrun.toNat ≤ (65537 - s.nchunk.toNat) * 65536
  cur : s.cur.toNat + s.prec.toNat + 2 * s.nrun.toNat ≤ (65537 - s.nchunk.toNat) * (32767 + 2 * 65536)

/-- Either outcome of the carry moves the skip into `CUR`, and `PREC` with it or not (R194). -/
theorem carry_bounds (l p o : Nat) : (carry l p o).1 + (carry l p o).2 = o + p ∧ (carry l p o).2 ≤ p := by
  unfold carry
  split <;> simp

theorem storedCount_bounds (v : U16) : 1 ≤ storedCount v ∧ storedCount v ≤ 65536 := by
  have := v.isLt
  unfold storedCount
  omega

theorem halfOffset_le (v : U16) : halfOffset v ≤ 32767 := by
  have := v.isLt
  unfold halfOffset
  omega

/-- The head of a chunk keeps the counters within their bounds. -/
theorem inChunk_withChunkHead {s : State} (ob rs : U16) (hs : Bounded s) (h : BetweenChunks s)
    (hn : 0 < s.nchunk.toNat) :
    Bounded (s.withChunkHead ob rs) ∧ InChunk (s.withChunkHead ob rs) ∧
      (s.withChunkHead ob rs).nrun.toNat = storedCount rs := by
  obtain ⟨hmem, hsp, hclen, _, _, hnchunk, _⟩ := hs
  obtain ⟨hcarry, hle⟩ := carry_bounds s.scanLineLen.toNat s.prec.toNat (halfOffset ob)
  have hhalf := halfOffset_le ob
  obtain ⟨hpos, hcount⟩ := storedCount_bounds rs
  have hprec := h.prec
  have hcur := h.cur
  have hcur' : (s.withChunkHead ob rs).cur.toNat =
      s.cur.toNat + (carry s.scanLineLen.toNat s.prec.toNat (halfOffset ob)).1 := by
    rw [State.withChunkHead_cur, BitVec.toNat_ofNat, Nat.mod_eq_of_lt (by omega)]
  have hprec' : (s.withChunkHead ob rs).prec.toNat =
      (carry s.scanLineLen.toNat s.prec.toNat (halfOffset ob)).2 := by
    rw [State.withChunkHead_prec, BitVec.toNat_ofNat, Nat.mod_eq_of_lt (by omega)]
  have hnrun' : (s.withChunkHead ob rs).nrun.toNat = storedCount rs := by
    rw [State.withChunkHead_nrun, BitVec.toNat_ofNat, Nat.mod_eq_of_lt (by omega)]
  refine ⟨⟨hmem, hsp, hclen, by omega, by omega, hnchunk, by omega⟩, ⟨h.packedOk, hn, ?_, ?_⟩, hnrun'⟩
  · rw [hprec', hnrun', State.withChunkHead_nchunk]
    omega
  · rw [hcur', hprec', hnrun', State.withChunkHead_nchunk]
    omega

/-- A run pixel lands inside `SLB` or nowhere, and moves the counters by one. -/
theorem inChunk_withRunPixel {s : State} (v : U16) (hs : Bounded s) (h : InChunk s) (hn : 0 < s.nrun.toNat) :
    Bounded (s.withRunPixel v) ∧ InChunk (s.withRunPixel v) ∧
      (s.withRunPixel v).nrun.toNat + 1 = s.nrun.toNat := by
  obtain ⟨⟨hcm, hpm, hslb⟩, hsp, hclen, _, _, hnchunk, hnrun⟩ := hs
  have hprec := h.prec
  have hcur := h.cur
  have hpos := h.nchunk
  have hcur' : (s.withRunPixel v).cur.toNat = s.cur.toNat + 1 := by
    rw [State.withRunPixel_cur, BitVec.toNat_ofNat, Nat.mod_eq_of_lt (by omega)]
  have hprec' : (s.withRunPixel v).prec.toNat = s.prec.toNat + 1 := by
    rw [State.withRunPixel_prec, BitVec.toNat_ofNat, Nat.mod_eq_of_lt (by omega)]
  have hnrun' : (s.withRunPixel v).nrun.toNat + 1 = s.nrun.toNat := by
    rw [State.withRunPixel_nrun]
    bv_omega
  have hslb' : (s.withRunPixel v).slb.wf slbDepthMax = true := by
    rw [State.withRunPixel_slb]
    split
    · refine PixelMem.wf_write _ _ hslb (lt_of_lt_of_le ‹_› ?_)
      have hl := s.scanLineLen.isLt
      exact (Nat.mul_le_mul (Nat.le_of_lt_succ hl) ((dimsOk_iff s).1 h.packedOk.1).2.2).trans (by decide)
    · exact hslb
  refine ⟨⟨⟨hcm, hpm, hslb'⟩, hsp, hclen, by omega, by omega, hnchunk, by omega⟩, ⟨h.packedOk, hpos, ?_, ?_⟩, hnrun'⟩
  · rw [hprec', State.withRunPixel_nchunk]
    omega
  · rw [hcur', hprec', State.withRunPixel_nchunk]
    omega

/-- The end of a chunk. -/
theorem betweenChunks_withChunkDone {s : State} (hs : Bounded s) (h : InChunk s) (hn : s.nrun = 0) :
    Bounded s.withChunkDone ∧ BetweenChunks s.withChunkDone ∧ s.withChunkDone.nchunk.toNat + 1 = s.nchunk.toNat := by
  obtain ⟨hmem, hsp, hclen, hp, hc, hnchunk, hnrun⟩ := hs
  have hprec := h.prec
  have hcur := h.cur
  have hpos := h.nchunk
  have hnrun0 : s.nrun.toNat = 0 := by rw [hn]; rfl
  have hnchunk' : s.withChunkDone.nchunk.toNat + 1 = s.nchunk.toNat := by
    rw [State.withChunkDone_nchunk]
    bv_omega
  refine ⟨⟨hmem, hsp, hclen, hp, hc, by omega, hnrun⟩, ⟨h.packedOk, hn, ?_, ?_⟩, hnchunk'⟩
  · rw [State.withChunkDone_prec]
    omega
  · rw [State.withChunkDone_cur, State.withChunkDone_prec]
    omega

theorem stays_chunkHead {s : State} (hs : Bounded s) (h : BetweenChunks s) (hn : 0 < s.nchunk.toNat) :
    Stays chunkHead s fun n t => Bounded t ∧ InChunk t ∧ 0 < n ∧ t.nrun.toNat = n := by
  refine ends_bind <| stays_readU16 hs fun ob t ht hts => ends_bind <| stays_readU16 ht fun rs u hu hus => ends_bind <|
    ends_change <| ends_of_ok (cmd_pure _ _) ?_
  have hbetween : BetweenChunks u := by
    rw [hus, hts]
    exact ⟨h.packedOk, h.nrun, h.prec, h.cur⟩
  obtain ⟨hbounded, hin, hnrun⟩ := inChunk_withChunkHead ob rs hu hbetween (by rw [hus, hts]; exact hn)
  exact ⟨hbounded, hin, (storedCount_bounds rs).1, hnrun⟩

theorem stays_runLoop {n : Nat} {s : State} (hs : Bounded s) (h : InChunk s) (hn : n ≤ s.nrun.toNat) :
    Stays (runLoop n) s fun _ t => Bounded t ∧ InChunk t ∧ t.nrun.toNat + n = s.nrun.toNat := by
  induction n generalizing s with
  | zero => exact ends_of_ok (cmd_pure () s) ⟨hs, h, rfl⟩
  | succ n ih =>
    refine ends_bind <| stays_readU16 hs fun v t ht hts => ends_bind <| ends_change ?_
    have hin : InChunk t := by
      rw [hts]
      exact ⟨h.packedOk, h.nchunk, h.prec, h.cur⟩
    have hnrun : t.nrun = s.nrun := by
      rw [hts]
      rfl
    obtain ⟨hbounded, hin', hleft⟩ := inChunk_withRunPixel v ht hin (by rw [hnrun]; omega)
    rw [hnrun] at hleft
    exact (ih hbounded hin' (by omega)).imp fun _ u ⟨hu, hui, huleft⟩ => ⟨hu, hui, by omega⟩

theorem stays_chunkStep {s : State} (hs : Bounded s) (h : BetweenChunks s) (hn : 0 < s.nchunk.toNat) :
    Stays chunkStep s fun _ t => Bounded t ∧ BetweenChunks t := by
  refine (stays_chunkHead hs h hn).bind fun n t ⟨ht, hin, _, hnrun⟩ => ?_
  refine (stays_runLoop ht hin hnrun.ge).bind fun _ u ⟨hu, huin, hleft⟩ => ends_change ?_
  have hnrun0 : u.nrun = 0 := BitVec.eq_of_toNat_eq (by simpa using (show u.nrun.toNat = 0 by omega))
  obtain ⟨hdone, hbetween, _⟩ := betweenChunks_withChunkDone hu huin hnrun0
  exact ⟨hdone, hbetween⟩

theorem stays_chunkLoop {n : Nat} {s : State} (hs : Bounded s) (h : BetweenChunks s) (hn : s.nchunk.toNat = n) :
    Stays (chunkLoop n) s fun _ t => Bounded t ∧ BetweenChunks t := by
  induction n generalizing s with
  | zero => exact ends_of_ok (cmd_pure () s) ⟨hs, h⟩
  | succ n ih =>
    refine Stays.bind (stays_chunkStep hs h (by omega)).of_eq fun _ t ⟨hc, ht, hbetween⟩ => ?_
    have hnchunk := chunkStep_nchunk hc
    exact ih ht hbetween (by rw [hnchunk]; bv_omega)

/-- What `PK_DEC` has checked and cleared when it begins to fetch (R190 to R192). -/
structure StreamBegun (s : State) : Prop where
  packedOk : PackedOk s
  cur : s.cur = 0
  prec : s.prec = 0
  nchunk : s.nchunk = 0
  nrun : s.nrun = 0

theorem stays_packedStart {s : State} (h : Bounded s) :
    Stays packedStart s fun _ t => Bounded t ∧ StreamBegun t := by
  refine ends_bind <| ends_bind <| stays_check h fun hdims => ends_bind <| stays_check h fun hline =>
    stays_check h fun hwidth => ends_change ?_
  obtain ⟨⟨hcm, hpm, _⟩, _, hclen, _⟩ := h
  have hlt := s.packedOff.isLt
  have hoff : s.withPackedStart.sp.toNat = s.packedOff.toNat := toNat_withSp (s := s) (by omega)
  have hlen : 0 < s.scanLineLen.toNat := by
    have : s.scanLineLen ≠ 0 := by simpa using hline
    bv_omega
  refine ⟨⟨⟨hcm, hpm, PixelMem.wf_cleared _⟩, ?_, hclen, Nat.zero_le _, Nat.zero_le _, Nat.zero_le _, Nat.zero_le _⟩,
    ⟨hdims, hlen, of_decide_eq_true hwidth⟩, rfl, rfl, rfl, rfl⟩
  rw [hoff]
  omega

theorem stays_preambleStep {s : State} (hs : Bounded s) (h : StreamBegun s) :
    Stays preambleStep s fun _ t => Bounded t ∧ BetweenChunks t ∧ 0 < t.nchunk.toNat := by
  refine ends_bind <| stays_readU16 hs fun m t ht hts => ends_change ?_
  obtain ⟨hmem, hsp, hclen, hprec, hcur, _, hnrun⟩ := ht
  obtain ⟨hpos, hcount⟩ := storedCount_bounds m
  have hnchunk : (t.withChunkCount m).nchunk.toNat = storedCount m := by
    rw [State.withChunkCount_nchunk, BitVec.toNat_ofNat, Nat.mod_eq_of_lt (by omega)]
  have hcur0 : t.cur.toNat = 0 := by rw [hts, State.withSp_cur, h.cur]; rfl
  have hprec0 : t.prec.toNat = 0 := by rw [hts, State.withSp_prec, h.prec]; rfl
  refine ⟨⟨hmem, hsp, hclen, hprec, hcur, by omega, hnrun⟩, ⟨?_, ?_, ?_, ?_⟩, by omega⟩
  · rw [hts]
    exact h.packedOk
  · rw [hts]
    exact h.nrun
  · rw [State.withChunkCount_prec]
    omega
  · rw [State.withChunkCount_cur, State.withChunkCount_prec]
    omega

theorem stays_packedBody {s : State} (hs : Bounded s) (h : StreamBegun s) : Stays packedBody s fun _ => Bounded :=
  (stays_preambleStep hs h).bind fun _ _ ⟨ht, hbetween, _⟩ => ends_get_bind <|
    (stays_chunkLoop ht hbetween rfl).bind fun _ _ ⟨hu, hend⟩ => ends_change (bounded_sliced hu hend.packedOk.1)

theorem stays_pkDec {s : State} (h : Bounded s) : Stays pkDec s fun _ => Bounded :=
  (stays_packedStart h).bind fun _ _ ⟨ht, hbegun⟩ => stays_payload (stays_packedBody ht hbegun)

/-! ### Every command -/

theorem stays_imgDec {s : State} (h : Bounded s) : Stays imgDec s fun _ => Bounded := by
  refine ends_bind <| stays_check h fun _ => (stays_ihdrGet h).bind fun _ t ht => ends_get_bind ?_
  split
  · exact stays_rawDec ht
  · exact stays_pkDec ht

theorem stays_commandBody (i : Instr) {s : State} (h : Bounded s) : Stays (commandBody i) s fun _ => Bounded := by
  cases i with
  | to16 => exact ends_change (f := State.withRgb16) h
  | to24 => exact ends_change (f := State.withRgb24) h
  | clr => exact ends_change (f := State.clearError) h
  | hdrGet => exact stays_hdrGet h
  | ihdrGet => exact stays_ihdrGet h
  | rawDec => exact stays_rawDec h
  | pkDec => exact stays_pkDec h
  | imgDec => exact stays_imgDec h
  | hdrPut => exact stays_hdrPut h
  | ihdrPut => exact stays_ihdrPut h
  | rawEnc => exact stays_rawEnc h
  | imgEnc => exact stays_imgEnc h
  | _ => exact ends_of_ok (cmd_pure () s) h

theorem stays_codeBody (code : Byte) {s : State} (h : Bounded s) : Stays (codeBody code) s fun _ => Bounded := by
  rcases codeBody_cases code with ⟨i, _, _, _, hbody⟩ | ⟨_, hbody⟩ <;> rw [hbody]
  · exact stays_commandBody i h
  · exact ends_of_error (raise_apply _ _ s) h

end Sys2Proof.Machine
end

section
/-! The invariant of the machine (R24, R40, R42, R310): each step keeps it. A step of the host finds the unit idle or
leaves it alone; a turn ends its command, or leaves it standing at a record with its counters in step. -/

namespace Sys2Proof.Machine

/-! ### The record an opened command stands at -/

/-- What is so where an opened command stands at this record (R40, R190 to R196). -/
def Place.Stands : Place → State → Prop
  | .header, _ => True
  | .imageHeader _, _ => True
  | .rawPixels, s =>
    s.dimsOk = true ∧ s.unpackedOff.toNat ≤ s.sp.toNat ∧ s.sp.toNat < s.unpackedOff.toNat + 2 * s.pixelCount ∧
      (s.sp.toNat - s.unpackedOff.toNat) % 2 = 0
  | .preamble, s => StreamBegun s
  | .chunks, s => BetweenChunks s ∧ 0 < s.nchunk.toNat
  | .runPixels, s => InChunk s ∧ 0 < s.nrun.toNat

/-- What is so when this record has been worked through and the sequencer has not gone on yet. -/
def Place.Passed : Place → State → Prop
  | .header, _ => True
  | .imageHeader _, _ => True
  | .rawPixels, s =>
    s.dimsOk = true ∧ s.unpackedOff.toNat ≤ s.sp.toNat ∧ s.sp.toNat ≤ s.unpackedOff.toNat + 2 * s.pixelCount ∧
      (s.sp.toNat - s.unpackedOff.toNat) % 2 = 0
  | .preamble, s => BetweenChunks s ∧ 0 < s.nchunk.toNat
  | .chunks, s => BetweenChunks s
  | .runPixels, s => InChunk s

theorem streamLegal_of_place_none {s : State} (h : s.doing.place = none) : StreamLegal s := by
  simp [StreamLegal, h]

theorem stands_of_streamLegal {s : State} {place : Place} (h : StreamLegal s) (hd : s.doing.place = some place) :
    place.Stands s := by
  obtain ⟨hraw, hpreamble, hchunks, hrun⟩ := h
  cases place with
  | header => trivial
  | imageHeader _ => trivial
  | rawPixels => exact hraw hd
  | preamble =>
    obtain ⟨hok, hcur, hprec, hnchunk, hnrun⟩ := hpreamble hd
    exact ⟨hok, hcur, hprec, hnchunk, hnrun⟩
  | chunks =>
    obtain ⟨hok, hpos, hnrun, hprec, hcur⟩ := hchunks hd
    exact ⟨⟨hok, hnrun, hprec, hcur⟩, hpos⟩
  | runPixels =>
    obtain ⟨hok, hpos, hnrun, hprec, hcur⟩ := hrun hd
    exact ⟨⟨hok, hpos, hprec, hcur⟩, hnrun⟩

theorem streamLegal_of_stands {s : State} {place : Place} (hd : s.doing.place = some place) (h : place.Stands s) :
    StreamLegal s := by
  have other : ∀ q, s.doing.place = some q → place = q := fun q hq => Option.some.inj (hd.symm.trans hq)
  refine ⟨fun hq => ?_, fun hq => ?_, fun hq => ?_, fun hq => ?_⟩ <;> cases other _ hq
  · exact h
  · exact ⟨h.packedOk, h.cur, h.prec, h.nchunk, h.nrun⟩
  · exact ⟨h.1.packedOk, h.2, h.1.nrun, h.1.prec, h.1.cur⟩
  · exact ⟨h.1.packedOk, h.1.nchunk, h.2, h.1.prec, h.1.cur⟩

/-! ### A record's work keeps the bounds -/

theorem stays_rawPixelRead {s : State} (hs : Bounded s) (h : Place.rawPixels.Stands s) :
    Stays rawPixelRead s fun _ t => Bounded t ∧ Place.rawPixels.Passed t := by
  obtain ⟨hdims, hlow, hhigh, hpar⟩ := h
  have hcount := (pixelCount_bounds hdims).2
  have hindex : s.rawIndex < 65536 := by
    unfold State.rawIndex
    omega
  refine ends_get_bind <| ends_bind <| stays_readU16 hs fun v t ht hts => ends_change ?_
  have hsp : t.sp.toNat = s.sp.toNat + 2 := by
    rw [hts]
    exact toNat_withSp (by have := hs.2.1; omega)
  refine ⟨bounded_withPm _ ht hindex, ?_⟩
  subst hts
  refine ⟨hdims, ?_, ?_, ?_⟩
  · rw [State.withPm_sp, hsp]
    exact hlow.trans (Nat.le_add_right _ 2)
  · rw [State.withPm_sp, hsp]
    show s.sp.toNat + 2 ≤ s.unpackedOff.toNat + 2 * s.pixelCount
    omega
  · rw [State.withPm_sp, hsp]
    show (s.sp.toNat + 2 - s.unpackedOff.toNat) % 2 = 0
    omega

theorem stays_rest {place : Place} {s : State} (hs : Bounded s) (h : place.Stands s) :
    Stays place.rest s fun _ t => Bounded t ∧ place.Passed t := by
  cases place with
  | header => exact (stays_headerBody hs).imp fun _ _ ht => ⟨ht, trivial⟩
  | imageHeader _ => exact (stays_imageHeaderBody hs).imp fun _ _ ht => ⟨ht, trivial⟩
  | rawPixels => exact stays_openedPayload (stays_rawPixelRead hs h)
  | preamble => exact stays_openedPayload (stays_preambleStep hs h)
  | chunks => exact stays_openedPayload (stays_chunkStep hs h.1 h.2)
  | runPixels =>
    obtain ⟨hin, hpos⟩ := h
    exact stays_openedPayload <| (stays_runLoop hs hin hpos).imp fun _ _ ⟨ht, hin, _⟩ => ⟨ht, hin⟩

/-! ### `STATUS` and the latch -/

/-- The bits of `STATUS` but `BUSY`, `DONE` and the warnings are the same. -/
def SameFields (s t : State) : Prop :=
  ∀ k, 2 ≤ k → k < 16 → k ∉ warningBits → t.status.getLsbD k = s.status.getLsbD k

section Fields
variable {s t : State}

theorem SameFields.err (h : SameFields s t) : t.err = s.err := by
  refine err_eq_of_bits fun i hi => ?_
  rw [h (4 + i) (by omega) (by omega) (by simp [warningBits]; omega)]
  simp [State.err, hi]

theorem SameFields.sub (h : SameFields s t) : t.sub = s.sub := by
  refine sub_eq_of_bits fun i hi => ?_
  rw [h (12 + i) (by omega) (by omega) (by simp [warningBits]; omega)]
  simp [State.sub, hi]

theorem SameFields.statusLegal (h : SameFields s t) (hs : StatusLegal s) : StatusLegal t := by
  obtain ⟨⟨h2, h3, h7, h11⟩, herr⟩ := hs
  refine ⟨⟨?_, ?_, ?_, ?_⟩, by rwa [h.err]⟩
  · exact (h 2 (by decide) (by decide) (by decide)).trans h2
  · exact (h 3 (by decide) (by decide) (by decide)).trans h3
  · exact (h 7 (by decide) (by decide) (by decide)).trans h7
  · exact (h 11 (by decide) (by decide) (by decide)).trans h11

theorem SameFields.latchLegal (h : SameFields s t) (hidx : t.errIdx = s.errIdx) (haddr : t.errAddr = s.errAddr)
    (hs : LatchLegal s) : LatchLegal t := by
  rw [LatchLegal, h.err, h.sub, hidx, haddr]
  exact hs

theorem sameFields_complete (s : State) : SameFields s s.complete := fun k hlo hhi _ => by
  rw [State.complete_status, getLsbD_statusEnded _ _ hhi, if_neg (by omega), if_neg (by omega)]

theorem sameFields_accepted (s : State) (code : Byte) : SameFields s (s.accepted code) := fun k hlo hhi _ => by
  rw [State.accepted_status, getLsbD_statusAccepted _ _ hhi, if_neg (by omega), if_neg (by omega)]

theorem Works.sameFields {v : BitVec 16} (h : Works warningBits v s t) : SameFields s t :=
  fun k _ hhi hk => h.bits k hhi hk

theorem SameFields.trans {u : State} (h : SameFields s t) (h' : SameFields t u) : SameFields s u :=
  fun k hlo hhi hk => (h' k hlo hhi hk).trans (h k hlo hhi hk)

/-- No error's code is 0, which is none, or 7, which is reserved (R42, R261). -/
theorem code_ne (c : Cause) : c.code ≠ 0 ∧ c.code ≠ 7 := by
  cases c <;> simp [Cause.code]

theorem statusLegal_takeError (e : Raise) (hs : StatusLegal s) : StatusLegal (s.takeError e) := by
  obtain ⟨⟨h2, h3, h7, h11⟩, _⟩ := hs
  have kept : ∀ k, k = 2 ∨ k = 3 ∨ k = 7 ∨ k = 11 → (s.takeError e).status.getLsbD k = s.status.getLsbD k := by
    intro k hk
    rw [State.takeError_status, getLsbD_statusEnded _ _ (by omega), if_neg (by omega), if_neg (by omega),
      getLsbD_statusRaised _ _ _ (by omega), if_neg (by omega), if_neg (by omega)]
  refine ⟨⟨(kept 2 (by decide)).trans h2, (kept 3 (by decide)).trans h3, (kept 7 (by decide)).trans h7,
    (kept 11 (by decide)).trans h11⟩, ?_⟩
  rw [State.err_takeError]
  exact (code_ne e.cause).2

theorem statusLegal_clearError (hs : StatusLegal s) : StatusLegal s.clearError := by
  obtain ⟨⟨h2, h3, h7, h11⟩, _⟩ := hs
  have kept : ∀ k, k = 2 ∨ k = 3 ∨ k = 7 ∨ k = 11 → s.clearError.status.getLsbD k = s.status.getLsbD k := by
    intro k hk
    rw [State.clearError_status, getLsbD_statusCleared _ _ (by omega), if_neg (by omega)]
  refine ⟨⟨(kept 2 (by decide)).trans h2, (kept 3 (by decide)).trans h3, (kept 7 (by decide)).trans h7,
    (kept 11 (by decide)).trans h11⟩, ?_⟩
  rw [State.err_clearError]
  decide

end Fields

/-! ### The invariant where no command is in progress -/

section Idle
variable {s t : State}

theorem Inv.bounded (h : Inv s) : Bounded s := by
  obtain ⟨_, _, _, hmem, hcounters, _⟩ := h
  exact ⟨hmem, hcounters⟩

theorem inv_idle (hb : s.busy = false) (hd : s.doing = .idle) (hst : StatusLegal s) (hl : LatchLegal s)
    (h : Bounded s) : Inv s := by
  have hbusy : BusyLegal s := by simp [BusyLegal, hb, hd]
  have hshown : ShownLegal s := by
    rw [ShownLegal, shownStatus_idle hb]
    exact ⟨fun _ _ _ _ => rfl, fun _ _ hk => hk⟩
  exact ⟨hst, hl, hbusy, h.1, h.2, streamLegal_of_place_none (by rw [hd]; rfl), hshown⟩

theorem inv_complete {v : BitVec 16} (hs : Inv s) (hw : Works warningBits v s t) (h : Bounded t) :
    Inv t.complete := by
  obtain ⟨hst, hl, _⟩ := hs
  have same := hw.sameFields.trans (sameFields_complete t)
  exact inv_idle t.busy_complete rfl (same.statusLegal hst) (same.latchLegal hw.errIdx hw.errAddr hl) h

theorem inv_takeError {v : BitVec 16} (hs : Inv s) (hw : Works warningBits v s t) (h : Bounded t) (e : Raise) :
    Inv (t.takeError e) := by
  have hst : StatusLegal (t.takeError e) := statusLegal_takeError e (hw.sameFields.statusLegal hs.1)
  refine inv_idle (t.busy_takeError e) rfl hst (fun herr => ?_) h
  rw [State.err_takeError] at herr
  exact absurd herr (code_ne e.cause).1

/-- `CLR` leaves no error and no context of one (R233). -/
theorem inv_clearError (hs : Inv s) : Inv s.clearError.complete := by
  have hst := (sameFields_complete s.clearError).statusLegal (statusLegal_clearError hs.1)
  exact inv_idle s.clearError.busy_complete rfl hst (fun _ => ⟨by simp, rfl, rfl⟩) hs.bounded

theorem inv_runCommand {v : BitVec 16} {c : Cmd Unit} (hs : Inv s) (hw : WorksAt warningBits v c s)
    (hc : Stays c s fun _ => Bounded) (h : runCommand c s = .next t) : Inv t := by
  rcases runCommand_cases c s with ⟨u, hu, hrun⟩ | ⟨e, u, hu, hrun⟩ <;> rw [hrun] at h <;> cases h
  · exact inv_complete hs (hw.of_ok hu) (hc.of_ok hu)
  · exact inv_takeError hs (hw.of_error hu) (hc.of_error hu) e

end Idle

/-! ### The invariant where a command stands opened -/

/-- Work that leaves the command standing at a record, the host reading the same `STATUS`. -/
theorem inv_opened {s u : State} {place : Place} (hs : Inv s) (hb : s.busy = true) (herr : s.err = 0)
    (hw : Works [9, 10] s.shownStatus s u) (hd : u.doing = .opened place s.shownStatus) (h : Bounded u)
    (hstands : place.Stands u) : Inv u := by
  obtain ⟨hst, hl, ⟨_, hdone, _⟩, _, _, _, hshown⟩ := hs
  have same : SameFields s u := fun k hlo hhi hk => hw.bits k hhi fun hin => hk (warns_subset .chunks k hin)
  have hub : u.busy = true := (hw.bits 0 (by decide) (by decide)).trans hb
  have hudone : u.done = false := (hw.bits 1 (by decide) (by decide)).trans (hdone hb)
  have huerr : u.err = 0 := same.err.trans herr
  have hushown : u.shownStatus = s.shownStatus := shownStatus_opened hub hd
  have hbusy : BusyLegal u := ⟨by simp [hub, hd], fun _ => hudone, fun _ hne => absurd huerr hne⟩
  refine ⟨same.statusLegal hst, same.latchLegal hw.errIdx hw.errAddr hl, hbusy, h.1, h.2,
    streamLegal_of_stands (by rw [hd]; rfl) hstands, ?_, ?_⟩ <;> rw [hushown]
  · intro k hk h9 h10
    rw [hshown.1 k hk h9 h10, hw.bits k hk (by simp [h9, h10])]
  · intro k hk hks
    by_cases hwarn : k = 9 ∨ k = 10
    · exact hw.covers (covers_shownStatus hshown) k (by omega) (by omega) hks
    · rw [not_or] at hwarn
      rw [hw.bits k hk (by simp [hwarn])]
      exact hshown.2 k hk hks

/-- Where a turn has got to when the command goes on: work done in a state with the invariant, the host seeing none of
it. -/
structure Midway (s t : State) : Prop where
  inv : Inv s
  busy : s.busy = true
  err : s.err = 0
  works : Works [9, 10] s.shownStatus s t
  shown : t.shownStatus = s.shownStatus
  bounded : Bounded t

section Going
variable {s t u : State}

theorem Works.widen {v : BitVec 16} (h : Works [9, 10] v s t) : Works warningBits v s t :=
  ⟨h.unworked, fun k hk hk' => h.bits k hk fun hin => hk' (warns_subset .chunks k hin), h.covers, h.rising⟩

theorem Midway.complete (h : Midway s t) : Inv t.complete := inv_complete h.inv h.works.widen h.bounded

theorem Midway.takeError (h : Midway s t) (e : Raise) : Inv (t.takeError e) :=
  inv_takeError h.inv h.works.widen h.bounded e

theorem Midway.atPlace (h : Midway s t) {place : Place} (hp : place.Stands (t.atPlace place)) :
    Inv (t.atPlace place) :=
  inv_opened h.inv h.busy h.err (h.works.trans (works_atPlace t place)) (by rw [← h.shown]; rfl) h.bounded hp

/-- More work that the host does not see. -/
theorem Midway.more (h : Midway s t) (hw : Works [9, 10] s.shownStatus t u) (hu : u.shownStatus = t.shownStatus)
    (hbounded : Bounded u) : Midway s u :=
  ⟨h.inv, h.busy, h.err, h.works.trans hw, hu.trans h.shown, hbounded⟩

theorem Midway.rawOpen (h : Midway s t) (hrun : runPart rawOpen t = .next u) : Inv u := by
  rcases rawOpen_cases t with ⟨hdims, _, hopen⟩ | ⟨e, _, hopen⟩
  · rw [runPart_ok hopen] at hrun
    cases hrun
    have hoff := t.unpackedOff.isLt
    have hcount := (pixelCount_bounds hdims).1
    have hsp : (t.withSp t.unpackedOff.toNat).sp.toNat = t.unpackedOff.toNat := toNat_withSp (by omega)
    have hseek : Midway s (t.withSp t.unpackedOff.toNat) :=
      h.more (works_withSp t _) rfl (bounded_seek_offset h.bounded t.unpackedOff)
    refine hseek.atPlace ⟨hdims, ?_⟩
    rw [State.atPlace_sp, hsp]
    show t.unpackedOff.toNat ≤ t.unpackedOff.toNat ∧ t.unpackedOff.toNat < t.unpackedOff.toNat + 2 * t.pixelCount ∧
      (t.unpackedOff.toNat - t.unpackedOff.toNat) % 2 = 0
    omega
  · rw [runPart_error hopen] at hrun
    cases hrun
    exact h.takeError e

theorem Midway.packedOpen (h : Midway s t) (hrun : runPart packedOpen t = .next u) : Inv u := by
  rcases packedOpen_cases t with ⟨hstart, hopen⟩ | ⟨e, _, hopen⟩
  · rw [runPart_ok hopen] at hrun
    cases hrun
    obtain ⟨hbounded, hbegun⟩ := (stays_packedStart h.bounded).of_ok hstart
    have hmore : Midway s t.withPackedStart := h.more (works_withPackedStart t) rfl hbounded
    exact hmore.atPlace ⟨hbegun.packedOk, hbegun.cur, hbegun.prec, hbegun.nchunk, hbegun.nrun⟩
  · rw [runPart_error hopen] at hrun
    cases hrun
    exact h.takeError e

theorem Midway.afterChunk (h : Midway s t) (hbetween : BetweenChunks t) (hrun : afterChunk t = .next u) : Inv u := by
  unfold Machine.afterChunk at hrun
  split at hrun <;> cases hrun
  · have hsliced : Midway s t.sliced := h.more (works_sliced t) (by rw [sliced_eq]; rfl)
      (bounded_sliced h.bounded hbetween.packedOk.1)
    exact hsliced.complete
  · have hpos : 0 < t.nchunk.toNat := by bv_omega
    exact h.atPlace ⟨⟨hbetween.packedOk, hbetween.nrun, hbetween.prec, hbetween.cur⟩, hpos⟩

/-- The sequencer goes on after a record, or ends the command. -/
theorem Midway.afterRecordAt {place : Place} (h : Midway s t) (hd : t.doing = .opened place s.shownStatus)
    (hpassed : place.Passed t) (hrun : afterRecordAt place t = .next u) : Inv u := by
  have stays : place.Stands t → Inv t := inv_opened h.inv h.busy h.err h.works hd h.bounded
  cases place with
  | header =>
    cases hrun
    exact h.complete
  | imageHeader decoding =>
    cases decoding with
    | false =>
      cases hrun
      exact h.complete
    | true =>
      rw [Machine.afterRecordAt] at hrun
      split at hrun
      · exact h.rawOpen hrun
      · exact h.packedOpen hrun
  | rawPixels =>
    rw [Machine.afterRecordAt] at hrun
    obtain ⟨hdims, hlow, hhigh, hpar⟩ := hpassed
    split at hrun <;> cases hrun
    · exact h.complete
    · exact stays ⟨hdims, hlow, by omega, hpar⟩
  | preamble =>
    cases hrun
    obtain ⟨hbetween, hpos⟩ := hpassed
    exact h.atPlace ⟨⟨hbetween.packedOk, hbetween.nrun, hbetween.prec, hbetween.cur⟩, hpos⟩
  | chunks => exact h.afterChunk hpassed hrun
  | runPixels =>
    rw [Machine.afterRecordAt] at hrun
    split at hrun
    · obtain ⟨hbounded, hbetween, _⟩ := betweenChunks_withChunkDone h.bounded hpassed ‹_›
      exact (h.more (works_withChunkDone t) rfl hbounded).afterChunk hbetween hrun
    · cases hrun
      exact stays ⟨hpassed, by bv_omega⟩

end Going

/-! ### The turns -/

section Turns
variable {s t : State}

/-- Only `CLR` is in progress while an error is pending (R230). -/
theorem err_eq_zero_of_doing (hs : Inv s) (hb : s.busy = true) (hd : s.doing ≠ .command clrCode) : s.err = 0 := by
  obtain ⟨_, _, ⟨_, _, hclr⟩, _⟩ := hs
  by_contra herr
  exact hd (hclr hb herr)

theorem midway_refl (hs : Inv s) (hb : s.busy = true) (hd : s.doing ≠ .command clrCode) : Midway s s :=
  ⟨hs, hb, err_eq_zero_of_doing hs hb hd, works_refl, rfl, hs.bounded⟩

theorem inv_openCommand {i : Instr} {c : Cmd Unit} (hc : openCommand i = some c) (h : Midway s s)
    (hrun : runPart c s = .next t) : Inv t := by
  have seek : ∀ a place, a ≤ 2 ^ 33 → place.Stands ((s.withSp a).atPlace place) → Inv ((s.withSp a).atPlace place) :=
    fun a place ha hp => (h.more (works_withSp s a) rfl (bounded_withSp h.bounded ha)).atPlace hp
  have haddr : ihdrAddr s.idx ≤ 2 ^ 33 := (Nat.le_add_right _ 12).trans (ihdrAddr_add_le s.idx)
  cases i <;> cases hc
  case hdrGet =>
    cases hrun
    exact seek 0 .header (Nat.zero_le _) trivial
  case ihdrGet =>
    cases hrun
    exact seek _ (.imageHeader false) haddr trivial
  case rawDec => exact h.rawOpen hrun
  case pkDec => exact h.packedOpen hrun
  case imgDec =>
    rcases checkIndex_cases s with hok | ⟨e, herr⟩
    · rw [runPart_ok (t := (s.withSp (ihdrAddr s.idx)).atPlace (.imageHeader true))
        (by rw [cmd_bind, hok]; rfl)] at hrun
      cases hrun
      exact seek _ (.imageHeader true) haddr trivial
    · rw [runPart_error (e := e) (t := s) (by rw [cmd_bind, herr])] at hrun
      cases hrun
      exact h.takeError e

/-- The turn at a record: its work, then what follows it. Only the container header, after which the command ends, can
set `WARN_HRES`. -/
theorem inv_record {place : Place} {shown : BitVec 16} (h : Midway s s) (hd : s.doing = .opened place shown)
    (hrun : placeTurn place s = .next t) : Inv t := by
  have hshown : s.shownStatus = shown := shownStatus_opened h.busy hd
  have hstands : place.Stands s := by
    obtain ⟨_, _, _, _, _, hstream, _⟩ := h.inv
    exact stands_of_streamLegal hstream (by rw [hd]; rfl)
  have hstays := stays_rest h.bounded hstands
  have hworks := worksAt_rest place s
  rcases placeTurn_cases h.busy hd with ⟨u, hu, hturn⟩ | ⟨e, u, hu, hturn⟩ <;> rw [hturn] at hrun
  · obtain ⟨hub, hud, _⟩ := rest_keeps hu
    obtain ⟨hbounded, hpassed⟩ := hstays.of_ok hu
    by_cases hp : place = .header
    · subst hp
      cases hrun
      exact inv_complete h.inv ((hworks.mono (warns_subset _)).of_ok hu) hbounded
    · have hwarns : place.warns = [9, 10] := by cases place <;> first | rfl | exact absurd rfl hp
      rw [hwarns] at hworks
      have hmid : Midway s u := h.more (hworks.of_ok hu) (shownStatus_of_keeps h.busy hd hub hud) hbounded
      exact hmid.afterRecordAt (hud.trans (by rw [hd, hshown])) hpassed hrun
  · cases hrun
    exact inv_takeError h.inv ((hworks.mono (warns_subset _)).of_error hu) (hstays.of_error hu) e

/-- The chunk at which an opened command stands, opened: the unit stands in its run (R193, R196). -/
theorem stays_chunkOpen {shown : BitVec 16} (h : Midway s s) (hd : s.doing = .opened .chunks shown)
    (hstands : Place.chunks.Stands s) :
    Stays chunkOpen s fun _ t =>
      Bounded t ∧ t.doing = .opened .runPixels s.shownStatus ∧ Place.runPixels.Stands t := by
  refine stays_openedPayload <| Stays.bind (stays_chunkHead h.bounded hstands.1 hstands.2).of_eq
    fun n u ⟨hu, hbounded, hin, hpos, hnrun⟩ => ends_change ?_
  obtain ⟨hub, hud, _⟩ := quiet_chunkHead.keeps hu
  have hrun : 0 < u.nrun.toNat := by omega
  exact ⟨hbounded, by rw [State.atPlace_doing, shownStatus_of_keeps h.busy hd hub hud],
    ⟨hin.packedOk, hin.nchunk, hin.prec, hin.cur⟩, hrun⟩

theorem inv_chunkOpen {shown : BitVec 16} (h : Midway s s) (hd : s.doing = .opened .chunks shown)
    (hrun : runPart chunkOpen s = .next t) : Inv t := by
  have hstands : Place.chunks.Stands s := by
    obtain ⟨_, _, _, _, _, hstream, _⟩ := h.inv
    exact stands_of_streamLegal hstream (by rw [hd]; rfl)
  have hstays := stays_chunkOpen h hd hstands
  have hworks := worksAt_chunkOpen s
  cases hc : chunkOpen s with
  | ok a u =>
    rw [runPart_ok hc] at hrun
    cases hrun
    obtain ⟨hbounded, hud, hus⟩ := hstays.of_ok hc
    exact inv_opened h.inv h.busy h.err (hworks.of_ok hc) hud hbounded hus
  | error e u =>
    rw [runPart_error hc] at hrun
    cases hrun
    exact inv_takeError h.inv (Works.widen (hworks.of_error hc)) (hstays.of_error hc) e

theorem inv_busyTurn (hs : Inv s) (hb : s.busy = true) (h : BusyTurn s t) : Inv t := by
  by_cases hclr : s.doing = .command clrCode
  · rw [busyTurn_clr hclr h]
    exact inv_clearError hs
  · have hmid := midway_refl hs hb hclr
    cases h with
    | @command code _ hd h =>
      have hcode : code ≠ clrCode := by
        rintro rfl
        exact hclr hd
      exact inv_runCommand (v := s.shownStatus) hs (working_codeBody hcode s) (stays_codeBody code hs.bounded) h
    | opens hd hi hc h => exact inv_openCommand hc hmid h
    | record hd h => exact inv_record hmid hd h
    | chunkOpens hd h => exact inv_chunkOpen hmid hd h

end Turns

/-! ### The host's events -/

section HostEvents
variable {s : State}

theorem Inv.doing_idle (hs : Inv s) (hb : s.busy = false) : s.doing = .idle := by
  obtain ⟨_, _, ⟨hiff, _⟩, _⟩ := hs
  by_contra hd
  simp [hiff.2 hd] at hb

theorem clen_withRegister_le (hs : Inv s) (n v : Nat) (hn : n ≠ 0) : (s.withRegister n v).clen.toNat ≤ 2 ^ 33 := by
  obtain ⟨_, _, hclen, _⟩ := hs.bounded
  by_cases h4 : n = 4
  · subst h4
    show (BitVec.ofNat 34 (min v (2 ^ 33))).toNat ≤ 2 ^ 33
    rw [BitVec.toNat_ofNat, Nat.mod_eq_of_lt (by omega)]
    exact Nat.min_le_right _ _
  · have hsame : (s.withRegister n v).clen = s.clen := register_withRegister_other s v hn (k := 4) (Ne.symm h4)
    rw [hsame]
    exact hclen

theorem inv_withRegister (hs : Inv s) (hb : s.busy = false) (n v : Nat) (hn : n ≠ 0) : Inv (s.withRegister n v) := by
  have same := sameUnit_withRegister s v hn
  have hfields : SameFields s (s.withRegister n v) := fun _ _ _ _ => by rw [same.status]
  have hd : (s.withRegister n v).doing = .idle := same.doing.trans (Inv.doing_idle hs hb)
  have hb' : (s.withRegister n v).busy = false := by
    rw [State.busy, same.status]
    exact hb
  have hclen := clen_withRegister_le hs n v hn
  have hbounded : Bounded (s.withRegister n v) := by
    obtain ⟨hmem, hsp, _, hcounters⟩ := hs.bounded
    rw [Bounded, MemoriesLegal, CountersLegal, same.cm, same.pm, same.slb, same.sp, same.prec, same.cur, same.nchunk,
      same.nrun]
    exact ⟨hmem, hsp, hclen, hcounters⟩
  obtain ⟨hst, hl, _⟩ := hs
  exact inv_idle hb' hd (hfields.statusLegal hst) (hfields.latchLegal same.errIdx same.errAddr hl) hbounded

/-- A command accepted by an idle unit, with no error pending or as `CLR` (R230). -/
theorem inv_accepted (hs : Inv s) {code : Byte} (hcode : s.err ≠ 0 → code = clrCode) : Inv (s.accepted code) := by
  have hb := State.busy_accepted s code
  have same := sameFields_accepted s code
  have hbusy : BusyLegal (s.accepted code) := by
    refine ⟨by simp [hb], fun _ => State.done_accepted s code, fun _ herr => ?_⟩
    rw [State.err_accepted] at herr
    rw [State.accepted_doing, hcode herr]
    rfl
  have hshown : ShownLegal (s.accepted code) := by
    rw [ShownLegal, shownStatus_command (code := code) rfl]
    exact ⟨fun _ _ _ _ => rfl, fun _ _ hk => hk⟩
  obtain ⟨hmem, hcounters⟩ := hs.bounded
  exact ⟨same.statusLegal hs.1, same.latchLegal rfl rfl hs.2.1, hbusy, hmem, hcounters,
    streamLegal_of_place_none rfl, hshown⟩

theorem inv_hostRegWrite (hs : Inv s) (n v : Nat) : Inv (s.hostRegWrite n v) := by
  rcases hostRegWrite_cases s n v with hw | ⟨_, code, hcode, hw⟩ | ⟨hb, hn, hw⟩ <;> rw [hw]
  · exact hs
  · exact inv_accepted hs hcode
  · exact inv_withRegister hs hb n v hn

/-- A reset does what a fresh machine begins with, but for the memories' numbers (R300). -/
theorem inv_resetUnit (s : State) : Inv s.resetUnit := by
  obtain ⟨hst, hl, _, _, hcounters, _⟩ := show Inv State.reset from invariantAtReset
  exact inv_idle s.busy_resetUnit rfl hst hl
    ⟨⟨ByteMem.wf_fresh _, PixelMem.wf_fresh _ _, PixelMem.wf_fresh _ _⟩, hcounters⟩

end HostEvents

/-- Settles O57: the host's events and the unit's turns keep the invariant, each by its own lemma. -/
theorem invariantKept : Obligations.InvariantKept := by
  unfold Obligations.InvariantKept
  intro s t hs h
  cases step_cases h with
  | reset => exact inv_resetUnit _
  | regRead =>
    rw [hostRegRead_eq]
    exact hs
  | @regWrite n v rest ha => exact inv_hostRegWrite (s := s.withAgenda rest) hs n v
  | memoryRead => exact hs
  | cmWrite hb ha =>
    obtain ⟨hst, hl, hbusy, ⟨hcm, hmem⟩, hrest⟩ := hs
    exact ⟨hst, hl, hbusy, ⟨ByteMem.wf_write _ _ hcm ha, hmem⟩, hrest⟩
  | pmWrite hb hi =>
    obtain ⟨hst, hl, hbusy, ⟨hcm, hpm, hslb⟩, hrest⟩ := hs
    exact ⟨hst, hl, hbusy, ⟨hcm, PixelMem.wf_write _ _ hpm hi, hslb⟩, hrest⟩
  | rests => exact hs
  | @turn rest _ _ hb ht => exact inv_busyTurn (s := s.withAgenda rest) hs hb ht

end Sys2Proof.Machine
end

section
/-! The read and write primitives at `SP` (R64, R65): the values by arithmetic, and what they leave unchanged. -/

namespace Sys2Proof.Machine

/-! ### Fields and their bytes (R60) -/

theorem toNat_be16 (b0 b1 : Byte) : (be16 b0 b1).toNat = b0.toNat * 2 ^ 8 + b1.toNat := by
  rw [be16, BitVec.toNat_append, ← Nat.shiftLeft_add_eq_or_of_lt b1.isLt, Nat.shiftLeft_eq]

theorem toNat_be32 (b0 b1 b2 b3 : Byte) :
    (be32 b0 b1 b2 b3).toNat = b0.toNat * 2 ^ 24 + b1.toNat * 2 ^ 16 + b2.toNat * 2 ^ 8 + b3.toNat := by
  rw [be32, BitVec.toNat_append, ← Nat.shiftLeft_add_eq_or_of_lt b3.isLt, BitVec.toNat_append,
    ← Nat.shiftLeft_add_eq_or_of_lt b2.isLt, BitVec.toNat_append, ← Nat.shiftLeft_add_eq_or_of_lt b1.isLt]
  simp only [Nat.shiftLeft_eq]
  omega

/-- The byte of a word from bit `lo` up, by division (R60). -/
theorem toNat_extractByte {w : Nat} (v : BitVec w) (lo : Nat) :
    (v.extractLsb' lo 8).toNat = v.toNat / 2 ^ lo % 2 ^ 8 := by
  rw [BitVec.extractLsb'_toNat, Nat.shiftRight_eq_div_pow]

/-! ### The fetch of a field -/

/-- Settles O19: each of the three reads is a fetch, by its three cases. -/
theorem fetchPrimitive : Obligations.FetchPrimitive := by
  unfold Obligations.FetchPrimitive
  intro g s
  refine ⟨fun h => ?_, fun h => ?_, fun h => ?_, fun h hf => ?_, fun h hf => ?_, fun h hf => ?_, fun h => ?_,
    fun h => ?_, fun h => ?_⟩
  · simp [readU8, fetch_short g h]
  · simp [readU16, fetch_short g h]
  · simp [readU32, fetch_short g h]
  · simp [readU8, fetch_fault g h hf]
  · simp [readU16, fetch_fault g h hf]
  · simp [readU32, fetch_fault g h hf]
  · exact ⟨_, _, readU8_ok g h, rfl, toNat_sp_fetch h, rfl⟩
  · exact ⟨_, _, readU16_ok g h, rfl, toNat_sp_fetch h, toNat_be16 _ _⟩
  · exact ⟨_, _, readU32_ok g h, rfl, toNat_sp_fetch h, toNat_be32 _ _ _ _⟩

/-! ### The store of a field -/

theorem toNat_clen_stored (s : State) (a : Nat) (bytes : List Byte) (h : a + bytes.length < 2 ^ 34) :
    (s.stored a bytes).clen.toNat = max s.clen.toNat (a + bytes.length) := by
  have hclen := s.clen.isLt
  rw [State.stored_clen, BitVec.toNat_ofNat, Nat.mod_eq_of_lt (by omega)]

/-- A store that does not fault: its bytes at `SP`, `CLEN` raised, `SP` advanced, and no other change (R65). -/
theorem storeField_effect {s : State} {bytes : List Byte} (hroom : s.sp.toNat + bytes.length < 2 ^ 34)
    (hf : s.params.accessFaults .store s.sp.toNat bytes.length = false) :
    ∃ t, storeField bytes s = .ok () t ∧ t = { s with cm := t.cm, clen := t.clen, sp := t.sp } ∧
      t.sp.toNat = s.sp.toNat + bytes.length ∧ t.clen.toNat = max s.clen.toNat (s.sp.toNat + bytes.length) ∧
      (∀ k, (hk : k < bytes.length) → t.cm.read (s.sp.toNat + k) = bytes[k]) ∧
      ∀ c, c < s.sp.toNat ∨ s.sp.toNat + bytes.length ≤ c → t.cm.read c = s.cm.read c :=
  ⟨_, storeField_ok hf, rfl, toNat_sp_stored s _ _ hroom, toNat_clen_stored s _ _ hroom,
    fun _ hk => ByteMem.read_writeBytes_inside _ _ hk, fun _ hc => ByteMem.read_writeBytes_outside _ _ hc⟩

theorem writeU8_effect {s : State} (b : Byte) (hroom : s.sp.toNat + 4 ≤ 2 ^ 33)
    (hf : s.params.accessFaults .store s.sp.toNat 1 = false) :
    ∃ t, writeU8 b s = .ok () t ∧ t = { s with cm := t.cm, clen := t.clen, sp := t.sp } ∧
      t.sp.toNat = s.sp.toNat + 1 ∧ t.clen.toNat = max s.clen.toNat (s.sp.toNat + 1) ∧
      t.cm.read s.sp.toNat = b ∧ ∀ c, c ≠ s.sp.toNat → t.cm.read c = s.cm.read c := by
  obtain ⟨t, hok, hframe, hsp, hclen, hbytes, hother⟩ :=
    storeField_effect (bytes := [b]) (by rw [List.length_singleton]; omega) hf
  exact ⟨t, hok, hframe, hsp, hclen, hbytes 0 Nat.one_pos, fun c hc => hother c (by rw [List.length_singleton]; omega)⟩

theorem writeU16_effect {s : State} (v : U16) (hroom : s.sp.toNat + 4 ≤ 2 ^ 33)
    (hf : s.params.accessFaults .store s.sp.toNat 2 = false) :
    ∃ t, writeU16 v s = .ok () t ∧ t = { s with cm := t.cm, clen := t.clen, sp := t.sp } ∧
      t.sp.toNat = s.sp.toNat + 2 ∧ t.clen.toNat = max s.clen.toNat (s.sp.toNat + 2) ∧
      (t.cm.read s.sp.toNat).toNat = v.toNat / 2 ^ 8 ∧
      (t.cm.read (s.sp.toNat + 1)).toNat = v.toNat % 2 ^ 8 ∧
      ∀ c, c < s.sp.toNat ∨ s.sp.toNat + 2 ≤ c → t.cm.read c = s.cm.read c := by
  obtain ⟨t, hok, hframe, hsp, hclen, hbytes, hother⟩ :=
    storeField_effect (bytes := bytes16 v) (by rw [length_bytes16]; omega) hf
  have hhigh : t.cm.read s.sp.toNat = v.extractLsb' 8 8 := hbytes 0 (by rw [length_bytes16]; omega)
  have hlow : t.cm.read (s.sp.toNat + 1) = v.extractLsb' 0 8 := hbytes 1 (by rw [length_bytes16]; omega)
  have hv := v.isLt
  refine ⟨t, hok, hframe, hsp, hclen, ?_, ?_, hother⟩
  · rw [hhigh, toNat_extractByte]
    omega
  · rw [hlow, toNat_extractByte]
    omega

theorem writeU32_effect {s : State} (x : U32) (hroom : s.sp.toNat + 4 ≤ 2 ^ 33)
    (hf : s.params.accessFaults .store s.sp.toNat 4 = false) :
    ∃ t, writeU32 x s = .ok () t ∧ t = { s with cm := t.cm, clen := t.clen, sp := t.sp } ∧
      t.sp.toNat = s.sp.toNat + 4 ∧ t.clen.toNat = max s.clen.toNat (s.sp.toNat + 4) ∧
      (t.cm.read s.sp.toNat).toNat = x.toNat / 2 ^ 24 ∧
      (t.cm.read (s.sp.toNat + 1)).toNat = x.toNat / 2 ^ 16 % 2 ^ 8 ∧
      (t.cm.read (s.sp.toNat + 2)).toNat = x.toNat / 2 ^ 8 % 2 ^ 8 ∧
      (t.cm.read (s.sp.toNat + 3)).toNat = x.toNat % 2 ^ 8 ∧
      ∀ c, c < s.sp.toNat ∨ s.sp.toNat + 4 ≤ c → t.cm.read c = s.cm.read c := by
  obtain ⟨t, hok, hframe, hsp, hclen, hbytes, hother⟩ :=
    storeField_effect (bytes := bytes32 x) (by rw [length_bytes32]; omega) hf
  have hbyte0 : t.cm.read s.sp.toNat = x.extractLsb' 24 8 := hbytes 0 (by rw [length_bytes32]; omega)
  have hbyte1 : t.cm.read (s.sp.toNat + 1) = x.extractLsb' 16 8 := hbytes 1 (by rw [length_bytes32]; omega)
  have hbyte2 : t.cm.read (s.sp.toNat + 2) = x.extractLsb' 8 8 := hbytes 2 (by rw [length_bytes32]; omega)
  have hbyte3 : t.cm.read (s.sp.toNat + 3) = x.extractLsb' 0 8 := hbytes 3 (by rw [length_bytes32]; omega)
  have hx := x.isLt
  refine ⟨t, hok, hframe, hsp, hclen, ?_, ?_, ?_, ?_, hother⟩
  · rw [hbyte0, toNat_extractByte]
    omega
  · rw [hbyte1, toNat_extractByte]
  · rw [hbyte2, toNat_extractByte]
  · rw [hbyte3, toNat_extractByte]
    omega

/-- Settles O20: each of the three writes is a store of its bytes, which faults or has the effect above. -/
theorem storePrimitive : Obligations.StorePrimitive := by
  unfold Obligations.StorePrimitive
  intro s b v x hroom
  exact ⟨fun hf => storeField_fault hf, writeU8_effect b hroom, fun hf => storeField_fault hf,
    fun hf => storeField_fault hf, writeU16_effect v hroom, writeU32_effect x hroom⟩

end Sys2Proof.Machine
end

section
/-! Fields stored one after another (R65): where no store fails, one store of all the bytes; else the bytes before the
first store that fails stay (R277 (g)). -/

namespace Sys2Proof.Machine

/-! ### A byte string in `CM` -/

theorem ByteMem.readBytes_congr {m m' : ByteMem} {a n : Nat} (h : ∀ c, a ≤ c → c < a + n → m.read c = m'.read c) :
    m.readBytes a n = m'.readBytes a n := by
  induction n generalizing a with
  | zero => rfl
  | succ n ih =>
    rw [ByteMem.readBytes, ByteMem.readBytes, h a (by omega) (by omega),
      ih fun c hlo hhi => h c (by omega) (by omega)]

theorem ByteMem.readBytes_writeBytes_same (m : ByteMem) (a : Nat) {n : Nat} {bytes : List Byte}
    (h : bytes.length = n) : (m.writeBytes a bytes).readBytes a n = bytes := by
  subst h
  induction bytes generalizing m a with
  | nil => rfl
  | cons b rest ih =>
    have hfirst : ((m.write a b).writeBytes (a + 1) rest).read a = b := by
      rw [ByteMem.read_writeBytes_outside _ _ (by omega), ByteMem.read_write_same]
    rw [List.length_cons, ByteMem.readBytes, ByteMem.writeBytes, hfirst, ih]

theorem ByteMem.readBytes_writeBytes_outside (m : ByteMem) {a b n : Nat} (bytes : List Byte)
    (h : b + n ≤ a ∨ a + bytes.length ≤ b) : (m.writeBytes a bytes).readBytes b n = m.readBytes b n :=
  ByteMem.readBytes_congr fun _ _ _ => ByteMem.read_writeBytes_outside m bytes (by omega)

/-! ### What stores from an address have left -/

/-- The state after stores of these bytes from `a` on, where `SP` was put to `a` before the first. Without a byte
stored `CLEN` is as it was (R65). -/
def State.storedFrom (s : State) (a : Nat) (bytes : List Byte) : State :=
  { s with
    cm := s.cm.writeBytes a bytes
    clen := if bytes.length = 0 then s.clen else BitVec.ofNat 34 (max s.clen.toNat (a + bytes.length))
    sp := BitVec.ofNat 34 (a + bytes.length) }

theorem toNat_sp_storedFrom {s : State} {a : Nat} {bytes : List Byte} (h : a + bytes.length < 2 ^ 34) :
    (s.storedFrom a bytes).sp.toNat = a + bytes.length := toNat_withSp (s := s) h

theorem storedFrom_eq_stored {s : State} {a : Nat} {bytes : List Byte} (h : bytes ≠ []) :
    s.storedFrom a bytes = s.stored a bytes := by
  rw [State.storedFrom, if_neg (by simpa using h)]
  rfl

/-- One more field after the bytes stored so far. -/
theorem storedFrom_stored (s : State) {a : Nat} {x y : List Byte} (hy : y ≠ []) (h : a + x.length < 2 ^ 34) :
    (s.storedFrom a x).stored (a + x.length) y = s.storedFrom a (x ++ y) := by
  rw [storedFrom_eq_stored (s := s) (List.append_ne_nil_of_right_ne_nil x hy)]
  by_cases hx : x = []
  · subst x
    rfl
  · rw [storedFrom_eq_stored hx, stored_stored s a x y h]

theorem storeField_storedFrom_ok {s : State} {a : Nat} {x y : List Byte} (hy : y ≠ []) (h : a + x.length < 2 ^ 34)
    (hf : s.params.accessFaults .store (a + x.length) y.length = false) :
    storeField y (s.storedFrom a x) = .ok () (s.storedFrom a (x ++ y)) := by
  rw [storeField_ok (by rw [toNat_sp_storedFrom h]; exact hf), toNat_sp_storedFrom h, storedFrom_stored s hy h]

theorem storeField_storedFrom_fault {s : State} {a : Nat} {x y : List Byte} (h : a + x.length < 2 ^ 34)
    (hf : s.params.accessFaults .store (a + x.length) y.length = true) :
    storeField y (s.storedFrom a x) = .error ⟨.ioError .store, a + x.length⟩ (s.storedFrom a x) := by
  rw [storeField_fault (by rw [toNat_sp_storedFrom h]; exact hf), toNat_sp_storedFrom h]

/-! ### A sequence of fields -/

/-- Fields stored one after another from `SP` on. -/
def storeFields : List (List Byte) → Cmd Unit
  | [] => pure ()
  | x :: rest => do
    storeField x
    storeFields rest

/-- Where each field begins, counted from the first byte of the first field, and its length; the first begins at
`k`. -/
def fieldSpans : (k : Nat) → List (List Byte) → List (Nat × Nat)
  | _, [] => []
  | k, x :: rest => (k, x.length) :: fieldSpans (k + x.length) rest

/-- A field's span lies within the bytes of all of them. -/
theorem bounds_of_mem_fieldSpans {k : Nat} {fields : List (List Byte)} {f : Nat × Nat} (h : f ∈ fieldSpans k fields) :
    k ≤ f.1 ∧ f.1 + f.2 ≤ k + fields.flatten.length := by
  induction fields generalizing k with
  | nil => cases h
  | cons x rest ih =>
    rw [List.flatten_cons, List.length_append]
    rcases List.mem_cons.1 h with rfl | h
    · exact ⟨Nat.le_refl _, by omega⟩
    · have := ih h
      omega

/-- The bytes before a field are as many as its span says. -/
theorem length_take_of_mem_fieldSpans {fields : List (List Byte)} {f : Nat × Nat} (h : f ∈ fieldSpans 0 fields) :
    (fields.flatten.take f.1).length = f.1 := by
  have hbounds := (bounds_of_mem_fieldSpans h).2
  rw [List.length_take]
  omega

/-- No field is empty. -/
def FieldsNonempty (fields : List (List Byte)) : Prop := ∀ x ∈ fields, x ≠ []

/-- All the stores succeed. -/
theorem storeFields_ok {s : State} {a : Nat} {x : List Byte} {fields : List (List Byte)} (hne : FieldsNonempty fields)
    (hroom : a + x.length + fields.flatten.length < 2 ^ 34)
    (hf : s.params.accessFaults .store (a + x.length) fields.flatten.length = false) :
    storeFields fields (s.storedFrom a x) = .ok () (s.storedFrom a (x ++ fields.flatten)) := by
  induction fields generalizing x with
  | nil => simp [storeFields]
  | cons y rest ih =>
    rw [List.flatten_cons, List.length_append] at hroom hf
    have hy : storeField y (s.storedFrom a x) = .ok () (s.storedFrom a (x ++ y)) :=
      storeField_storedFrom_ok (hne y List.mem_cons_self) (by omega) (accessFaults_part hf (by omega) (by omega))
    have hrest : storeFields rest (s.storedFrom a (x ++ y)) = .ok () (s.storedFrom a (x ++ y ++ rest.flatten)) :=
      ih (fun z hz => hne z (List.mem_cons_of_mem y hz)) (by rw [List.length_append]; omega)
        (accessFaults_part hf (by rw [List.length_append]; omega) (by rw [List.length_append]; omega))
    rw [storeFields, cmd_bind, hy]
    simpa only [List.flatten_cons, List.append_assoc] using hrest

/-- The stores before the field of this span succeed and its own fails. -/
theorem storeFields_stops {s : State} {a : Nat} {x : List Byte} {fields : List (List Byte)} {f : Nat × Nat}
    (hne : FieldsNonempty fields) (hroom : a + x.length + fields.flatten.length < 2 ^ 34)
    (hspan : f ∈ fieldSpans x.length fields) (hpre : s.params.accessFaults .store a f.1 = false)
    (hf : s.params.accessFaults .store (a + f.1) f.2 = true) :
    storeFields fields (s.storedFrom a x) =
      .error ⟨.ioError .store, a + f.1⟩ (s.storedFrom a ((x ++ fields.flatten).take f.1)) := by
  induction fields generalizing x with
  | nil => cases hspan
  | cons y rest ih =>
    rw [List.flatten_cons, List.length_append] at hroom
    rw [storeFields, cmd_bind]
    rcases List.mem_cons.1 hspan with rfl | hspan
    · rw [storeField_storedFrom_fault (by omega) hf, List.take_left]
    · have hpast : x.length + y.length ≤ f.1 := (bounds_of_mem_fieldSpans hspan).1
      have hy : storeField y (s.storedFrom a x) = .ok () (s.storedFrom a (x ++ y)) :=
        storeField_storedFrom_ok (hne y List.mem_cons_self) (by omega) (accessFaults_part hpre (by omega) (by omega))
      have hrest : storeFields rest (s.storedFrom a (x ++ y)) =
          .error ⟨.ioError .store, a + f.1⟩ (s.storedFrom a ((x ++ y ++ rest.flatten).take f.1)) :=
        ih (fun z hz => hne z (List.mem_cons_of_mem y hz)) (by rw [List.length_append]; omega)
          (by rw [List.length_append]; exact hspan)
      rw [hy, List.flatten_cons, ← List.append_assoc]
      exact hrest

end Sys2Proof.Machine
end

section
/-! The encoding commands as sequences of stores: where they end, whether every store succeeds or one fails (R141, R143,
R171, R236). -/

namespace Sys2Proof.Machine

/-! ### A block from its first piece on -/

theorem bind_of_ok {α β : Type} {c : Cmd α} {f : α → Cmd β} {s t : State} {a : α} (h : c s = .ok a t) :
    (c >>= f) s = f a t := by rw [cmd_bind, h]

theorem bind_of_error {α β : Type} {c : Cmd α} {f : α → Cmd β} {s t : State} {e : Raise} (h : c s = .error e t) :
    (c >>= f) s = .error e t := by rw [cmd_bind, h]

/-! ### Commands that store fields of the registers -/

/-- The state with other contents of what a store writes: `CM`, `CLEN` and `SP` (R65). -/
def State.withStream (s : State) (cm : ByteMem) (clen sp : BitVec 34) : State :=
  { s with cm := cm, clen := clen, sp := sp }

/-- The piece stores these fields of `s`, whatever stores have gone before. -/
def Puts (s : State) (c : Cmd Unit) (fields : List (List Byte)) : Prop :=
  ∀ cm clen sp, c (s.withStream cm clen sp) = storeFields fields (s.withStream cm clen sp)

theorem storeField_withStream (s : State) (x : List Byte) (cm : ByteMem) (clen sp : BitVec 34) :
    (∃ cm' clen' sp', storeField x (s.withStream cm clen sp) = .ok () (s.withStream cm' clen' sp')) ∨
    ∃ e, storeField x (s.withStream cm clen sp) = .error e (s.withStream cm clen sp) := by
  rcases storeField_cases x (s.withStream cm clen sp) with ⟨_, h⟩ | ⟨_, h⟩
  · exact .inl ⟨_, _, _, h⟩
  · exact .inr ⟨_, h⟩

theorem puts_cons {s : State} {c : Cmd Unit} {f : State → Cmd Unit} {x : List Byte} {rest : List (List Byte)}
    (hf : ∀ cm clen sp, f (s.withStream cm clen sp) = storeField x >>= fun _ => c) (hc : Puts s c rest) :
    Puts s ((get : Cmd State) >>= f) (x :: rest) := by
  intro cm clen sp
  simp only [cmd_bind, cmd_get, hf, storeFields]
  rcases storeField_withStream s x cm clen sp with ⟨cm', clen', sp', h⟩ | ⟨e, h⟩ <;> simp only [h]
  exact hc cm' clen' sp'

theorem puts_last {s : State} {f : State → Cmd Unit} {x : List Byte}
    (hf : ∀ cm clen sp, f (s.withStream cm clen sp) = storeField x) : Puts s ((get : Cmd State) >>= f) [x] := by
  intro cm clen sp
  simp only [cmd_bind, cmd_get, hf, storeFields]
  cases storeField x (s.withStream cm clen sp) <;> rfl

/-- The fields of the container header that `HDR_PUT` emits (R141, R146). -/
def containerHeaderFields (s : State) : List (List Byte) :=
  [bytes32 s.params.magicTag, bytes16 s.imageCount, bytes16 Config.encVersion, bytes16 0, bytes16 0]

theorem containerHeaderFields_nonempty (s : State) : FieldsNonempty (containerHeaderFields s) := by
  simp [FieldsNonempty, containerHeaderFields, bytes32, bytes16]

theorem flatten_containerHeaderFields (s : State) :
    (containerHeaderFields s).flatten = bytes32 s.params.magicTag ++ bytes16 s.imageCount ++ [0, 3, 0, 0, 0, 0] := rfl

theorem fieldSpans_containerHeaderFields (s : State) :
    fieldSpans 0 (containerHeaderFields s) = [(0, 4), (4, 2), (6, 2), (8, 2), (10, 2)] := rfl

/-- The stores of `HDR_PUT` (R141). -/
def containerHeaderStores : Cmd Unit := do
  writeU32 (← get).params.magicTag
  writeU16 (← get).imageCount
  writeU16 (← get).version
  writeU16 (← get).scanLineLen
  writeU16 (← get).hres

theorem puts_containerHeaderStores (s : State) :
    Puts s.withNewContainer containerHeaderStores (containerHeaderFields s) :=
  puts_cons (fun _ _ _ => rfl) <| puts_cons (fun _ _ _ => rfl) <| puts_cons (fun _ _ _ => rfl) <|
    puts_cons (fun _ _ _ => rfl) <| puts_last fun _ _ _ => rfl

theorem hdrPut_eq_storeFields (s : State) :
    hdrPut s = storeFields (containerHeaderFields s) (s.withNewContainer.storedFrom 0 []) := by
  have hstart : hdrPut s = containerHeaderStores (s.withNewContainer.withSp 0) := rfl
  exact hstart.trans (puts_containerHeaderStores s s.cm 0 0)

/-- The fields of the image header that `IHDR_PUT` emits (R143, R146). -/
def imageHeaderFields (s : State) : List (List Byte) :=
  [[dimEnc s.width], [dimEnc s.height], bytes16 0, bytes32 s.unpackedOff, bytes32 0]

theorem imageHeaderFields_nonempty (s : State) : FieldsNonempty (imageHeaderFields s) := by
  simp [FieldsNonempty, imageHeaderFields, bytes32, bytes16]

theorem flatten_imageHeaderFields (s : State) :
    (imageHeaderFields s).flatten =
      [dimEnc s.width, dimEnc s.height, 0, 0] ++ bytes32 s.unpackedOff ++ [0, 0, 0, 0] := rfl

theorem fieldSpans_imageHeaderFields (s : State) :
    fieldSpans 0 (imageHeaderFields s) = [(0, 1), (1, 1), (2, 2), (4, 4), (8, 4)] := rfl

/-- The stores of `IHDR_PUT` (R143). -/
def imageHeaderStores : Cmd Unit := do
  writeU8 (dimEnc (← get).width)
  writeU8 (dimEnc (← get).height)
  writeU16 (← get).ires
  writeU32 (← get).unpackedOff
  writeU32 (← get).packedOff

theorem puts_imageHeaderStores (s : State) : Puts s.withHeaderConstants imageHeaderStores (imageHeaderFields s) :=
  puts_cons (fun _ _ _ => rfl) <| puts_cons (fun _ _ _ => rfl) <| puts_cons (fun _ _ _ => rfl) <|
    puts_cons (fun _ _ _ => rfl) <| puts_last fun _ _ _ => rfl

theorem ihdrPut_eq_storeFields {s : State} (hd : s.dimsOk = true) (hu : s.unpackedOff ≠ 0) :
    ihdrPut s = storeFields (imageHeaderFields s) (s.withHeaderConstants.storedFrom (ihdrAddr s.idx) []) := by
  have hpass : checkDims s = .ok () s := check_pass _ _ hd
  have hplaced : check (fun s => s.unpackedOff != 0) .noPayload (fun s => ihdrAddr s.idx + 4) s = .ok () s :=
    check_pass _ _ (by simpa using hu)
  have hstart : ihdrPut s = imageHeaderStores (s.withHeaderConstants.withSp (ihdrAddr s.idx)) :=
    (bind_of_ok hpass).trans (bind_of_ok hplaced)
  exact hstart.trans (puts_imageHeaderStores s s.cm s.clen _)

/-- The emitted image header is twelve bytes from `ihdr_addr(IDX)` on (R144). -/
theorem ihdrPut_ok {s : State} (hd : s.dimsOk = true) (hu : s.unpackedOff ≠ 0)
    (hf : s.params.accessFaults .store (ihdrAddr s.idx) 12 = false) :
    ihdrPut s = .ok () (s.withHeaderConstants.storedFrom (ihdrAddr s.idx) (imageHeaderFields s).flatten) := by
  have haddr := ihdrAddr_le s.idx
  have hlen : (imageHeaderFields s).flatten.length = 12 := rfl
  exact (ihdrPut_eq_storeFields hd hu).trans <| storeFields_ok (s := s.withHeaderConstants) (x := [])
    (imageHeaderFields_nonempty s) (by rw [List.length_nil, hlen]; omega) hf

theorem ihdrPut_stops {s : State} {f : Nat × Nat} (hd : s.dimsOk = true) (hu : s.unpackedOff ≠ 0)
    (hspan : f ∈ [(0, 1), (1, 1), (2, 2), (4, 4), (8, 4)])
    (hpre : s.params.accessFaults .store (ihdrAddr s.idx) f.1 = false)
    (hf : s.params.accessFaults .store (ihdrAddr s.idx + f.1) f.2 = true) :
    ihdrPut s = .error ⟨.ioError .store, ihdrAddr s.idx + f.1⟩
      (s.withHeaderConstants.storedFrom (ihdrAddr s.idx) ((imageHeaderFields s).flatten.take f.1)) := by
  have haddr := ihdrAddr_le s.idx
  have hlen : (imageHeaderFields s).flatten.length = 12 := rfl
  rw [← fieldSpans_imageHeaderFields s] at hspan
  exact (ihdrPut_eq_storeFields hd hu).trans <| storeFields_stops (s := s.withHeaderConstants) (x := [])
    (imageHeaderFields_nonempty s) (by rw [List.length_nil, hlen]; omega) hspan hpre hf

theorem hdrPut_stops {s : State} {f : Nat × Nat} (hspan : f ∈ [(0, 4), (4, 2), (6, 2), (8, 2), (10, 2)])
    (hpre : s.params.accessFaults .store 0 f.1 = false) (hf : s.params.accessFaults .store f.1 f.2 = true) :
    hdrPut s = .error ⟨.ioError .store, f.1⟩
      (s.withNewContainer.storedFrom 0 ((containerHeaderFields s).flatten.take f.1)) := by
  have hlen : (containerHeaderFields s).flatten.length = 12 := rfl
  rw [← fieldSpans_containerHeaderFields s] at hspan
  have hstops := storeFields_stops (s := s.withNewContainer) (a := 0) (x := []) (containerHeaderFields_nonempty s)
    (by rw [List.length_nil, hlen]; omega) hspan hpre (by rw [Nat.zero_add]; exact hf)
  rw [Nat.zero_add] at hstops
  exact (hdrPut_eq_storeFields s).trans hstops

/-! ### The raw payload (R171) -/

/-- Stores of `n` bytes, told by their number. -/
theorem storedFrom_of_length (s : State) (a : Nat) {n : Nat} {bytes : List Byte} (h : bytes.length = n) :
    s.storedFrom a bytes = { s with
      cm := s.cm.writeBytes a bytes
      clen := if n = 0 then s.clen else BitVec.ofNat 34 (max s.clen.toNat (a + n))
      sp := BitVec.ofNat 34 (a + n) } := by
  rw [← h]
  rfl

theorem storedFrom_pixelWords (s : State) (m : PixelMem) (a n : Nat) :
    s.storedFrom a (pixelWordBytes m n 0) = { s with
      cm := s.cm.writeBytes a (pixelWordBytes m n 0)
      clen := if n = 0 then s.clen else BitVec.ofNat 34 (max s.clen.toNat (a + 2 * n))
      sp := BitVec.ofNat 34 (a + 2 * n) } := by
  rw [storedFrom_of_length s a (length_pixelWordBytes m n 0)]
  simp only [Nat.mul_eq_zero, OfNat.ofNat_ne_zero, false_or]

/-- The first word whose store fails is told by the words before it. -/
theorem firstStoreFault_unique {p : Params} {base i k : Nat} (hi : p.accessFaults .store base (2 * i) = false)
    (hif : p.accessFaults .store (base + 2 * i) 2 = true) (hk : p.accessFaults .store base (2 * k) = false)
    (hkf : p.accessFaults .store (base + 2 * k) 2 = true) : k = i := by
  rcases Nat.lt_trichotomy k i with hlt | heq | hlt
  · rw [accessFaults_part hi (by omega) (by omega)] at hkf
    cases hkf
  · exact heq
  · rw [accessFaults_part hk (by omega) (by omega)] at hif
    cases hif

theorem rawEncLoop_ok {s : State} {base n : Nat} (hroom : base + 2 * n < 2 ^ 34)
    (hf : s.params.accessFaults .store base (2 * n) = false) :
    rawEncLoop n 0 (s.withSp base) = .ok () (s.storedFrom base (pixelWordBytes s.pm n 0)) := by
  have hsp : (s.withSp base).sp.toNat = base + 2 * 0 := toNat_withSp (by omega)
  rcases rawEncLoop_cases base n 0 (s.withSp base) hsp (by omega) with ⟨_, h⟩ | ⟨k, hk, _, hkf, _⟩
  · rw [h, storedFrom_pixelWords, Nat.zero_add]
    rfl
  · have hpart : s.params.accessFaults .store (base + 2 * (0 + k)) 2 = false :=
      accessFaults_part hf (by omega) (by omega)
    cases hpart.symm.trans hkf

theorem rawEncLoop_stops {s : State} {base n i : Nat} (hroom : base + 2 * n < 2 ^ 34) (hi : i < n)
    (hpre : s.params.accessFaults .store base (2 * i) = false)
    (hf : s.params.accessFaults .store (base + 2 * i) 2 = true) :
    rawEncLoop n 0 (s.withSp base) =
      .error ⟨.ioError .store, base + 2 * i⟩ (s.storedFrom base (pixelWordBytes s.pm i 0)) := by
  have hsp : (s.withSp base).sp.toNat = base + 2 * 0 := toNat_withSp (by omega)
  rcases rawEncLoop_cases base n 0 (s.withSp base) hsp (by omega) with ⟨hall, _⟩ | ⟨k, hk, hkpre, hkf, h⟩
  · have hpart : s.params.accessFaults .store (base + 2 * i) 2 = false :=
      accessFaults_part hall (by omega) (by omega)
    cases hpart.symm.trans hf
  · rw [Nat.zero_add] at hkf h
    obtain rfl := firstStoreFault_unique hpre hf hkpre hkf
    rw [h, storedFrom_pixelWords]
    rfl

theorem rawEnc_eq_loop {s : State} (hd : s.dimsOk = true) :
    rawEnc s = rawEncLoop s.pixelCount 0 (s.withSp s.unpackedOff.toNat) := bind_of_ok (check_pass _ _ hd)

/-- A raw payload ends where `SP` can stand (R40). -/
theorem rawPayload_room {s : State} (hd : s.dimsOk = true) : s.unpackedOff.toNat + 2 * s.pixelCount < 2 ^ 34 := by
  have hcount := pixelCount_bounds hd
  have hoff := s.unpackedOff.isLt
  omega

theorem rawEnc_ok {s : State} (hd : s.dimsOk = true)
    (hf : s.params.accessFaults .store s.unpackedOff.toNat (2 * s.pixelCount) = false) :
    rawEnc s = .ok () (s.storedFrom s.unpackedOff.toNat (pixelWordBytes s.pm s.pixelCount 0)) :=
  (rawEnc_eq_loop hd).trans (rawEncLoop_ok (rawPayload_room hd) hf)

theorem rawEnc_stops {s : State} {i : Nat} (hd : s.dimsOk = true) (hi : i < s.pixelCount)
    (hpre : s.params.accessFaults .store s.unpackedOff.toNat (2 * i) = false)
    (hf : s.params.accessFaults .store (s.unpackedOff.toNat + 2 * i) 2 = true) :
    rawEnc s = .error ⟨.ioError .store, s.unpackedOff.toNat + 2 * i⟩
      (s.storedFrom s.unpackedOff.toNat (pixelWordBytes s.pm i 0)) :=
  (rawEnc_eq_loop hd).trans (rawEncLoop_stops (rawPayload_room hd) hi hpre hf)

/-- The two bytes of a stored pixel word, put together again (R60, R171). -/
theorem be16_read_pixelWords (cm : ByteMem) (m : PixelMem) (a : Nat) {n j : Nat} (hj : j < n) :
    be16 ((cm.writeBytes a (pixelWordBytes m n 0)).read (a + 2 * j))
        ((cm.writeBytes a (pixelWordBytes m n 0)).read (a + 2 * j + 1)) = to16 (m.read j) := by
  have hlen := length_pixelWordBytes m n 0
  obtain ⟨hhigh, hlow⟩ := getElem?_pixelWordBytes m n 0 j hj
  rw [List.getElem?_eq_getElem (by omega), Option.some.injEq] at hhigh hlow
  rw [Nat.add_assoc, ByteMem.read_writeBytes_inside _ _ (by omega), ByteMem.read_writeBytes_inside _ _ (by omega),
    hhigh, hlow, be16_of_bytes, Nat.zero_add]

theorem read_pixelWords_outside (cm : ByteMem) (m : PixelMem) {a n c : Nat} (hc : c < a ∨ a + 2 * n ≤ c) :
    (cm.writeBytes a (pixelWordBytes m n 0)).read c = cm.read c :=
  ByteMem.read_writeBytes_outside cm _ (by rw [length_pixelWordBytes]; exact hc)

/-- Settles O34: the pixel loop runs to its end, and each word's two bytes lie where it stored them. -/
theorem rawEncEncodes : Obligations.RawEncEncodes := by
  unfold Obligations.RawEncEncodes
  intro s hd hf
  have hcount : s.pixelCount ≠ 0 := Nat.pos_iff_ne_zero.1 (pixelCount_bounds hd).1
  refine ⟨s.cm.writeBytes s.unpackedOff.toNat (pixelWordBytes s.pm s.pixelCount 0), ?_,
    fun i hi => be16_read_pixelWords _ _ _ hi, fun c hc => read_pixelWords_outside _ _ hc⟩
  have hrun : exec .rawEnc s = _ := runCommand_ok (rawEnc_ok hd hf)
  rw [hrun, storedFrom_pixelWords, if_neg hcount]
  rfl

/-- Settles O35: the dimension check comes first, and the pixel loop stops at the one word whose store fails first. -/
theorem rawEncStops : Obligations.RawEncStops := by
  unfold Obligations.RawEncStops
  intro s
  refine ⟨fun hd => runCommand_error (bind_of_error (check_fail _ _ hd)), fun i hd hi hpre hf => ?_⟩
  refine ⟨s.cm.writeBytes s.unpackedOff.toNat (pixelWordBytes s.pm i 0), ?_,
    fun j hj => be16_read_pixelWords _ _ _ hj, fun c hc => read_pixelWords_outside _ _ hc⟩
  have hrun : exec .rawEnc s = _ := runCommand_error (rawEnc_stops hd hi hpre hf)
  rw [hrun, storedFrom_pixelWords]

end Sys2Proof.Machine
end

section
/-! Where `HDR_PUT`, `IHDR_PUT` and `IMG_ENC` stop at a store that fails (R236, R266, R277 (g)). -/

namespace Sys2Proof.Machine

/-! ### The two headers -/

/-- Stores from address 0 after `CLEN` has been cleared (R141). -/
theorem storedFrom_newContainer (s : State) {n : Nat} {bytes : List Byte} (h : bytes.length = n) :
    s.withNewContainer.storedFrom 0 bytes = { s with
      version := 3, scanLineLen := 0, hres := 0, runpix := 0
      clen := BitVec.ofNat 34 n, sp := BitVec.ofNat 34 n, cm := s.cm.writeBytes 0 bytes } := by
  have hclen : (if n = 0 then (0 : BitVec 34) else BitVec.ofNat 34 (max 0 (0 + n))) = BitVec.ofNat 34 n := by
    split
    · rename_i hn
      rw [hn]
      rfl
    · rw [Nat.zero_add, Nat.zero_max]
  rw [storedFrom_of_length _ _ h, Nat.zero_add, ← hclen]
  simp [State.withNewContainer]

theorem hdrPut_stopsAtStore {s : State} {f : Nat × Nat} (hspan : f ∈ [(0, 4), (4, 2), (6, 2), (8, 2), (10, 2)])
    (hpre : s.params.accessFaults .store 0 f.1 = false) (hf : s.params.accessFaults .store f.1 f.2 = true) :
    ∃ cm', exec .hdrPut s = .next (State.takeError
        { s with
          version := 3, scanLineLen := 0, hres := 0, runpix := 0
          clen := BitVec.ofNat 34 f.1, sp := BitVec.ofNat 34 f.1, cm := cm' }
        ⟨.ioError .store, f.1⟩) ∧
      cm'.readBytes 0 f.1 =
        (bytes32 s.params.magicTag ++ bytes16 s.imageCount ++ [0, 3, 0, 0, 0, 0]).take f.1 ∧
      ∀ c, f.1 ≤ c → cm'.read c = s.cm.read c := by
  have hlen : ((containerHeaderFields s).flatten.take f.1).length = f.1 := length_take_of_mem_fieldSpans hspan
  have hrun : exec .hdrPut s = _ := runCommand_error (hdrPut_stops hspan hpre hf)
  refine ⟨s.cm.writeBytes 0 ((containerHeaderFields s).flatten.take f.1), ?_,
    (ByteMem.readBytes_writeBytes_same _ _ hlen).trans (by rw [flatten_containerHeaderFields]),
    fun c hc => ByteMem.read_writeBytes_outside _ _ (by omega)⟩
  rw [hrun, storedFrom_newContainer s hlen]

theorem ihdrPut_stopsAtStore {s : State} {f : Nat × Nat} (hd : s.dimsOk = true) (hu : s.unpackedOff ≠ 0)
    (hspan : f ∈ [(0, 1), (1, 1), (2, 2), (4, 4), (8, 4)])
    (hpre : s.params.accessFaults .store (ihdrAddr s.idx) f.1 = false)
    (hf : s.params.accessFaults .store (ihdrAddr s.idx + f.1) f.2 = true) :
    ∃ cm', ihdrPut s = .error ⟨.ioError .store, ihdrAddr s.idx + f.1⟩
        { s with
          ires := 0, packedOff := 0, cm := cm'
          clen := if f.1 = 0 then s.clen else BitVec.ofNat 34 (max s.clen.toNat (ihdrAddr s.idx + f.1))
          sp := BitVec.ofNat 34 (ihdrAddr s.idx + f.1) } ∧
      cm'.readBytes (ihdrAddr s.idx) f.1 =
        ([dimEnc s.width, dimEnc s.height, 0, 0] ++ bytes32 s.unpackedOff ++ [0, 0, 0, 0]).take f.1 ∧
      ∀ c, c < ihdrAddr s.idx ∨ ihdrAddr s.idx + f.1 ≤ c → cm'.read c = s.cm.read c := by
  have hlen : ((imageHeaderFields s).flatten.take f.1).length = f.1 := length_take_of_mem_fieldSpans hspan
  refine ⟨s.cm.writeBytes (ihdrAddr s.idx) ((imageHeaderFields s).flatten.take f.1), ?_,
    (ByteMem.readBytes_writeBytes_same _ _ hlen).trans (by rw [flatten_imageHeaderFields]),
    fun c hc => ByteMem.read_writeBytes_outside _ _ (by omega)⟩
  rw [ihdrPut_stops hd hu hspan hpre hf, storedFrom_of_length _ _ hlen]
  rfl

/-! ### `IMG_ENC` -/

/-- The validations of `IMG_ENC` pass (R236, R237). -/
structure Encodable (s : State) : Prop where
  index : s.idx.toNat < s.imageCount.toNat
  channels : s.channels = 3
  dims : s.dimsOk = true
  fits : encOffset s.imageCount s.runpix ≤ 0xFFFFFFFF

/-- After the validations `IMG_ENC` places the image, and emits its header and its payload (R236). -/
theorem imgEnc_eq_stores {s : State} (h : Encodable s) :
    imgEnc s = (ihdrPut >>= fun _ => rawEnc >>= fun _ => change State.withCounted) s.withPlacement := by
  have hindex : checkIndex s = .ok () s := check_pass _ _ (by simpa using h.index)
  have hchannels : check (fun s => s.channels == 3) .channelMismatch (fun _ => 0) s = .ok () s :=
    check_pass _ _ (by simpa using h.channels)
  have hdims : checkDims s = .ok () s := check_pass _ _ h.dims
  have hfits : check (fun s => offsetFits (encOffset s.imageCount s.runpix)) .offsetOverflow
      (fun s => ihdrAddr s.idx + 4) s = .ok () s := check_pass _ _ (by simpa [offsetFits] using h.fits)
  exact (bind_of_ok hindex).trans <| (bind_of_ok hchannels).trans <| (bind_of_ok hdims).trans (bind_of_ok hfits)

/-- `CLEN` after the header and then, unless nothing more has been stored, a part of the payload behind it (R65). -/
theorem clen_raised_again {before after : BitVec 34} {m n : Nat} {nothing : Prop} [Decidable nothing]
    (h : after.toNat = max before.toNat m) (hmn : m ≤ n) :
    (if nothing then after else BitVec.ofNat 34 (max after.toNat n)) =
      BitVec.ofNat 34 (max before.toNat (if nothing then m else n)) := by
  rw [h]
  split
  · rw [← h, BitVec.ofNat_toNat, BitVec.setWidth_eq]
  · rw [Nat.max_assoc, Nat.max_eq_right hmn]

/-- The image placed and its header emitted (R236). -/
def State.headerEmitted (s : State) : State :=
  s.withPlacement.withHeaderConstants.storedFrom (ihdrAddr s.idx) (imageHeaderFields s.withPlacement).flatten

theorem toNat_clen_headerEmitted (s : State) :
    s.headerEmitted.clen.toNat = max s.clen.toNat (ihdrAddr s.idx + 12) := by
  have haddr := ihdrAddr_le s.idx
  have hstored : s.headerEmitted = s.withPlacement.withHeaderConstants.stored (ihdrAddr s.idx)
      (imageHeaderFields s.withPlacement).flatten := storedFrom_eq_stored (List.cons_ne_nil _ _)
  rw [hstored]
  exact toNat_clen_stored _ _ _ (show ihdrAddr s.idx + 12 < 2 ^ 34 by omega)

section Placed
variable {s : State} (h : Encodable s)
include h

theorem toNat_unpackedOff_withPlacement :
    s.withPlacement.unpackedOff.toNat = encOffset s.imageCount s.runpix := by
  have hfits := h.fits
  rw [State.withPlacement_unpackedOff, BitVec.toNat_ofNat, Nat.mod_eq_of_lt (by omega)]

/-- An image's header lies before its payload (R172). -/
theorem ihdrAddr_add_le_encOffset : ihdrAddr s.idx + 12 ≤ encOffset s.imageCount s.runpix := by
  have hindex := h.index
  simp only [ihdrAddr, encOffset, Config.hdrSize, Config.ihdrSize]
  omega

theorem unpackedOff_withPlacement_ne_zero : s.withPlacement.unpackedOff ≠ 0 := by
  intro hzero
  have hoff : 0 = encOffset s.imageCount s.runpix :=
    (congrArg BitVec.toNat hzero).symm.trans (toNat_unpackedOff_withPlacement h)
  have hplace := ihdrAddr_add_le_encOffset h
  omega

theorem imgEnc_stopsAtHeader {f : Nat × Nat} (hspan : f ∈ [(0, 1), (1, 1), (2, 2), (4, 4), (8, 4)])
    (hpre : s.params.accessFaults .store (ihdrAddr s.idx) f.1 = false)
    (hf : s.params.accessFaults .store (ihdrAddr s.idx + f.1) f.2 = true) :
    ∃ cm', exec .imgEnc s = .next (State.takeError
        { s.withPlacement with
          ires := 0, packedOff := 0, cm := cm'
          clen := if f.1 = 0 then s.clen else BitVec.ofNat 34 (max s.clen.toNat (ihdrAddr s.idx + f.1))
          sp := BitVec.ofNat 34 (ihdrAddr s.idx + f.1) }
        ⟨.ioError .store, ihdrAddr s.idx + f.1⟩) ∧
      cm'.readBytes (ihdrAddr s.idx) f.1 =
        ([dimEnc s.width, dimEnc s.height, 0, 0] ++ bytes32 s.withPlacement.unpackedOff ++ [0, 0, 0, 0]).take f.1 ∧
      ∀ c, c < ihdrAddr s.idx ∨ ihdrAddr s.idx + f.1 ≤ c → cm'.read c = s.cm.read c := by
  obtain ⟨cm', hput, hbytes, hother⟩ :=
    ihdrPut_stopsAtStore (s := s.withPlacement) h.dims (unpackedOff_withPlacement_ne_zero h) hspan hpre hf
  exact ⟨cm', runCommand_error ((imgEnc_eq_stores h).trans (bind_of_error hput)), hbytes, hother⟩

/-- Where `IMG_ENC` begins the payload (R236). -/
theorem imgEnc_eq_payload (hheader : s.params.accessFaults .store (ihdrAddr s.idx) 12 = false) :
    imgEnc s = (rawEnc >>= fun _ => change State.withCounted) s.headerEmitted :=
  (imgEnc_eq_stores h).trans <| bind_of_ok <|
    ihdrPut_ok (s := s.withPlacement) h.dims (unpackedOff_withPlacement_ne_zero h) hheader

theorem imgEnc_stopsAtPixel {off i : Nat} (hoff : off = encOffset s.imageCount s.runpix) (hi : i < s.pixelCount)
    (hheader : s.params.accessFaults .store (ihdrAddr s.idx) 12 = false)
    (hpre : s.params.accessFaults .store off (2 * i) = false)
    (hf : s.params.accessFaults .store (off + 2 * i) 2 = true) :
    ∃ cm', exec .imgEnc s = .next (State.takeError
        { s.withPlacement with
          ires := 0, packedOff := 0, cm := cm'
          clen := BitVec.ofNat 34 (max s.clen.toNat (if i = 0 then ihdrAddr s.idx + 12 else off + 2 * i))
          sp := BitVec.ofNat 34 (off + 2 * i) }
        ⟨.ioError .store, off + 2 * i⟩) ∧
      cm'.readBytes (ihdrAddr s.idx) 12 =
        [dimEnc s.width, dimEnc s.height, 0, 0] ++ bytes32 s.withPlacement.unpackedOff ++ [0, 0, 0, 0] ∧
      (∀ j, j < i → be16 (cm'.read (off + 2 * j)) (cm'.read (off + 2 * j + 1)) = to16 (s.pm.read j)) ∧
      ∀ c, (c < ihdrAddr s.idx ∨ ihdrAddr s.idx + 12 ≤ c) → (c < off ∨ off + 2 * i ≤ c) →
        cm'.read c = s.cm.read c := by
  have hplace : ihdrAddr s.idx + 12 ≤ off := hoff ▸ ihdrAddr_add_le_encOffset h
  have htoff : s.headerEmitted.unpackedOff.toNat = off := (toNat_unpackedOff_withPlacement h).trans hoff.symm
  have hstop := rawEnc_stops (s := s.headerEmitted) h.dims hi (by rw [htoff]; exact hpre) (by rw [htoff]; exact hf)
  have hrun : exec .imgEnc s = _ := runCommand_error ((imgEnc_eq_payload h hheader).trans (bind_of_error hstop))
  refine ⟨s.headerEmitted.cm.writeBytes off (pixelWordBytes s.pm i 0), ?_, ?_,
    fun j hj => be16_read_pixelWords _ _ _ hj, fun c hc hc' => ?_⟩
  · rw [hrun, htoff, storedFrom_pixelWords,
      clen_raised_again (toNat_clen_headerEmitted s) (show ihdrAddr s.idx + 12 ≤ off + 2 * i by omega)]
    rfl
  · rw [ByteMem.readBytes_writeBytes_outside _ _ (.inl hplace)]
    exact ByteMem.readBytes_writeBytes_same _ _ rfl
  · rw [read_pixelWords_outside _ _ hc']
    exact ByteMem.read_writeBytes_outside _ _ hc

end Placed

/-- Settles O49: each command is its fields stored one after another, and stops at the first store that fails. -/
theorem encodersStopAtStore : Obligations.EncodersStopAtStore := by
  unfold Obligations.EncodersStopAtStore
  intro s
  refine ⟨fun f hspan hpre hf => hdrPut_stopsAtStore hspan hpre hf, ?_, ?_⟩
  · rintro hd hu f hspan _ rfl hpre hf
    obtain ⟨cm', hput, hcells⟩ := ihdrPut_stopsAtStore hd hu hspan hpre hf
    exact ⟨cm', runCommand_error hput, hcells⟩
  · rintro _ _ rfl rfl hindex hchannels hd hfits
    have h : Encodable s := ⟨hindex, hchannels, hd, hfits⟩
    exact ⟨fun f hspan hpre hf => imgEnc_stopsAtHeader h hspan hpre hf,
      fun i hi hheader hpre hf => imgEnc_stopsAtPixel h rfl hi hheader hpre hf⟩

end Sys2Proof.Machine
end

section
/-! The unit's work other than the four encoding commands leaves `CM` alone (R67, R277 (f)). -/

namespace Sys2Proof.Machine

/-! ### Pieces of pseudocode that keep `CM` -/

/-- Whether the piece goes on or raises, `CM` is as it was. -/
def KeepsCm {α : Type} (c : Cmd α) : Prop := ∀ s : State, Ends c s (fun _ t => t.cm = s.cm) fun t => t.cm = s.cm

section Pieces
variable {α β : Type}

theorem keepsCm_pure (a : α) : KeepsCm (pure a : Cmd α) := fun s => ends_of_ok (cmd_pure a s) rfl

theorem keepsCm_raise (cause : Cause) (addr : Nat) : KeepsCm (raise cause addr : Cmd α) :=
  fun s => ends_of_error (raise_apply cause addr s) rfl

theorem KeepsCm.bind {c : Cmd α} {f : α → Cmd β} (hc : KeepsCm c) (hf : ∀ a, KeepsCm (f a)) : KeepsCm (c >>= f) :=
  fun s => ends_bind <| (hc s).mono (fun a t h => (hf a t).mono (fun _ _ h' => h'.trans h) fun _ h' => h'.trans h)
    fun _ h => h

theorem keepsCm_get_bind {f : State → Cmd β} (hf : ∀ s, KeepsCm (f s)) : KeepsCm ((get : Cmd State) >>= f) :=
  fun s => ends_get_bind (hf s s)

theorem keepsCm_change {f : State → State} (h : ∀ s, (f s).cm = s.cm) : KeepsCm (change f) :=
  fun s => ends_change (h s)

theorem keepsCm_check (ok : State → Bool) (cause : Cause) (addr : State → Nat) : KeepsCm (check ok cause addr) :=
  fun _ => ends_check (fun _ => rfl) rfl

theorem keepsCm_seek (target : State → Nat) : KeepsCm (seek target) := keepsCm_change fun _ => rfl

theorem keepsCm_readU8 (stage : Stage) : KeepsCm (readU8 stage) := fun _ => ends_readU8 (fun _ _ => rfl) rfl

theorem keepsCm_readU16 (stage : Stage) : KeepsCm (readU16 stage) := fun _ => ends_readU16 (fun _ _ => rfl) rfl

theorem keepsCm_readU32 (stage : Stage) : KeepsCm (readU32 stage) := fun _ => ends_readU32 (fun _ _ => rfl) rfl

theorem KeepsCm.payload {c : Cmd Unit} (hc : KeepsCm c) : KeepsCm (payload c) :=
  fun s => ends_payload (hc s) fun _ h => h

theorem KeepsCm.openedPayload {c : Cmd Unit} (hc : KeepsCm c) : KeepsCm (openedPayload c) :=
  fun s => ends_openedPayload (hc s) fun _ h => h

end Pieces

theorem cm_sliced (s : State) : s.sliced.cm = s.cm := by rw [sliced_eq]

/-! ### The commands that store nothing, and the records -/

theorem keepsCm_headerBody : KeepsCm headerBody :=
  (keepsCm_readU32 _).bind fun _ => (keepsCm_check _ _ _).bind fun _ => (keepsCm_readU16 _).bind fun _ =>
    (keepsCm_readU16 _).bind fun _ => (keepsCm_readU16 _).bind fun _ => (keepsCm_readU16 _).bind fun _ =>
      (keepsCm_check _ _ _).bind fun _ => keepsCm_change fun _ => rfl

theorem keepsCm_imageHeaderBody : KeepsCm imageHeaderBody :=
  (keepsCm_readU8 _).bind fun _ => (keepsCm_readU8 _).bind fun _ => (keepsCm_readU16 _).bind fun _ =>
    (keepsCm_readU32 _).bind fun _ => (keepsCm_readU32 _).bind fun _ => (keepsCm_check _ _ _).bind fun _ =>
      keepsCm_change fun _ => rfl

theorem keepsCm_hdrGet : KeepsCm hdrGet := (keepsCm_seek _).bind fun _ => keepsCm_headerBody

theorem keepsCm_ihdrGet : KeepsCm ihdrGet := (keepsCm_seek _).bind fun _ => keepsCm_imageHeaderBody

theorem keepsCm_rawDecLoop (n i : Nat) : KeepsCm (rawDecLoop n i) := by
  induction n generalizing i with
  | zero => exact keepsCm_pure ()
  | succ n ih =>
    exact (keepsCm_readU16 _).bind fun _ => (keepsCm_change fun s => State.withPm_cm s _ _).bind fun _ => ih (i + 1)

theorem keepsCm_rawDec : KeepsCm rawDec :=
  (keepsCm_check _ _ _).bind fun _ => (keepsCm_seek _).bind fun _ => keepsCm_get_bind fun _ =>
    (keepsCm_rawDecLoop _ _).payload

theorem keepsCm_packedStart : KeepsCm packedStart :=
  ((keepsCm_check _ _ _).bind fun _ => (keepsCm_check _ _ _).bind fun _ => keepsCm_check _ _ _).bind fun _ =>
    keepsCm_change fun _ => rfl

theorem keepsCm_preambleStep : KeepsCm preambleStep := (keepsCm_readU16 _).bind fun _ => keepsCm_change fun _ => rfl

theorem keepsCm_runLoop (n : Nat) : KeepsCm (runLoop n) := by
  induction n with
  | zero => exact keepsCm_pure ()
  | succ n ih =>
    exact (keepsCm_readU16 _).bind fun _ => (keepsCm_change fun s => State.withRunPixel_cm s _).bind fun _ => ih

theorem keepsCm_chunkHead : KeepsCm chunkHead :=
  (keepsCm_readU16 _).bind fun _ => (keepsCm_readU16 _).bind fun _ =>
    (keepsCm_change fun s => State.withChunkHead_cm s _ _).bind fun _ => keepsCm_pure _

theorem keepsCm_chunkStep : KeepsCm chunkStep :=
  keepsCm_chunkHead.bind fun n => (keepsCm_runLoop n).bind fun _ => keepsCm_change fun _ => rfl

theorem keepsCm_chunkLoop (n : Nat) : KeepsCm (chunkLoop n) := by
  induction n with
  | zero => exact keepsCm_pure ()
  | succ n ih => exact keepsCm_chunkStep.bind fun _ => ih

theorem keepsCm_pkDec : KeepsCm pkDec :=
  keepsCm_packedStart.bind fun _ => KeepsCm.payload <| keepsCm_preambleStep.bind fun _ => keepsCm_get_bind fun s =>
    (keepsCm_chunkLoop s.nchunk.toNat).bind fun _ => keepsCm_change cm_sliced

theorem keepsCm_imgDec : KeepsCm imgDec :=
  (keepsCm_check _ _ _).bind fun _ => keepsCm_ihdrGet.bind fun _ => keepsCm_get_bind fun s => by
    split
    · exact keepsCm_rawDec
    · exact keepsCm_pkDec

theorem keepsCm_rawOpen : KeepsCm rawOpen := (keepsCm_check _ _ _).bind fun _ => keepsCm_change fun _ => rfl

theorem keepsCm_packedOpen : KeepsCm packedOpen := keepsCm_packedStart.bind fun _ => keepsCm_change fun _ => rfl

theorem keepsCm_chunkOpen : KeepsCm chunkOpen :=
  KeepsCm.openedPayload <| keepsCm_chunkHead.bind fun _ => keepsCm_change fun _ => rfl

theorem keepsCm_rest (place : Place) : KeepsCm place.rest := by
  cases place with
  | header => exact keepsCm_headerBody
  | imageHeader _ => exact keepsCm_imageHeaderBody
  | rawPixels =>
    exact KeepsCm.openedPayload <| keepsCm_get_bind fun _ => (keepsCm_readU16 _).bind fun _ =>
      keepsCm_change fun _ => rfl
  | preamble => exact keepsCm_preambleStep.openedPayload
  | chunks => exact keepsCm_chunkStep.openedPayload
  | runPixels => exact (keepsCm_runLoop 1).openedPayload

/-- The four encoding commands (R141, R143, R171, R236). -/
def isEncoding (i : Instr) : Bool := i == .hdrPut || i == .ihdrPut || i == .rawEnc || i == .imgEnc

theorem keepsCm_commandBody {i : Instr} (hi : isEncoding i = false) : KeepsCm (commandBody i) := by
  cases i with
  | to16 => exact keepsCm_change fun _ => rfl
  | to24 => exact keepsCm_change fun _ => rfl
  | clr => exact keepsCm_change fun _ => rfl
  | hdrGet => exact keepsCm_hdrGet
  | ihdrGet => exact keepsCm_ihdrGet
  | rawDec => exact keepsCm_rawDec
  | pkDec => exact keepsCm_pkDec
  | imgDec => exact keepsCm_imgDec
  | hdrPut | ihdrPut | rawEnc | imgEnc => cases hi
  | _ => exact keepsCm_pure ()

theorem keepsCm_openCommand {i : Instr} {c : Cmd Unit} (h : openCommand i = some c) : KeepsCm c := by
  cases i <;> cases h
  case hdrGet => exact keepsCm_change fun _ => rfl
  case ihdrGet => exact keepsCm_change fun _ => rfl
  case rawDec => exact keepsCm_rawOpen
  case pkDec => exact keepsCm_packedOpen
  case imgDec => exact (keepsCm_check _ _ _).bind fun _ => keepsCm_change fun _ => rfl

/-- The codes of the encoding commands (R96). -/
def EncodingCode (code : Byte) : Prop := code = 0x20 ∨ code = 0x21 ∨ code = 0x22 ∨ code = 0x23

theorem encodingCode_of_isEncoding {code : Byte} {i : Instr} (h : decodeCommand code = some i)
    (hi : isEncoding i = true) : EncodingCode code := by
  have hcodes : ∀ code, (decodeCommand code).any isEncoding = true → code ∈ [0x20, 0x21, 0x22, 0x23] := by decide
  simpa [EncodingCode] using hcodes code (by simp [h, hi])

theorem keepsCm_codeBody {code : Byte} (hcode : ¬ EncodingCode code) : KeepsCm (codeBody code) := by
  rcases codeBody_cases code with ⟨i, _, _, hi, hbody⟩ | ⟨_, hbody⟩ <;> rw [hbody]
  · refine keepsCm_commandBody (Bool.eq_false_iff.2 fun henc => ?_)
    exact hcode (encodingCode_of_isEncoding hi henc)
  · exact keepsCm_raise _ _

/-! ### The turn of a busy unit -/

theorem Settled.cm {w t : State} (h : Settled w t) : t.cm = w.cm := by cases h <;> rfl

theorem cm_runCommand {c : Cmd Unit} {s t : State} (hc : KeepsCm c) (h : runCommand c s = .next t) : t.cm = s.cm := by
  rcases runCommand_cases c s with ⟨u, hu, hrun⟩ | ⟨e, u, hu, hrun⟩ <;> rw [hrun] at h <;> cases h
  · exact Settled.completes.cm.trans ((hc s).of_ok hu)
  · exact (Settled.fails e).cm.trans ((hc s).of_error hu)

theorem cm_runPart {c : Cmd Unit} {s t : State} (hc : KeepsCm c) (h : runPart c s = .next t) : t.cm = s.cm := by
  cases hu : c s with
  | ok a u =>
    rw [runPart_ok hu] at h
    cases h
    exact (hc s).of_ok hu
  | error e u =>
    rw [runPart_error hu] at h
    cases h
    exact (Settled.fails e).cm.trans ((hc s).of_error hu)

theorem cm_afterChunk {s t : State} (h : afterChunk s = .next t) : t.cm = s.cm := by
  unfold afterChunk at h
  split at h <;> cases h
  · exact cm_sliced s
  · rfl

theorem cm_afterRecordAt {place : Place} {s t : State} (h : afterRecordAt place s = .next t) : t.cm = s.cm := by
  cases place with
  | header => cases h; rfl
  | imageHeader decoding =>
    cases decoding with
    | false => cases h; rfl
    | true =>
      rw [afterRecordAt] at h
      split at h
      · exact cm_runPart keepsCm_rawOpen h
      · exact cm_runPart keepsCm_packedOpen h
  | rawPixels =>
    rw [afterRecordAt] at h
    split at h <;> cases h <;> rfl
  | preamble => cases h; rfl
  | chunks => exact cm_afterChunk h
  | runPixels =>
    rw [afterRecordAt] at h
    split at h
    · exact cm_afterChunk (s := s.withChunkDone) h
    · cases h; rfl

/-- A turn that changes `CM` is an encoding command's. -/
theorem busyTurn_cm {s t : State} (hb : s.busy = true) (h : BusyTurn s t) :
    t.cm = s.cm ∨ ∃ code, s.doing = .command code ∧ EncodingCode code := by
  cases h with
  | @command code _ hd h =>
    by_cases hcode : EncodingCode code
    · exact .inr ⟨code, hd, hcode⟩
    · exact .inl (cm_runCommand (keepsCm_codeBody hcode) h)
  | opens _ _ hc h => exact .inl (cm_runPart (keepsCm_openCommand hc) h)
  | @record place _ _ hd h =>
    left
    rcases placeTurn_cases hb hd with ⟨u, hu, hturn⟩ | ⟨e, u, hu, hturn⟩ <;> rw [hturn] at h
    · exact (cm_afterRecordAt h).trans ((keepsCm_rest place s).of_ok hu)
    · cases h
      exact (Settled.fails e).cm.trans ((keepsCm_rest place s).of_error hu)
  | chunkOpens _ h => exact .inl (cm_runPart keepsCm_chunkOpen h)

/-! ### A step -/

theorem cm_hostRegWrite (s : State) (n v : Nat) : (s.hostRegWrite n v).cm = s.cm := by
  rcases hostRegWrite_cases s n v with hw | ⟨_, code, _, hw⟩ | ⟨_, hn, hw⟩ <;> rw [hw]
  · rfl
  · exact (sameUnit_withRegister s v hn).cm

/-- The turn of a busy unit that stands next, where it changes `CM`. -/
theorem turn_cm {s t : State} {rest : List Event} (hn : UnitTurnNext s)
    (h : t = s.withAgenda rest ∨ (s.withAgenda rest).busy = true ∧ BusyTurn (s.withAgenda rest) t) :
    t.cm = s.cm ∨ ∃ code, EncodingCode code ∧ CommandTurn code s := by
  rcases h with rfl | ⟨hb, ht⟩
  · exact .inl rfl
  · rcases busyTurn_cm hb ht with hcm | ⟨code, hd, hcode⟩
    · exact .inl hcm
    · exact .inr ⟨code, hcode, hb, hd, hn⟩

/-- A step that changes `CM` is a host write to it, a reset, or the turn of an encoding command. -/
theorem step_cm {s t : State} (h : step s = .next t) :
    t.cm = s.cm ∨ (∃ a b rest, s.agenda = .cmWrite a b :: rest) ∨ (∃ rest, s.agenda = .reset :: rest) ∨
      ∃ code, EncodingCode code ∧ CommandTurn code s := by
  cases ha : s.agenda with
  | nil =>
    rw [step_nil ha] at h
    have hs : s.withAgenda [] = s := by rw [← ha]; rfl
    exact (turn_cm (rest := []) (.inl ha) (by rw [hs]; exact unitTurn_cases h)).imp_right fun hcode =>
      .inr (.inr hcode)
  | cons e rest =>
    rw [step_cons ha] at h
    cases e with
    | reset => exact .inr (.inr (.inl ⟨rest, rfl⟩))
    | cmWrite a b => exact .inr (.inl ⟨a, b, rest, rfl⟩)
    | regRead n =>
      cases h
      rw [hostRegRead_eq]
      exact .inl rfl
    | regWrite n v =>
      cases h
      exact .inl (cm_hostRegWrite _ n v)
    | cmRead a =>
      obtain ⟨_, _, rfl⟩ := hostCm_cases h
      exact .inl rfl
    | pmRead i =>
      obtain ⟨_, _, rfl⟩ := hostPm_cases h
      exact .inl rfl
    | pmWrite i p =>
      obtain ⟨_, _, rfl⟩ := hostPm_cases h
      exact .inl rfl
    | unitTurn => exact (turn_cm (.inr ⟨rest, .inl ha⟩) (unitTurn_cases h)).imp_right fun hcode => .inr (.inr hcode)
    | unitOpen => exact (turn_cm (.inr ⟨rest, .inr ha⟩) (unitOpen_cases h)).imp_right fun hcode => .inr (.inr hcode)

/-- Settles O59: every piece of the other commands and of the records keeps `CM`. -/
theorem onlyEncodersStore : Obligations.OnlyEncodersStore := by
  unfold Obligations.OnlyEncodersStore
  intro s t h hne
  rcases step_cm h with hcm | hwrite | hreset | ⟨code, rfl | rfl | rfl | rfl, hturn⟩
  · exact absurd hcm hne
  · exact .inl hwrite
  · exact .inr (.inl hreset)
  · exact .inr (.inr (.inl hturn))
  · exact .inr (.inr (.inr (.inl hturn)))
  · exact .inr (.inr (.inr (.inr (.inl hturn))))
  · exact .inr (.inr (.inr (.inr (.inr hturn))))

end Sys2Proof.Machine
end

section
/-! What decodes is well formed and re-encodes to the bytes it came from, format by format (R91 to R96). -/

namespace Sys2Proof.Machine

/-- Settles O1: each field is taken back from its bytes, and the bytes after the record are left. -/
theorem decodeOfEncode : Obligations.DecodeOfEncode := by
  unfold Obligations.DecodeOfEncode
  exact decode_encode_append

/-! ### A field that has been taken is its bytes at the head (R60, R95) -/

theorem bytes16_be16 (b0 b1 : Byte) : bytes16 (be16 b0 b1) = [b0, b1] := by
  have hhigh : (be16 b0 b1).extractLsb' 8 8 = b0 := BitVec.extractLsb'_append_eq_left
  have hlow : (be16 b0 b1).extractLsb' 0 8 = b1 := BitVec.extractLsb'_append_eq_right
  rw [bytes16, hhigh, hlow]

theorem bytes32_be32 (b0 b1 b2 b3 : Byte) : bytes32 (be32 b0 b1 b2 b3) = [b0, b1, b2, b3] := by
  simp only [bytes32, be32, List.cons.injEq, and_true]
  refine ⟨?_, ?_, ?_, ?_⟩ <;> ext i hi <;> simp <;> grind

theorem take8_eq_some {bytes rest : List Byte} {b : Byte} : take8 bytes = some (b, rest) ↔ bytes = b :: rest := by
  cases bytes <;> simp [take8]

theorem take16_eq_some {bytes rest : List Byte} {v : U16} :
    take16 bytes = some (v, rest) ↔ bytes = bytes16 v ++ rest := by
  refine ⟨fun h => ?_, fun h => h ▸ take16_bytes16 v rest⟩
  unfold take16 at h
  split at h <;> cases h
  rw [bytes16_be16]
  rfl

theorem take32_eq_some {bytes rest : List Byte} {v : U32} :
    take32 bytes = some (v, rest) ↔ bytes = bytes32 v ++ rest := by
  refine ⟨fun h => ?_, fun h => h ▸ take32_bytes32 v rest⟩
  unfold take32 at h
  split at h <;> cases h
  rw [bytes32_be32]
  rfl

theorem takeWords_eq_some {n : Nat} {bytes rest : List Byte} {px : List U16} :
    takeWords n bytes = some (px, rest) ↔ px.length = n ∧ bytes = px.flatMap bytes16 ++ rest := by
  refine ⟨fun h => ?_, fun ⟨hn, h⟩ => by rw [h, ← hn, takeWords_flatMap_bytes16]⟩
  induction n generalizing bytes px with
  | zero => cases h; exact ⟨rfl, rfl⟩
  | succ n ih =>
    simp only [takeWords, Option.bind_eq_bind, Option.bind_eq_some_iff, Prod.exists, Option.pure_def,
      Option.some.injEq, Prod.mk.injEq, take16_eq_some] at h
    obtain ⟨v, tail, rfl, vs, left, htail, rfl, rfl⟩ := h
    obtain ⟨hn, rfl⟩ := ih htail
    exact ⟨by rw [List.length_cons, hn], by rw [List.flatMap_cons, List.append_assoc]⟩

/-! ### A record that has been decoded (R91 to R96) -/

/-- The instruction is a well-formed one of this format, and its bytes with the rest behind them are the byte
string. -/
def StandsFor (format : Format) (bytes : List Byte) (i : Instr) (rest : List Byte) : Prop :=
  i.format = format ∧ i.wf = true ∧ encode i ++ rest = bytes

theorem standsFor_of_decodeCommand {code : Byte} {i : Instr} (rest : List Byte) (h : decodeCommand code = some i) :
    StandsFor .command (code :: rest) i rest := by
  have hrows : ∀ row ∈ commandCodes, row.2.format = .command ∧ row.2.wf = true ∧ encode row.2 = [row.1] := by
    decide
  obtain ⟨row, hfind, rfl⟩ := Option.map_eq_some_iff.1 h
  obtain ⟨hformat, hwf, hencode⟩ := hrows row (List.mem_of_find?_eq_some hfind)
  have hcode : row.1 = code := by simpa using List.find?_some hfind
  exact ⟨hformat, hwf, by rw [hencode, hcode]; rfl⟩

theorem standsFor_of_decodeContainerHeader {bytes rest : List Byte} {i : Instr}
    (h : decodeContainerHeader bytes = some (i, rest)) : StandsFor .containerHeader bytes i rest := by
  simp only [decodeContainerHeader, Option.bind_eq_bind, Option.bind_eq_some_iff, Prod.exists, Option.pure_def,
    Option.some.injEq, Prod.mk.injEq, take32_eq_some, take16_eq_some] at h
  obtain ⟨m, _, rfl, n, _, rfl, v, _, rfl, l, _, rfl, x, _, rfl, rfl, rfl⟩ := h
  exact ⟨rfl, rfl, rfl⟩

theorem standsFor_of_decodeImageHeader {bytes rest : List Byte} {i : Instr}
    (h : decodeImageHeader bytes = some (i, rest)) : StandsFor .imageHeader bytes i rest := by
  simp only [decodeImageHeader, Option.bind_eq_bind, Option.bind_eq_some_iff, Prod.exists, Option.pure_def,
    Option.some.injEq, Prod.mk.injEq, take8_eq_some, take32_eq_some, take16_eq_some] at h
  obtain ⟨w, _, rfl, h, _, rfl, x, _, rfl, u, _, rfl, p, _, rfl, rfl, rfl⟩ := h
  exact ⟨rfl, rfl, rfl⟩

theorem standsFor_of_decodePackedPreamble {bytes rest : List Byte} {i : Instr}
    (h : decodePackedPreamble bytes = some (i, rest)) : StandsFor .packedPreamble bytes i rest := by
  simp only [decodePackedPreamble, Option.bind_eq_bind, Option.bind_eq_some_iff, Prod.exists, Option.pure_def,
    Option.some.injEq, Prod.mk.injEq, take16_eq_some] at h
  obtain ⟨c, _, rfl, rfl, rfl⟩ := h
  exact ⟨rfl, rfl, rfl⟩

theorem standsFor_of_decodeChunk {bytes rest : List Byte} {i : Instr} (h : decodeChunk bytes = some (i, rest)) :
    StandsFor .chunk bytes i rest := by
  simp only [decodeChunk, Option.bind_eq_bind, Option.bind_eq_some_iff, Prod.exists, Option.pure_def,
    Option.some.injEq, Prod.mk.injEq, take16_eq_some, takeWords_eq_some] at h
  obtain ⟨o, _, rfl, r, _, rfl, px, _, ⟨hlen, rfl⟩, rfl, rfl⟩ := h
  refine ⟨rfl, by simpa [Instr.wf, chunkWordsMatch] using hlen, ?_⟩
  simp only [encode, List.append_assoc]

/-- A pixel word's three fields are all of its bits (R95). -/
theorem standsFor_of_decodePixel {bytes rest : List Byte} {i : Instr} (h : decodePixel bytes = some (i, rest)) :
    StandsFor .pixel bytes i rest := by
  simp only [decodePixel, Option.bind_eq_bind, Option.bind_eq_some_iff, Prod.exists, Option.pure_def,
    Option.some.injEq, Prod.mk.injEq, take16_eq_some] at h
  obtain ⟨v, _, rfl, rfl, rfl⟩ := h
  exact ⟨rfl, rfl, by rw [encode, pack565_unpack565]⟩

/-- Settles O2: what a field's decoder takes is the field's bytes, so a record's is the record's. -/
theorem encodeOfDecode : Obligations.EncodeOfDecode := by
  unfold Obligations.EncodeOfDecode
  intro f bytes i rest h
  cases f with
  | command =>
    cases bytes with
    | nil => cases h
    | cons code tail =>
      cases hc : decodeCommand code <;> simp only [decode, hc] at h <;> cases h
      exact standsFor_of_decodeCommand rest hc
  | containerHeader =>
    cases hd : decodeContainerHeader bytes <;> simp only [decode, hd] at h <;> cases h
    exact standsFor_of_decodeContainerHeader hd
  | imageHeader =>
    cases hd : decodeImageHeader bytes <;> simp only [decode, hd] at h <;> cases h
    exact standsFor_of_decodeImageHeader hd
  | packedPreamble =>
    cases hd : decodePackedPreamble bytes <;> simp only [decode, hd] at h <;> cases h
    exact standsFor_of_decodePackedPreamble hd
  | chunk =>
    cases hd : decodeChunk bytes <;> simp only [decode, hd] at h <;> cases h
    exact standsFor_of_decodeChunk hd
  | pixel =>
    cases hd : decodePixel bytes <;> simp only [decode, hd] at h <;> cases h
    exact standsFor_of_decodePixel hd

/-- Settles O3: each of the byte strings is the encoding of its instruction. -/
theorem specWordsDecode : Obligations.SpecWordsDecode := by
  unfold Obligations.SpecWordsDecode
  exact ⟨decode_encode_append .imgDec [] rfl, decode_encode_append .imgEnc [] rfl,
    decode_encode_append (.imageHeader 3 2 0 0 44) [] rfl, decode_encode_append (.packedPreamble 1) [] rfl,
    decode_encode_append (.chunk 2 1 [0xF800, 0x07E0]) [] rfl, decode_encode_append (.pixel 16 32 16) [] rfl⟩

end Sys2Proof.Machine
end

section
/-! The records and the header marshaler: what the unit does with a fetched record, and the commands that fetch one
header (R91 to R95, R97, R140, R142, R191, R194). -/

namespace Sys2Proof.Machine

/-! ### Dimension bytes (R97) -/

theorem toNat_dimDec (b : Byte) : (dimDec b).toNat = if b.toNat = 0 then 256 else b.toNat := by
  have hzero : b = 0 ↔ b.toNat = 0 := BitVec.toNat_inj.symm
  rw [dimDec]
  split <;> rename_i hb <;> rw [hzero] at hb
  · rw [if_pos hb]
    rfl
  · rw [if_neg hb, BitVec.toNat_setWidth, Nat.mod_eq_of_lt (by have := b.isLt; omega)]

theorem toNat_dimEnc (d : BitVec 16) : (dimEnc d).toNat = d.toNat % 256 := BitVec.toNat_setWidth _ _

theorem dimDec_dimEnc {d : BitVec 16} (h : dimOk d = true) : dimDec (dimEnc d) = d := by
  have hd := (dimOk_iff d).1 h
  apply BitVec.eq_of_toNat_eq
  rw [toNat_dimDec, toNat_dimEnc]
  split <;> omega

/-- Settles O4: a byte is 0 or a dimension itself, and only 256 has the byte 0. -/
theorem dimensionBytes : Obligations.DimensionBytes := by
  unfold Obligations.DimensionBytes
  exact ⟨toNat_dimDec, fun d hlo hhi => ⟨toNat_dimEnc d, dimDec_dimEnc ((dimOk_iff d).2 ⟨hlo, hhi⟩)⟩,
    fun b => (dimOk_iff _).1 (dimOk_dimDec b)⟩

/-! ### The container header (R91, R140) -/

theorem checkTag_match {s : State} {m : U32} (h : m = s.params.magicTag) : checkTag m s = .ok () s :=
  check_pass _ _ (by simpa using h)

theorem checkTag_mismatch {s : State} {m : U32} (h : m ≠ s.params.magicTag) :
    checkTag m s = .error ⟨.badTag, 0⟩ s := check_fail _ _ (by simpa using h)

theorem commitHeader_ok {n v l x : U16} (hv : v = 2 ∨ v = 3) (s : State) :
    commitHeader n v l x s = .ok () (s.withContainerHeader n v l x) :=
  bind_of_ok (check_pass _ _ (by simpa [versionOk] using hv))

theorem commitHeader_badVersion {n v l x : U16} (h2 : v ≠ 2) (h3 : v ≠ 3) (s : State) :
    commitHeader n v l x s = .error ⟨.badVersion, 6⟩ s :=
  bind_of_error (check_fail _ _ (by simpa [versionOk] using And.intro h2 h3))

/-- After the right tag the rest of the record is passed over and judged. -/
theorem execContainerHeader_of_tag {s : State} {m : U32} (n v l x : U16) (hm : m = s.params.magicTag) :
    execContainerHeader m n v l x s = runPart (commitHeader n v l x) (s.withSp (s.sp.toNat + 12)) := by
  have hfields : (do advance 4; checkTag m; advance 8; commitHeader n v l x : Cmd Unit) s =
      commitHeader n v l x (s.withSp (s.sp.toNat + 12)) :=
    (bind_of_ok (advance_apply 4 s)).trans <| (bind_of_ok (checkTag_match (s := s.withSp _) hm)).trans <|
      bind_of_ok (advance_withSp 8 _ s)
  rw [execContainerHeader, runPart, runPart, hfields]

/-- Settles O30: the tag and the version are the two tests between the fields. -/
theorem containerHeaderRecord : Obligations.ContainerHeaderRecord := by
  unfold Obligations.ContainerHeaderRecord
  intro s m n v l x
  refine ⟨fun hm => ?_, fun hm h2 h3 => ?_, fun hm hv => ?_⟩
  · exact runPart_error <| (bind_of_ok (advance_apply 4 s)).trans <|
      bind_of_error (checkTag_mismatch (s := s.withSp _) hm)
  · rw [exec, execContainerHeader_of_tag n v l x hm, runPart_error (commitHeader_badVersion h2 h3 _)]
  · rw [exec, execContainerHeader_of_tag n v l x hm, runPart_ok (commitHeader_ok hv _)]
    rfl

/-- The body of `HDR_GET` on a header that is accepted. -/
theorem headerBody_ok {s : State} {a : Nat} (hr : s.readable a 12 = true) (htag : s.word32At a = s.params.magicTag)
    (hv : s.word16At (a + 6) = 2 ∨ s.word16At (a + 6) = 3) :
    headerBody (s.withSp a) = .ok () ((s.withSp (a + 12)).withContainerHeader (s.word16At (a + 4))
      (s.word16At (a + 6)) (s.word16At (a + 8)) (s.word16At (a + 10))) := by
  have part : ∀ k n, k + n ≤ 12 → s.readable (a + k) n = true :=
    fun k n hk => readable_part hr (by omega) (by omega)
  exact (bind_of_ok (readU32_withSp .header (a := a) (part 0 4 (by omega)))).trans <|
    (bind_of_ok (checkTag_match (s := s.withSp _) htag)).trans <|
    (bind_of_ok (readU16_withSp .header (part 4 2 (by omega)))).trans <|
    (bind_of_ok (readU16_withSp .header (part 6 2 (by omega)))).trans <|
    (bind_of_ok (readU16_withSp .header (part 8 2 (by omega)))).trans <|
    (bind_of_ok (readU16_withSp .header (part 10 2 (by omega)))).trans <| commitHeader_ok hv _

/-- The container header, parsed (R140). -/
def State.containerHeaderParsed (s : State) : State :=
  (s.withSp 12).withContainerHeader (s.word16At 4) (s.word16At 6) (s.word16At 8) (s.word16At 10)

theorem hdrGet_ok {s : State} (hr : s.readable 0 12 = true) (htag : s.word32At 0 = s.params.magicTag)
    (hv : s.word16At 6 = 2 ∨ s.word16At 6 = 3) : hdrGet s = .ok () s.containerHeaderParsed :=
  headerBody_ok hr htag hv

/-- Settles O21: `HDR_GET` is the header's body at address 0. -/
theorem hdrGetParses : Obligations.HdrGetParses := by
  unfold Obligations.HdrGetParses
  intro s hr htag hv
  have hrun : exec .hdrGet s = _ := runCommand_ok (hdrGet_ok hr htag hv)
  rw [hrun]
  rfl

/-! ### The image header (R92, R142) -/

theorem commitImageHeader_ok {wb hb : Byte} {x : U16} {u p : U32} (h : u ≠ 0 ∨ p ≠ 0) (s : State) :
    commitImageHeader wb hb x u p s = .ok () (s.withImageHeader wb hb x u p) :=
  bind_of_ok (check_pass _ _ (by simpa [imp_iff_not_or] using h))

theorem commitImageHeader_noPayload {wb hb : Byte} {x : U16} {u p : U32} (hu : u = 0) (hp : p = 0) (s : State) :
    commitImageHeader wb hb x u p s = .error ⟨.noPayload, ihdrAddr s.idx + 4⟩ s :=
  bind_of_error (check_fail _ _ (by simp [hu, hp]))

/-- Settles O31: the one test comes after all fields. -/
theorem imageHeaderRecord : Obligations.ImageHeaderRecord := by
  unfold Obligations.ImageHeaderRecord
  intro s w h x u p
  exact ⟨fun hu hp => runPart_error (commitImageHeader_noPayload hu hp (s.withSp (s.sp.toNat + 12))),
    fun hup => runPart_ok (commitImageHeader_ok hup (s.withSp (s.sp.toNat + 12)))⟩

theorem imageHeaderBody_ok {s : State} {a : Nat} (hr : s.readable a 12 = true)
    (hoff : s.word32At (a + 4) ≠ 0 ∨ s.word32At (a + 8) ≠ 0) :
    imageHeaderBody (s.withSp a) = .ok () ((s.withSp (a + 12)).withImageHeader (s.byteAt a) (s.byteAt (a + 1))
      (s.word16At (a + 2)) (s.word32At (a + 4)) (s.word32At (a + 8))) := by
  have part : ∀ k n, k + n ≤ 12 → s.readable (a + k) n = true :=
    fun k n hk => readable_part hr (by omega) (by omega)
  exact (bind_of_ok (readU8_withSp .imageHeader (a := a) (part 0 1 (by omega)))).trans <|
    (bind_of_ok (readU8_withSp .imageHeader (part 1 1 (by omega)))).trans <|
    (bind_of_ok (readU16_withSp .imageHeader (part 2 2 (by omega)))).trans <|
    (bind_of_ok (readU32_withSp .imageHeader (part 4 4 (by omega)))).trans <|
    (bind_of_ok (readU32_withSp .imageHeader (part 8 4 (by omega)))).trans <| commitImageHeader_ok hoff _

/-- The image header of number `IDX`, parsed (R142). -/
def State.imageHeaderParsed (s : State) : State :=
  (s.withSp (ihdrAddr s.idx + 12)).withImageHeader (s.byteAt (ihdrAddr s.idx)) (s.byteAt (ihdrAddr s.idx + 1))
    (s.word16At (ihdrAddr s.idx + 2)) (s.word32At (ihdrAddr s.idx + 4)) (s.word32At (ihdrAddr s.idx + 8))

theorem ihdrGet_ok {s : State} (hr : s.readable (ihdrAddr s.idx) 12 = true)
    (hoff : s.word32At (ihdrAddr s.idx + 4) ≠ 0 ∨ s.word32At (ihdrAddr s.idx + 8) ≠ 0) :
    ihdrGet s = .ok () s.imageHeaderParsed := imageHeaderBody_ok hr hoff

/-- Settles O24: `IHDR_GET` is the header's body at `ihdr_addr(IDX)`. -/
theorem ihdrGetParses : Obligations.IhdrGetParses := by
  unfold Obligations.IhdrGetParses
  intro s hr hoff
  have hrun : exec .ihdrGet s = _ := runCommand_ok (ihdrGet_ok hr hoff)
  rw [hrun]
  rfl

/-! ### The records of a payload (R93, R95, R99) -/

/-- Settles O37: only an offset above the line's length carries, and halved offsets end at 32767. -/
theorem carryNeedsShortLine : Obligations.CarryNeedsShortLine := by
  unfold Obligations.CarryNeedsShortLine
  intro l p ob hne
  have hhalf := halfOffset_le ob
  by_contra hl
  exact hne (if_neg (by omega))

theorem toNat_ofNat_storedCount (c : U16) : (BitVec.ofNat 17 (storedCount c)).toNat = c.toNat + 1 := by
  have hcount := (storedCount_bounds c).2
  rw [BitVec.toNat_ofNat, Nat.mod_eq_of_lt (by omega), storedCount]

/-- Settles O41: 17 bits hold every count. -/
theorem preambleRecord : Obligations.PreambleRecord := by
  unfold Obligations.PreambleRecord
  exact fun s c => ⟨(s.withSp (s.sp.toNat + 2)).withChunkCount c, rfl, rfl, toNat_ofNat_storedCount c⟩

/-- The pixel of a word given by its fields (R121). -/
theorem to24_pack565 (r : BitVec 5) (g : BitVec 6) (b : BitVec 5) :
    to24 (pack565 r g b) = ⟨BitVec.ofNat 8 ((r.toNat * 527 + 23) / 64), BitVec.ofNat 8 ((g.toNat * 259 + 33) / 64),
      BitVec.ofNat 8 ((b.toNat * 527 + 23) / 64)⟩ := by
  simp only [to24, unpack565_pack565, expand5, expand6, Nat.shiftRight_eq_div_pow, Nat.reducePow]

/-- Settles O43: the place the unit stands at tells which of the two steps the word is for. -/
theorem pixelRecordSteps : Obligations.PixelRecordSteps := by
  unfold Obligations.PixelRecordSteps
  rintro s r g b p rfl
  rw [← to24_pack565]
  refine ⟨fun hraw => ?_, fun hrun => ?_⟩
  · rw [exec, execPixel, if_pos hraw]
    rfl
  · rw [exec, execPixel, if_neg hrun]
    rfl

end Sys2Proof.Machine
end

section
/-! What the encoders emit the decoders read back (R97, R142, R143, R170, R234, R236). -/

namespace Sys2Proof.Machine

/-! ### An image header emitted (R143) -/

/-- Settles O26: the fields are one byte string of twelve bytes. -/
theorem ihdrPutEmits : Obligations.IhdrPutEmits := by
  unfold Obligations.IhdrPutEmits
  intro s hd hu hf
  refine ⟨s.cm.writeBytes (ihdrAddr s.idx) (imageHeaderFields s).flatten, ?_,
    ByteMem.readBytes_writeBytes_same _ _ rfl, fun c hc => ByteMem.read_writeBytes_outside _ _ hc⟩
  have hrun : exec .ihdrPut s = _ := runCommand_ok (ihdrPut_ok hd hu hf)
  rw [hrun, storedFrom_of_length _ _ (show (imageHeaderFields s).flatten.length = 12 from rfl)]
  rfl

/-! ### Memories whose accesses do not fail (R75) -/

theorem accessFaults_of_none {p : Params} (h : p.cmFault = []) (kind : Access) (a n : Nat) :
    p.accessFaults kind a n = false := by
  rw [accessFaults_eq_false_iff, h]
  exact fun k _ => List.not_mem_nil

theorem readable_of_none {s : State} {a n : Nat} (h : s.params.cmFault = []) (hn : a + n ≤ s.clen.toNat) :
    s.readable a n = true := (readable_iff _ _ _).2 ⟨hn, accessFaults_of_none h _ _ _⟩

/-! ### An emitted image header parsed (R142) -/

/-- The fields at `a` are those of the record whose bytes lie there. -/
theorem imageHeader_fields_of_bytes {s : State} {a : Nat} {w h : Byte} {x : U16} {u p : U32}
    (hbytes : s.cm.readBytes a 12 = encode (.imageHeader w h x u p)) :
    s.byteAt a = w ∧ s.byteAt (a + 1) = h ∧ s.word16At (a + 2) = x ∧ s.word32At (a + 4) = u ∧
      s.word32At (a + 8) = p := by
  have hread : decode .imageHeader (s.cm.readBytes a 12) = .ok (.imageHeader (s.byteAt a) (s.byteAt (a + 1))
      (s.word16At (a + 2)) (s.word32At (a + 4)) (s.word32At (a + 8)), []) := rfl
  have hrecord : decode .imageHeader (encode (.imageHeader w h x u p) ++ []) = .ok (.imageHeader w h x u p, []) :=
    decode_encode_append (.imageHeader w h x u p) [] rfl
  rw [hbytes, ← List.append_nil (encode _), hrecord] at hread
  simpa [eq_comm] using hread

/-- The state after the parse of an emitted image header: the encoder's constants, and no warning (R142, R145, R146). -/
def State.emittedHeaderParsed (s : State) (w h : BitVec 16) (u : U32) : State :=
  { s with
    width := w, height := h, ires := 0, unpackedOff := u, packedOff := 0
    sp := BitVec.ofNat 34 (ihdrAddr s.idx + 12) }

theorem ihdrGet_of_emitted {s : State} {w h : BitVec 16} {u : U32} (hw : dimOk w = true) (hh : dimOk h = true)
    (hu : u ≠ 0) (hr : s.readable (ihdrAddr s.idx) 12 = true)
    (hbytes : s.cm.readBytes (ihdrAddr s.idx) 12 = [dimEnc w, dimEnc h, 0, 0] ++ bytes32 u ++ [0, 0, 0, 0]) :
    ihdrGet s = .ok () (s.emittedHeaderParsed w h u) := by
  have hrecord : s.cm.readBytes (ihdrAddr s.idx) 12 = encode (.imageHeader (dimEnc w) (dimEnc h) 0 u 0) := hbytes
  obtain ⟨hwb, hhb, hx, hub, hp⟩ := imageHeader_fields_of_bytes hrecord
  rw [ihdrGet_ok hr (.inl (by rw [hub]; exact hu)), State.imageHeaderParsed, hwb, hhb, hx, hub, hp,
    State.withImageHeader, dimDec_dimEnc hw, dimDec_dimEnc hh]
  rfl

/-- Settles O29: the twelve bytes emitted are the record that is parsed. -/
theorem imageHeaderRoundTrip : Obligations.ImageHeaderRoundTrip := by
  unfold Obligations.ImageHeaderRoundTrip
  intro s hnone hd hu
  obtain ⟨cm', hput, hbytes, _⟩ := ihdrPutEmits s hd hu (accessFaults_of_none hnone _ _ _)
  refine ⟨_, hput, State.err_complete s, fun r hcm hclen hidx hparams => ?_⟩
  have hcm' : r.cm = cm' := hcm
  have hidx' : r.idx = s.idx := hidx
  have hparams' : r.params = s.params := hparams
  have hend : r.clen.toNat = max s.clen.toNat (ihdrAddr s.idx + 12) := by
    have haddr := ihdrAddr_le s.idx
    have hlt := s.clen.isLt
    rw [hclen, BitVec.toNat_ofNat, Nat.mod_eq_of_lt (by omega)]
  obtain ⟨hw, hh⟩ := Bool.and_eq_true_iff.1 hd
  have hr : r.readable (ihdrAddr r.idx) 12 = true :=
    readable_of_none (by rw [hparams']; exact hnone) (by rw [hidx', hend]; omega)
  have hget := ihdrGet_of_emitted hw hh hu hr (by rw [hcm', hidx']; exact hbytes)
  exact ⟨_, runCommand_ok hget, rfl, rfl, rfl, rfl, rfl, State.err_complete r, hcm⟩

/-! ### A raw payload decoded (R170, R234) -/

theorem rawDec_ok {s : State} (hd : s.dimsOk = true)
    (hr : s.readable s.unpackedOff.toNat (2 * s.pixelCount) = true) :
    rawDec s = .ok () { s with
      pm := s.pm.putRange (s.rawPixelAt s.unpackedOff.toNat) s.pixelCount 0
      sp := BitVec.ofNat 34 (s.unpackedOff.toNat + 2 * s.pixelCount) } := by
  have hroom := rawPayload_room hd
  have hstart : rawDec s = payload (rawDecLoop s.pixelCount 0) (s.withSp s.unpackedOff.toNat) :=
    bind_of_ok (check_pass _ _ hd)
  rcases rawDecLoop_cases s.unpackedOff.toNat s.pixelCount 0 (s.withSp s.unpackedOff.toNat)
    (toNat_withSp (by omega)) (by omega) with ⟨_, hloop⟩ | ⟨k, hk, _, hfail, _⟩
  · rw [hstart, payload_ok hloop, Nat.zero_add]
    rfl
  · rw [readable_withSp, readable_part hr (by omega) (by omega)] at hfail
    cases hfail

/-- `IMG_DEC` of an image whose header was emitted: the raw path, whatever the registers held (R234, R235). -/
theorem imgDec_of_emitted {s : State} {w h : BitVec 16} {u : U32} (hindex : s.idx.toNat < s.imageCount.toNat)
    (hw : dimOk w = true) (hh : dimOk h = true) (hu : u ≠ 0) (hr : s.readable (ihdrAddr s.idx) 12 = true)
    (hbytes : s.cm.readBytes (ihdrAddr s.idx) 12 = [dimEnc w, dimEnc h, 0, 0] ++ bytes32 u ++ [0, 0, 0, 0])
    (hpayload : s.readable u.toNat (2 * (w.toNat * h.toNat)) = true) :
    imgDec s = .ok () { s.emittedHeaderParsed w h u with
      pm := s.pm.putRange (s.rawPixelAt u.toNat) (w.toNat * h.toNat) 0
      sp := BitVec.ofNat 34 (u.toNat + 2 * (w.toNat * h.toNat)) } := by
  have hcheck : checkIndex s = .ok () s := check_pass _ _ (by simpa using hindex)
  have hdims : (s.emittedHeaderParsed w h u).dimsOk = true := Bool.and_eq_true_iff.2 ⟨hw, hh⟩
  have hdispatch : imgDec s = payloadByOffset (s.emittedHeaderParsed w h u) :=
    (bind_of_ok hcheck).trans (bind_of_ok (ihdrGet_of_emitted hw hh hu hr hbytes))
  have hraw : payloadByOffset (s.emittedHeaderParsed w h u) = rawDec (s.emittedHeaderParsed w h u) := by
    rw [payloadByOffset_apply]
    exact congrFun (if_pos hu) _
  exact (hdispatch.trans hraw).trans (rawDec_ok hdims hpayload)

/-! ### An image encoded (R236) -/

/-- The state after `IMG_ENC` (R236). -/
def State.imageEmitted (s : State) : State :=
  (s.headerEmitted.storedFrom (encOffset s.imageCount s.runpix) (pixelWordBytes s.pm s.pixelCount 0)).withCounted

theorem imgEnc_ok {s : State} (h : Encodable s)
    (hheader : s.params.accessFaults .store (ihdrAddr s.idx) 12 = false)
    (hpayload : s.params.accessFaults .store (encOffset s.imageCount s.runpix) (2 * s.pixelCount) = false) :
    imgEnc s = .ok () s.imageEmitted := by
  have hoff : s.headerEmitted.unpackedOff.toNat = encOffset s.imageCount s.runpix := toNat_unpackedOff_withPlacement h
  have hraw := rawEnc_ok (s := s.headerEmitted) h.dims (by rw [hoff]; exact hpayload)
  rw [hoff] at hraw
  exact (imgEnc_eq_payload h hheader).trans (bind_of_ok hraw)

section Emitted
variable {s : State} (h : Encodable s)
include h

theorem toNat_clen_imageEmitted :
    s.imageEmitted.clen.toNat =
      max (max s.clen.toNat (ihdrAddr s.idx + 12)) (encOffset s.imageCount s.runpix + 2 * s.pixelCount) := by
  obtain ⟨hpos, hcount⟩ := pixelCount_bounds h.dims
  have hfits := h.fits
  have hlen := length_pixelWordBytes s.pm s.pixelCount 0
  have hne : pixelWordBytes s.pm s.pixelCount 0 ≠ [] := List.ne_nil_of_length_pos (by omega)
  rw [State.imageEmitted, storedFrom_eq_stored hne, State.withCounted_clen, toNat_clen_stored _ _ _ (by omega), hlen,
    toNat_clen_headerEmitted]

theorem header_imageEmitted :
    s.imageEmitted.cm.readBytes (ihdrAddr s.idx) 12 =
      [dimEnc s.width, dimEnc s.height, 0, 0] ++ bytes32 s.withPlacement.unpackedOff ++ [0, 0, 0, 0] :=
  (ByteMem.readBytes_writeBytes_outside _ _ (.inl (ihdrAddr_add_le_encOffset h))).trans
    (ByteMem.readBytes_writeBytes_same _ _ rfl)

end Emitted

/-- The pixel words of an emitted image, expanded again, are the quantised pixels (R170, R171). -/
theorem rawPixelAt_imageEmitted {r s : State} (hcm : r.cm = s.imageEmitted.cm) {i : Nat} (hi : i < s.pixelCount) :
    r.rawPixelAt (encOffset s.imageCount s.runpix) i = to24 (to16 (s.pm.read i)) := by
  rw [State.rawPixelAt, State.word16At, hcm]
  exact congrArg to24 (be16_read_pixelWords s.headerEmitted.cm s.pm (encOffset s.imageCount s.runpix) hi)

/-- Settles O50: `IMG_DEC` finds in `CM` the header and the pixel words that `IMG_ENC` stored there. -/
theorem encodedImageDecodes : Obligations.EncodedImageDecodes := by
  unfold Obligations.EncodedImageDecodes
  intro s hnone hindex hchannels hd hfits
  have h : Encodable s := ⟨hindex, hchannels, hd, hfits⟩
  have henc := imgEnc_ok h (accessFaults_of_none hnone _ _ _) (accessFaults_of_none hnone _ _ _)
  refine ⟨_, runCommand_ok henc, State.err_complete _, fun r hcm hclen hidx hparams hrindex hwf => ?_⟩
  have hidx' : r.idx = s.idx := hidx
  have hnone' : r.params.cmFault = [] := by rw [hparams]; exact hnone
  have hend : r.clen.toNat = _ := (congrArg BitVec.toNat hclen).trans (toNat_clen_imageEmitted h)
  have hoff := toNat_unpackedOff_withPlacement h
  have hcount : s.width.toNat * s.height.toNat = s.pixelCount := rfl
  obtain ⟨hw, hh⟩ := Bool.and_eq_true_iff.1 hd
  have hdec := imgDec_of_emitted hrindex hw hh (unpackedOff_withPlacement_ne_zero h)
    (readable_of_none hnone' (by rw [hidx', hend]; omega))
    (by rw [hidx', show r.cm = s.imageEmitted.cm from hcm]; exact header_imageEmitted h)
    (readable_of_none hnone' (by rw [hoff, hend, hcount]; omega))
  refine ⟨_, runCommand_ok hdec, State.err_complete _, rfl, rfl, fun i hi => ?_⟩
  rw [State.complete_pm]
  refine (PixelMem.read_putRange _ _ _ _ _ (PixelMem.rising_of_wf hwf)).trans ?_
  rw [if_pos ⟨Nat.zero_le i, by rw [Nat.zero_add]; exact hi⟩, hoff, rawPixelAt_imageEmitted hcm hi]

end Sys2Proof.Machine
end

section
/-! The chunk record: skip, then copy (R193 to R197). -/

namespace Sys2Proof.Machine

theorem oddOffset_eq (ob : U16) : oddOffset ob = decide (ob.toNat % 2 = 1) := by
  rw [oddOffset, BitVec.getLsbD, Nat.testBit_zero]

/-- `SLB` after a run of these words from this cell on: those that land below `L*H` are copied (R196, R197). -/
def State.runCopied (s : State) (start : Nat) (px : List U16) : PixelMem :=
  s.slb.putRange (fun j => to24 (px.getD (j - start) 0)) (min px.length (s.slbCells - start)) start

theorem rising_runCopied {s : State} (start : Nat) (px : List U16) (h : rising s.slb.cells = true) :
    rising (s.runCopied start px).cells = true := PixelMem.rising_putRange _ _ _ _ h

theorem read_runCopied_inside {s : State} {start i : Nat} {px : List U16} {v : U16} (h : rising s.slb.cells = true)
    (hi : start ≤ i) (hv : px[i - start]? = some v) (hcell : i < s.slbCells) :
    (s.runCopied start px).read i = to24 v := by
  obtain ⟨hlt, _⟩ := List.getElem?_eq_some_iff.1 hv
  rw [State.runCopied, PixelMem.read_putRange _ _ _ _ _ h, if_pos ⟨hi, by omega⟩, List.getD_eq_getElem?_getD, hv]
  rfl

theorem read_runCopied_outside {s : State} {start i : Nat} {px : List U16} (h : rising s.slb.cells = true)
    (hi : i < start ∨ start + px.length ≤ i ∨ s.slbCells ≤ i) :
    (s.runCopied start px).read i = s.slb.read i := by
  rw [State.runCopied, PixelMem.read_putRange _ _ _ _ _ h, if_neg (by omega)]

/-- The state after a chunk record at `SP` (R193). -/
def State.chunkRead (s : State) (ob rs : U16) (px : List U16) : State :=
  (((s.withSp (s.sp.toNat + 4)).withChunkHead ob rs).afterRun px).withChunkDone

theorem toNat_cur_withChunkHead {s : State} {ob : U16} (rs : U16)
    (h : s.cur.toNat + (carry s.scanLineLen.toNat s.prec.toNat (halfOffset ob)).1 < 2 ^ 34) :
    (s.withChunkHead ob rs).cur.toNat = s.cur.toNat + (carry s.scanLineLen.toNat s.prec.toNat (halfOffset ob)).1 := by
  rw [State.withChunkHead_cur, BitVec.toNat_ofNat, Nat.mod_eq_of_lt h]

theorem execChunk_eq {s : State} {ob : U16} (rs : U16) {px : List U16}
    (h : s.cur.toNat + (carry s.scanLineLen.toNat s.prec.toNat (halfOffset ob)).1 + px.length < 2 ^ 34) :
    execChunk ob rs px s = .next (s.chunkRead ob rs px) := by
  have hcur := toNat_cur_withChunkHead (s := s.withSp (s.sp.toNat + 4)) (ob := ob) rs (Nat.lt_of_le_of_lt
    (Nat.le_add_right _ px.length) h)
  have hrun : runWords px ((s.withSp (s.sp.toNat + 4)).withChunkHead ob rs) = _ :=
    runWords_eq px _ (by rw [hcur]; exact h)
  exact runPart_ok <| (bind_of_ok (advance_apply 4 s)).trans <| (bind_of_ok (change_apply _ _)).trans <|
    bind_of_ok hrun

/-- Skip, then copy, and the counters after both (R193 to R196). -/
theorem chunkRead_eq {s : State} {ob rs : U16} {px : List U16} {delta prec' : Nat} (hlen : px.length = rs.toNat + 1)
    (hcarry : carry s.scanLineLen.toNat s.prec.toNat (halfOffset ob) = (delta, prec'))
    (hroom : s.cur.toNat + delta + px.length < 2 ^ 34) :
    s.chunkRead ob rs px = { s with
      slb := s.runCopied (s.cur.toNat + delta) px
      status := if oddOffset ob then statusWarnOdd s.status else s.status
      cur := BitVec.ofNat 34 (s.cur.toNat + delta + px.length), prec := BitVec.ofNat 33 (prec' + px.length)
      nrun := 0, nchunk := s.nchunk - 1
      sp := BitVec.ofNat 34 (s.sp.toNat + 4 + 2 * px.length) } := by
  let head := (s.withSp (s.sp.toNat + 4)).withChunkHead ob rs
  have hcur : head.cur.toNat = s.cur.toNat + delta := by
    have := toNat_cur_withChunkHead (s := s.withSp (s.sp.toNat + 4)) (ob := ob) rs
      (by rw [State.withSp_cur, State.withSp_scanLineLen, State.withSp_prec, hcarry]; omega)
    rw [this, State.withSp_cur, State.withSp_scanLineLen, State.withSp_prec, hcarry]
  have hprec : head.prec = BitVec.ofNat 33 prec' := by
    rw [State.withChunkHead_prec, State.withSp_scanLineLen, State.withSp_prec, hcarry]
  have hnrun : head.nrun - BitVec.ofNat 17 px.length = 0 := by
    rw [State.withChunkHead_nrun, storedCount, hlen]
    exact BitVec.sub_self _
  have hsp : BitVec.ofNat 34 (head.sp.toNat + 2 * px.length) = BitVec.ofNat 34 (s.sp.toNat + 4 + 2 * px.length) :=
    ofNat_toNat_add _ _
  have hslb : (head.afterRun px).slb = s.runCopied (s.cur.toNat + delta) px := by
    rw [← hcur]
    rfl
  have hafter : head.afterRun px = { head with
      slb := s.runCopied (s.cur.toNat + delta) px
      cur := BitVec.ofNat 34 (s.cur.toNat + delta + px.length), prec := BitVec.ofNat 33 (prec' + px.length)
      nrun := 0, sp := BitVec.ofNat 34 (s.sp.toNat + 4 + 2 * px.length) } := by
    rw [← hslb, ← hsp, ← hnrun, ← hcur, ← ofNat_toNat_add (w := 33), ← hprec]
    rfl
  rw [State.chunkRead, hafter]
  rfl

/-- Settles O42: the head skips, the run's words are copied in order. -/
theorem chunkRecordSkipsAndCopies : Obligations.ChunkRecordSkipsAndCopies := by
  unfold Obligations.ChunkRecordSkipsAndCopies
  rintro s ob rs px delta prec' _ hlen hcarry rfl hcur _ hrising
  have hcarry' : carry s.scanLineLen.toNat s.prec.toNat (halfOffset ob) = (delta, prec') := hcarry
  refine ⟨s.runCopied (s.cur.toNat + delta) px, ?_, fun j v hv hcell => ?_, fun i hi =>
    read_runCopied_outside hrising hi⟩
  · rw [exec, execChunk_eq rs (by rw [hcarry']; exact hcur), chunkRead_eq hlen hcarry' hcur, oddOffset_eq]
    simp only [decide_eq_true_eq]
  · exact read_runCopied_inside hrising (Nat.le_add_right _ _) (by rw [Nat.add_sub_cancel_left]; exact hv) hcell

end Sys2Proof.Machine
end

section
/-! The chunks of a stream one after another, and `PK_DEC` on a readable payload (R191 to R199, R203). -/

namespace Sys2Proof.Machine

/-! ### A record at `SP` -/

theorem readBytes_append_parts {m : ByteMem} {a : Nat} {x y : List Byte}
    (h : m.readBytes a (x ++ y).length = x ++ y) :
    m.readBytes a x.length = x ∧ m.readBytes (a + x.length) y.length = y := by
  rw [List.length_append, ByteMem.readBytes_append] at h
  exact List.append_inj h (ByteMem.length_readBytes _ _ _)

theorem word16At_of_bytes {s : State} {a : Nat} {v : U16} (h : s.cm.readBytes a 2 = bytes16 v) :
    s.word16At a = v := by
  have hread : take16 (s.cm.readBytes a 2) = some (s.word16At a, []) := rfl
  have hword : take16 (bytes16 v ++ []) = some (v, []) := take16_bytes16 v []
  rw [h, ← List.append_nil (bytes16 v), hword] at hread
  simpa [eq_comm] using hread

/-- The chunk step on a chunk whose bytes lie readable at `SP` (R193). -/
theorem chunkStep_of_encode {s : State} {k : ChunkRecord} (hwf : k.instr.wf = true)
    (hr : s.readable s.sp.toNat (encode k.instr).length = true)
    (hbytes : s.cm.readBytes s.sp.toNat (encode k.instr).length = encode k.instr)
    (hroom : s.cur.toNat + (carry s.scanLineLen.toNat s.prec.toNat (halfOffset k.screenOffset)).1 +
      k.pixels.length < 2 ^ 34) :
    chunkStep s = .ok () (s.chunkRead k.screenOffset k.runLength k.pixels) := by
  have hfetched : s.fetchRecord .chunk = some (.chunk k.screenOffset k.runLength k.pixels) :=
    fetchRecord_of_encode hwf hr hbytes
  rw [fetchRecord_chunk] at hfetched
  split at hfetched
  case isFalse => cases hfetched
  case isTrue hwhole =>
    obtain ⟨t, hstep, _, hexec⟩ := chunkStep_readable hwhole
    simp only [Option.some.injEq, Instr.chunk.injEq] at hfetched
    obtain ⟨hob, hrs, hpx⟩ := hfetched
    rw [hob, hrs, hpx, execChunk_eq k.runLength hroom] at hexec
    cases hexec
    exact hstep

/-! ### Chunks one after another (R193, R203) -/

theorem length_encode_chunk (k : ChunkRecord) : (encode k.instr).length = 4 + 2 * k.pixels.length := by
  simp only [ChunkRecord.instr, encode, List.length_append, Laws.EncodedLength.length_flatMap_bytes16, length_bytes16]

theorem chunkBytes_cons (k : ChunkRecord) (rest : List ChunkRecord) :
    chunkBytes (k :: rest) = encode k.instr ++ chunkBytes rest := List.flatMap_cons

theorem length_chunkBytes (chunks : List ChunkRecord) :
    (chunkBytes chunks).length = (chunks.map fun k => 4 + 2 * k.pixels.length).sum := by
  induction chunks with
  | nil => rfl
  | cons k rest ih => rw [chunkBytes_cons, List.length_append, length_encode_chunk, ih, List.map_cons, List.sum_cons]

theorem statusWarnOdd_twice (v : BitVec 16) : statusWarnOdd (statusWarnOdd v) = statusWarnOdd v := by
  apply BitVec.eq_of_getLsbD_eq
  intro i hi
  rw [getLsbD_statusWarnOdd _ _ hi, getLsbD_statusWarnOdd _ _ hi]
  split <;> rfl

/-- The flag after a chunk and the chunks behind it: set where one of them has an odd offset (R99). -/
theorem status_anyOdd_cons (v : BitVec 16) (k : ChunkRecord) (rest : List ChunkRecord) :
    (if anyOdd rest then statusWarnOdd (if oddOffset k.screenOffset then statusWarnOdd v else v)
      else if oddOffset k.screenOffset then statusWarnOdd v else v) =
    if anyOdd (k :: rest) then statusWarnOdd v else v := by
  rw [anyOdd, anyOdd, List.any_cons]
  cases oddOffset k.screenOffset <;> cases rest.any fun k => oddOffset k.screenOffset <;> simp [statusWarnOdd_twice]

/-- A cell before the cursor is written by no later word: the cursor only rises (R193, R203). -/
theorem streamPixel_eq_none {l c p i : Nat} {chunks : List ChunkRecord} (h : i < c) :
    streamPixel l c p chunks i = none := by
  cases chunks with
  | nil => rfl
  | cons k rest => exact if_neg (by omega)

/-- The state after the chunks, with this `SLB` (R193, R203). -/
def State.chunksRead (s : State) (chunks : List ChunkRecord) (slb : PixelMem) : State :=
  { s with
    slb := slb
    status := if anyOdd chunks then statusWarnOdd s.status else s.status
    cur := BitVec.ofNat 34 (streamEnd s.scanLineLen.toNat s.cur.toNat s.prec.toNat chunks).1
    prec := BitVec.ofNat 33 (streamEnd s.scanLineLen.toNat s.cur.toNat s.prec.toNat chunks).2
    nchunk := s.nchunk - BitVec.ofNat 17 chunks.length
    sp := BitVec.ofNat 34 (s.sp.toNat + (chunkBytes chunks).length) }

/-- The counters have room for `n` more chunks: a chunk skips at most 32767 pixels and copies at most 65536, and a carry
moves `PREC` into `CUR` (R40). -/
structure StreamRoom (s : State) (n : Nat) : Prop where
  prec : s.prec.toNat + n * 65536 < 2 ^ 33
  cur : s.cur.toNat + s.prec.toNat + n * (32767 + 2 * 65536) < 2 ^ 34

/-- `SLB` holds what the closed form says of these chunks, read from `s` on (R203). -/
def StreamCells (s : State) (chunks : List ChunkRecord) (slb : PixelMem) : Prop :=
  ∀ i, i < s.slbCells → slb.read i =
    (streamPixel s.scanLineLen.toNat s.cur.toNat s.prec.toNat chunks i).getD (s.slb.read i)

section Chunk
variable {s : State} {k : ChunkRecord} (hwf : k.instr.wf = true)
include hwf

theorem length_pixels_of_wf : k.pixels.length = k.runLength.toNat + 1 := by
  simpa [ChunkRecord.instr, Instr.wf, chunkWordsMatch] using hwf

theorem length_pixels_le : k.pixels.length ≤ 65536 := by
  have hlen := length_pixels_of_wf hwf
  have hlt := k.runLength.isLt
  omega

variable {n : Nat} (hroom : StreamRoom s (n + 1))
include hroom

/-- Start and end of the run stay within the counters' widths. -/
theorem chunk_fits {delta prec' : Nat}
    (hcarry : carry s.scanLineLen.toNat s.prec.toNat (halfOffset k.screenOffset) = (delta, prec')) :
    s.cur.toNat + delta + k.pixels.length < 2 ^ 34 ∧ prec' + k.pixels.length < 2 ^ 33 := by
  obtain ⟨hsum, hle⟩ := carry_bounds s.scanLineLen.toNat s.prec.toNat (halfOffset k.screenOffset)
  rw [hcarry] at hsum hle
  have hhalf := halfOffset_le k.screenOffset
  have hlen := length_pixels_le hwf
  have hprec := hroom.prec
  have hcur := hroom.cur
  omega

/-- The counters after the chunk, by their numbers. -/
theorem counters_chunkRead {delta prec' : Nat}
    (hcarry : carry s.scanLineLen.toNat s.prec.toNat (halfOffset k.screenOffset) = (delta, prec')) :
    (s.chunkRead k.screenOffset k.runLength k.pixels).cur.toNat = s.cur.toNat + delta + k.pixels.length ∧
      (s.chunkRead k.screenOffset k.runLength k.pixels).prec.toNat = prec' + k.pixels.length := by
  obtain ⟨hcur, hprec⟩ := chunk_fits hwf hroom hcarry
  rw [chunkRead_eq (length_pixels_of_wf hwf) hcarry hcur]
  exact ⟨(BitVec.toNat_ofNat _ _).trans (Nat.mod_eq_of_lt hcur),
    (BitVec.toNat_ofNat _ _).trans (Nat.mod_eq_of_lt hprec)⟩

theorem streamRoom_chunkRead : StreamRoom (s.chunkRead k.screenOffset k.runLength k.pixels) n := by
  rcases hcarry : carry s.scanLineLen.toNat s.prec.toNat (halfOffset k.screenOffset) with ⟨delta, prec'⟩
  obtain ⟨hsum, hle⟩ := carry_bounds s.scanLineLen.toNat s.prec.toNat (halfOffset k.screenOffset)
  rw [hcarry] at hsum hle
  obtain ⟨hcur, hprec⟩ := counters_chunkRead hwf hroom hcarry
  have hhalf := halfOffset_le k.screenOffset
  have hlen := length_pixels_le hwf
  have hprec' := hroom.prec
  have hcur' := hroom.cur
  constructor <;> omega

theorem chunksRead_chunkRead (hnrun : s.nrun = 0) (rest : List ChunkRecord) (slb : PixelMem) :
    (s.chunkRead k.screenOffset k.runLength k.pixels).chunksRead rest slb = s.chunksRead (k :: rest) slb := by
  rcases hcarry : carry s.scanLineLen.toNat s.prec.toNat (halfOffset k.screenOffset) with ⟨delta, prec'⟩
  obtain ⟨hfits, _⟩ := chunk_fits hwf hroom hcarry
  obtain ⟨hcur, hprec⟩ := counters_chunkRead hwf hroom hcarry
  have heq := chunkRead_eq (length_pixels_of_wf hwf) hcarry hfits
  rw [heq] at hcur hprec
  rw [heq, State.chunksRead, State.chunksRead, hcur, hprec]
  simp only [streamEnd, hcarry, status_anyOdd_cons, sub_ofNat_sub_one, List.length_cons, ofNat_toNat_add,
    chunkBytes_cons, List.length_append, length_encode_chunk, Nat.add_assoc, hnrun]

/-- The chunk's own words are in `SLB`, and no later chunk's word lands among them. -/
theorem streamCells_cons (hrising : rising s.slb.cells = true) {rest : List ChunkRecord} {slb : PixelMem}
    (hcells : StreamCells (s.chunkRead k.screenOffset k.runLength k.pixels) rest slb) :
    StreamCells s (k :: rest) slb := by
  intro i hi
  rcases hcarry : carry s.scanLineLen.toNat s.prec.toNat (halfOffset k.screenOffset) with ⟨delta, prec'⟩
  obtain ⟨hfits, _⟩ := chunk_fits hwf hroom hcarry
  obtain ⟨hcur, hprec⟩ := counters_chunkRead hwf hroom hcarry
  have heq := chunkRead_eq (length_pixels_of_wf hwf) hcarry hfits
  have hread := hcells i (by rw [heq]; exact hi)
  rw [hcur, hprec, show (s.chunkRead k.screenOffset k.runLength k.pixels).scanLineLen = s.scanLineLen by rw [heq],
    show (s.chunkRead k.screenOffset k.runLength k.pixels).slb = s.runCopied (s.cur.toNat + delta) k.pixels by rw [heq]]
    at hread
  rw [hread, streamPixel, hcarry]
  by_cases hstart : s.cur.toNat + delta ≤ i
  · rw [if_pos hstart]
    cases hv : k.pixels[i - (s.cur.toNat + delta)]? with
    | some v =>
      obtain ⟨hlt, _⟩ := List.getElem?_eq_some_iff.1 hv
      rw [streamPixel_eq_none (by omega)]
      exact read_runCopied_inside hrising hstart hv hi
    | none =>
      have hend := List.getElem?_eq_none_iff.1 hv
      rw [read_runCopied_outside hrising (.inr (.inl (by omega)))]
  · rw [if_neg hstart, streamPixel_eq_none (by omega)]
    exact read_runCopied_outside hrising (.inl (by omega))

end Chunk

/-- The chunks that lie readable at `SP`, one after another (R193). -/
theorem chunkLoop_of_bytes (chunks : List ChunkRecord) {s : State} (hwf : ∀ k ∈ chunks, k.instr.wf = true)
    (hr : s.readable s.sp.toNat (chunkBytes chunks).length = true)
    (hbytes : s.cm.readBytes s.sp.toNat (chunkBytes chunks).length = chunkBytes chunks)
    (hroom : StreamRoom s chunks.length) (hnrun : s.nrun = 0) (hrising : rising s.slb.cells = true) :
    ∃ slb, chunkLoop chunks.length s = .ok () (s.chunksRead chunks slb) ∧ StreamCells s chunks slb := by
  induction chunks generalizing s with
  | nil =>
    refine ⟨s.slb, ?_, fun i _ => rfl⟩
    simp [chunkLoop, State.chunksRead, anyOdd, streamEnd, chunkBytes]
  | cons k rest ih =>
    rw [chunkBytes_cons] at hr hbytes
    obtain ⟨hhere, hbehind⟩ := readBytes_append_parts hbytes
    rw [List.length_append, readable_add] at hr
    obtain ⟨hrhere, hrbehind⟩ := hr
    have hk := hwf k List.mem_cons_self
    rcases hcarry : carry s.scanLineLen.toNat s.prec.toNat (halfOffset k.screenOffset) with ⟨delta, prec'⟩
    obtain ⟨hfits, _⟩ := chunk_fits hk hroom hcarry
    have hstep := chunkStep_of_encode hk hrhere hhere (by rw [hcarry]; exact hfits)
    have heq := chunkRead_eq (length_pixels_of_wf hk) hcarry hfits
    let t := s.chunkRead k.screenOffset k.runLength k.pixels
    have hsp : t.sp.toNat = s.sp.toNat + (encode k.instr).length := by
      have hlt := s.clen.isLt
      have hend := ((readable_iff _ _ _).1 hrhere).1
      rw [length_encode_chunk] at hend ⊢
      rw [show t.sp = _ from congrArg State.sp heq, BitVec.toNat_ofNat, Nat.mod_eq_of_lt (by omega), Nat.add_assoc]
    obtain ⟨slb, hloop, hcells⟩ := ih (s := t) (fun j hj => hwf j (List.mem_cons_of_mem k hj))
      (by rw [hsp]; exact hrbehind) (by rw [hsp]; exact hbehind) (streamRoom_chunkRead hk hroom)
      (congrArg State.nrun heq)
      (by rw [show t.slb = _ from congrArg State.slb heq]; exact rising_runCopied _ _ hrising)
    refine ⟨slb, ?_, streamCells_cons hk hroom hrising hcells⟩
    rw [chunksRead_chunkRead hk hroom hnrun] at hloop
    exact (bind_of_ok hstep).trans hloop

/-! ### `PK_DEC` (R190 to R199) -/

theorem packedChecks_ok {s : State} (h : PackedOk s) : packedChecks s = .ok () s := by
  obtain ⟨hdims, hline, hwidth⟩ := h
  have hne : s.scanLineLen ≠ 0 := by bv_omega
  exact (bind_of_ok (check_pass _ _ hdims)).trans <|
    (bind_of_ok (check_pass _ _ (by simpa using hne))).trans <| check_pass _ _ (decide_eq_true hwidth)

/-- The preamble at `SP` has been read (R191). -/
def State.preambleRead (s : State) (m : U16) : State := (s.withSp (s.sp.toNat + 2)).withChunkCount m

/-- The stream of a payload whose bytes lie readable at `SP`, and the slice (R199). -/
theorem packedBody_of_bytes {s : State} {m : U16} {chunks : List ChunkRecord} (hcount : chunks.length = m.toNat + 1)
    (hwf : ∀ k ∈ chunks, k.instr.wf = true) (hr : s.readable s.sp.toNat (payloadBytes m chunks).length = true)
    (hbytes : s.cm.readBytes s.sp.toNat (payloadBytes m chunks).length = payloadBytes m chunks)
    (hroom : StreamRoom s chunks.length) (hnrun : s.nrun = 0) (hrising : rising s.slb.cells = true) :
    ∃ slb, packedBody s = .ok () ((s.preambleRead m).chunksRead chunks slb).sliced ∧
      StreamCells (s.preambleRead m) chunks slb := by
  obtain ⟨hfirst, hbehind⟩ := readBytes_append_parts hbytes
  rw [payloadBytes, List.length_append, readable_add] at hr
  obtain ⟨hrfirst, hrbehind⟩ := hr
  have hpreamble := preambleStep_readable hrfirst
  rw [word16At_of_bytes hfirst] at hpreamble
  have hsp : (s.preambleRead m).sp.toNat = s.sp.toNat + 2 := toNat_sp_fetch hrfirst
  have hnchunk : (s.preambleRead m).nchunk.toNat = chunks.length := (toNat_ofNat_storedCount m).trans hcount.symm
  obtain ⟨slb, hloop, hcells⟩ := chunkLoop_of_bytes chunks (s := s.preambleRead m) hwf
    (by rw [hsp]; exact hrbehind) (by rw [hsp]; exact hbehind) ⟨hroom.prec, hroom.cur⟩ hnrun hrising
  rw [← hnchunk] at hloop
  exact ⟨slb, (bind_of_ok hpreamble).trans (bind_of_ok hloop), hcells⟩

/-- A cell of `PM` after the slice: inside the image the pixel of its row and column (R198). -/
theorem read_pm_sliced {s : State} (hwf : s.pm.wf Config.pmDepth = true) {x y : Nat} (hx : x < s.width.toNat)
    (hy : y < s.height.toNat) :
    s.sliced.pm.read (y * s.width.toNat + x) = s.slb.read (y * s.scanLineLen.toNat + x) := by
  have hrow : (y * s.width.toNat + x) / s.width.toNat = y := by
    rw [Nat.mul_comm, Nat.mul_add_div (by omega), Nat.div_eq_of_lt hx, Nat.add_zero]
  have hcolumn : (y * s.width.toNat + x) % s.width.toNat = x := by
    rw [Nat.mul_comm, Nat.mul_add_mod, Nat.mod_eq_of_lt hx]
  have hcell : y * s.width.toNat + x < s.pixelCount := by
    have hrows : (y + 1) * s.width.toNat ≤ s.height.toNat * s.width.toNat := Nat.mul_le_mul_right _ hy
    rw [State.pixelCount, Nat.mul_comm s.width.toNat]
    rw [Nat.succ_mul] at hrows
    omega
  rw [sliced_eq, PixelMem.read_putRange _ _ _ _ _ (PixelMem.rising_of_wf hwf), if_pos (by omega), State.slicePixel,
    hrow, hcolumn]

theorem read_pm_sliced_outside {s : State} (hwf : s.pm.wf Config.pmDepth = true) {i : Nat} (hi : s.pixelCount ≤ i) :
    s.sliced.pm.read i = s.pm.read i := by
  rw [sliced_eq, PixelMem.read_putRange _ _ _ _ _ (PixelMem.rising_of_wf hwf), if_neg (by omega)]

/-- A cell of `SLB` that the slice reads lies in the buffer. -/
theorem slbCell_lt {l w h x y : Nat} (hw : w ≤ l) (hx : x < w) (hy : y < h) : y * l + x < l * h := by
  have hrows : (y + 1) * l ≤ h * l := Nat.mul_le_mul_right _ hy
  rw [Nat.mul_comm l]
  rw [Nat.succ_mul] at hrows
  omega

/-- The completed command's state, with `PM` as the slice leaves it and two counters told by their values (R231). -/
theorem complete_eq {t : State} {pm : PixelMem} {nchunk : BitVec 17} {sp : BitVec 34} (hnchunk : t.nchunk = nchunk)
    (hsp : t.sp = sp) : State.complete { t with pm := pm } =
      { t with pm := pm, nchunk := nchunk, sp := sp, status := statusEnded t.status, doing := .idle } := by
  rw [← hnchunk, ← hsp]
  rfl

/-- Settles O39: the stream leaves in `SLB` what the closed form says, and the slice takes it from there. -/
theorem pkDecClosedForm : Obligations.PkDecClosedForm := by
  unfold Obligations.PkDecClosedForm
  intro s m chunks hok hwf hcount hkwf hr hbytes
  let start := s.withPackedStart
  have hstart : packedStart s = .ok () start := (bind_of_ok (packedChecks_ok hok)).trans rfl
  have hsp : start.sp.toNat = s.packedOff.toNat :=
    toNat_withSp (s := s) (by have := s.packedOff.isLt; omega)
  have hlength : chunks.length ≤ 65536 := by have := m.isLt; omega
  have hroom : StreamRoom start chunks.length :=
    ⟨show 0 + chunks.length * 65536 < 2 ^ 33 by omega,
      show 0 + 0 + chunks.length * (32767 + 2 * 65536) < 2 ^ 34 by omega⟩
  obtain ⟨slb, hbody, hcells⟩ := packedBody_of_bytes (s := start) hcount hkwf (by rw [hsp]; exact hr)
    (by rw [hsp]; exact hbytes) hroom rfl rfl
  let t := (start.preambleRead m).chunksRead chunks slb
  have hrun : exec .pkDec s = .next t.sliced.complete :=
    runCommand_ok ((bind_of_ok hstart).trans (payload_ok hbody))
  refine ⟨t.sliced.pm, slb, ?_, fun x y hx hy => ?_, fun i hi => read_pm_sliced_outside (s := t) hwf hi⟩
  · have hnchunk : t.nchunk = 0 := by
      show BitVec.ofNat 17 (m.toNat + 1) - BitVec.ofNat 17 chunks.length = 0
      rw [hcount]
      exact BitVec.sub_self _
    have hend : t.sp = BitVec.ofNat 34
        (s.packedOff.toNat + 2 + (chunks.map fun k => 4 + 2 * k.pixels.length).sum) := by
      show BitVec.ofNat 34 ((BitVec.ofNat 34 (start.sp.toNat + 2)).toNat + (chunkBytes chunks).length) = _
      rw [ofNat_toNat_add, hsp, length_chunkBytes]
    rw [hrun, sliced_eq, complete_eq hnchunk hend]
    rfl
  · obtain ⟨_, _, hwidth⟩ := hok
    exact (read_pm_sliced (s := t) hwf hx hy).trans (hcells _ (slbCell_lt hwidth hx hy))

end Sys2Proof.Machine
end

section
/-! The colour converter channel by channel (R120 to R129): each lane is a function of its own channel, so what holds of
a word or a pixel is a fact about one channel's formula. -/

namespace Sys2Proof.Machine

/-! ### The results fit (R125) -/

theorem toNat_ofNat_quant5 (c : Byte) : (BitVec.ofNat 5 (quant5 c)).toNat = (c.toNat * 249 + 1014) / 2 ^ 11 := by
  have hc := c.isLt
  rw [BitVec.toNat_ofNat, quant5, Nat.shiftRight_eq_div_pow, Nat.mod_eq_of_lt (by omega)]

theorem toNat_ofNat_quant6 (c : Byte) : (BitVec.ofNat 6 (quant6 c)).toNat = (c.toNat * 253 + 505) / 2 ^ 10 := by
  have hc := c.isLt
  rw [BitVec.toNat_ofNat, quant6, Nat.shiftRight_eq_div_pow, Nat.mod_eq_of_lt (by omega)]

theorem toNat_ofNat_expand5 (f : BitVec 5) : (BitVec.ofNat 8 (expand5 f)).toNat = (f.toNat * 527 + 23) / 2 ^ 6 := by
  have hf := f.isLt
  rw [BitVec.toNat_ofNat, expand5, Nat.shiftRight_eq_div_pow, Nat.mod_eq_of_lt (by omega)]

theorem toNat_ofNat_expand6 (f : BitVec 6) : (BitVec.ofNat 8 (expand6 f)).toNat = (f.toNat * 259 + 33) / 2 ^ 6 := by
  have hf := f.isLt
  rw [BitVec.toNat_ofNat, expand6, Nat.shiftRight_eq_div_pow, Nat.mod_eq_of_lt (by omega)]

/-! ### Lanes placed side by side (R29, R122) -/

/-- The lanes of an append do not overlap, so its value is a sum. -/
theorem toNat_append_eq_add {m n : Nat} (x : BitVec m) (y : BitVec n) :
    (x ++ y).toNat = x.toNat * 2 ^ n + y.toNat := by
  rw [BitVec.toNat_append, ← Nat.shiftLeft_add_eq_or_of_lt y.isLt, Nat.shiftLeft_eq]

theorem toNat_pack565 (r : BitVec 5) (g : BitVec 6) (b : BitVec 5) :
    (pack565 r g b).toNat = r.toNat * 2 ^ 11 + g.toNat * 2 ^ 5 + b.toNat := by
  rw [pack565, toNat_append_eq_add, toNat_append_eq_add]
  omega

theorem toNat_pixelRgb (p : Pixel) :
    (pixelRgb p).toNat = p.r.toNat * 2 ^ 16 + p.g.toNat * 2 ^ 8 + p.b.toNat := by
  rw [pixelRgb, toNat_append_eq_add, toNat_append_eq_add]
  omega

/-! ### One channel there and back (R126) -/

/-- Red and blue: the two roundings together move a channel by at most 4 (R126 (d)). -/
theorem expand5_quant5_within_4 (c : Byte) :
    (BitVec.ofNat 8 (expand5 (BitVec.ofNat 5 (quant5 c)))).toNat ≤ c.toNat + 4 ∧
      c.toNat ≤ (BitVec.ofNat 8 (expand5 (BitVec.ofNat 5 (quant5 c)))).toNat + 4 := by
  have hc := c.isLt
  rw [toNat_ofNat_expand5, toNat_ofNat_quant5]
  omega

/-- Green: the two roundings together move a channel by at most 2 (R126 (d)). -/
theorem expand6_quant6_within_2 (c : Byte) :
    (BitVec.ofNat 8 (expand6 (BitVec.ofNat 6 (quant6 c)))).toNat ≤ c.toNat + 2 ∧
      c.toNat ≤ (BitVec.ofNat 8 (expand6 (BitVec.ofNat 6 (quant6 c)))).toNat + 2 := by
  have hc := c.isLt
  rw [toNat_ofNat_expand6, toNat_ofNat_quant6]
  omega

theorem quant5_expand5 (f : BitVec 5) : BitVec.ofNat 5 (quant5 (BitVec.ofNat 8 (expand5 f))) = f := by
  have hf := f.isLt
  apply BitVec.eq_of_toNat_eq
  rw [toNat_ofNat_quant5, toNat_ofNat_expand5]
  omega

theorem quant6_expand6 (f : BitVec 6) : BitVec.ofNat 6 (quant6 (BitVec.ofNat 8 (expand6 f))) = f := by
  have hf := f.isLt
  apply BitVec.eq_of_toNat_eq
  rw [toNat_ofNat_quant6, toNat_ofNat_expand6]
  omega

/-! ### The two functions lane by lane (R129) -/

theorem to24_to16 (p : Pixel) :
    to24 (to16 p) = ⟨BitVec.ofNat 8 (expand5 (BitVec.ofNat 5 (quant5 p.r))),
      BitVec.ofNat 8 (expand6 (BitVec.ofNat 6 (quant6 p.g))),
      BitVec.ofNat 8 (expand5 (BitVec.ofNat 5 (quant5 p.b)))⟩ := by
  rw [to16, to24, unpack565_pack565]

/-- Settles O18: each channel goes through its own two formulas alone, so its bound is that channel's. -/
theorem quantisationErrorBound : Obligations.QuantisationErrorBound := by
  unfold Obligations.QuantisationErrorBound
  intro p
  rw [to24_to16]
  exact ⟨expand5_quant5_within_4 p.r, expand6_quant6_within_2 p.g, expand5_quant5_within_4 p.b⟩

/-- Settles O17: quantising takes each expanded field back, and the fields make up the word. -/
theorem to16InvertsTo24 : Obligations.To16InvertsTo24 := by
  unfold Obligations.To16InvertsTo24
  intro v
  rw [to24, to16, quant5_expand5, quant6_expand6, quant5_expand5, pack565_unpack565]

/-! ### The two commands (R123, R124) -/

theorem exec_to16 (s : State) : exec .to16 s = .next s.withRgb16.complete := runCommand_ok (change_apply _ s)

theorem exec_to24 (s : State) : exec .to24 s = .next s.withRgb24.complete := runCommand_ok (change_apply _ s)

theorem toNat_to16 (p : Pixel) :
    (to16 p).toNat = (p.r.toNat * 249 + 1014) / 2 ^ 11 * 2 ^ 11 + (p.g.toNat * 253 + 505) / 2 ^ 10 * 2 ^ 5 +
      (p.b.toNat * 249 + 1014) / 2 ^ 11 := by
  rw [to16, toNat_pack565, toNat_ofNat_quant5, toNat_ofNat_quant6, toNat_ofNat_quant5]

theorem toNat_pixelRgb_to24 (v : U16) :
    (pixelRgb (to24 v)).toNat = ((v.extractLsb' 11 5).toNat * 527 + 23) / 2 ^ 6 * 2 ^ 16 +
      ((v.extractLsb' 5 6).toNat * 259 + 33) / 2 ^ 6 * 2 ^ 8 + ((v.extractLsb' 0 5).toNat * 527 + 23) / 2 ^ 6 := by
  rw [to24, unpack565, toNat_pixelRgb, toNat_ofNat_expand5, toNat_ofNat_expand6, toNat_ofNat_expand5]

/-- Settles O15: the command's one change is `RGB16`, whose value is that of the word's three lanes. -/
theorem to16Quantises : Obligations.To16Quantises := by
  unfold Obligations.To16Quantises
  exact ⟨rfl, fun s => ⟨s.withRgb16.complete, exec_to16 s, rfl, toNat_to16 (rgbPixel s.rgb24)⟩⟩

/-- Settles O16: the command's one change is `RGB24`, whose value is that of the pixel's three bytes. -/
theorem to24Expands : Obligations.To24Expands := by
  unfold Obligations.To24Expands
  exact ⟨rfl, fun s => ⟨s.withRgb24.complete, exec_to24 s, rfl, toNat_pixelRgb_to24 s.rgb16⟩⟩

end Sys2Proof.Machine
end

section
/-! Where the header parsers stop (R64, R140, R142, R269): the fields are fetched in order, and the first that cannot be
fetched ends the command with `SP` at it and no register changed. -/

namespace Sys2Proof.Machine

/-! ### A field fetched at a known `SP` -/

/-- Why a field of `n` bytes at `a` cannot be fetched (R64, R266). -/
def State.fieldError (s : State) (stage : Stage) (a n : Nat) : Raise :=
  ⟨if s.clen.toNat < a + n then .truncated stage else .ioError .fetch, a⟩

theorem fetchError_withSp {s : State} {a : Nat} (stage : Stage) (n : Nat) (ha : a < 2 ^ 34) :
    fetchError stage n (s.withSp a) = s.fieldError stage a n := by
  rw [fetchError, toNat_withSp ha, State.withSp_clen, State.fieldError]
  split <;> rfl

/-- The piece fetches a field of `n` bytes: it goes on behind the field, or the fetch raises (R64). -/
structure Fetches {α : Type} (stage : Stage) (n : Nat) (c : Cmd α) : Prop where
  goes : ∀ {s : State} {a : Nat}, s.readable a n = true → ∃ v, c (s.withSp a) = .ok v (s.withSp (a + n))
  stops : ∀ {s : State}, s.readable s.sp.toNat n = false → c s = .error (fetchError stage n s) s

theorem fetches_readU8 (stage : Stage) : Fetches stage 1 (readU8 stage) :=
  ⟨fun h => ⟨_, readU8_withSp stage h⟩, readU8_error stage⟩

theorem fetches_readU16 (stage : Stage) : Fetches stage 2 (readU16 stage) :=
  ⟨fun h => ⟨_, readU16_withSp stage h⟩, readU16_error stage⟩

theorem fetches_readU32 (stage : Stage) : Fetches stage 4 (readU32 stage) :=
  ⟨fun h => ⟨_, readU32_withSp stage h⟩, readU32_error stage⟩

theorem Fetches.stops_withSp {α : Type} {stage : Stage} {n : Nat} {c : Cmd α} (hc : Fetches stage n c) {s : State}
    {a : Nat} (ha : a < 2 ^ 34) (hr : s.readable a n = false) :
    c (s.withSp a) = .error (s.fieldError stage a n) (s.withSp a) := by
  rw [hc.stops (by rw [toNat_withSp ha]; exact hr), fetchError_withSp stage n ha]

/-! ### The first field that cannot be fetched -/

/-- From the field at `a + k` on, the piece stops at the first of these fields of the record at `a` that cannot be
fetched. A field is told by its offset in the record and its length. -/
def StopsInFields (s : State) (stage : Stage) (a k : Nat) (fields : List (Nat × Nat)) (c : Cmd Unit) : Prop :=
  ∀ f ∈ fields, (f.1 ≠ 0 → s.readable a f.1 = true) → s.readable (a + f.1) f.2 = false →
    c (s.withSp (a + k)) = .error (s.fieldError stage (a + f.1) f.2) (s.withSp (a + f.1))

theorem stopsInFields_nil (s : State) (stage : Stage) (a k : Nat) (c : Cmd Unit) : StopsInFields s stage a k [] c :=
  fun _ hf => absurd hf List.not_mem_nil

/-- `SP` can stand behind what has been fetched (R40). -/
theorem add_lt_of_readable {s : State} {a k : Nat} (ha : a < 2 ^ 34) (h : k ≠ 0 → s.readable a k = true) :
    a + k < 2 ^ 34 := by
  by_cases hk : k = 0
  · rwa [hk, Nat.add_zero]
  · have hend := ((readable_iff _ _ _).1 (h hk)).1
    have hclen := s.clen.isLt
    omega

theorem stopsInFields_cons {α : Type} {s : State} {stage : Stage} {a k n : Nat} {rest : List (Nat × Nat)}
    {c : Cmd α} {next : α → Cmd Unit} (hc : Fetches stage n c) (ha : a < 2 ^ 34)
    (hnext : ∀ v, StopsInFields s stage a (k + n) rest (next v)) (hn : 0 < n := by decide)
    (hrest : ∀ f ∈ rest, k + n ≤ f.1 := by decide) : StopsInFields s stage a k ((k, n) :: rest) (c >>= next) := by
  intro f hf hpre hr
  rcases List.mem_cons.1 hf with rfl | hf
  · exact bind_of_error (hc.stops_withSp (add_lt_of_readable ha hpre) hr)
  · have hpast := hrest f hf
    obtain ⟨v, hv⟩ := hc.goes (s := s) (a := a + k) (readable_part (hpre (by omega)) (by omega) (by omega))
    rw [Nat.add_assoc] at hv
    exact (bind_of_ok hv).trans (hnext v f hf hpre hr)

/-! ### The container header (R140, R269) -/

/-- The body of `HDR_GET` behind the tag's check (R140); `hdrGet_of_tagRead` ties it to the command. -/
def headerFields : Cmd Unit := do
  let n ← readU16 .header
  let v ← readU16 .header
  let l ← readU16 .header
  let x ← readU16 .header
  commitHeader n v l x

theorem hdrGet_of_tagRead {s : State} (hr : s.readable 0 4 = true) :
    hdrGet s = (checkTag (s.word32At 0) >>= fun _ => headerFields) (s.withSp 4) :=
  bind_of_ok (readU32_withSp .header hr)

theorem hdrGet_of_tag {s : State} (hr : s.readable 0 4 = true) (htag : s.word32At 0 = s.params.magicTag) :
    hdrGet s = headerFields (s.withSp 4) :=
  (hdrGet_of_tagRead hr).trans (bind_of_ok (checkTag_match (s := s.withSp 4) htag))

theorem headerFields_stops (s : State) :
    StopsInFields s .header 0 4 [(4, 2), (6, 2), (8, 2), (10, 2)] headerFields :=
  have hzero : 0 < 2 ^ 34 := by decide
  stopsInFields_cons (fetches_readU16 _) hzero fun _ => stopsInFields_cons (fetches_readU16 _) hzero fun _ =>
    stopsInFields_cons (fetches_readU16 _) hzero fun _ => stopsInFields_cons (fetches_readU16 _) hzero fun _ =>
      stopsInFields_nil _ _ _ _ _

theorem headerFields_commits {s : State} (hr : s.readable 0 12 = true) :
    headerFields (s.withSp 4) =
      commitHeader (s.word16At 4) (s.word16At 6) (s.word16At 8) (s.word16At 10) (s.withSp 12) := by
  have part (k : Nat) (hk : k + 2 ≤ 12) : s.readable k 2 = true := readable_part hr (by omega) (by omega)
  exact (bind_of_ok (readU16_withSp .header (part 4 (by omega)))).trans <|
    (bind_of_ok (readU16_withSp .header (part 6 (by omega)))).trans <|
    (bind_of_ok (readU16_withSp .header (part 8 (by omega)))).trans <|
    bind_of_ok (readU16_withSp .header (part 10 (by omega)))

/-- Settles O22: the tag is fetched and judged before the other fields are fetched, and the version after them. -/
theorem hdrGetRefuses : Obligations.HdrGetRefuses := by
  unfold Obligations.HdrGetRefuses
  intro s
  refine ⟨fun hr => ?_, fun hr htag => ?_, fun a ha hpre htag hr => ?_, fun hr htag h2 h3 => ?_⟩
  · have hstop : headerBody (s.withSp 0) = .error (s.fieldError .header 0 4) (s.withSp 0) :=
      bind_of_error ((fetches_readU32 .header).stops_withSp (by decide) hr)
    exact runCommand_error (c := hdrGet) hstop
  · exact runCommand_error ((hdrGet_of_tagRead hr).trans (bind_of_error (checkTag_mismatch (s := s.withSp 4) htag)))
  · have hfield : (a, 2) ∈ [(4, 2), (6, 2), (8, 2), (10, 2)] := by simpa using ha
    have hpast : 4 ≤ a := (by decide : ∀ b ∈ [4, 6, 8, 10], 4 ≤ b) a ha
    have hstop : headerFields (s.withSp 4) = .error (s.fieldError .header a 2) (s.withSp a) := by
      simpa only [Nat.zero_add] using headerFields_stops s (a, 2) hfield (fun _ => hpre) (by rwa [Nat.zero_add])
    have htagRead : s.readable 0 4 = true := readable_part hpre (by omega) (by omega)
    exact runCommand_error ((hdrGet_of_tag htagRead htag).trans hstop)
  · have htagRead : s.readable 0 4 = true := readable_part hr (by omega) (by omega)
    exact runCommand_error <| (hdrGet_of_tag htagRead htag).trans <|
      (headerFields_commits hr).trans (commitHeader_badVersion h2 h3 _)

/-! ### The image header (R142, R269) -/

theorem imageHeaderBody_stops (s : State) {a : Nat} (ha : a < 2 ^ 34) :
    StopsInFields s .imageHeader a 0 [(0, 1), (1, 1), (2, 2), (4, 4), (8, 4)] imageHeaderBody :=
  stopsInFields_cons (fetches_readU8 _) ha fun _ => stopsInFields_cons (fetches_readU8 _) ha fun _ =>
    stopsInFields_cons (fetches_readU16 _) ha fun _ => stopsInFields_cons (fetches_readU32 _) ha fun _ =>
      stopsInFields_cons (fetches_readU32 _) ha fun _ => stopsInFields_nil _ _ _ _ _

theorem imageHeaderBody_commits {s : State} {a : Nat} (hr : s.readable a 12 = true) :
    imageHeaderBody (s.withSp a) = commitImageHeader (s.byteAt a) (s.byteAt (a + 1)) (s.word16At (a + 2))
      (s.word32At (a + 4)) (s.word32At (a + 8)) (s.withSp (a + 12)) := by
  have part (k n : Nat) (hk : k + n ≤ 12) : s.readable (a + k) n = true := readable_part hr (by omega) (by omega)
  exact (bind_of_ok (readU8_withSp .imageHeader (a := a) (part 0 1 (by omega)))).trans <|
    (bind_of_ok (readU8_withSp .imageHeader (part 1 1 (by omega)))).trans <|
    (bind_of_ok (readU16_withSp .imageHeader (part 2 2 (by omega)))).trans <|
    (bind_of_ok (readU32_withSp .imageHeader (part 4 4 (by omega)))).trans <|
    bind_of_ok (readU32_withSp .imageHeader (part 8 4 (by omega)))

/-- Settles O25: the five fields are fetched in order, and both offsets are judged after them. -/
theorem ihdrGetRefuses : Obligations.IhdrGetRefuses := by
  unfold Obligations.IhdrGetRefuses
  intro s
  refine ⟨fun f hf hpre hr => ?_, fun hr hu hp => ?_⟩
  · have haddr : ihdrAddr s.idx < 2 ^ 34 := by
      have := ihdrAddr_le s.idx
      omega
    exact runCommand_error (c := ihdrGet) (imageHeaderBody_stops s haddr f hf hpre hr)
  · exact runCommand_error (c := ihdrGet) ((imageHeaderBody_commits hr).trans (commitImageHeader_noPayload hu hp _))

/-! ### The image header's checks before its first store (R143, R147) -/

/-- Settles O27: the dimensions are judged first, then the offset, and only then is a register written. -/
theorem ihdrPutRefuses : Obligations.IhdrPutRefuses := by
  unfold Obligations.IhdrPutRefuses
  intro s
  refine ⟨fun hd => ?_, fun hd hu => ?_⟩
  · have hdims : checkDims s = .error ⟨.badDimension, ihdrAddr s.idx⟩ s := check_fail _ _ hd
    exact runCommand_error (c := ihdrPut) (bind_of_error hdims)
  · have hdims : checkDims s = .ok () s := check_pass _ _ hd
    have hoffset : check (fun s => s.unpackedOff != 0) .noPayload (fun s => ihdrAddr s.idx + 4) s =
        .error ⟨.noPayload, ihdrAddr s.idx + 4⟩ s := check_fail _ _ (by simpa using hu)
    exact runCommand_error (c := ihdrPut) ((bind_of_ok hdims).trans (bind_of_error hoffset))

end Sys2Proof.Machine
end

section
/-! What `HDR_PUT` emits and `HDR_GET` reads back, and the image that `IMG_ENC` emits (R140, R141, R146, R172, R236). -/

namespace Sys2Proof.Machine

/-! ### A container header emitted (R141) -/

theorem hdrPut_ok {s : State} (hf : s.params.accessFaults .store 0 12 = false) :
    hdrPut s = .ok () (s.withNewContainer.storedFrom 0 (containerHeaderFields s).flatten) := by
  have hlen : (containerHeaderFields s).flatten.length = 12 := rfl
  exact (hdrPut_eq_storeFields s).trans <| storeFields_ok (s := s.withNewContainer) (x := [])
    (containerHeaderFields_nonempty s) (by rw [List.length_nil, hlen]; omega) hf

/-- Settles O23: the fields are one byte string of twelve bytes, stored after `CLEN` has been cleared. -/
theorem hdrPutEmits : Obligations.HdrPutEmits := by
  unfold Obligations.HdrPutEmits
  intro s hf
  refine ⟨s.cm.writeBytes 0 (containerHeaderFields s).flatten, ?_,
    ByteMem.readBytes_writeBytes_same _ _ rfl, fun c hc => ByteMem.read_writeBytes_outside _ _ (.inr hc)⟩
  have hrun : exec .hdrPut s = _ := runCommand_ok (hdrPut_ok hf)
  rw [hrun, storedFrom_newContainer s (show (containerHeaderFields s).flatten.length = 12 from rfl)]
  rfl

/-! ### An emitted container header parsed (R140) -/

/-- The fields at address 0 are those of the record whose bytes lie there. -/
theorem containerHeader_fields_of_bytes {s : State} {m : U32} {n v l x : U16}
    (hbytes : s.cm.readBytes 0 12 = encode (.containerHeader m n v l x)) :
    s.word32At 0 = m ∧ s.word16At 4 = n ∧ s.word16At 6 = v ∧ s.word16At 8 = l ∧ s.word16At 10 = x := by
  have hread : decode .containerHeader (s.cm.readBytes 0 12) = .ok (.containerHeader (s.word32At 0) (s.word16At 4)
      (s.word16At 6) (s.word16At 8) (s.word16At 10), []) := rfl
  have hrecord : decode .containerHeader (encode (.containerHeader m n v l x) ++ []) =
      .ok (.containerHeader m n v l x, []) := decode_encode_append (.containerHeader m n v l x) [] rfl
  rw [hbytes, ← List.append_nil (encode _), hrecord] at hread
  simpa [eq_comm] using hread

/-- The state after the parse of an emitted container header: the encoder's constants, and no warning (R140, R145,
R146). -/
def State.emittedContainerParsed (s : State) (n : U16) : State :=
  { s with imageCount := n, version := Config.encVersion, scanLineLen := 0, hres := 0, sp := 12 }

theorem hdrGet_of_emitted {s : State} {n : U16} (hr : s.readable 0 12 = true)
    (hbytes : s.cm.readBytes 0 12 = bytes32 s.params.magicTag ++ bytes16 n ++ [0, 3, 0, 0, 0, 0]) :
    hdrGet s = .ok () (s.emittedContainerParsed n) := by
  have hrecord : s.cm.readBytes 0 12 = encode (.containerHeader s.params.magicTag n Config.encVersion 0 0) := hbytes
  obtain ⟨htag, hn, hv, hl, hx⟩ := containerHeader_fields_of_bytes hrecord
  rw [hdrGet_ok hr htag (.inr hv), State.containerHeaderParsed, hn, hv, hl, hx]
  rfl

/-- Settles O28: the twelve bytes emitted are the record that is parsed. -/
theorem containerHeaderRoundTrip : Obligations.ContainerHeaderRoundTrip := by
  unfold Obligations.ContainerHeaderRoundTrip
  intro s hnone
  obtain ⟨cm', hput, hbytes, _⟩ := hdrPutEmits s (accessFaults_of_none hnone _ _ _)
  refine ⟨_, hput, State.err_complete s, fun r hcm hclen hparams => ?_⟩
  have hcm' : r.cm = cm' := hcm
  have hparams' : r.params = s.params := hparams
  have hend : r.clen.toNat = 12 := congrArg BitVec.toNat hclen
  have hr : r.readable 0 12 = true := readable_of_none (by rw [hparams']; exact hnone) (by rw [hend])
  have hget := hdrGet_of_emitted hr (by rw [hcm', hparams']; exact hbytes)
  exact ⟨_, runCommand_ok hget, rfl, rfl, rfl, rfl, State.err_complete r, hcm⟩

/-! ### An image emitted (R236) -/

/-- The state after `IMG_ENC`, field by field. `CLEN` tells the payload alone, because the header lies before it (R65,
R172). -/
theorem imageEmitted_eq {s : State} (h : Encodable s) :
    s.imageEmitted = { s with
      unpackedOff := BitVec.ofNat 32 (encOffset s.imageCount s.runpix), ires := 0, packedOff := 0
      runpix := BitVec.ofNat 32 (s.runpix.toNat + s.pixelCount)
      cm := s.headerEmitted.cm.writeBytes (encOffset s.imageCount s.runpix) (pixelWordBytes s.pm s.pixelCount 0)
      clen := BitVec.ofNat 34 (max s.clen.toNat (encOffset s.imageCount s.runpix + 2 * s.pixelCount))
      sp := BitVec.ofNat 34 (encOffset s.imageCount s.runpix + 2 * s.pixelCount) } := by
  have hcount : s.pixelCount ≠ 0 := Nat.pos_iff_ne_zero.1 (pixelCount_bounds h.dims).1
  have hplace : ihdrAddr s.idx + 12 ≤ encOffset s.imageCount s.runpix + 2 * s.pixelCount :=
    (ihdrAddr_add_le_encOffset h).trans (Nat.le_add_right _ _)
  rw [State.imageEmitted, storedFrom_pixelWords, if_neg hcount, toNat_clen_headerEmitted, Nat.max_assoc,
    Nat.max_eq_right hplace]
  rfl

/-- Settles O47: the header's twelve bytes and the payload's words lie apart, so each is read as it was stored. -/
theorem imgEncEncodes : Obligations.ImgEncEncodes := by
  unfold Obligations.ImgEncEncodes
  rintro s _ rfl hindex hchannels hd hfits hheader hpayload
  have h : Encodable s := ⟨hindex, hchannels, hd, hfits⟩
  have hrun : exec .imgEnc s = _ := runCommand_ok (imgEnc_ok h hheader hpayload)
  refine ⟨s.imageEmitted.cm, ?_, header_imageEmitted h, fun i hi => be16_read_pixelWords _ _ _ hi,
    fun c hc hc' => ?_⟩
  · rw [hrun, imageEmitted_eq h]
    rfl
  · exact (read_pixelWords_outside _ _ hc').trans (ByteMem.read_writeBytes_outside _ _ hc)

end Sys2Proof.Machine
end

section
/-! The raw payload decoder: the raster it leaves in `PM`, the first word it cannot read, and `IMG_DEC` of a raw image
(R170, R234, R235, R277). -/

namespace Sys2Proof.Machine

/-! ### The pixels in `PM` (R170) -/

/-- `n` pixels of the raw payload at `base` in a canonical `PM`: each cell of the image takes its pixel, and every other
cell is as before. -/
theorem read_rawPixels {s : State} (hwf : s.pm.wf Config.pmDepth = true) (base n : Nat) :
    (∀ i, i < n → (s.pm.putRange (s.rawPixelAt base) n 0).read i = to24 (s.word16At (base + 2 * i))) ∧
      ∀ i, n ≤ i → (s.pm.putRange (s.rawPixelAt base) n 0).read i = s.pm.read i := by
  have hrising := PixelMem.rising_of_wf hwf
  refine ⟨fun i hi => ?_, fun i hi => ?_⟩
  · rw [PixelMem.read_putRange _ _ _ _ _ hrising, if_pos (by omega), State.rawPixelAt]
  · rw [PixelMem.read_putRange _ _ _ _ _ hrising, if_neg (by omega)]

/-- Settles O32: the loop writes the cells of the image in order, each with the pixel of its own word. -/
theorem rawDecDecodes : Obligations.RawDecDecodes := by
  unfold Obligations.RawDecDecodes
  exact fun s hd hr hwf => ⟨_, runCommand_ok (rawDec_ok hd hr), read_rawPixels hwf _ _⟩

/-! ### The first word that cannot be read (R170, R277) -/

/-- All words before word `k` are readable, so an unreadable word is not among them. -/
theorem le_of_unreadable_word {s : State} {base i k : Nat} (hpre : k ≠ 0 → s.readable base (2 * k) = true)
    (hf : s.readable (base + 2 * i) 2 = false) : k ≤ i := by
  by_contra hlt
  rw [readable_part (hpre (by omega)) (by omega) (by omega)] at hf
  cases hf

/-- A loop over `n` words of which word `i` is the first unreadable one. -/
theorem rawDecLoop_stops {s : State} {base n i : Nat} (hroom : base + 2 * n < 2 ^ 34) (hi : i < n)
    (hpre : i ≠ 0 → s.readable base (2 * i) = true) (hf : s.readable (base + 2 * i) 2 = false) :
    rawDecLoop n 0 (s.withSp base) = .error (s.fieldError .rawPayload (base + 2 * i) 2)
      { s with pm := s.pm.putRange (s.rawPixelAt base) i 0, sp := BitVec.ofNat 34 (base + 2 * i) } := by
  rcases rawDecLoop_cases base n 0 (s.withSp base) (toNat_withSp (by omega)) (by omega) with
    ⟨hall, _⟩ | ⟨k, _, hkpre, hkf, hloop⟩
  · have hle : n ≤ i := le_of_unreadable_word hall hf
    omega
  · rw [Nat.zero_add] at hkf hloop
    obtain rfl : k = i := le_antisymm (le_of_unreadable_word hkpre hf) (le_of_unreadable_word hpre hkf)
    exact hloop

theorem withWarnOdd_warnOdd (s : State) : s.withWarnOdd s.warnOdd = s := by
  rw [State.withWarnOdd, State.warnOdd, statusWithOdd_self]

/-- The raw decoder sets no warning, so giving `WARN_ODD` its old value back changes nothing (log 27). -/
theorem rawDec_stops {s : State} {i : Nat} (hd : s.dimsOk = true) (hi : i < s.pixelCount)
    (hpre : i ≠ 0 → s.readable s.unpackedOff.toNat (2 * i) = true)
    (hf : s.readable (s.unpackedOff.toNat + 2 * i) 2 = false) :
    rawDec s = .error (s.fieldError .rawPayload (s.unpackedOff.toNat + 2 * i) 2)
      (s.withSp (s.unpackedOff.toNat + 2 * i)).loosePm := by
  have hstart : rawDec s = payload (rawDecLoop s.pixelCount 0) (s.withSp s.unpackedOff.toNat) :=
    bind_of_ok (check_pass _ _ hd)
  rw [hstart, payload_error (rawDecLoop_stops (rawPayload_room hd) hi hpre hf)]
  exact congrArg _ (withWarnOdd_warnOdd (s.withSp (s.unpackedOff.toNat + 2 * i)).loosePm)

/-- Settles O33: the dimension check comes first, and the pixel loop stops at the one word that is the first unreadable
one. -/
theorem rawDecStops : Obligations.RawDecStops := by
  unfold Obligations.RawDecStops
  exact fun s => ⟨fun hd => runCommand_error (bind_of_error (check_fail _ _ hd)),
    fun i hd hi hpre hf => runCommand_error (rawDec_stops hd hi hpre hf)⟩

/-! ### `IMG_DEC` of a raw image (R234, R235) -/

theorem dimsOk_imageHeaderParsed (s : State) : s.imageHeaderParsed.dimsOk = true :=
  Bool.and_eq_true_iff.2 ⟨dimOk_dimDec _, dimOk_dimDec _⟩

/-- A non-zero unpacked offset takes the raw path, whatever the packed offset is. -/
theorem imgDec_eq_rawDec {s : State} (hindex : s.idx.toNat < s.imageCount.toNat)
    (hr : s.readable (ihdrAddr s.idx) 12 = true) (hoff : s.word32At (ihdrAddr s.idx + 4) ≠ 0) :
    imgDec s = rawDec s.imageHeaderParsed := by
  have hcheck : checkIndex s = .ok () s := check_pass _ _ (decide_eq_true hindex)
  have hdispatch : imgDec s = payloadByOffset s.imageHeaderParsed :=
    (bind_of_ok hcheck).trans (bind_of_ok (ihdrGet_ok hr (.inl hoff)))
  rw [hdispatch, payloadByOffset_apply]
  exact congrFun (if_pos hoff) _

/-- Settles O45: the parsed header's dimensions are always legal, so `IMG_DEC` is `RAW_DEC` on the parsed header. -/
theorem imgDecDecodesRawImage : Obligations.ImgDecDecodesRawImage := by
  unfold Obligations.ImgDecDecodesRawImage
  intro s off w h hindex hheader hoff hne hw hh hpayload hwf
  refine ⟨s.pm.putRange (s.rawPixelAt off) (w * h) 0, ?_, read_rawPixels hwf _ _⟩
  subst hoff hw hh
  have hraw : s.word32At (ihdrAddr s.idx + 4) ≠ 0 := fun hzero => hne (by rw [hzero]; rfl)
  have hdec := (imgDec_eq_rawDec hindex hheader hraw).trans (rawDec_ok (dimsOk_imageHeaderParsed s) hpayload)
  have hrun : exec .imgDec s = _ := runCommand_ok hdec
  rw [hrun]
  rfl

end Sys2Proof.Machine
end

section
/-! The packed payload decoder: the carry, the preconditions of `PK_DEC`, and where it stops in its stream (R190 to
R196, R200, R277). -/

namespace Sys2Proof.Machine

/-! ### The offset rule (R194) -/

theorem carry_of_gt {l o : Nat} (p : Nat) (h : o > l) : carry l p o = (o + p, 0) := if_pos h

theorem carry_of_le {l o : Nat} (p : Nat) (h : o ≤ l) : carry l p o = (o, p) := if_neg (Nat.not_lt.2 h)

/-- Settles O36: the comparison is strict, so `o = l` is no carry. -/
theorem carryRule : Obligations.CarryRule := by
  unfold Obligations.CarryRule
  exact ⟨fun _ p _ h => carry_of_gt p h, fun _ p _ h => carry_of_le p h⟩

/-! ### The preconditions (R190) -/

theorem pkDec_of_checks_error {s : State} {e : Raise} (h : packedChecks s = .error e s) : pkDec s = .error e s :=
  bind_of_error (bind_of_error h)

/-- Settles O38: the checks come before anything is written, so the first that fails leaves the state as it was. -/
theorem pkDecRefuses : Obligations.PkDecRefuses := by
  unfold Obligations.PkDecRefuses
  intro s
  refine ⟨fun hdims => ?_, fun hdims hline => ?_, fun hdims hline hwidth => ?_, packedChecks_ok⟩
  · have hcheck : packedChecks s = .error ⟨.badDimension, ihdrAddr s.idx⟩ s :=
      bind_of_error (check_fail _ _ hdims)
    exact runCommand_error (pkDec_of_checks_error hcheck)
  · have hcheck : packedChecks s = .error ⟨.zeroScanLine, 8⟩ s :=
      (bind_of_ok (check_pass _ _ hdims)).trans (bind_of_error (check_fail _ _ (by simpa using hline)))
    exact runCommand_error (pkDec_of_checks_error hcheck)
  · have hcheck : packedChecks s = .error ⟨.widthGtLine, 8⟩ s :=
      (bind_of_ok (check_pass _ _ hdims)).trans <| (bind_of_ok (check_pass _ _ (by simpa using hline))).trans <|
        check_fail _ _ (decide_eq_false (Nat.not_le.2 hwidth))
    exact runCommand_error (pkDec_of_checks_error hcheck)

/-! ### The closed form of a stream in two parts (R203) -/

theorem streamEnd_append (l c p : Nat) (xs ys : List ChunkRecord) :
    streamEnd l c p (xs ++ ys) = streamEnd l (streamEnd l c p xs).1 (streamEnd l c p xs).2 ys := by
  induction xs generalizing c p with
  | nil => rfl
  | cons k rest ih => exact ih _ _

/-- Whole chunks stay within what `StreamRoom` allows each of them (R40). -/
theorem streamEnd_bounds (l c p : Nat) {chunks : List ChunkRecord} (hwf : ∀ k ∈ chunks, k.instr.wf = true) :
    (streamEnd l c p chunks).2 ≤ p + chunks.length * 65536 ∧
      (streamEnd l c p chunks).1 + (streamEnd l c p chunks).2 ≤ c + p + chunks.length * (32767 + 2 * 65536) := by
  induction chunks generalizing c p with
  | nil => simp [streamEnd]
  | cons k rest ih =>
    obtain ⟨hprec, hcur⟩ := ih (c + (carry l p (halfOffset k.screenOffset)).1 + k.pixels.length)
      ((carry l p (halfOffset k.screenOffset)).2 + k.pixels.length) fun j hj => hwf j (List.mem_cons_of_mem k hj)
    obtain ⟨hsum, hle⟩ := carry_bounds l p (halfOffset k.screenOffset)
    have hhalf := halfOffset_le k.screenOffset
    have hlen := length_pixels_le (hwf k List.mem_cons_self)
    rw [streamEnd, List.length_cons]
    omega

theorem chunkBytes_append (xs ys : List ChunkRecord) : chunkBytes (xs ++ ys) = chunkBytes xs ++ chunkBytes ys :=
  List.flatMap_append

theorem payloadBytes_append_one (m : U16) (done : List ChunkRecord) (part : ChunkRecord) :
    payloadBytes m (done ++ [part]) = payloadBytes m done ++ encode part.instr := by
  rw [payloadBytes, payloadBytes, chunkBytes_append, ← List.append_assoc, chunkBytes_cons]
  exact congrArg _ (List.append_nil _)

/-- The flag after two parts of a stream: set where either has an odd offset (R99). -/
theorem status_anyOdd_append (v : BitVec 16) (xs ys : List ChunkRecord) :
    (if anyOdd ys then statusWarnOdd (if anyOdd xs then statusWarnOdd v else v)
      else if anyOdd xs then statusWarnOdd v else v) = if anyOdd (xs ++ ys) then statusWarnOdd v else v := by
  have happend : anyOdd (xs ++ ys) = (anyOdd xs || anyOdd ys) := List.any_append
  rw [happend]
  cases anyOdd xs <;> cases anyOdd ys <;> simp [statusWarnOdd_twice]

section Room
variable {s : State} {done : List ChunkRecord} (hwf : ∀ k ∈ done, k.instr.wf = true) {n : Nat}
  (hroom : StreamRoom s (done.length + n))
include hwf hroom

/-- The counters after whole chunks, by their numbers. -/
theorem counters_chunksRead (slb : PixelMem) :
    (s.chunksRead done slb).cur.toNat = (streamEnd s.scanLineLen.toNat s.cur.toNat s.prec.toNat done).1 ∧
      (s.chunksRead done slb).prec.toNat = (streamEnd s.scanLineLen.toNat s.cur.toNat s.prec.toNat done).2 := by
  obtain ⟨hprec, hcur⟩ := streamEnd_bounds s.scanLineLen.toNat s.cur.toNat s.prec.toNat hwf
  have hprec' := hroom.prec
  have hcur' := hroom.cur
  exact ⟨(BitVec.toNat_ofNat _ _).trans (Nat.mod_eq_of_lt (by omega)),
    (BitVec.toNat_ofNat _ _).trans (Nat.mod_eq_of_lt (by omega))⟩

theorem streamRoom_chunksRead (slb : PixelMem) : StreamRoom (s.chunksRead done slb) n := by
  obtain ⟨hprec, hcur⟩ := streamEnd_bounds s.scanLineLen.toNat s.cur.toNat s.prec.toNat hwf
  obtain ⟨hcount, hcount'⟩ := counters_chunksRead hwf hroom slb
  have hprec' := hroom.prec
  have hcur' := hroom.cur
  constructor <;> omega

theorem chunksRead_append (slb slb' : PixelMem) (more : List ChunkRecord) :
    (s.chunksRead done slb).chunksRead more slb' = s.chunksRead (done ++ more) slb' := by
  obtain ⟨hcur, hprec⟩ := counters_chunksRead hwf hroom slb
  have hnchunk : s.nchunk - BitVec.ofNat 17 done.length - BitVec.ofNat 17 more.length =
      s.nchunk - BitVec.ofNat 17 (done.length + more.length) := by rw [BitVec.ofNat_add, sub_sub]
  rw [State.chunksRead, hcur, hprec]
  simp only [State.chunksRead, status_anyOdd_append, streamEnd_append, ofNat_toNat_add, chunkBytes_append,
    List.length_append, hnchunk, Nat.add_assoc]

end Room

/-! ### The first word that cannot be fetched (R64, R200) -/

theorem withSp_eq_self {s : State} {a : Nat} (hsp : s.sp.toNat = a) : s.withSp a = s := by
  rw [← hsp, State.withSp, BitVec.ofNat_toNat, BitVec.setWidth_eq]

theorem readU16_stops_at {s : State} {a : Nat} (stage : Stage) (hsp : s.sp.toNat = a)
    (hf : s.readable a 2 = false) : readU16 stage s = .error (s.fieldError stage a 2) s := by
  have hstop := (fetches_readU16 stage).stops_withSp (hsp ▸ s.sp.isLt) hf
  rwa [withSp_eq_self hsp] at hstop

/-- A header word of the chunk at `b` that cannot be fetched: the chunk has changed nothing but `SP` (R193). -/
theorem chunkStep_stops_in_head {s : State} {b h : Nat} (hsp : s.sp.toNat = b) (hh : h ∈ [0, 2])
    (hpre : s.readable b h = true) (hf : s.readable (b + h) 2 = false) :
    chunkStep s = .error (s.fieldError .packedPayload (b + h) 2) (s.withSp (b + h)) := by
  have hsp' : (s.withSp (b + h)).sp.toNat = b + h :=
    toNat_withSp (add_lt_of_readable (hsp ▸ s.sp.isLt) fun _ => hpre)
  have hword := readU16_stops_at .packedPayload hsp' hf
  obtain rfl | rfl : h = 0 ∨ h = 2 := by simpa using hh
  · have hself : s.withSp (b + 0) = s := withSp_eq_self hsp
    rw [hself] at hword ⊢
    exact bind_of_error (bind_of_error hword)
  · have hfirst := readU16_withSp .packedPayload hpre
    rw [withSp_eq_self hsp] at hfirst
    exact bind_of_error ((bind_of_ok hfirst).trans (bind_of_error hword))

/-- A run goes on behind the words it has read. -/
theorem runLoop_of_prefix {k n : Nat} {s t : State} (h : runLoop k s = .ok () t) :
    runLoop (k + n) s = runLoop n t := by
  induction k generalizing s with
  | zero =>
    cases h
    rw [Nat.zero_add]
  | succ k ih =>
    obtain ⟨v, u, hread, hrest⟩ := cmd_bind_ok h
    rw [Nat.succ_add]
    exact (bind_of_ok hread).trans (ih (s := u.withRunPixel v) hrest)

/-- A run longer than the words `px` at `SP`, where the word behind them cannot be fetched (R196). -/
theorem runLoop_stops {s : State} {px : List U16} {n : Nat} (hlen : px.length < n)
    (hcur : s.cur.toNat + px.length < 2 ^ 34) (hr : s.readable s.sp.toNat (2 * px.length) = true)
    (hwords : s.wordsAt s.sp.toNat px.length = px) (hf : s.readable (s.sp.toNat + 2 * px.length) 2 = false) :
    runLoop n s = .error (s.fieldError .packedPayload (s.sp.toNat + 2 * px.length) 2) (s.afterRun px) := by
  obtain ⟨left, rfl⟩ := Nat.exists_eq_add_of_lt hlen
  have hread : runLoop px.length s = .ok () (s.afterRun px) := by
    rw [runLoop_readable hr, hwords, runWords_eq px s hcur]
  have hsp : (s.afterRun px).sp.toNat = s.sp.toNat + 2 * px.length :=
    toNat_withSp (s := s) (add_lt_of_readable s.sp.isLt fun _ => hr)
  rw [Nat.add_assoc, runLoop_of_prefix hread]
  exact bind_of_error (readU16_stops_at .packedPayload hsp hf)

/-- The words of a chunk whose bytes lie at `a` (R94). -/
theorem words_of_chunk_bytes {s : State} {a : Nat} {k : ChunkRecord}
    (h : s.cm.readBytes a (encode k.instr).length = encode k.instr) :
    s.word16At a = k.screenOffset ∧ s.word16At (a + 2) = k.runLength ∧
      s.wordsAt (a + 4) k.pixels.length = k.pixels := by
  obtain ⟨hhead, hpixels⟩ := readBytes_append_parts h
  obtain ⟨hob, hrs⟩ := readBytes_append_parts hhead
  rw [Laws.EncodedLength.length_flatMap_bytes16] at hpixels
  have hread : takeWords k.pixels.length (k.pixels.flatMap bytes16) = some (s.wordsAt (a + 4) k.pixels.length, []) :=
    hpixels ▸ takeWords_readBytes s k.pixels.length (a + 4)
  have htaken : takeWords k.pixels.length (k.pixels.flatMap bytes16 ++ []) = some (k.pixels, []) :=
    takeWords_flatMap_bytes16 k.pixels []
  rw [List.append_nil, hread] at htaken
  exact ⟨word16At_of_bytes hob, word16At_of_bytes hrs, by simpa using htaken⟩

/-- The state with this many chunks and run pixels left (R33). -/
def State.withLeft (s : State) (nchunk nrun : BitVec 17) : State := { s with nchunk := nchunk, nrun := nrun }

/-- The state inside a chunk, behind its two header words and the run pixels read so far: the closed form's counters,
the chunk not yet counted off, and the run pixels left (R193, R200, R203). -/
def State.runBroken (s : State) (part : ChunkRecord) (slb : PixelMem) : State :=
  (s.chunksRead [part] slb).withLeft s.nchunk (BitVec.ofNat 17 (part.runLength.toNat + 1 - part.pixels.length))

/-- The head and the run pixels read so far bring every counter to its place in the closed form. -/
theorem afterRun_eq_runBroken {s : State} {part : ChunkRecord} (hlen : part.pixels.length ≤ part.runLength.toNat) :
    ∃ slb, ((s.withSp (s.sp.toNat + 4)).withChunkHead part.screenOffset part.runLength).afterRun part.pixels =
      s.runBroken part slb := by
  let head := (s.withSp (s.sp.toNat + 4)).withChunkHead part.screenOffset part.runLength
  have hrs := part.runLength.isLt
  have hnrun : BitVec.ofNat 17 (part.runLength.toNat + 1 - part.pixels.length) =
      head.nrun - BitVec.ofNat 17 part.pixels.length :=
    (BitVec.ofNat_sub_ofNat_of_le (part.runLength.toNat + 1) _ (by omega) (by omega)).symm
  have hsp : BitVec.ofNat 34 (s.sp.toNat + (chunkBytes [part]).length) =
      BitVec.ofNat 34 (head.sp.toNat + 2 * part.pixels.length) := by
    have hbytes : (chunkBytes [part]).length = 4 + 2 * part.pixels.length := length_chunkBytes [part]
    rw [hbytes, ← Nat.add_assoc]
    exact (ofNat_toNat_add _ _).symm
  have hcur : BitVec.ofNat 34 (streamEnd s.scanLineLen.toNat s.cur.toNat s.prec.toNat [part]).1 =
      BitVec.ofNat 34 (head.cur.toNat + part.pixels.length) := (ofNat_toNat_add _ _).symm
  have hprec : BitVec.ofNat 33 (streamEnd s.scanLineLen.toNat s.cur.toNat s.prec.toNat [part]).2 =
      BitVec.ofNat 33 (head.prec.toNat + part.pixels.length) := (ofNat_toNat_add _ _).symm
  have hstatus : (if anyOdd [part] then statusWarnOdd s.status else s.status) = head.status :=
    (status_anyOdd_cons s.status part []).symm
  refine ⟨(head.afterRun part.pixels).slb, ?_⟩
  rw [State.runBroken, State.chunksRead, hcur, hprec, hstatus, hnrun, hsp]
  rfl

/-- A run shorter than its head says ends within the width of `CUR` (R40). -/
theorem brokenRun_fits {s : State} {part : ChunkRecord} (hroom : StreamRoom s 1)
    (hlen : part.pixels.length ≤ part.runLength.toNat) (a : Nat) :
    ((s.withSp a).withChunkHead part.screenOffset part.runLength).cur.toNat + part.pixels.length < 2 ^ 34 := by
  obtain ⟨hsum, _⟩ := carry_bounds s.scanLineLen.toNat s.prec.toNat (halfOffset part.screenOffset)
  have hhalf := halfOffset_le part.screenOffset
  have hlt := part.runLength.isLt
  have hroom' := hroom.cur
  have hstart := toNat_cur_withChunkHead (s := s.withSp a) (ob := part.screenOffset) part.runLength
    (by rw [State.withSp_cur, State.withSp_scanLineLen, State.withSp_prec]; omega)
  rw [hstart, State.withSp_cur, State.withSp_scanLineLen, State.withSp_prec]
  omega

/-- The chunk at `b` whose head and first run pixels lie readable, where the word behind them cannot be fetched. -/
theorem chunkStep_stops_in_run {s : State} {b : Nat} {part : ChunkRecord} (hsp : s.sp.toNat = b)
    (hroom : StreamRoom s 1) (hlen : part.pixels.length ≤ part.runLength.toNat)
    (hr : s.readable b (encode part.instr).length = true)
    (hbytes : s.cm.readBytes b (encode part.instr).length = encode part.instr)
    (hf : s.readable (b + (encode part.instr).length) 2 = false) :
    ∃ slb, chunkStep s = .error (s.fieldError .packedPayload (b + (encode part.instr).length) 2)
      (s.runBroken part slb) := by
  obtain ⟨slb, hbroken⟩ := afterRun_eq_runBroken (s := s) hlen
  obtain ⟨hob, hrs, hpixels⟩ := words_of_chunk_bytes hbytes
  rw [length_encode_chunk, ← Nat.add_assoc] at hf ⊢
  rw [length_encode_chunk, readable_add] at hr
  subst hsp
  obtain ⟨hrhead, hrpixels⟩ := hr
  have hhead : s.headRead = (s.withSp (s.sp.toNat + 4)).withChunkHead part.screenOffset part.runLength := by
    rw [State.headRead, hob, hrs]
  have hcount : s.chunkWords = part.runLength.toNat + 1 := by rw [State.chunkWords, hrs, storedCount]
  have hsp := sp_headRead hrhead
  have hrun := runLoop_stops (s := s.headRead) (px := part.pixels) (n := s.chunkWords) (by omega)
    (by rw [hhead]; exact brokenRun_fits hroom hlen _)
    (by rw [hsp]; exact hrpixels) (by rw [hsp]; exact (wordsAt_congr (s := s) (t := s.headRead) rfl _ _).trans hpixels)
    (by rw [hsp]; exact hf)
  rw [hsp, hhead, hbroken, ← hhead] at hrun
  exact ⟨slb, (chunkStep_of_head hrhead).trans (bind_of_error hrun)⟩

/-! ### `PK_DEC` behind the chunks it has read whole (R199, R200) -/

/-- The stream goes on behind the chunks it has read. -/
theorem chunkLoop_of_prefix {k n : Nat} {s t : State} (h : chunkLoop k s = .ok () t) :
    chunkLoop (k + n) s = chunkLoop n t := by
  induction k generalizing s with
  | zero =>
    cases h
    rw [Nat.zero_add]
  | succ k ih =>
    obtain ⟨_, u, hstep, hrest⟩ := cmd_bind_ok h
    rw [Nat.succ_add]
    exact (bind_of_ok hstep).trans (ih hrest)

/-- The packed payload at `PACKED_OFF` begins with this preamble and these whole chunks, and the preamble tells of one
more. -/
structure StreamPrefix (s : State) (m : U16) (done : List ChunkRecord) : Prop where
  count : done.length ≤ m.toNat
  wf : ∀ k ∈ done, k.instr.wf = true
  readable : s.readable s.packedOff.toNat (payloadBytes m done).length = true
  bytes : s.cm.readBytes s.packedOff.toNat (payloadBytes m done).length = payloadBytes m done

/-- `PK_DEC` behind the preamble and these chunks, with this `SLB` (R191, R193). -/
def State.streamRead (s : State) (m : U16) (done : List ChunkRecord) (slb : PixelMem) : State :=
  (s.withPackedStart.preambleRead m).chunksRead done slb

@[simp] theorem readable_streamRead (s : State) (m : U16) (chunks : List ChunkRecord) (slb : PixelMem) (a n : Nat) :
    (s.streamRead m chunks slb).readable a n = s.readable a n := rfl

@[simp] theorem fieldError_streamRead (s : State) (m : U16) (chunks : List ChunkRecord) (slb : PixelMem)
    (stage : Stage) (a n : Nat) : (s.streamRead m chunks slb).fieldError stage a n = s.fieldError stage a n := rfl

@[simp] theorem State.streamRead_cm (s : State) (m : U16) (chunks : List ChunkRecord) (slb : PixelMem) :
    (s.streamRead m chunks slb).cm = s.cm := rfl

theorem toNat_sp_withPackedStart (s : State) : s.withPackedStart.sp.toNat = s.packedOff.toNat :=
  toNat_withSp (s := s) (by have := s.packedOff.isLt; omega)

theorem pkDec_of_body_error {s t : State} {e : Raise} (hok : PackedOk s)
    (h : packedBody s.withPackedStart = .error e t) : pkDec s = .error e (t.loosePm.withWarnOdd s.warnOdd) := by
  have hstart : packedStart s = .ok () s.withPackedStart := (bind_of_ok (packedChecks_ok hok)).trans rfl
  exact (bind_of_ok hstart).trans (payload_error h)

theorem streamRoom_preambleRead (s : State) (m : U16) {n : Nat} (hn : n ≤ 65536) :
    StreamRoom (s.withPackedStart.preambleRead m) n :=
  ⟨show 0 + n * 65536 < 2 ^ 33 by omega, show 0 + 0 + n * (32767 + 2 * 65536) < 2 ^ 34 by omega⟩

/-- `SP` behind a payload's bytes, whether its last chunk is whole or not (R101). -/
theorem sp_streamRead (s : State) (m : U16) (chunks : List ChunkRecord) (slb : PixelMem) :
    (s.streamRead m chunks slb).sp = BitVec.ofNat 34 (s.packedOff.toNat + (payloadBytes m chunks).length) := by
  rw [payloadBytes, List.length_append, ← Nat.add_assoc, ← ofNat_toNat_add, ← toNat_sp_withPackedStart]
  rfl

section Prefix
variable {s : State} {m : U16} {done : List ChunkRecord} (hp : StreamPrefix s m done)
include hp

theorem toNat_sp_streamRead (slb : PixelMem) :
    (s.streamRead m done slb).sp.toNat = s.packedOff.toNat + (payloadBytes m done).length := by
  have hend := add_lt_of_readable (a := s.packedOff.toNat) (by have := s.packedOff.isLt; omega) fun _ => hp.readable
  rw [sp_streamRead, BitVec.toNat_ofNat, Nat.mod_eq_of_lt hend]

theorem streamRoom_streamRead (slb : PixelMem) : StreamRoom (s.streamRead m done slb) 1 := by
  have hcount := hp.count
  have hlt := m.isLt
  exact streamRoom_chunksRead hp.wf (streamRoom_preambleRead s m (by omega)) slb

theorem nchunk_streamRead (slb : PixelMem) :
    (s.streamRead m done slb).nchunk = BitVec.ofNat 17 (m.toNat + 1 - done.length) := by
  have hcount := hp.count
  have hlt := m.isLt
  exact BitVec.ofNat_sub_ofNat_of_le (m.toNat + 1) _ (by omega) (by omega)

/-- Behind whole chunks no run pixel is left. -/
theorem streamRead_eq_withLeft (slb : PixelMem) : s.streamRead m done slb =
    (s.streamRead m done slb).withLeft (BitVec.ofNat 17 (m.toNat + 1 - done.length)) 0 := by
  rw [← nchunk_streamRead hp slb]
  rfl

/-- A chunk broken in its run behind the whole chunks: the closed form goes on into it. -/
theorem runBroken_streamRead (slb slb' : PixelMem) (part : ChunkRecord) :
    (s.streamRead m done slb).runBroken part slb' =
      ((s.streamRead m (done ++ [part]) slb').withLeft (BitVec.ofNat 17 (m.toNat + 1 - done.length))
        (BitVec.ofNat 17 (part.runLength.toNat + 1 - part.pixels.length))).withSp
        (s.packedOff.toNat + (payloadBytes m (done ++ [part])).length) := by
  have hcount := hp.count
  have hlt := m.isLt
  have happend : (s.streamRead m done slb).chunksRead [part] slb' = s.streamRead m (done ++ [part]) slb' :=
    chunksRead_append hp.wf (n := 0) (streamRoom_preambleRead s m (by omega)) slb slb' [part]
  rw [State.runBroken, happend, nchunk_streamRead hp, State.withSp, ← sp_streamRead s m _ slb']
  rfl

/-- A chunk step that raises behind the whole chunks ends `PK_DEC`, with `PM` unspecified and `WARN_ODD` as it was. -/
theorem pkDec_of_chunkStep_error (hok : PackedOk s) :
    ∃ slb, ∀ e t, chunkStep (s.streamRead m done slb) = .error e t →
      pkDec s = .error e (t.loosePm.withWarnOdd s.warnOdd) := by
  obtain ⟨left, hleft⟩ := Nat.exists_eq_add_of_le hp.count
  have hlt := m.isLt
  let start := s.withPackedStart
  have hoff : start.sp.toNat = s.packedOff.toNat := toNat_sp_withPackedStart s
  obtain ⟨hfirst, hbehind⟩ := readBytes_append_parts hp.bytes
  have hr := hp.readable
  rw [payloadBytes, List.length_append, readable_add] at hr
  obtain ⟨hrfirst, hrbehind⟩ := hr
  rw [← hoff] at hfirst hbehind hrfirst hrbehind
  have hpreamble := preambleStep_readable (s := start) hrfirst
  rw [word16At_of_bytes (s := start) hfirst] at hpreamble
  have hsp : (start.preambleRead m).sp.toNat = start.sp.toNat + 2 := toNat_sp_fetch (s := start) hrfirst
  have hnchunk : (start.preambleRead m).nchunk.toNat = done.length + (left + 1) := by
    rw [← Nat.add_assoc, ← hleft]
    exact toNat_ofNat_storedCount m
  obtain ⟨slb, hloop, _⟩ := chunkLoop_of_bytes done (s := start.preambleRead m) hp.wf
    (by rw [hsp]; exact hrbehind) (by rw [hsp]; exact hbehind) (streamRoom_preambleRead s m (by omega)) rfl rfl
  refine ⟨slb, fun e t hstop => pkDec_of_body_error hok ?_⟩
  have hchunks : chunkLoop (start.preambleRead m).nchunk.toNat (start.preambleRead m) = .error e t := by
    rw [hnchunk, chunkLoop_of_prefix hloop]
    exact bind_of_error hstop
  exact (bind_of_ok hpreamble).trans ((bind_of_ok (cmd_get _)).trans (bind_of_error hchunks))

end Prefix

/-! ### The state left (R200, R277, D20) -/

/-- `WARN_ODD` as it was, whether an odd offset was met or not (D20). -/
theorem statusWithOdd_of_warned (v : BitVec 16) (odd : Bool) :
    statusWithOdd (if odd then statusWarnOdd v else v) (v.getLsbD 10) = v := by
  cases odd with
  | false => exact statusWithOdd_self v
  | true => exact (statusWithOdd_statusWarnOdd v _).trans (statusWithOdd_self v)

/-- A decode that stopped behind these chunks, the last of them broken or not: the closed form's counters, `SP` at the
word, the chunks and run pixels left, and every cell of `PM` unspecified (R200, R277). -/
theorem loosePm_streamRead (s : State) (m : U16) (chunks : List ChunkRecord) (slb : PixelMem) (nchunk nrun : BitVec 17)
    (a : Nat) :
    (((s.streamRead m chunks slb).withLeft nchunk nrun).withSp a).loosePm.withWarnOdd s.warnOdd =
      { s with
        slb := slb, sp := BitVec.ofNat 34 a
        cur := BitVec.ofNat 34 (streamEnd s.scanLineLen.toNat 0 0 chunks).1
        prec := BitVec.ofNat 33 (streamEnd s.scanLineLen.toNat 0 0 chunks).2
        nchunk := nchunk, nrun := nrun
        pm := { fill := .free s.freeCount, cells := [] }, freeCount := s.freeCount + 1 } := by
  have hstatus : statusWithOdd (((s.streamRead m chunks slb).withLeft nchunk nrun).withSp a).loosePm.status s.warnOdd =
      s.status := statusWithOdd_of_warned s.status (anyOdd chunks)
  have hcur : (s.withPackedStart.preambleRead m).cur.toNat = 0 := rfl
  have hprec : (s.withPackedStart.preambleRead m).prec.toNat = 0 := rfl
  rw [State.withWarnOdd, hstatus, State.streamRead, State.chunksRead, hcur, hprec]
  simp only [State.preambleRead, State.withPackedStart, State.withChunkCount, State.withLeft, State.withSp,
    State.loosePm]

/-- A preamble that cannot be fetched: nothing but the start of the stream has been written (R191, R192). -/
theorem pkDec_stops_at_preamble {s : State} (hok : PackedOk s) (hf : s.readable s.packedOff.toNat 2 = false) :
    pkDec s = .error (s.fieldError .packedPayload s.packedOff.toNat 2) s.withPackedStart.loosePm := by
  have hword : readU16 .packedPayload s.withPackedStart = _ :=
    readU16_stops_at .packedPayload (toNat_sp_withPackedStart s) hf
  rw [pkDec_of_body_error hok (bind_of_error (bind_of_error hword))]
  exact congrArg _ (withWarnOdd_warnOdd s.withPackedStart.loosePm)

/-- Settles O40: the whole chunks run as in the closed form, and the step behind them raises at the one word that cannot
be fetched. -/
theorem pkDecStopsInStream : Obligations.PkDecStopsInStream := by
  unfold Obligations.PkDecStopsInStream
  refine fun s hok =>
    ⟨fun hf => runCommand_error (pkDec_stops_at_preamble hok hf), fun m done hcount hwf => ⟨?_, ?_⟩⟩
  · rintro h hh _ rfl hr hbytes hf
    rw [readable_add] at hr
    have hp : StreamPrefix s m done := ⟨hcount, hwf, hr.1, hbytes⟩
    obtain ⟨slb, hstop⟩ := pkDec_of_chunkStep_error hp hok
    have hchunk := chunkStep_stops_in_head (toNat_sp_streamRead hp slb) hh
      (by rw [readable_streamRead]; exact hr.2) (by rw [readable_streamRead]; exact hf)
    have hrun := hstop _ _ hchunk
    rw [fieldError_streamRead, streamRead_eq_withLeft hp, loosePm_streamRead] at hrun
    exact ⟨slb, runCommand_error hrun⟩
  · rintro part _ hlen rfl hr hbytes hf
    rw [payloadBytes_append_one] at hr hbytes
    rw [payloadBytes_append_one, List.length_append, ← Nat.add_assoc] at hf
    obtain ⟨hdone, hpart⟩ := readBytes_append_parts hbytes
    rw [List.length_append, readable_add] at hr
    have hp : StreamPrefix s m done := ⟨hcount, hwf, hr.1, hdone⟩
    obtain ⟨slb, hstop⟩ := pkDec_of_chunkStep_error hp hok
    obtain ⟨slb', hchunk⟩ := chunkStep_stops_in_run (toNat_sp_streamRead hp slb) (streamRoom_streamRead hp slb) hlen
      (by rw [readable_streamRead]; exact hr.2) (by rw [State.streamRead_cm]; exact hpart)
      (by rw [readable_streamRead]; exact hf)
    rw [fieldError_streamRead, runBroken_streamRead hp, Nat.add_assoc, ← List.length_append,
      ← payloadBytes_append_one] at hchunk
    have hrun := hstop _ _ hchunk
    rw [loosePm_streamRead] at hrun
    exact ⟨slb', runCommand_error hrun⟩

end Sys2Proof.Machine
end

section
/-! The end of every command, undefined codes and `CLR` (R230 to R233). -/

namespace Sys2Proof.Machine

/-! ### The bits of `STATUS` that belong to no error (R42, R260) -/

/-- An error taken keeps the warnings and the reserved bits. -/
theorem getLsbD_status_takeError (s : State) (e : Raise) {k : Nat} (hk : k = 2 ∨ k = 3 ∨ (7 ≤ k ∧ k < 12)) :
    (s.takeError e).status.getLsbD k = s.status.getLsbD k := by
  rw [State.takeError_status, getLsbD_statusEnded _ _ (by omega), if_neg (by omega), if_neg (by omega),
    getLsbD_statusRaised _ _ _ (by omega), if_neg (by omega), if_neg (by omega)]

/-- `CLR` keeps the reserved bits (R233). -/
theorem getLsbD_status_cleared (s : State) {k : Nat} (hk : k = 2 ∨ k = 3 ∨ k = 7 ∨ k = 11) :
    s.clearError.complete.status.getLsbD k = s.status.getLsbD k := by
  rw [State.complete_status, getLsbD_statusEnded _ _ (by omega), if_neg (by omega), if_neg (by omega),
    State.clearError_status, getLsbD_statusCleared _ _ (by omega), if_neg (by omega)]

/-! ### Every command ends (R231) -/

/-- Settles O9: a command runs to its end or a `raise` ends it, and both are completions. -/
theorem everyCommandEnds : Obligations.EveryCommandEnds := by
  unfold Obligations.EveryCommandEnds
  intro i s hformat
  rw [exec_eq_runCommand hformat]
  rcases runCommand_cases (commandBody i) s with ⟨t, _, hrun⟩ | ⟨e, t, _, hrun⟩
  · exact ⟨t.complete, hrun, t.busy_complete, t.done_complete, rfl⟩
  · exact ⟨t.takeError e, hrun, t.busy_takeError e, t.done_takeError e, rfl⟩

/-! ### The turn at a code (R230, R232) -/

/-- Settles O5: with no event to come a step is the unit's turn, which is also what that event does. -/
theorem stepRunsTheCommand : Obligations.StepRunsTheCommand := by
  unfold Obligations.StepRunsTheCommand
  intro s code i rest hbusy hdoing hcode
  refine ⟨fun hagenda => ?_, fun hagenda => ?_⟩
  · exact (step_nil hagenda).trans (unitTurn_command hbusy hdoing hcode)
  · exact (step_cons hagenda).trans (unitTurn_command (s := s.withAgenda rest) hbusy hdoing hcode)

/-- A code outside the table decodes to no command (R96). -/
theorem decode_command_undefined {code : Byte} (h : code ∉ commandCodes.map Prod.fst) :
    decode .command [code] = .error (.undefinedCode code) := by
  have hrow : commandCodes.find? (fun row => row.1 == code) = none :=
    List.find?_eq_none.2 fun row hrow hcode => h (List.mem_map.2 ⟨row, hrow, eq_of_beq hcode⟩)
  have hnone : decodeCommand code = none := by rw [decodeCommand, hrow, Option.map_none]
  simp only [decode, hnone]

/-- Settles O7: the codes named are the table's, and the turn at any other code is the error taken at once. -/
theorem undefinedCodeRaises : Obligations.UndefinedCodeRaises := by
  unfold Obligations.UndefinedCodeRaises
  intro s code hcode hagenda hbusy hdoing
  have hturn := unitTurn_undefined hbusy hdoing (decode_command_undefined hcode)
  exact ⟨s.takeError ⟨.undefinedCode, 0⟩, (step_nil hagenda).trans hturn, rfl, State.err_takeError _ _,
    State.sub_takeError _ _, State.busy_takeError _ _, State.done_takeError _ _,
    fun _ hk => getLsbD_status_takeError s _ hk⟩

/-! ### The way back from an error (R233) -/

theorem exec_clr (s : State) : exec .clr s = .next s.clearError.complete := runCommand_ok (change_apply _ _)

/-- While an error is pending an idle unit takes no code but `CLR`'s (R230). -/
theorem issue_ne_self_iff {s : State} {code : Byte} (hbusy : s.busy = false) (herr : s.err ≠ 0) :
    s.issue code ≠ s ↔ code = 0x0F := by
  refine ⟨fun hne => ?_, fun hcode hself => ?_⟩
  · by_contra hcode
    exact hne (issue_refused herr hcode)
  · rw [issue_accepted hbusy (.inr hcode)] at hself
    have haccepted := State.busy_accepted s code
    rw [hself, hbusy] at haccepted
    cases haccepted

/-- Settles O12: `CLR` is the clearing and the end of a command, and each field is known after both. -/
theorem clrClearsTheLatch : Obligations.ClrClearsTheLatch := by
  unfold Obligations.ClrClearsTheLatch
  refine ⟨rfl, fun s code hbusy herr => issue_ne_self_iff hbusy herr, fun s => ?_⟩
  exact ⟨s.clearError.complete, exec_clr s, rfl,
    (State.err_complete _).trans (State.err_clearError s), (State.sub_complete _).trans (State.sub_clearError s),
    (State.warnHres_complete _).trans (State.warnHres_clearError s),
    (State.warnIres_complete _).trans (State.warnIres_clearError s),
    (State.warnOdd_complete _).trans (State.warnOdd_clearError s),
    State.busy_complete _, State.done_complete _, fun _ hk => getLsbD_status_cleared s hk⟩

end Sys2Proof.Machine
end

section
/-! The per-image sequencer: what `IMG_DEC` and `IMG_ENC` refuse, and the payload command `IMG_DEC` goes on with (R234
to R237). -/

namespace Sys2Proof.Machine

/-! ### The index (R234, R236) -/

theorem checkIndex_pass {s : State} (h : s.idx.toNat < s.imageCount.toNat) : checkIndex s = .ok () s :=
  check_pass _ _ (decide_eq_true h)

theorem checkIndex_fail {s : State} (h : s.imageCount.toNat ≤ s.idx.toNat) :
    checkIndex s = .error ⟨.indexRange, 0⟩ s :=
  check_fail _ _ (decide_eq_false (Nat.not_lt.2 h))

/-! ### What `IMG_ENC` validates (R237) -/

/-- `if CHANNELS != 3: raise ChannelMismatch(0)` (R236). -/
def checkChannels : Cmd Unit := check (fun s => s.channels == 3) .channelMismatch fun _ => 0

/-- The placement's offset fits its field or `raise OffsetOverflow(ihdr_addr(IDX) + 4)` (R236, R265). -/
def checkOffset : Cmd Unit :=
  check (fun s => offsetFits (encOffset s.imageCount s.runpix)) .offsetOverflow fun s => ihdrAddr s.idx + 4

/-- What `IMG_ENC` does behind its validations (R236). -/
def imgEncStores : Cmd Unit := do
  change State.withPlacement
  ihdrPut
  rawEnc
  change State.withCounted

theorem imgEnc_of_index {s : State} (h : s.idx.toNat < s.imageCount.toNat) :
    imgEnc s = (do
      checkChannels
      checkDims
      checkOffset
      imgEncStores) s := bind_of_ok (checkIndex_pass h)

/-- Settles O48: the four validations come first and in this order, and none of them writes. -/
theorem imgEncRefuses : Obligations.ImgEncRefuses := by
  unfold Obligations.ImgEncRefuses
  intro s
  refine ⟨fun hindex => runCommand_error (c := imgEnc) (bind_of_error (checkIndex_fail hindex)), fun hindex => ?_⟩
  have hpass (h : s.channels = 3) : checkChannels s = .ok () s := check_pass _ _ (beq_iff_eq.2 h)
  refine ⟨fun hchannels => ?_, fun hchannels hdims => ?_, fun hchannels hdims hoff => ?_⟩
  · have hfail : checkChannels s = .error ⟨.channelMismatch, 0⟩ s := check_fail _ _ (beq_false_of_ne hchannels)
    exact runCommand_error ((imgEnc_of_index hindex).trans (bind_of_error hfail))
  · have hfail : checkDims s = .error ⟨.badDimension, ihdrAddr s.idx⟩ s := check_fail _ _ hdims
    exact runCommand_error <| (imgEnc_of_index hindex).trans <|
      (bind_of_ok (hpass hchannels)).trans (bind_of_error hfail)
  · have hdimsPass : checkDims s = .ok () s := check_pass _ _ hdims
    have hfail : checkOffset s = .error ⟨.offsetOverflow, ihdrAddr s.idx + 4⟩ s :=
      check_fail _ _ (decide_eq_false (Nat.not_le.2 hoff))
    exact runCommand_error <| (imgEnc_of_index hindex).trans <|
      (bind_of_ok (hpass hchannels)).trans <| (bind_of_ok hdimsPass).trans (bind_of_error hfail)

/-! ### Where `IMG_DEC` ends at the header (R234, R269) -/

/-- A header that cannot be fetched whole, or has no payload, ends `IHDR_GET` in a `raise` (R142). -/
theorem ihdrGet_refused {s : State} (h : s.readable (ihdrAddr s.idx) 12 = false ∨
      (s.word32At (ihdrAddr s.idx + 4) = 0 ∧ s.word32At (ihdrAddr s.idx + 8) = 0)) :
    ∃ e t, ihdrGet s = .error e t := by
  have hbody : ihdrGet s = imageHeaderBody (s.withSp (ihdrAddr s.idx)) := rfl
  cases hr : s.readable (ihdrAddr s.idx) 12 with
  | true =>
    obtain ⟨hu, hp⟩ := h.resolve_left (by simp [hr])
    exact ⟨_, _, (imageHeaderBody_commits hr).trans (commitImageHeader_noPayload hu hp _)⟩
  | false =>
    cases hrun : imageHeaderBody (s.withSp (ihdrAddr s.idx)) with
    | error e t => exact ⟨e, t, hbody.trans hrun⟩
    | ok a t =>
      have haddr : ihdrAddr s.idx < 2 ^ 34 := by
        have := ihdrAddr_le s.idx
        omega
      have hneeds := needs_imageHeaderBody _ _ _ hrun
      rw [toNat_withSp haddr, readable_withSp, hr] at hneeds
      cases hneeds

/-- Settles O46: the index is judged first, and a `raise` inside `IHDR_GET` ends `IMG_DEC` where it stands. -/
theorem imgDecRefuses : Obligations.ImgDecRefuses := by
  unfold Obligations.ImgDecRefuses
  intro s
  refine ⟨fun hindex => ?_, fun hindex hrefused => ?_⟩
  · exact runCommand_error (c := imgDec) (bind_of_error (checkIndex_fail hindex))
  · obtain ⟨e, t, hget⟩ := ihdrGet_refused hrefused
    have hdec : imgDec s = .error e t := (bind_of_ok (checkIndex_pass hindex)).trans (bind_of_error hget)
    exact runCommand_congr (hdec.trans hget.symm)

/-! ### Completion commutes with the updates of the other fields (R23, R231) -/

/-- An update of a field above `BUSY` and `DONE` can come before completion or after it. -/
theorem statusEnded_setField (v : BitVec 16) {lo w : Nat} (x : BitVec w) (hlo : 2 ≤ lo) :
    statusEnded (setField v lo w x) = setField (statusEnded v) lo w x := by
  apply BitVec.eq_of_getLsbD_eq
  intro i hi
  rw [getLsbD_statusEnded _ _ hi, getLsbD_setField _ _ _ _ _ hi, getLsbD_setField _ _ _ _ _ hi,
    getLsbD_statusEnded _ _ hi]
  by_cases hfield : lo ≤ i ∧ i < lo + w
  · rw [if_neg (by omega), if_neg (by omega), if_pos hfield, if_pos hfield]
  · rw [if_neg hfield, if_neg hfield]

theorem statusEnded_twice (v : BitVec 16) : statusEnded (statusEnded v) = statusEnded v := by
  apply BitVec.eq_of_getLsbD_eq
  intro i hi
  rw [getLsbD_statusEnded _ _ hi, getLsbD_statusEnded _ _ hi]
  split_ifs <;> rfl

theorem complete_complete (s : State) : s.complete.complete = s.complete := by
  have hstatus := statusEnded_twice s.status
  rw [State.complete, State.complete_status, hstatus]
  rfl

/-- An error latches the same in a unit that is said to have ended already. -/
theorem takeError_complete (s : State) (e : Raise) : s.complete.takeError e = s.takeError e := by
  have hstatus : statusEnded (statusRaised (statusEnded s.status) e.cause) =
      statusEnded (statusRaised s.status e.cause) := by
    rw [statusRaised, ← statusEnded_setField _ _ (by decide), ← statusEnded_setField _ _ (by decide),
      statusEnded_twice]
    rfl
  rw [State.takeError, State.complete_status, State.complete, hstatus]
  rfl

theorem withChunkHead_complete (s : State) (ob rs : U16) :
    s.complete.withChunkHead ob rs = (s.withChunkHead ob rs).complete := by
  have hstatus : (if oddOffset ob then statusWarnOdd (statusEnded s.status) else statusEnded s.status) =
      statusEnded (if oddOffset ob then statusWarnOdd s.status else s.status) := by
    split
    · exact (statusEnded_setField _ _ (by decide)).symm
    · rfl
  rw [State.withChunkHead, State.complete_status, hstatus]
  rfl

theorem loosePm_withWarnOdd_complete (s : State) (odd : Bool) :
    s.complete.loosePm.withWarnOdd odd = (s.loosePm.withWarnOdd odd).complete := by
  have hstatus : statusWithOdd (statusEnded s.status) odd = statusEnded (statusWithOdd s.status odd) :=
    (statusEnded_setField _ _ (by decide)).symm
  rw [State.withWarnOdd, State.loosePm_status, State.complete_status, hstatus]
  rfl

/-! ### Pieces of pseudocode that do not depend on completion

A piece of `IMG_DEC` runs in a unit that is busy, and the same piece in a command of its own, begun after `IHDR_GET` has
ended, in one that is idle and done. -/

/-- The result of a piece, with its state completed. -/
def resultComplete {α : Type} : EStateM.Result Raise State α → EStateM.Result Raise State α
  | .ok a t => .ok a t.complete
  | .error e t => .error e t.complete

/-- The piece neither reads nor writes what completion writes. -/
def IgnoresEnd {α : Type} (c : Cmd α) : Prop := ∀ s, c s.complete = resultComplete (c s)

/-- Such a piece ends as a command in the same state, whether the unit was completed before it or not. -/
theorem runCommand_complete {c : Cmd Unit} (h : IgnoresEnd c) (s : State) :
    runCommand c s.complete = runCommand c s := by
  rw [runCommand, runCommand, h s]
  cases c s with
  | ok a t => exact congrArg Host.Outcome.next (complete_complete t)
  | error e t => exact congrArg Host.Outcome.next (takeError_complete t e)

theorem ignoresEnd_pure {α : Type} (a : α) : IgnoresEnd (pure a : Cmd α) := fun _ => rfl

theorem IgnoresEnd.bind {α β : Type} {c : Cmd α} {f : α → Cmd β} (hc : IgnoresEnd c) (hf : ∀ a, IgnoresEnd (f a)) :
    IgnoresEnd (c >>= f) := fun s => by
  rw [cmd_bind, cmd_bind, hc s]
  cases c s with
  | ok a t => exact hf a t
  | error e t => rfl

theorem ignoresEnd_get_bind {β : Type} {f : State → Cmd β} (hread : ∀ s : State, f s.complete = f s)
    (hf : ∀ s, IgnoresEnd (f s)) : IgnoresEnd ((get : Cmd State) >>= f) := fun s => by
  rw [cmd_bind, cmd_bind]
  simp only [cmd_get, hread]
  exact hf s s

theorem ignoresEnd_change {f : State → State} (hf : ∀ s, f s.complete = (f s).complete) : IgnoresEnd (change f) :=
  fun s => by rw [change_apply, hf]; rfl

theorem ignoresEnd_seek {target : State → Nat} (h : ∀ s : State, target s.complete = target s) :
    IgnoresEnd (seek target) :=
  ignoresEnd_change fun s => by rw [h]; rfl

theorem ignoresEnd_check {ok : State → Bool} {addr : State → Nat} (cause : Cause)
    (hok : ∀ s, ok s.complete = ok s) (haddr : ∀ s, addr s.complete = addr s) : IgnoresEnd (check ok cause addr) :=
  fun s => by
    rw [check, check, hok, haddr]
    split <;> rfl

theorem ignoresEnd_fetch (stage : Stage) (n : Nat) : IgnoresEnd (fetch stage n) := fun s => by
  rcases fetch_cases stage n s with ⟨hr, hc⟩ | ⟨hs, hc⟩ | ⟨⟨hs, hf⟩, hc⟩ <;> rw [hc]
  · exact fetch_ok (s := s.complete) stage hr
  · exact fetch_short (s := s.complete) stage hs
  · exact fetch_fault (s := s.complete) stage hs hf

theorem ignoresEnd_readU16 (stage : Stage) : IgnoresEnd (readU16 stage) :=
  (ignoresEnd_fetch stage 2).bind fun _ => ignoresEnd_get_bind (fun _ => rfl) fun _ => ignoresEnd_pure _

theorem IgnoresEnd.payload {c : Cmd Unit} (h : IgnoresEnd c) : IgnoresEnd (payload c) := fun s => by
  cases hc : c s with
  | ok a t => rw [payload_ok hc, payload_ok (t := t.complete) (by rw [h s, hc]; rfl)]; rfl
  | error e t =>
    rw [payload_error hc, payload_error (t := t.complete) (by rw [h s, hc]; rfl), State.warnOdd_complete,
      loosePm_withWarnOdd_complete]
    rfl

/-! ### The payload commands (R170, R199) -/

theorem ignoresEnd_withPm (i : Nat) (p : Pixel) : IgnoresEnd (change fun s => s.withPm i p) :=
  ignoresEnd_change fun _ => rfl

theorem ignoresEnd_withRunPixel (v : U16) : IgnoresEnd (change fun s => s.withRunPixel v) :=
  ignoresEnd_change fun _ => rfl

theorem ignoresEnd_checkDims : IgnoresEnd checkDims := ignoresEnd_check _ (fun _ => rfl) fun _ => rfl

theorem ignoresEnd_rawDecLoop (n i : Nat) : IgnoresEnd (rawDecLoop n i) := by
  induction n generalizing i with
  | zero => exact ignoresEnd_pure ()
  | succ n ih => exact (ignoresEnd_readU16 _).bind fun _ => (ignoresEnd_withPm _ _).bind fun _ => ih (i + 1)

theorem ignoresEnd_rawDec : IgnoresEnd rawDec :=
  ignoresEnd_checkDims.bind fun _ => (ignoresEnd_seek fun _ => rfl).bind fun _ =>
    ignoresEnd_get_bind (fun _ => rfl) fun _ => (ignoresEnd_rawDecLoop _ _).payload

theorem ignoresEnd_packedStart : IgnoresEnd packedStart :=
  (ignoresEnd_checkDims.bind fun _ => (ignoresEnd_check _ (fun _ => rfl) fun _ => rfl).bind fun _ =>
    ignoresEnd_check _ (fun _ => rfl) fun _ => rfl).bind fun _ => ignoresEnd_change fun _ => rfl

theorem ignoresEnd_preambleStep : IgnoresEnd preambleStep :=
  (ignoresEnd_readU16 _).bind fun _ => ignoresEnd_change fun _ => rfl

theorem ignoresEnd_runLoop (n : Nat) : IgnoresEnd (runLoop n) := by
  induction n with
  | zero => exact ignoresEnd_pure ()
  | succ n ih => exact (ignoresEnd_readU16 _).bind fun _ => (ignoresEnd_withRunPixel _).bind fun _ => ih

theorem ignoresEnd_chunkStep : IgnoresEnd chunkStep :=
  have hhead : IgnoresEnd chunkHead :=
    (ignoresEnd_readU16 _).bind fun ob => (ignoresEnd_readU16 _).bind fun rs =>
      (ignoresEnd_change fun s => withChunkHead_complete s ob rs).bind fun _ => ignoresEnd_pure _
  hhead.bind fun n => (ignoresEnd_runLoop n).bind fun _ => ignoresEnd_change fun _ => rfl

theorem ignoresEnd_chunkLoop (n : Nat) : IgnoresEnd (chunkLoop n) := by
  induction n with
  | zero => exact ignoresEnd_pure ()
  | succ n ih => exact ignoresEnd_chunkStep.bind fun _ => ih

theorem ignoresEnd_packedBody : IgnoresEnd packedBody :=
  ignoresEnd_preambleStep.bind fun _ => ignoresEnd_get_bind (fun _ => rfl) fun s =>
    (ignoresEnd_chunkLoop s.nchunk.toNat).bind fun _ =>
      ignoresEnd_change fun s => by rw [sliced_eq, sliced_eq]; rfl

theorem ignoresEnd_pkDec : IgnoresEnd pkDec := ignoresEnd_packedStart.bind fun _ => ignoresEnd_packedBody.payload

/-! ### The dispatch (R235) -/

/-- With the unpacked offset 0 the packed path is taken. -/
theorem imgDec_eq_pkDec {s : State} (hindex : s.idx.toNat < s.imageCount.toNat)
    (hr : s.readable (ihdrAddr s.idx) 12 = true) (hunpacked : s.word32At (ihdrAddr s.idx + 4) = 0)
    (hpacked : s.word32At (ihdrAddr s.idx + 8) ≠ 0) : imgDec s = pkDec s.imageHeaderParsed := by
  have hdispatch : imgDec s = payloadByOffset s.imageHeaderParsed :=
    (bind_of_ok (checkIndex_pass hindex)).trans (bind_of_ok (ihdrGet_ok hr (.inr hpacked)))
  rw [hdispatch, payloadByOffset_apply]
  exact congrFun (if_neg (not_not.2 hunpacked)) _

/-- A piece that `IMG_DEC` goes on with ends it as it ends a command of its own, begun after `IHDR_GET`. -/
theorem runCommand_of_imgDec_eq {c : Cmd Unit} {s t u : State} (hc : IgnoresEnd c) (hdec : imgDec s = c t)
    (hu : exec .imgDec s = .next u) : runCommand c t.complete = .next u := by
  have hrun : exec .imgDec s = runCommand c t := by
    show runCommand imgDec s = _
    rw [runCommand, runCommand, hdec]
  rw [runCommand_complete hc, ← hrun, hu]

/-- Settles O44: `IMG_DEC` goes on from the parsed header with the payload command's pseudocode, and `IHDR_GET`'s end
before that command makes no difference to it. -/
theorem imgDecDispatches : Obligations.ImgDecDispatches := by
  unfold Obligations.ImgDecDispatches
  intro s hindex hr hoff
  obtain ⟨u, hu, -⟩ := everyCommandEnds .imgDec s rfl
  refine ⟨s.imageHeaderParsed.complete, u, runCommand_ok (ihdrGet_ok hr hoff), hu, fun hraw => ?_, fun hzero => ?_⟩
  · exact runCommand_of_imgDec_eq ignoresEnd_rawDec (imgDec_eq_rawDec hindex hr hraw) hu
  · have hpacked := hoff.resolve_left (not_not.2 hzero)
    exact runCommand_of_imgDec_eq ignoresEnd_pkDec (imgDec_eq_pkDec hindex hr hzero hpacked) hu

end Sys2Proof.Machine
end

section
/-! What a `raise` writes, and that it ends the command it stands in (R260). -/

namespace Sys2Proof.Machine

/-- What stands behind a `raise` is not executed: the command ends in the state in which the error was raised (R260). -/
theorem runCommand_bind_of_error {c : Cmd Unit} {s t : State} {e : Raise} (after : Unit → Cmd Unit)
    (h : c s = .error e t) : runCommand (c >>= after) s = .next (t.takeError e) :=
  runCommand_error (bind_of_error h)

/-- Settles O11: the fields of `STATUS` after an error taken are known one by one, no other write is left, and the
numbers are those of R261 to R267. -/
theorem raiseWritesExactly : Obligations.RaiseWritesExactly := by
  unfold Obligations.RaiseWritesExactly
  refine ⟨fun s e => ?_, fun c after s t e h => runCommand_bind_of_error after h, rfl, rfl, rfl⟩
  exact ⟨(s.takeError e).status, rfl, State.err_takeError s e, State.sub_takeError s e, State.busy_takeError s e,
    State.done_takeError s e, fun _ hk => getLsbD_status_takeError s e hk⟩

end Sys2Proof.Machine
end
